-- ==== Sys2Proof/Word.lean ====
section
/-! DEFINITION. The words the bridge's lines and buffers carry, and nothing else.
Sizes are those of spec/00_scope.md (Time, Blocks, Addresses) and of R59. -/

namespace Sys2Proof

/-- One byte of a frame. -/
abbrev Byte := BitVec 8

/-- 512 bytes: the block of a request and the quarter of a sector. Byte 0 is the most significant. -/
abbrev Block := BitVec 4096

/-- A value of the millisecond clock: a 32-bit count that wraps to 0. -/
abbrev Clock := BitVec 32

/-- The four quarters of one 2048-byte sector, quarter 0 first. -/
abbrev Quad := Vector Block 4

/-- A subset of the quarters of a sector: bit `n` stands for quarter `n`. -/
abbrev QSet := BitVec 4

/-- The index of one of the 32 sector buffers (R59). -/
abbrev BufIdx := Fin 32

/-- An originator, 0-3. -/
abbrev Originator := Fin 4

/-- A tag, 0-15. -/
abbrev Tag := Fin 16

/-- An originator and a tag: together they name one outstanding request (R35). -/
structure Key where
  orig : Originator
  tag  : Tag
deriving DecidableEq, Repr

end Sys2Proof
end

