-- ==== Sys2Proof/Syntax.lean ====
section
/-! DEFINITION. The commands the bridge takes: one constructor of `Instr` for each row of
spec/opcode_table.json, with the operands that the row's event carries. -/

namespace Sys2Proof

/-! ### What the cartridge's sectors carry -/

/-- One zone of the zone table (R6). -/
structure ZoneEntry where
  first           : Nat
  sectorsPerTrack : Nat
  userTracks      : Nat
  spareTracks     : Nat
deriving DecidableEq, Repr, Inhabited

/-- The label sector as named fields (R5). The zone count is the length of the zone table. -/
structure Label where
  formatMark   : BitVec 32
  sectorSize   : Nat
  serial       : BitVec 32
  name         : List Byte
  controlCount : Nat
  zones        : List ZoneEntry
deriving DecidableEq, Repr, Inhabited

/-- Why a defect map entry exists (R11). -/
inductive Origin where
  | factory | verify | relocate | retired | lost
deriving DecidableEq, Repr, Inhabited

/-- One entry slot as it stands on the cartridge: an origin that is none of the five of R11 is `none`. -/
structure EntrySlot where
  defective : Nat
  spare     : Option Nat
  origin    : Option Origin
deriving DecidableEq, Repr, Inhabited

/-- One map sector as named fields (R13). Slots past `entryCount` are unused. -/
structure MapSector where
  generation : BitVec 32
  index      : Nat
  entryCount : Nat
  slots      : List EntrySlot
deriving DecidableEq, Repr, Inhabited

/-- The 2048 bytes of one sector: a user sector as its four quarters, a control sector as the named fields
the manual gives it (spec/00_scope.md: the cartridge formats "are given as named fields"). -/
inductive SectorData where
  | user  (q : Quad)
  | label (l : Label)
  | map   (m : MapSector)
deriving DecidableEq, Repr, Inhabited

/-! ### Orders and completions (R83, R84) -/

/-- The kind of a mechanism order, in the order of R83. -/
inductive OrderKind where
  | read | erase | write | verify | spinUp | spinDown | eject
deriving DecidableEq, Repr

/-- The outcome of one sector of a run. A GOOD sector of a READ or VERIFY carries the bytes read. -/
inductive SectorOutcome where
  | good (data : Option SectorData)
  | noId
  | dataError
  | writeFault
deriving DecidableEq, Repr

/-- What a completion reports: one outcome per PSA of a run, or GOOD (`true`) or FAILED of a life-cycle order. -/
inductive CompletionResult where
  | run  (sectors : List SectorOutcome)
  | life (good : Bool)
deriving DecidableEq, Repr

/-! ### Frames -/

/-- The header fields of a request frame (R172), less its kind, operation code and payload length. -/
structure Header where
  orig  : Originator
  tag   : Tag
  unit  : Fin 16
  block : BitVec 24
  count : BitVec 8
deriving DecidableEq, Repr

/-- The key of the request. -/
def Header.key (h : Header) : Key := ⟨h.orig, h.tag⟩

/-- One item of a parameter list (R174). -/
structure Item where
  code  : Byte
  value : List Byte
deriving DecidableEq, Repr

/-- The line condition of the downstream link (R164). -/
inductive LineState where
  | up | down
deriving DecidableEq, Repr

/-- The commands, in the order of spec/opcode_table.json. -/
inductive Instr where
  /-- POWER_ON_RESET (R171): what the presence line reports (absent, or a cartridge with its write-protect tab
  set or not) and the downstream line condition. -/
  | powerOnReset (presence : Option Bool) (line : LineState)
  /-- LINK_RESET (R169): the upstream link reset condition begins. -/
  | linkReset
  /-- LINK_RESET_END (R170): the upstream link reset condition ends. -/
  | linkResetEnd
  /-- BAD_CHECK_FRAME (R157), with the bytes of the frame. -/
  | badCheckFrame (frame : List Byte)
  /-- MALFORMED_FRAME (R158), with the bytes of the frame. -/
  | malformedFrame (frame : List Byte)
  /-- UNKNOWN_OPERATION (R38), with the frame's operation code. -/
  | unknownOperation (h : Header) (code : Byte)
  /-- READ (R42). -/
  | read (h : Header)
  /-- WRITE (R74), with the blocks of its payload. -/
  | write (h : Header) (data : List Block)
  /-- FLUSH (R50). -/
  | flush (h : Header)
  /-- SENSE (R51). -/
  | sense (h : Header)
  /-- ABORT (R52): the block field carries the target tag. -/
  | abort (h : Header)
  /-- IDENTIFY (R184). The items are the parameter list of the frame; so in every operation below. -/
  | identify (h : Header) (items : List Item)
  /-- READ_SETTINGS (R181). -/
  | readSettings (h : Header) (items : List Item)
  /-- SET_SETTINGS (R180). -/
  | setSettings (h : Header) (items : List Item)
  /-- READ_WINDOW (R29). -/
  | readWindow (h : Header) (items : List Item)
  /-- WRITE_WINDOW (R27). -/
  | writeWindow (h : Header) (items : List Item)
  /-- READ_CLASS (R34). -/
  | readClass (h : Header) (items : List Item)
  /-- WRITE_CLASS (R34). -/
  | writeClass (h : Header) (items : List Item)
  /-- LOCK_REQUEST (R177). -/
  | lockRequest (h : Header) (items : List Item)
  /-- LOCK_RELEASE (R178). -/
  | lockRelease (h : Header) (items : List Item)
  /-- LOCK_CANCEL (R179). -/
  | lockCancel (h : Header) (items : List Item)
  /-- LOCK_STATUS (R179). -/
  | lockStatus (h : Header) (items : List Item)
  /-- READ_CARTRIDGE (R184). -/
  | readCartridge (h : Header) (items : List Item)
  /-- READ_ZONES (R184). -/
  | readZones (h : Header) (items : List Item)
  /-- READ_DEFECTS (R184). -/
  | readDefects (h : Header) (items : List Item)
  /-- READ_EXCEPTIONS (R183). -/
  | readExceptions (h : Header) (items : List Item)
  /-- READ_POOL (R185). -/
  | readPool (h : Header) (items : List Item)
  /-- READ_LINK_COUNTS (R185). -/
  | readLinkCounts (h : Header) (items : List Item)
  /-- EJECT (R147), the management operation. -/
  | eject (h : Header) (items : List Item)
  /-- RECOVER (R155). -/
  | recover (h : Header) (items : List Item)
  /-- DISCARD_STRANDED (R186). -/
  | discardStranded (h : Header) (items : List Item)
  /-- TRANSMISSION_END (R160): the last byte of the upstream frame in transmission has been sent. -/
  | transmissionEnd
  /-- FORWARD_TRANSMISSION_END (R163): the forwarded frame in transmission has been sent in full. -/
  | forwardTransmissionEnd
  /-- DOWNSTREAM_FRAME (R165), with the bytes of the frame. -/
  | downstreamFrame (frame : List Byte)
  /-- DOWNSTREAM_LINK_DOWN (R164). -/
  | downstreamLinkDown
  /-- DOWNSTREAM_LINK_UP (R164). -/
  | downstreamLinkUp
  /-- DEADLINE_EXPIRY (R45) of the STREAM READ with this key. -/
  | deadlineExpiry (key : Key)
  /-- PASS_THROUGH_TIMEOUT (R168) of the FORWARDED entry with this key. -/
  | passThroughTimeout (key : Key)
  /-- ORDER_TIMEOUT (R97) of the order in flight. -/
  | orderTimeout
  /-- AGING_EXPIRY (R108) of an OPEN buffer. -/
  | agingExpiry (buffer : BufIdx)
  /-- MAP_WRITE_DELAY_EXPIRY (R133). -/
  | mapWriteDelayExpiry
  /-- SETTLE_EXPIRY (R141). -/
  | settleExpiry
  /-- QUIESCE_EXPIRY (R150). -/
  | quiesceExpiry
  /-- SPIN_DOWN_TIMER_EXPIRY (R146). -/
  | spinDownTimerExpiry
  /-- COMPLETION (R84): order number, kind and outcome. -/
  | completion (number : BitVec 8) (kind : OrderKind) (result : CompletionResult)
  /-- PRESENCE_ON (R141), with the write-protect tab: `true` when it is set. -/
  | presenceOn (tab : Bool)
  /-- PRESENCE_OFF (R153). -/
  | presenceOff
  /-- EJECT_BUTTON (R147). -/
  | ejectButton
  /-- FAULT (R154). -/
  | fault
  /-- SPARE_REQUEST_TAKEN (R128): the Defect Manager takes the spare request of this buffer's job. -/
  | spareRequestTaken (buffer : BufIdx)
  /-- DOWNSTREAM_RESET_RELEASE (R171): the 20 ms of the power-on condition have passed. -/
  | downstreamResetRelease
deriving DecidableEq, Repr

end Sys2Proof
end

