-- ==== Sys2Proof/Decode.lean ====
section
/-! DEFINITION. The commands that a word spells by the bits of spec/opcode_table.json. No row of the table gives
any bits (every row's "fields" is empty and none has "fixed" bits), so no word spells a command. -/

namespace Sys2Proof

/-- The command that the table's bits spell: none, since no row gives bits. -/
def decodeTableWord (_nbits _w : Nat) : Option Instr := none

end Sys2Proof
end

