-- ==== Sys2Proof/Config.lean ====
section
/-! DEFINITION. What the manual leaves to the cartridge's preparation, as free values: nothing in the model can
evaluate them or prove a value of them. The manual gives the control sectors as named fields and states no byte
layout (spec/00_scope.md, "What this manual covers"); log entry 5. Sector data of the expected form never reaches
any of these functions. -/

namespace Sys2Proof

/-- The 2048 bytes of a label sector (free: the manual gives no layout). -/
opaque Config.labelBytes : Label → Quad

/-- The 2048 bytes of a map sector (free: the manual gives no layout). -/
opaque Config.mapBytes : MapSector → Quad

/-- The label fields found in 2048 bytes that were not given as a label (free). -/
opaque Config.labelOfBytes : Quad → Label

/-- The map sector fields found in 2048 bytes that were not given as a map sector (free). -/
opaque Config.mapOfBytes : Quad → MapSector

/-- The data of a GOOD sector whose completion carries none (free; R84 has every GOOD sector of a READ or
VERIFY carry its data, so a well-formed completion never needs it). Log entry 21. -/
opaque Config.absentData : SectorData

/-- The state that READ_POOL reports of its own entry, by the entry's admission number: "its state at the moment of the
report, which is not yet ANSWERED" (R185), and no rule names which of the other seven states of R36 it is (free; numbered
in the order of R36, ANSWERED being 7). Log entry 27. -/
opaque Config.ownEntryState : Nat → Fin 7

end Sys2Proof
end

