-- ==== Sys2Proof/Machine/State.lean ====
section
/-! DEFINITION. What the bridge holds: one structure for each block of spec/00_scope.md ("Blocks"), the queue of
waiting commands, the values after power-on, and the reasons a step can stop. Every field is plain data. -/

namespace Sys2Proof.Machine

/-! ### Names of the manual -/

/-- The operations of R173. `other` is an unknown operation code (R38). -/
inductive Op where
  | read | write | flush | sense | abort
  | identify | readSettings | setSettings | readWindow | writeWindow | readClass | writeClass
  | lockRequest | lockRelease | lockCancel | lockStatus
  | readCartridge | readZones | readDefects | readExceptions | readPool | readLinkCounts
  | eject | recover | discardStranded
  | other (code : Byte)
deriving DecidableEq, Repr

/-- The statuses of R173. `foreign` is a status code of an old unit that the bridge does not use (R165). -/
inductive Status where
  | ok | retryLater | tagInUse | badRequest | notMapped | spansBoundary | readProhibited | writeProhibited
  | writeProtected | mediaLocked | outOfMedia | notReady | mediaChanging | mediaUnusable | mechFault | mediaError
  | writeFailed | deadlineMissed | aborted | notFound | tooLate | passTimeout | mediaGone | lockRequired
  | lockedEntry | outOfRange | inconsistent | inUse | alreadyHeld | notHolder | notPending | cancelled
  | ejectRefused | wrongState
  | foreign (code : Byte)
deriving DecidableEq, Repr

/-- How a window's WRITEs are answered (R17). -/
inductive WriteMode where
  | posted | confirmed
deriving DecidableEq, Repr

/-- The class of a window-routed READ (R32). -/
inductive ReadClass where
  | stream | normal
deriving DecidableEq, Repr

/-! ### Router (R17, R33) -/

/-- The gap of a window: a run of blocks inside its range that it does not claim. -/
structure Gap where
  first : Nat
  count : Nat
deriving DecidableEq, Repr

/-- A window entry (R17). -/
structure Window where
  enabled      : Bool
  unit         : Nat
  first        : Nat
  last         : Nat
  start        : Nat
  gap          : Option Gap
  readAllowed  : Bool
  writeAllowed : Bool
  writeMode    : WriteMode
  locked       : Bool
deriving DecidableEq, Repr

/-- The window entry after power-on (R18). -/
def Window.powerOn : Window :=
  { enabled := false, unit := 0, first := 0, last := 0, start := 0, gap := none, readAllowed := false,
    writeAllowed := false, writeMode := .posted, locked := false }

/-- A run of unit blocks, first to last (R33). -/
structure BlockRange where
  first : Nat
  last  : Nat
deriving DecidableEq, Repr

/-- A class entry (R33). Bit `n` of a set stands for originator or unit `n`. -/
structure ClassEntry where
  enabled  : Bool
  origs    : BitVec 4
  units    : BitVec 15
  range    : Option BlockRange
  deadline : Nat
deriving DecidableEq, Repr

/-- The class entry after power-on (R33). -/
def ClassEntry.powerOn : ClassEntry := { enabled := false, origs := 0, units := 0, range := none, deadline := 5 }

/-- What the Router owns. -/
structure Router where
  windows : Vector Window 16
  classes : Vector ClassEntry 8
deriving DecidableEq, Repr

/-! ### Request Table (R35, R36) -/

/-- The route of a request (R21 to R26, R35). -/
inductive Routing where
  | window (index : Fin 16) (cb : Nat)
  | pass
  | management
  | onBridge (target : Option Tag)
deriving DecidableEq, Repr

/-- The states of an entry, in the order of R36. -/
inductive EntryState where
  | reserving | fetching | awaitCommit | awaitLock | awaitEject | awaitMech | forwarded | answered
deriving DecidableEq, Repr

/-- A request entry (R35). Its key is its place in the table. `pins` are the buffers a READ pins, one for each
sector of its list (R67); `sent` and `passExpiry` are the Through Port's (R163, R168); `seq` is the number of its
admission, which R66, R89 and R182 ask for. -/
structure Entry where
  unit         : Fin 16
  op           : Op
  block        : BitVec 24
  count        : BitVec 8
  routing      : Option Routing
  writeMode    : Option WriteMode
  cls          : Option ReadClass
  deadline     : Option Clock
  state        : EntryState
  sectors      : List Nat
  awaited      : Option (List BufIdx)
  blocksDone   : Nat
  status       : Option Status
  abortPending : Bool
  pins         : List BufIdx
  sent         : Bool
  passExpiry   : Option Clock
  seq          : Nat
deriving DecidableEq, Repr

/-- What the Request Table owns: for each of the 64 keys at most one entry (R35), in ascending order of key. -/
structure RequestTable where
  entries : Vector (Option Entry) 64
  nextSeq : Nat
deriving DecidableEq, Repr

/-! ### Frames waiting and in transmission (R159, R163) -/

/-- The payload of a frame the bridge builds (R40, R174). -/
inductive Payload where
  | none
  | blocks (data : List Block)
  | items  (list : List Item)
deriving DecidableEq, Repr

/-- A frame that leaves upstream: the reply of an entry, a TAG_IN_USE reply, a downstream reply relayed unchanged,
or an attention frame (R161, bit order of R172). -/
inductive OutFrame where
  | reply     (key : Key) (unit : Fin 16) (status : Status) (done : Nat) (payload : Payload)
  | tagInUse  (key : Key) (unit : Fin 16)
  | relayed   (key : Key) (bytes : List Byte)
  | attention (orig : Originator) (events : BitVec 6) (exceptions : Nat)
deriving DecidableEq, Repr

/-- A request frame to be forwarded unchanged: its fields, and the admission number of the entry it belongs to. -/
structure FwdFrame where
  header : Header
  op     : Op
  data   : List Block
  seq    : Nat
deriving DecidableEq, Repr

/-- What the Link Port owns (R157 to R162, R169). -/
structure LinkPort where
  partialRx : List Byte
  resetHeld : Bool
  queue     : List OutFrame
  tx        : Option OutFrame
  badCheck  : Nat
  malformed : Nat
  attnSent  : Nat
deriving DecidableEq, Repr

/-- What the Through Port owns (R163 to R171). `powerHold` is the end of the link reset condition that power-on holds
downstream, while it is held (R171, R175); `linkHold` says that a link reset holds it (R170). -/
structure ThroughPort where
  line      : LineState
  powerHold : Option Clock
  linkHold  : Bool
  partialRx : List Byte
  fifo      : List FwdFrame
  tx        : Option FwdFrame
  stray     : Nat
deriving DecidableEq, Repr

/-! ### Buffer Pool and flush contexts (R59, R70, R105) -/

/-- The states of a buffer, in the order of R59. -/
inductive BufState where
  | free | loading | clean | opened | committing | stranded
deriving DecidableEq, Repr

/-- Where a step of work stands: waiting for the head, in an order, or held back (R70, R105). -/
inductive Stage where
  | pending | inFlight | held
deriving DecidableEq, Repr

/-- A load context (R70), with its pending stamp (R86) and the PSA it was ordered at (R92). -/
structure Load where
  readers   : List Key
  fillNeed  : Bool
  stage     : Stage
  retries   : Nat
  stamp     : Nat
  orderedAt : Option Nat
deriving DecidableEq, Repr

/-- The causes of a flush job, in the order of R105. -/
structure Causes where
  aged      : Bool
  pressure  : Bool
  confirmed : Bool
  flushWait : Bool
  quiesce   : Bool
  relocate  : Bool
deriving DecidableEq, Repr

/-- The phases of a flush job, in the order of R105. -/
inductive Phase where
  | fill | erase | write | verify | remap
deriving DecidableEq, Repr

/-- What a job in REMAP asks the Defect Manager for (R111). -/
inductive SpareRequest where
  | first
  | replace (failed : Nat)
deriving DecidableEq, Repr

/-- A flush context (R105). In FILL the stage is that of the buffer's load, in REMAP there is none: `stage` is
absent in both. -/
structure Flush where
  phase    : Phase
  stage    : Option Stage
  target   : Option Nat
  erased   : Bool
  attempts : Nat
  request  : Option SpareRequest
  causes   : Causes
  stamp    : Nat
deriving DecidableEq, Repr

/-- A buffer record (R59). The pin count is computed from the request entries and the LRU position from the
eviction order, so that each has one home. -/
structure Buffer where
  state     : BufState
  lsn       : Option Nat
  data      : Quad
  valid     : QSet
  dirty     : QSet
  lost      : QSet
  lastWrite : Option Clock
  load      : Option Load
  flush     : Option Flush
  successor : Option BufIdx
  relocate  : Bool
deriving DecidableEq, Repr

/-- The record of a FREE buffer (R59). Its data is not used (log entry 6). -/
def Buffer.free : Buffer :=
  { state := .free, lsn := none, data := Vector.replicate 4 0, valid := 0, dirty := 0, lost := 0, lastWrite := none,
    load := none, flush := none, successor := none, relocate := false }

/-- What the Buffer Pool owns, with the buffers whose eligibility R107 tests within the current step (`testDue`,
empty between steps). -/
structure Pool where
  buffers  : Vector Buffer 32
  resQueue : List Key
  evict    : List BufIdx
  pressure : Bool
  testDue  : List BufIdx
deriving DecidableEq, Repr

/-! ### Head Arbiter (R83, R86, R90, R98) -/

/-- One piece of a run: its owner, and the sector it is for (R83). -/
inductive Piece where
  | load  (buf : BufIdx) (lsn psa : Nat)
  | phase (buf : BufIdx) (lsn psa : Nat)
  | map   (psa : Nat)
  | mount (psa : Nat)
deriving DecidableEq, Repr

/-- The order in flight (R83). A life-cycle order has no pieces. -/
structure Order where
  number : BitVec 8
  kind   : OrderKind
  pieces : List Piece
  data   : List SectorData
  issued : Clock
  expiry : Clock
deriving DecidableEq, Repr

/-- A life-cycle order that is pending: one that the Cartridge Controller asks for (R103), or the SPIN_UP that the spindle
rule makes due (R86, R101). -/
inductive LifeOrder where
  | insertSpinUp | recoverSpinUp | demandSpinUp | spinDown | eject
deriving DecidableEq, Repr

/-- What the Head Arbiter owns, with the life-cycle order that is pending and its stamp, and the stamp of the pending mount
read (R86). -/
structure Arbiter where
  order      : Option Order
  nextNumber : BitVec 8
  stamps     : Nat
  streak     : Nat
  timeouts   : Nat
  life       : Option LifeOrder
  lifeStamp  : Nat
  mountStamp : Nat
deriving DecidableEq, Repr

/-! ### Defect Manager (R11, R126, R132) -/

/-- A defect map entry (R11). -/
structure MapEntry where
  defective : Nat
  spare     : Option Nat
  origin    : Origin
deriving DecidableEq, Repr

/-- The map write states, in the order of R132. -/
inductive MapWriteState where
  | clean | dirty | saving | unsavable
deriving DecidableEq, Repr

/-- The steps of a write-back attempt (R134). -/
inductive MapPass where
  | erase | write | verify
deriving DecidableEq, Repr

/-- The write-back step made pending or in flight (R133, R134), with the generation of the snapshot it saves. -/
structure MapStep where
  pass       : MapPass
  inFlight   : Bool
  stamp      : Nat
  generation : BitVec 32
deriving DecidableEq, Repr

/-- The held map (R126). -/
structure HeldMap where
  entries    : List MapEntry
  generation : BitVec 32
  saved      : BitVec 32
  lastChange : Option Clock
  writeState : MapWriteState
  attempt    : Option Nat
  step       : Option MapStep
deriving DecidableEq, Repr

/-- What the Defect Manager owns: the held map, and the map staging area, which is four sectors (R3). -/
structure DefectManager where
  map     : Option HeldMap
  staging : Vector SectorData 4
deriving DecidableEq, Repr

/-! ### Cartridge Controller (R140) -/

/-- The states of the cartridge record, in the order of R174. -/
inductive CartState where
  | empty | settling | spinup | mounting | ready | quiescing | ejecting | unusable | halted
deriving DecidableEq, Repr

/-- The write states, in the order of R174. -/
inductive WriteState where
  | writable | isProtected | writeLocked
deriving DecidableEq, Repr

/-- The spindle states, in the order of R184. -/
inductive Spindle where
  | spinning | parked
deriving DecidableEq, Repr

/-- The unusable reasons, in the order of R184. -/
inductive Reason where
  | noSpin | badLabel | badZones | mapUnreadable | badMap
deriving DecidableEq, Repr

/-- The two mount reads (R143). -/
inductive MountRead where
  | label | map
deriving DecidableEq, Repr

/-- The mount step with its attempt, 1-4 (R140). -/
structure MountStep where
  read    : MountRead
  attempt : Nat
deriving DecidableEq, Repr

/-- Who asked for an eject (R147). -/
inductive EjectSource where
  | button | management
deriving DecidableEq, Repr

/-- A quiesce (R148). `ending` is yes once a forced expiry has passed while an order is in flight (R150). -/
structure Quiesce where
  source : EjectSource
  forced : Bool
  expiry : Clock
  ending : Bool
deriving DecidableEq, Repr

/-- The cartridge record (R140). The held layout is the accepted label with its zone table (R10). -/
structure CartRecord where
  state        : CartState
  writeState   : Option WriteState
  spindle      : Spindle
  layout       : Option Label
  soft         : Nat
  hard         : Nat
  remaps       : Nat
  relocations  : Nat
  deferred     : Nat
  reason       : Option Reason
  mountStep    : Option MountStep
  ejectWaiting : Option EjectSource
  ejectBegun   : Bool
  quiesce      : Option Quiesce
  settleExpiry : Option Clock
  spinTimer    : Option Clock
deriving DecidableEq, Repr

/-! ### Management Unit (R177, R180, R182) -/

/-- The settings, in the order of R180. Bit `n` of a set stands for its member `n`. -/
structure Settings where
  orderTimeout   : Nat
  passTimeout    : Nat
  writeBackDelay : Nat
  mapWriteDelay  : Nat
  quiesceTimeout : Nat
  settleTime     : Nat
  spinDownDelay  : Nat
  retryLimit     : Nat
  relocThreshold : Nat
  confirmedLimit : Nat
  quiesceSet     : BitVec 4
  buttonForced   : Bool
  passUnits      : BitVec 15
  attnOrig       : Option Originator
  attnEvents     : BitVec 6
deriving DecidableEq, Repr

/-- The settings at power-on (R180). -/
def Settings.powerOn : Settings :=
  { orderTimeout := 3000, passTimeout := 2000, writeBackDelay := 200, mapWriteDelay := 5000, quiesceTimeout := 15000,
    settleTime := 1000, spinDownDelay := 0, retryLimit := 3, relocThreshold := 2, confirmedLimit := 4,
    quiesceSet := 0b1111#4, buttonForced := false, passUnits := 0x7FFF#15, attnOrig := none, attnEvents := 0 }

/-- The exception kinds, in the order of R182. -/
inductive ExceptionKind where
  | readUnrecovered | relocated | remapped | spareExhausted | fillLoss | mapWriteFailed | dataDiscarded | mechTimeout
deriving DecidableEq, Repr

/-- An exception record (R182). -/
structure ExceptionRecord where
  kind        : ExceptionKind
  time        : Clock
  lsn         : Option Nat := none
  psa         : Option Nat := none
  retries     : Option Nat := none
  orig        : Option Originator := none
  tag         : Option Tag := none
  sectorCount : Option Nat := none
deriving DecidableEq, Repr

/-- The six attention events; the place of each is its bit in the attention frame (R172). -/
inductive AttnEvent where
  | cartridgeReady | cartridgeGone | cartridgeUnusable | ejectRefused | exceptionAdded | mechHalted
deriving DecidableEq, Repr

/-- What the Management Unit owns. -/
structure Management where
  settings    : Settings
  holder      : Option Originator
  waiting     : List Originator
  exceptions  : List ExceptionRecord
  overflow    : Nat
  attnPending : BitVec 6
deriving DecidableEq, Repr

/-! ### The bridge and the state -/

/-- Everything the spec gives the bridge. -/
structure Bridge where
  clock  : Clock
  link   : LinkPort
  thru   : ThroughPort
  router : Router
  table  : RequestTable
  pool   : Pool
  arb    : Arbiter
  dm     : DefectManager
  cart   : CartRecord
  mgmt   : Management
deriving DecidableEq, Repr

/-- The map staging area with nothing of use in it (R126): four map sectors with no entry (log entry 28). -/
def unusedStaging : Vector SectorData 4 := Vector.replicate 4 (.map ⟨0, 0, 0, []⟩)

/-- The cartridge record after power-on without presence (R140). -/
def CartRecord.powerOn : CartRecord :=
  { state := .empty, writeState := none, spindle := .parked, layout := none, soft := 0, hard := 0, remaps := 0,
    relocations := 0, deferred := 0, reason := none, mountStep := none, ejectWaiting := none, ejectBegun := false,
    quiesce := none, settleExpiry := none, spinTimer := none }

/-- The bridge after power-on with no cartridge present and the downstream link DOWN (R18, R33, R58, R82, R104,
R124, R126, R140, R171, R187). What the two lines report is an operand of POWER_ON_RESET (log entry 3). -/
def Bridge.powerOn : Bridge :=
  { clock := 0
    link := { partialRx := [], resetHeld := false, queue := [], tx := none, badCheck := 0, malformed := 0, attnSent := 0 }
    thru := { line := .down, powerHold := none, linkHold := false, partialRx := [], fifo := [], tx := none, stray := 0 }
    router := { windows := Vector.replicate 16 Window.powerOn, classes := Vector.replicate 8 ClassEntry.powerOn }
    table := { entries := Vector.replicate 64 none, nextSeq := 0 }
    pool := { buffers := Vector.replicate 32 Buffer.free, resQueue := [], evict := [], pressure := false, testDue := [] }
    arb := { order := none, nextNumber := 0, stamps := 0, streak := 0, timeouts := 0, life := none, lifeStamp := 0, mountStamp := 0 }
    dm := { map := none, staging := unusedStaging }
    cart := CartRecord.powerOn
    mgmt := { settings := Settings.powerOn, holder := none, waiting := [], exceptions := [], overflow := 0, attnPending := 0 } }

/-- The bridge, and the commands that wait for it, first in, first out. -/
structure State where
  bridge  : Bridge
  pending : List Instr
deriving DecidableEq, Repr

/-- The machine right after power-on reset, with no command waiting. -/
def State.reset : State := { bridge := Bridge.powerOn, pending := [] }

/-- The reasons the machine stops with a fault: none. Every command of the bridge has an effect in every state. -/
inductive Fault where
deriving DecidableEq, Repr

/-- The reasons a command is refused. -/
inductive Refusal where
  /-- Raised by no arm of `exec`: it would name a command that has no meaning yet. Safe: the machine stops. -/
  | notModelled (mnemonic : String)
deriving DecidableEq, Repr

end Sys2Proof.Machine
end

