-- ==== Sys2Proof/Machine/Layout.lean ====
section
/-! DEFINITION. The held layout and the defect map as structures: zone arithmetic, tracks, the judging of label,
zone table and map sectors, translation, the search for a free spare, and the changes of an entry
(spec/01_cartridge_layout_and_sector_addressing.md, R127, R129, R130). -/

namespace Sys2Proof.Machine

/-! ### Zones (R6, R8) -/

/-- The number of user sectors of a zone. -/
def zoneUser (z : ZoneEntry) : Nat := z.userTracks * z.sectorsPerTrack

/-- The number of sectors of a zone, spare sectors included. -/
def zoneSize (z : ZoneEntry) : Nat := (z.userTracks + z.spareTracks) * z.sectorsPerTrack

/-- A PSA is a user PSA of the zone (R6). -/
def isUserOf (z : ZoneEntry) (p : Nat) : Bool := z.first ≤ p && p < z.first + zoneUser z

/-- A PSA is a spare PSA of the zone (R6). -/
def isSpareOf (z : ZoneEntry) (p : Nat) : Bool := z.first + zoneUser z ≤ p && p < z.first + zoneSize z

/-- A PSA is of the user class (R1). -/
def isUser (l : Label) (p : Nat) : Bool := l.zones.any (fun z => isUserOf z p)

/-- A PSA is of the spare class (R1). -/
def isSpare (l : Label) (p : Nat) : Bool := l.zones.any (fun z => isSpareOf z p)

/-- The user sector count N (R4). -/
def userCount (l : Label) : Nat := (l.zones.map zoneUser).sum

/-- The first LSN of each zone, C(z) (R8). -/
def firstLsn (l : Label) (z : Nat) : Nat := ((l.zones.take z).map zoneUser).sum

/-- The home PSA of a logical sector over the zones from one on (R8). -/
def homePsaIn : List ZoneEntry → Nat → Option Nat
  | [], _ => none
  | z :: zs, n => if n < zoneUser z then some (z.first + n) else homePsaIn zs (n - zoneUser z)

/-- The home PSA of a logical sector (R8). -/
def homePsa (l : Label) (lsn : Nat) : Option Nat := homePsaIn l.zones lsn

/-- The LSN whose home PSA this is, over the zones from one on, `c` user sectors before them (R8). -/
def homeLsnIn : List ZoneEntry → Nat → Nat → Option Nat
  | [], _, _ => none
  | z :: zs, c, p => if isUserOf z p then some (c + (p - z.first)) else homeLsnIn zs (c + zoneUser z) p

/-- The LSN whose home PSA this is (R8). -/
def homeLsn (l : Label) (p : Nat) : Option Nat := homeLsnIn l.zones 0 p

/-- The number of the zone that holds a PSA, over the zones from number `k` on. -/
def zoneOfIn : List ZoneEntry → Nat → Nat → Option Nat
  | [], _, _ => none
  | z :: zs, k, p => if z.first ≤ p ∧ p < z.first + zoneSize z then some k else zoneOfIn zs (k + 1) p

/-- The number of the zone that holds a PSA. -/
def zoneOf (l : Label) (p : Nat) : Option Nat := zoneOfIn l.zones 0 p

/-- The track of a PSA: the control track is `(0, 0)`, track `t` of zone `z` is `(z + 1, t)` (R2). -/
def trackOf (l : Label) (p : Nat) : Option (Nat × Nat) :=
  if p < l.controlCount then some (0, 0)
  else match zoneOf l p with
    | none => none
    | some z => (l.zones[z]?).map (fun e => (z + 1, (p - e.first) / e.sectorsPerTrack))

/-- Two PSAs are on the same track (R2). -/
def sameTrack (l : Label) (p q : Nat) : Bool := (trackOf l p).isSome && trackOf l p == trackOf l q

/-! ### Judging the label and the zone table (R5, R7) -/

/-- The label passes checks 2 to 5 of R5. -/
def labelOk (l : Label) : Bool :=
  l.formatMark == 0x4E5A3431#32 && l.sectorSize == 2048 && 5 ≤ l.controlCount && l.controlCount ≤ 48
    && l.name.length ≤ 16 && l.name.all (fun c => 0x20 ≤ c.toNat && c.toNat ≤ 0x7E)

/-- The zones from one on are contiguous from PSA `p` and each is within its ranges (R6, R7). -/
def zonesFrom : List ZoneEntry → Nat → Bool
  | [], _ => true
  | z :: zs, p => z.first == p && 16 ≤ z.sectorsPerTrack && z.sectorsPerTrack ≤ 48 && 1 ≤ z.userTracks
      && z.spareTracks ≤ 64 && zonesFrom zs (p + zoneSize z)

/-- The PSA after the last PSA of the layout (R6). -/
def layoutEnd (l : Label) : Nat := l.controlCount + (l.zones.map zoneSize).sum

/-- The zone table passes R7. -/
def zonesOk (l : Label) : Bool :=
  1 ≤ l.zones.length && l.zones.length ≤ 16 && zonesFrom l.zones l.controlCount
    && layoutEnd l - 1 ≤ 16777215 && userCount l ≤ 16777216

/-! ### The defect map (R11 to R16) -/

/-- The entry of a defective PSA. -/
def entryOf (m : List MapEntry) (p : Nat) : Option MapEntry := m.find? (fun e => e.defective == p)

/-- A PSA appears in the map, as a spare or as a defective PSA (R12). -/
def appears (m : List MapEntry) (p : Nat) : Bool := m.any (fun e => e.defective == p || e.spare == some p)

/-- The results of a translation (R15). -/
inductive Translation where
  | home  (psa : Nat)
  | spare (psa : Nat)
  | lost
deriving DecidableEq, Repr

/-- Translate a user PSA through the map (R15). -/
def translatePsa (m : List MapEntry) (p : Nat) : Translation :=
  match entryOf m p with
  | none => .home p
  | some e => match e.spare with
    | some s => .spare s
    | none => .lost

/-- Where a translation sends an order; LOST has no place on the cartridge (R15). -/
def Translation.psa : Translation → Option Nat
  | .home p => some p
  | .spare p => some p
  | .lost => none

/-- The defective PSAs ascend strictly (R12). -/
def ascending : List Nat → Bool
  | a :: b :: rest => a < b && ascending (b :: rest)
  | _ => true

/-- An entry has a spare just when its origin asks for one (R11, R12). -/
def entryShapeOk (e : MapEntry) : Bool :=
  match e.origin with
  | .factory | .verify | .relocate => e.spare.isSome
  | .retired | .lost => e.spare.isNone

/-- The laws of R12. -/
def mapLaws (m : List MapEntry) : Bool :=
  ascending (m.map MapEntry.defective)
    && decide (m.filterMap MapEntry.spare).Nodup
    && m.all (fun e => e.spare.all (fun s => m.all (fun e' => e'.defective != s)))
    && m.all entryShapeOk
    && m.length ≤ 1024

/-- The entry names PSAs of the classes R14 asks for. -/
def entryClassesOk (l : Label) (e : MapEntry) : Bool :=
  (match e.origin with
    | .retired => isSpare l e.defective
    | .factory | .verify | .relocate | .lost => isUser l e.defective)
  && e.spare.all (fun s => isSpare l s)

/-- The entries in use of one map sector: slots 0 to entry count - 1 (R13). -/
def slotsInUse (s : MapSector) : List EntrySlot := s.slots.take s.entryCount

/-- An entry slot as a map entry, when its origin is one of the five (R14). -/
def slotEntry (s : EntrySlot) : Option MapEntry := s.origin.map (fun o => ⟨s.defective, s.spare, o⟩)

/-- Where a sector's entry count is below 256, every later sector's entry count is 0 (R14). -/
def packed : List MapSector → Bool
  | s :: t :: rest => (s.entryCount == 256 || (t :: rest).all (fun u => u.entryCount == 0)) && packed (t :: rest)
  | _ => true

/-- The map that four map sectors carry, when every check of R14 holds. A sector that carries fewer slots than its entry
count is refused (log entry 35). -/
def judgeMap (l : Label) (sectors : List MapSector) : Option (List MapEntry) :=
  let slots := sectors.flatMap slotsInUse
  let entries := slots.filterMap slotEntry
  if sectors.map MapSector.index == [0, 1, 2, 3]
      && sectors.all (fun s => some s.generation == (sectors.head?).map MapSector.generation)
      && sectors.all (fun s => s.entryCount ≤ 256 && s.entryCount ≤ s.slots.length)
      && packed sectors
      && slots.all (fun s => s.origin.isSome)
      && entries.all (entryClassesOk l)
      && mapLaws entries
  then some entries else none

/-- Map sector `k` of a map: the generation, its own index and its share of the entries in index order (R13, R133). R13
leaves the unused slots of the 256 open; the sector holds none of them (log entry 35). -/
def snapshotSector (m : List MapEntry) (generation : BitVec 32) (k : Nat) : MapSector :=
  let part := (m.drop (256 * k)).take 256
  { generation, index := k, entryCount := part.length, slots := part.map (fun e => ⟨e.defective, e.spare, some e.origin⟩) }

/-- The four map sectors of a map, as they stand in the staging area and on the cartridge (R13, R133). -/
def snapshotSectors (m : List MapEntry) (generation : BitVec 32) : Vector SectorData 4 :=
  Vector.ofFn fun k : Fin 4 => .map (snapshotSector m generation k)

/-! ### Spare allocation (R127) -/

/-- The order in which zones are searched from zone `z` of `n`: by distance, the lower number first (R127). -/
def spareZoneOrder (n z : Nat) : List Nat :=
  z :: (List.range n).flatMap fun d =>
    (if d + 1 ≤ z then [z - (d + 1)] else []) ++ (if z + (d + 1) < n then [z + (d + 1)] else [])

/-- The first of `k` PSAs from `p` upward that does not appear in the map. -/
def firstFree (m : List MapEntry) : Nat → Nat → Option Nat
  | 0, _ => none
  | k + 1, p => if appears m p then firstFree m k (p + 1) else some p

/-- The lowest free spare of a zone (R127). -/
def freeSpareOf (m : List MapEntry) (z : ZoneEntry) : Option Nat :=
  firstFree m (zoneSize z - zoneUser z) (z.first + zoneUser z)

/-- The spare that spare allocation chooses for user PSA `u` (R127). -/
def findSpare (l : Label) (m : List MapEntry) (u : Nat) : Option Nat :=
  match zoneOf l u with
  | none => none
  | some z => (spareZoneOrder l.zones.length z).findSome? (fun k => (l.zones[k]?).bind (freeSpareOf m))

/-! ### Changes of the map (R129, R130) -/

/-- Insert an entry at its place in ascending order of defective PSA. -/
def insertEntry (e : MapEntry) : List MapEntry → List MapEntry
  | [] => [e]
  | x :: xs => if e.defective < x.defective then e :: x :: xs else x :: insertEntry e xs

/-- Replace the entry of the same defective PSA. -/
def replaceEntry (e : MapEntry) (m : List MapEntry) : List MapEntry :=
  m.map (fun x => if x.defective == e.defective then e else x)

/-- The map after spare `s` is granted to user PSA `u` with the given origin (R129). -/
def grantEntries (m : List MapEntry) (u s : Nat) (o : Origin) : List MapEntry :=
  match entryOf m u with
  | none => insertEntry ⟨u, some s, o⟩ m
  | some e =>
    let m' := replaceEntry ⟨u, some s, o⟩ m
    match e.spare with
    | none => m'
    | some s0 => insertEntry ⟨s0, none, .retired⟩ m'

/-- The map after user PSA `u` is marked LOST, or `none` when the map does not change (R130). -/
def lostEntries (m : List MapEntry) (u : Nat) : Option (List MapEntry) :=
  let room := decide (m.length < 1024)
  match entryOf m u with
  | none => if room then some (insertEntry ⟨u, none, .lost⟩ m) else none
  | some e =>
    match e.spare with
    | none => none
    | some s0 =>
      let m' := replaceEntry ⟨u, none, .lost⟩ m
      some (if room then insertEntry ⟨s0, none, .retired⟩ m' else m')

end Sys2Proof.Machine
end

