-- ==== Sys2Proof/Machine/Frames.lean ====
section
/-! DEFINITION. The bytes of the storage link: byte order, check word, frame layouts, operation and status codes,
the encoding of parameter items, and the judging of a frame taken whole (R157, R158, R165, R172 to R174). -/

namespace Sys2Proof.Machine

/-! ### Numbers as bytes -/

/-- The number `v` as `n` bytes, most significant byte first (R172). -/
def beBytes (n v : Nat) : List Byte :=
  (List.range n).map fun i => BitVec.ofNat 8 (v >>> (8 * (n - 1 - i)))

/-- The number that a run of bytes spells, most significant byte first (R172, R174). -/
def natOfBytes (l : List Byte) : Nat :=
  l.foldl (fun acc b => acc * 256 + b.toNat) 0

/-- The 512 bytes of a block in order. -/
def blockBytes (b : Block) : List Byte := beBytes 512 b.toNat

/-- Cut a payload into `n` blocks of 512 bytes. -/
def blocksOfBytes : Nat → List Byte → List Block
  | 0, _ => []
  | n + 1, l => BitVec.ofNat 4096 (natOfBytes (l.take 512)) :: blocksOfBytes n (l.drop 512)

/-! ### The check word (R157) -/

/-- Shift one bit out of the check register; generator x^16 + x^12 + x^5 + 1. -/
def crcShift (crc : BitVec 16) : BitVec 16 :=
  if crc.msb then (crc <<< 1) ^^^ 0x1021#16 else crc <<< 1

/-- Take one byte into the check register, most significant bit first. -/
def crcByte (crc : BitVec 16) (b : Byte) : BitVec 16 :=
  (List.range 8).foldl (fun c _ => crcShift c) (crc ^^^ (b.zeroExtend 16 <<< 8))

/-- The check word of a run of bytes: initial value FFFFh (R157). -/
def crc16 (l : List Byte) : BitVec 16 := l.foldl crcByte 0xFFFF#16

/-- A frame with its check word appended, high byte first. -/
def withCheck (body : List Byte) : List Byte := body ++ beBytes 2 (crc16 body).toNat

/-- A frame passes its check word; a frame shorter than 3 bytes has none (R157). -/
def checkOk (frame : List Byte) : Bool :=
  3 ≤ frame.length && frame == withCheck (frame.take (frame.length - 2))

/-! ### Operation and status codes (R173) -/

/-- The code of an operation (R173). -/
def Op.code : Op → Byte
  | .read => 0x01 | .write => 0x02 | .flush => 0x03 | .sense => 0x04 | .abort => 0x05
  | .identify => 0x40 | .readSettings => 0x41 | .setSettings => 0x42 | .readWindow => 0x43
  | .writeWindow => 0x44 | .readClass => 0x45 | .writeClass => 0x46 | .lockRequest => 0x47
  | .lockRelease => 0x48 | .lockCancel => 0x49 | .lockStatus => 0x4A | .readCartridge => 0x4B
  | .readZones => 0x4C | .readDefects => 0x4D | .readExceptions => 0x4E | .readPool => 0x4F
  | .readLinkCounts => 0x50 | .eject => 0x51 | .recover => 0x52 | .discardStranded => 0x53
  | .other c => c

/-- The known operations, in the order of R173. -/
def knownOps : List Op :=
  [.read, .write, .flush, .sense, .abort, .identify, .readSettings, .setSettings, .readWindow, .writeWindow,
   .readClass, .writeClass, .lockRequest, .lockRelease, .lockCancel, .lockStatus, .readCartridge, .readZones,
   .readDefects, .readExceptions, .readPool, .readLinkCounts, .eject, .recover, .discardStranded]

/-- The operation of a code (R173). -/
def opOfCode (c : Byte) : Op := (knownOps.find? (fun o => o.code == c)).getD (.other c)

/-- The operation is one of the management operations (codes 40h to 53h). -/
def Op.isManagement : Op → Bool
  | .read | .write | .flush | .sense | .abort | .other _ => false
  | .identify | .readSettings | .setSettings | .readWindow | .writeWindow | .readClass | .writeClass | .lockRequest
  | .lockRelease | .lockCancel | .lockStatus | .readCartridge | .readZones | .readDefects | .readExceptions
  | .readPool | .readLinkCounts | .eject | .recover | .discardStranded => true

/-- The code of a status (R173). -/
def Status.code : Status → Byte
  | .ok => 0x00 | .retryLater => 0x01 | .tagInUse => 0x02 | .badRequest => 0x03 | .notMapped => 0x04
  | .spansBoundary => 0x05 | .readProhibited => 0x06 | .writeProhibited => 0x07 | .writeProtected => 0x08
  | .mediaLocked => 0x09 | .outOfMedia => 0x0A | .notReady => 0x0B | .mediaChanging => 0x0C
  | .mediaUnusable => 0x0D | .mechFault => 0x0E | .mediaError => 0x0F | .writeFailed => 0x10
  | .deadlineMissed => 0x11 | .aborted => 0x12 | .notFound => 0x13 | .tooLate => 0x14 | .passTimeout => 0x15
  | .mediaGone => 0x16 | .lockRequired => 0x17 | .lockedEntry => 0x18 | .outOfRange => 0x19
  | .inconsistent => 0x1A | .inUse => 0x1B | .alreadyHeld => 0x1C | .notHolder => 0x1D | .notPending => 0x1E
  | .cancelled => 0x1F | .ejectRefused => 0x20 | .wrongState => 0x21
  | .foreign c => c

/-- The statuses of R173 in the order of their codes. -/
def knownStatuses : List Status :=
  [.ok, .retryLater, .tagInUse, .badRequest, .notMapped, .spansBoundary, .readProhibited, .writeProhibited,
   .writeProtected, .mediaLocked, .outOfMedia, .notReady, .mediaChanging, .mediaUnusable, .mechFault, .mediaError,
   .writeFailed, .deadlineMissed, .aborted, .notFound, .tooLate, .passTimeout, .mediaGone, .lockRequired,
   .lockedEntry, .outOfRange, .inconsistent, .inUse, .alreadyHeld, .notHolder, .notPending, .cancelled,
   .ejectRefused, .wrongState]

/-- The status of a code; a code the bridge does not use is kept as it is (R165). -/
def statusOfCode (c : Byte) : Status := (knownStatuses.find? (fun s => s.code == c)).getD (.foreign c)

/-! ### Parameter items (R174) -/

/-- The bytes of an item: its code, its length, its value. -/
def itemBytes (it : Item) : List Byte := it.code :: BitVec.ofNat 8 it.value.length :: it.value

/-- The bytes of a parameter list. -/
def itemListBytes (l : List Item) : List Byte := l.flatMap itemBytes

/-- Read a parameter list that fills its payload exactly; `none` when it does not (R174). The first argument
bounds the number of items. -/
def parseItems : Nat → List Byte → Option (List Item)
  | _, [] => some []
  | n + 1, code :: len :: rest =>
    if rest.length < len.toNat then none
    else (parseItems n (rest.drop len.toNat)).map (fun l => ⟨code, rest.take len.toNat⟩ :: l)
  | _, _ => none

/-- A number item of `n` bytes, most significant byte first (R174); a set item too (a set of 2 bytes: log entry 39). -/
def numItem (code n v : Nat) : Item := ⟨BitVec.ofNat 8 code, beBytes n v⟩

/-- A number item of `n` bytes that is left out when its content is absent (R184). -/
def optItem (code n : Nat) (v : Option Nat) : List Item := (v.map (numItem code n)).toList

/-- A yes/no item. -/
def boolItem (code : Nat) (v : Bool) : Item := numItem code 1 v.toNat

/-- A compound item: its value is itself a parameter list (R174). -/
def compoundItem (code : Nat) (l : List Item) : Item := ⟨BitVec.ofNat 8 code, itemListBytes l⟩

/-- A list item: one byte per member. -/
def listItem (code : Nat) (l : List Nat) : Item := ⟨BitVec.ofNat 8 code, l.map (BitVec.ofNat 8)⟩

/-- A pair item, of length 0 for "none" (R174). -/
def pairItem (code : Nat) (p : Option (Nat × Nat)) : Item :=
  ⟨BitVec.ofNat 8 code, match p with
    | none => []
    | some (a, b) => beBytes 3 a ++ beBytes 3 b⟩

/-! ### Frames out of the bridge (R172) -/

/-- The bytes of a payload. -/
def payloadBytes : Payload → List Byte
  | .none => []
  | .blocks data => data.flatMap blockBytes
  | .items list => itemListBytes list

/-- The bytes of a reply frame the bridge builds. -/
def replyBytes (key : Key) (unit : Fin 16) (status : Status) (done : Nat) (payload : List Byte) : List Byte :=
  withCheck ([0x02, BitVec.ofNat 8 key.orig, BitVec.ofNat 8 key.tag, BitVec.ofNat 8 unit, status.code,
    BitVec.ofNat 8 done] ++ beBytes 2 payload.length ++ payload)

/-- The bytes of a frame that leaves upstream; a relayed frame keeps the check word it came with (R160). -/
def outFrameBytes : OutFrame → List Byte
  | .reply key unit status done payload => replyBytes key unit status done (payloadBytes payload)
  | .tagInUse key unit => replyBytes key unit .tagInUse 0 []
  | .relayed _ bytes => bytes
  | .attention orig events n => withCheck [0x03, BitVec.ofNat 8 orig, events.zeroExtend 8, BitVec.ofNat 8 n]

/-- The bytes of a request frame. -/
def requestBytes (h : Header) (op : Op) (payload : List Byte) : List Byte :=
  withCheck ([0x01, BitVec.ofNat 8 h.orig, BitVec.ofNat 8 h.tag, BitVec.ofNat 8 h.unit, op.code]
    ++ beBytes 3 h.block.toNat ++ [h.count] ++ beBytes 2 payload.length ++ payload)

/-- The bytes of a forwarded frame: exactly those it was received with (R163). -/
def fwdFrameBytes (f : FwdFrame) : List Byte := requestBytes f.header f.op (f.data.flatMap blockBytes)

/-! ### Judging an upstream frame (R157, R158) -/

/-- The byte at a place of a frame, 0 past its end. -/
def byteAt (frame : List Byte) (i : Nat) : Byte := frame.getD i 0

/-- The header fields of a request frame (R172). -/
def headerOf (frame : List Byte) : Header :=
  { orig := Fin.ofNat 4 (byteAt frame 1).toNat
    tag := Fin.ofNat 16 (byteAt frame 2).toNat
    unit := Fin.ofNat 16 (byteAt frame 3).toNat
    block := BitVec.ofNat 24 (natOfBytes ((frame.drop 5).take 3))
    count := byteAt frame 8 }

/-- The count test of R38. -/
def countOk (op : Op) (count : Nat) : Bool :=
  match op with
  | .read | .write => 1 ≤ count && count ≤ 32
  | _ => count == 0

/-- The form of a request frame apart from the fit of its payload (R158). -/
def requestFormOk (frame : List Byte) : Bool :=
  byteAt frame 0 == 0x01 && 13 ≤ frame.length && frame.length ≤ 16397
    && (byteAt frame 1).toNat ≤ 3 && (byteAt frame 2).toNat ≤ 15 && (byteAt frame 3).toNat ≤ 15
    && natOfBytes ((frame.drop 9).take 2) == frame.length - 13

/-- The command that a management operation's frame spells. -/
def managementCommand (op : Op) (h : Header) (items : List Item) : Option Instr :=
  match op with
  | .identify => some (.identify h items)
  | .readSettings => some (.readSettings h items)
  | .setSettings => some (.setSettings h items)
  | .readWindow => some (.readWindow h items)
  | .writeWindow => some (.writeWindow h items)
  | .readClass => some (.readClass h items)
  | .writeClass => some (.writeClass h items)
  | .lockRequest => some (.lockRequest h items)
  | .lockRelease => some (.lockRelease h items)
  | .lockCancel => some (.lockCancel h items)
  | .lockStatus => some (.lockStatus h items)
  | .readCartridge => some (.readCartridge h items)
  | .readZones => some (.readZones h items)
  | .readDefects => some (.readDefects h items)
  | .readExceptions => some (.readExceptions h items)
  | .readPool => some (.readPool h items)
  | .readLinkCounts => some (.readLinkCounts h items)
  | .eject => some (.eject h items)
  | .recover => some (.recover h items)
  | .discardStranded => some (.discardStranded h items)
  | .read | .write | .flush | .sense | .abort | .other _ => none

/-- The command that a request frame of good form spells, or `none` when its payload does not fit (R158). A frame
whose count fails R38 is not judged for payload fit. -/
def requestCommand (op : Op) (h : Header) (payload : List Byte) : Option Instr :=
  let fit := countOk op h.count.toNat
  match op with
  | .read => if fit && payload != [] then none else some (.read h)
  | .write =>
    if fit then
      (if payload.length == h.count.toNat * 512 then some (.write h (blocksOfBytes h.count.toNat payload)) else none)
    else some (.write h [])
  | .flush => if fit && payload != [] then none else some (.flush h)
  | .sense => if fit && payload != [] then none else some (.sense h)
  | .abort => if fit && payload != [] then none else some (.abort h)
  | .other c => some (.unknownOperation h c)
  | op =>
    if fit then (parseItems payload.length payload).bind (managementCommand op h) else managementCommand op h []

/-- The command that an upstream frame spells when its last byte has been received (R157, R158). -/
def upstreamCommand (frame : List Byte) : Instr :=
  if !checkOk frame then .badCheckFrame frame
  else if !requestFormOk frame then .malformedFrame frame
  else (requestCommand (opOfCode (byteAt frame 4)) (headerOf frame)
    ((frame.drop 11).take (frame.length - 13))).getD (.malformedFrame frame)

/-! ### Judging a downstream frame (R165) -/

/-- What a downstream frame is: discarded and counted as stray, an attention frame of the old units, or a
well-formed reply. -/
inductive DownFrame where
  | stray
  | attention
  | reply (key : Key) (unit : Fin 16) (status : Byte) (done : Nat)
deriving DecidableEq, Repr

/-- Judge a downstream frame for check word, form and kind, in that order (R165). A reply longer than the largest frame of
R175 fails its form (log entry 36). -/
def judgeDownstream (frame : List Byte) : DownFrame :=
  if !checkOk frame then .stray
  else if byteAt frame 0 == 0x02 then
    (if 10 ≤ frame.length && frame.length ≤ 16394 && (byteAt frame 1).toNat ≤ 3 && (byteAt frame 2).toNat ≤ 15
        && (byteAt frame 3).toNat ≤ 15 && natOfBytes ((frame.drop 6).take 2) == frame.length - 10 then
      .reply ⟨Fin.ofNat 4 (byteAt frame 1).toNat, Fin.ofNat 16 (byteAt frame 2).toNat⟩
        (Fin.ofNat 16 (byteAt frame 3).toNat) (byteAt frame 4) (byteAt frame 5).toNat
    else .stray)
  else if byteAt frame 0 == 0x03 && frame.length == 6 then .attention
  else .stray

end Sys2Proof.Machine
end

