-- ==== Sys2Proof/Machine/Operands.lean ====
section
/-! DEFINITION. Reading a command's operands: the blocks and quarters of a request, and the items of a management
request with their lengths, values and ranges (R22, R31, R42, R174, R176). -/

namespace Sys2Proof.Machine

/-! ### Blocks, sectors and quarters (R4, R31, R42) -/

/-- The logical sector of a cartridge block (R4). -/
def lsnOf (cb : Nat) : Nat := cb / 4

/-- The quarter of a cartridge block (R4). -/
def quarterOf (cb : Nat) : Fin 4 := Fin.ofNat 4 cb

/-- The sector list of `n` blocks from cartridge block `cb`, in ascending order (R31). -/
def sectorList (cb n : Nat) : List Nat := List.range' (lsnOf cb) (lsnOf (cb + n - 1) + 1 - lsnOf cb)

/-- The quarters of sector `lsn` that `n` blocks from cartridge block `cb` take in (R42). -/
def neededQuarters (cb n lsn : Nat) : QSet :=
  (List.range 4).foldl (fun acc q => if cb ≤ 4 * lsn + q ∧ 4 * lsn + q < cb + n then acc ||| (1#4 <<< q) else acc) 0

/-- The four quarters of a sector: the full set. -/
def allQuarters : QSet := 0b1111#4

/-- A quarter is in a set. -/
def hasQuarter (s : QSet) (q : Fin 4) : Bool := s.getLsbD q

/-- The number of quarters in a set. -/
def quarterCount (s : QSet) : Nat := ((List.range 4).filter (fun q => s.getLsbD q)).length

/-- The unit blocks of a READ or WRITE: block to block + count - 1 (R21). -/
def blockRun (h : Header) : List Nat := List.range' h.block.toNat h.count.toNat

/-! ### Item lengths (R174, R176) -/

/-- The length of a setting item (R174). -/
def settingLength (code : Nat) : List Nat :=
  if 0x30 ≤ code ∧ code ≤ 0x36 then [2]
  else if 0x37 ≤ code ∧ code ≤ 0x3B then [1]
  else if code = 0x3C then [2]
  else if code = 0x3D ∨ code = 0x3E then [1]
  else []

/-- The lengths a window item may have (R174). -/
def windowLength (code : Nat) : List Nat :=
  if code = 0x12 ∨ code = 0x13 then [3]
  else if code = 0x14 then [4]
  else if code = 0x15 then [0, 6]
  else if 0x10 ≤ code ∧ code ≤ 0x19 then [1]
  else []

/-- The lengths a class item may have (R174). -/
def classLength (code : Nat) : List Nat :=
  if code = 0x20 ∨ code = 0x21 then [1]
  else if code = 0x22 ∨ code = 0x24 then [2]
  else if code = 0x23 then [0, 6]
  else []

/-- The lengths that an item of this code may have in this operation; none when the operation does not take the
code (R176). -/
def takenLengths (op : Op) (code : Nat) : List Nat :=
  match op with
  | .readSettings => if settingLength code = [] then [] else [0]
  | .setSettings => settingLength code
  | .readWindow | .readClass => if code = 0x01 then [1] else []
  | .writeWindow => if code = 0x01 then [1] else windowLength code
  | .writeClass => if code = 0x01 then [1] else classLength code
  | .readDefects => if code = 0x90 then [2] else []
  | .eject => if code = 0x02 then [1] else []
  | _ => []

/-- No item has a code the operation does not take, a wrong length, or a code that appears twice (R176). -/
def itemsOk (op : Op) (items : List Item) : Bool :=
  items.all (fun it => (takenLengths op it.code.toNat).contains it.value.length)
    && decide (items.map Item.code).Nodup

/-- The operation needs the edit lock (R176). -/
def needsLock : Op → Bool
  | .setSettings | .writeWindow | .writeClass | .discardStranded => true
  | _ => false

/-! ### Item values -/

/-- The item of a code, if the request carries it. -/
def findItem (items : List Item) (code : Nat) : Option Item := items.find? (fun it => it.code.toNat == code)

/-- The value of an item as a number, most significant byte first (R174). A set is read as the number whose bit n is its member
n; R174 does not say which byte of a 2-byte set carries members 0-7, and here it is the second (log entry 39, DESIGN CHOICE). -/
def itemNat (items : List Item) (code : Nat) : Option Nat := (findItem items code).map (fun it => natOfBytes it.value)

/-- The value of a pair item: `none` when the item is absent, `some none` when it says "none". -/
def itemPair (items : List Item) (code : Nat) : Option (Option (Nat × Nat)) :=
  (findItem items code).map fun it =>
    if it.value = [] then none else some (natOfBytes (it.value.take 3), natOfBytes (it.value.drop 3))

/-- An item is absent, or its value is at most `top`. -/
def atMost (items : List Item) (code top : Nat) : Bool := (itemNat items code).all (fun v => v ≤ top)

/-- An item is absent, or its value lies from `low` to `top`. -/
def within (items : List Item) (code low top : Nat) : Bool := (itemNat items code).all (fun v => low ≤ v && v ≤ top)

/-- The largest unit block, 16,777,215. -/
def topBlock : Nat := 16777215

/-- The largest cartridge block, 67,108,863. -/
def topCb : Nat := 67108863

/-! ### Window entries (R17, R27) -/

/-- The claimed length of a window (R17). -/
def claimedLength (w : Window) : Nat := w.last - w.first + 1 - (w.gap.map Gap.count).getD 0

/-- Each window item present is within its own range (R27, check 3). -/
def windowRangesOk (items : List Item) : Bool :=
  atMost items 0x10 1 && atMost items 0x11 14 && atMost items 0x12 topBlock && atMost items 0x13 topBlock
    && atMost items 0x14 topCb
    && (itemPair items 0x15).all (fun p => p.all (fun g => g.1 ≤ topBlock && 1 ≤ g.2 && g.2 ≤ topBlock))
    && atMost items 0x16 1 && atMost items 0x17 1 && atMost items 0x18 1 && atMost items 0x19 1

/-- The entry that the present items and, for absent items, the entry as it stands form (R27, check 4). -/
def applyWindowItems (items : List Item) (w : Window) : Window :=
  { enabled := ((itemNat items 0x10).map (· == 1)).getD w.enabled
    unit := (itemNat items 0x11).getD w.unit
    first := (itemNat items 0x12).getD w.first
    last := (itemNat items 0x13).getD w.last
    start := (itemNat items 0x14).getD w.start
    gap := ((itemPair items 0x15).map (fun p => p.map (fun g => ⟨g.1, g.2⟩))).getD w.gap
    readAllowed := ((itemNat items 0x16).map (· == 1)).getD w.readAllowed
    writeAllowed := ((itemNat items 0x17).map (· == 1)).getD w.writeAllowed
    writeMode := ((itemNat items 0x18).map (fun v => if v = 0 then WriteMode.posted else .confirmed)).getD w.writeMode
    locked := ((itemNat items 0x19).map (· == 1)).getD w.locked }

/-- A window entry is consistent (R17, R27, check 4). -/
def windowConsistent (w : Window) : Bool :=
  w.first ≤ w.last
    && w.gap.all (fun g => w.first < g.first && g.first + g.count - 1 ≤ w.last)
    && w.start + claimedLength w - 1 ≤ topCb

/-- A window entry is within the ranges of R17. -/
def windowInRange (w : Window) : Bool :=
  w.unit ≤ 14 && w.first ≤ topBlock && w.last ≤ topBlock && w.start ≤ topCb
    && w.gap.all (fun g => g.first ≤ topBlock && 1 ≤ g.count && g.count ≤ topBlock)

/-! ### Class entries (R33, R34) -/

/-- Each class item present is within its own range (R34, check 2). -/
def classRangesOk (items : List Item) : Bool :=
  atMost items 0x20 1 && atMost items 0x21 15 && atMost items 0x22 0x7FFF
    && (itemPair items 0x23).all (fun p => p.all (fun g => g.1 ≤ topBlock && g.2 ≤ topBlock))
    && within items 0x24 5 2000

/-- The entry that the present items and the entry as it stands form (R34, check 3). -/
def applyClassItems (items : List Item) (c : ClassEntry) : ClassEntry :=
  { enabled := ((itemNat items 0x20).map (· == 1)).getD c.enabled
    origs := ((itemNat items 0x21).map (BitVec.ofNat 4)).getD c.origs
    units := ((itemNat items 0x22).map (BitVec.ofNat 15)).getD c.units
    range := ((itemPair items 0x23).map (fun p => p.map (fun g => ⟨g.1, g.2⟩))).getD c.range
    deadline := (itemNat items 0x24).getD c.deadline }

/-- A class entry is consistent (R34, check 3). -/
def classConsistent (c : ClassEntry) : Bool := c.range.all (fun r => r.first ≤ r.last)

/-- A class entry is within the ranges of R33. -/
def classInRange (c : ClassEntry) : Bool :=
  5 ≤ c.deadline && c.deadline ≤ 2000 && c.range.all (fun r => r.first ≤ topBlock && r.last ≤ topBlock)

/-! ### Settings (R180) -/

/-- Each setting item present is within its range (R180, check 1). -/
def settingRangesOk (items : List Item) : Bool :=
  within items 0x30 500 10000 && within items 0x31 100 25000 && atMost items 0x32 5000 && atMost items 0x33 60000
    && within items 0x34 1000 60000 && within items 0x35 250 4000
    && (itemNat items 0x36).all (fun v => v == 0 || (10 ≤ v && v ≤ 3600))
    && atMost items 0x37 7 && within items 0x38 1 7 && within items 0x39 1 16
    && atMost items 0x3A 15 && atMost items 0x3B 1 && atMost items 0x3C 0x7FFF
    && (itemNat items 0x3D).all (fun v => v ≤ 3 || v == 0xFF) && atMost items 0x3E 63

/-- The settings with every item carried taking its new value (R181). -/
def applySettingItems (items : List Item) (s : Settings) : Settings :=
  { orderTimeout := (itemNat items 0x30).getD s.orderTimeout
    passTimeout := (itemNat items 0x31).getD s.passTimeout
    writeBackDelay := (itemNat items 0x32).getD s.writeBackDelay
    mapWriteDelay := (itemNat items 0x33).getD s.mapWriteDelay
    quiesceTimeout := (itemNat items 0x34).getD s.quiesceTimeout
    settleTime := (itemNat items 0x35).getD s.settleTime
    spinDownDelay := (itemNat items 0x36).getD s.spinDownDelay
    retryLimit := (itemNat items 0x37).getD s.retryLimit
    relocThreshold := (itemNat items 0x38).getD s.relocThreshold
    confirmedLimit := (itemNat items 0x39).getD s.confirmedLimit
    quiesceSet := ((itemNat items 0x3A).map (BitVec.ofNat 4)).getD s.quiesceSet
    buttonForced := ((itemNat items 0x3B).map (· == 1)).getD s.buttonForced
    passUnits := ((itemNat items 0x3C).map (BitVec.ofNat 15)).getD s.passUnits
    attnOrig := ((itemNat items 0x3D).map (fun v => if v ≤ 3 then some (Fin.ofNat 4 v) else none)).getD s.attnOrig
    attnEvents := ((itemNat items 0x3E).map (BitVec.ofNat 6)).getD s.attnEvents }

/-- Every setting is within its range (R180). -/
def settingsInRange (s : Settings) : Bool :=
  500 ≤ s.orderTimeout && s.orderTimeout ≤ 10000 && 100 ≤ s.passTimeout && s.passTimeout ≤ 25000
    && s.writeBackDelay ≤ 5000 && s.mapWriteDelay ≤ 60000 && 1000 ≤ s.quiesceTimeout && s.quiesceTimeout ≤ 60000
    && 250 ≤ s.settleTime && s.settleTime ≤ 4000
    && (s.spinDownDelay == 0 || (10 ≤ s.spinDownDelay && s.spinDownDelay ≤ 3600))
    && s.retryLimit ≤ 7 && 1 ≤ s.relocThreshold && s.relocThreshold ≤ 7
    && 1 ≤ s.confirmedLimit && s.confirmedLimit ≤ 16

/-- The setting items (R181), in the order of their codes, which no rule asks for (log entry 32). -/
def settingItems (s : Settings) : List Item :=
  [ numItem 0x30 2 s.orderTimeout, numItem 0x31 2 s.passTimeout, numItem 0x32 2 s.writeBackDelay,
    numItem 0x33 2 s.mapWriteDelay, numItem 0x34 2 s.quiesceTimeout, numItem 0x35 2 s.settleTime,
    numItem 0x36 2 s.spinDownDelay, numItem 0x37 1 s.retryLimit, numItem 0x38 1 s.relocThreshold,
    numItem 0x39 1 s.confirmedLimit, numItem 0x3A 1 s.quiesceSet.toNat, boolItem 0x3B s.buttonForced,
    numItem 0x3C 2 s.passUnits.toNat, numItem 0x3D 1 ((s.attnOrig.map Fin.val).getD 0xFF),
    numItem 0x3E 1 s.attnEvents.toNat ]

/-- The window items of an entry (R29), in the order of their codes, which no rule asks for (log entry 32). -/
def windowItems (w : Window) : List Item :=
  [ boolItem 0x10 w.enabled, numItem 0x11 1 w.unit, numItem 0x12 3 w.first, numItem 0x13 3 w.last,
    numItem 0x14 4 w.start, pairItem 0x15 (w.gap.map (fun g => (g.first, g.count))), boolItem 0x16 w.readAllowed,
    boolItem 0x17 w.writeAllowed, numItem 0x18 1 (match w.writeMode with | .posted => 0 | .confirmed => 1),
    boolItem 0x19 w.locked ]

/-- The class items of an entry (R34), in the order of their codes, which no rule asks for (log entry 32). -/
def classItems (c : ClassEntry) : List Item :=
  [ boolItem 0x20 c.enabled, numItem 0x21 1 c.origs.toNat, numItem 0x22 2 c.units.toNat,
    pairItem 0x23 (c.range.map (fun r => (r.first, r.last))), numItem 0x24 2 c.deadline ]

end Sys2Proof.Machine
end

