-- ==== Sys2Proof/Machine/Access.lean ====
section
/-! DEFINITION. Reading and replacing the parts of the bridge: entries by key, buffers by index, saturating counters,
and the comparisons of the millisecond clock through its wrap (spec/00_scope.md, Time). -/

namespace Sys2Proof.Machine

/-! ### The clock -/

/-- The clock has reached an expiry: it is at it, or less than half the clock's range past it. Every delay of the
manual is far below half the range, so the comparison is made through the wrap without ambiguity. -/
def reached (now expiry : Clock) : Bool := (now - expiry).toNat < 2 ^ 31

/-- The milliseconds since a moment, through the wrap of the clock. -/
def elapsed (now since : Clock) : Nat := (now - since).toNat

/-- How far an expiry lies ahead of the clock; negative once it has passed (R66, R89). -/
def ahead (now expiry : Clock) : Int := (expiry - now).toInt

/-- The clock value a number of milliseconds ahead. -/
def later (now : Clock) (ms : Nat) : Clock := now + BitVec.ofNat 32 ms

/-- A saturating counter raised by 1 (spec/00_scope.md, Numbers and ranges). -/
def satInc (top n : Nat) : Nat := min (n + 1) top

/-! ### Entries and buffers -/

/-- The place of a key in the table: ascending by originator and then by tag (R40). -/
def keyIdx (k : Key) : Fin 64 := ⟨k.orig.val * 16 + k.tag.val, by omega⟩

/-- Every key, in ascending order. -/
def allKeys : List Key := (List.finRange 4).flatMap fun o => (List.finRange 16).map fun t => ⟨o, t⟩

/-- Every buffer index, in ascending order. -/
def allBufs : List BufIdx := List.finRange 32

/-- The entry of a key. -/
def Bridge.entry (b : Bridge) (k : Key) : Option Entry := b.table.entries[keyIdx k]

/-- Put an entry at a key, or remove it. -/
def Bridge.putEntry (b : Bridge) (k : Key) (e : Option Entry) : Bridge :=
  { b with table := { b.table with entries := b.table.entries.set (keyIdx k) e } }

/-- The record of a buffer. -/
def Bridge.buf (b : Bridge) (i : BufIdx) : Buffer := b.pool.buffers[i]

/-- Put the record of a buffer. -/
def Bridge.putBuf (b : Bridge) (i : BufIdx) (x : Buffer) : Bridge :=
  { b with pool := { b.pool with buffers := b.pool.buffers.set i x } }

/-- One operation for each key in ascending order (R40: several answers of one event). -/
def Bridge.forKeys (b : Bridge) (f : Bridge → Key → Bridge) : Bridge := allKeys.foldl f b

/-- One operation for each buffer in ascending index. -/
def Bridge.forBufs (b : Bridge) (f : Bridge → BufIdx → Bridge) : Bridge := allBufs.foldl f b

/-- The keys whose entry satisfies a test, in ascending order. -/
def keysWhere (b : Bridge) (p : Entry → Bool) : List Key := allKeys.filter (fun k => (b.entry k).any p)

/-! ### Pins, presence and the current buffer of a sector (R61, R62) -/

/-- The buffers an entry pins: the reservation of a READ, the awaited buffers of a confirmed WRITE (R62). -/
def Entry.pinned (e : Entry) : List BufIdx := e.pins ++ (if e.op = .write then e.awaited.getD [] else [])

/-- The pin count of a buffer: the number of entries that pin it (R62). -/
def pinCount (b : Bridge) (i : BufIdx) : Nat :=
  (allKeys.filter (fun k => (b.entry k).any (fun e => e.pinned.contains i))).length

/-- The current buffer of a sector: its LOADING, CLEAN, OPEN or STRANDED buffer, and otherwise its COMMITTING
buffer (R61). -/
def currentBuf (b : Bridge) (lsn : Nat) : Option BufIdx :=
  match allBufs.find? (fun i => (b.buf i).lsn == some lsn && (b.buf i).state != .committing) with
  | some i => some i
  | none => allBufs.find? (fun i => (b.buf i).lsn == some lsn && (b.buf i).state == .committing)

/-- The buffer is the successor of a COMMITTING buffer (R76, R119). -/
def isHeldBack (b : Bridge) (i : BufIdx) : Bool :=
  allBufs.any (fun j => (b.buf j).state == .committing && (b.buf j).successor == some i)

/-- A window's cartridge record holds a layout. -/
def layoutOf (b : Bridge) : Option Label := b.cart.layout

/-- The translation of a logical sector: its home PSA sent through the held map (R16). No translation is asked
while no map is held. -/
def translate (b : Bridge) (lsn : Nat) : Option Translation :=
  match b.cart.layout, b.dm.map with
  | some l, some m => (homePsa l lsn).map (translatePsa m.entries)
  | _, _ => none

/-- The home PSA of a logical sector in the held layout. -/
def homeOf (b : Bridge) (lsn : Nat) : Option Nat := b.cart.layout.bind (fun l => homePsa l lsn)

end Sys2Proof.Machine
end

