-- ==== Sys2Proof/Machine/Flags.lean ====
section
/-! DEFINITION. The conditions the bridge computes from its state: availability and pool pressure (R64), the counts
of SENSE and of admission (R39, R51), aging (R108), the causes of flush jobs (R106), the quiesce conditions (R149),
idleness (R102) and the attention test (R161). -/

namespace Sys2Proof.Machine

/-! ### Pool -/

/-- The FREE buffers, in ascending index. -/
def freeBufs (b : Bridge) : List BufIdx := allBufs.filter (fun i => (b.buf i).state == .free)

/-- The available count: FREE buffers and buffers of the eviction order (R64). -/
def availableCount (b : Bridge) : Nat := (freeBufs b).length + b.pool.evict.length

/-- Pool pressure holds while the available count is below 10 (R64). -/
def pressureNow (b : Bridge) : Bool := availableCount b < 10

/-- The buffers of the eviction order whose LSN is not in a sector list (R65, R74). -/
def evictableFor (b : Bridge) (lsns : List Nat) : List BufIdx :=
  b.pool.evict.filter (fun i => !(b.buf i).lsn.any (fun l => lsns.contains l))

/-- The number of buffers available to a READ or WRITE of these sectors (R65, R74). -/
def availableFor (b : Bridge) (lsns : List Nat) : Nat := (freeBufs b).length + (evictableFor b lsns).length

/-- The new-buffer count of a READ (R65). -/
def newBufferCount (b : Bridge) (lsns : List Nat) : Nat := (lsns.filter (fun l => (currentBuf b l).isNone)).length

/-- The number of STRANDED buffers (R79). -/
def strandedCount (b : Bridge) : Nat := (allBufs.filter (fun i => (b.buf i).state == .stranded)).length

/-- The buffer holds dirty data neither committed nor stranded: OPEN, COMMITTING, or LOADING with dirty quarters
(R50, R149). -/
def isUnsaved (x : Buffer) : Bool :=
  x.state == .opened || x.state == .committing || (x.state == .loading && x.dirty != 0)

/-- The buffer holds data not yet committed, STRANDED included (R51, R81). -/
def isDirty (x : Buffer) : Bool := isUnsaved x || x.state == .stranded

/-- The dirty buffer count of SENSE, which is the count that a discard reports (R51, R81). -/
def dirtyCount (b : Bridge) : Nat := (allBufs.filter (fun i => isDirty (b.buf i))).length

/-- No quarter is neither valid nor lost. -/
def isFull (x : Buffer) : Bool := (x.valid ||| x.lost) == allQuarters

/-- The aging expiry of the buffer has been reached: its last write time plus the write-back delay (R108). -/
def agingDue (b : Bridge) (x : Buffer) : Bool :=
  x.lastWrite.any (fun t => b.mgmt.settings.writeBackDelay ≤ elapsed b.clock t)

/-! ### Entries -/

/-- The confirmed WRITEs in AWAIT_COMMIT (R39). -/
def confirmedCount (b : Bridge) : Nat :=
  (keysWhere b (fun e => e.op == .write && e.state == .awaitCommit)).length

/-- Some entry of this operation in AWAIT_COMMIT holds the buffer in its awaited set (R106). -/
def awaitedBy (b : Bridge) (op : Op) (i : BufIdx) : Bool :=
  allKeys.any (fun k => (b.entry k).any (fun e =>
    e.op == op && e.state == .awaitCommit && (e.awaited.getD []).contains i))

/-- A READ in RESERVING or FETCHING, or a confirmed WRITE or FLUSH in AWAIT_COMMIT: the entries a cartridge answer
takes in (R54), and those NO_ACTIVE waits for (R149). -/
def isActive (e : Entry) : Bool := e.state == .reserving || e.state == .fetching || e.state == .awaitCommit

/-! ### Flush jobs (R87, R106) -/

/-- No cause at all. -/
def Causes.none : Causes := ⟨false, false, false, false, false, false⟩

/-- The urgent causes are CONFIRMED, FLUSH_WAIT, PRESSURE and QUIESCE (R87). -/
def isUrgent (c : Causes) : Bool := c.confirmed || c.flushWait || c.pressure || c.quiesce

/-- The cause set of a job is never empty: AGED takes the place of the last cause lost (R106). -/
def Causes.orAged (c : Causes) : Causes := if c = Causes.none then { c with aged := true } else c

/-- The conditions of R106 that hold for a buffer, AGED apart. -/
def causesNow (b : Bridge) (i : BufIdx) : Causes :=
  { aged := false, pressure := b.pool.pressure, confirmed := awaitedBy b .write i, flushWait := awaitedBy b .flush i,
    quiesce := b.cart.state == .quiescing, relocate := (b.buf i).relocate }

/-! ### Quiesce (R149) -/

/-- The quiesce conditions that are met, in the bit order of the condition set. -/
def conditionsMet (b : Bridge) : BitVec 4 :=
  let noDirty := allBufs.all (fun i => !isUnsaved (b.buf i))
  let mapClean := b.dm.map.all (fun m => m.writeState == .clean || m.writeState == .unsavable)
  let noActive := (keysWhere b isActive).isEmpty
  let noStranded := strandedCount b == 0
  BitVec.ofNat 4 (noDirty.toNat + 2 * mapClean.toNat + 4 * noActive.toNat + 8 * noStranded.toNat)

/-- The selected quiesce conditions that are not met. -/
def conditionsUnmet (b : Bridge) : BitVec 4 := b.mgmt.settings.quiesceSet &&& ~~~ conditionsMet b

/-! ### Write state and map -/

/-- The write state is WRITABLE. -/
def isWritable (b : Bridge) : Bool := b.cart.writeState == some .writable

/-- The write state as reported: in READY, QUIESCING, EJECTING and HALTED (R51). -/
def reportedWriteState (b : Bridge) : Option WriteState :=
  match b.cart.state with
  | .ready | .quiescing | .ejecting | .halted => b.cart.writeState
  | .empty | .settling | .spinup | .mounting | .unusable => none

/-- A write-back may start: the map is DIRTY and the cartridge is QUIESCING, or READY with the map write delay
passed since the last change (R133). -/
def mapWriteDue (b : Bridge) (m : HeldMap) : Bool :=
  m.writeState == .dirty
    && (b.cart.state == .quiescing
      || (b.cart.state == .ready
        && m.lastChange.all (fun t => b.mgmt.settings.mapWriteDelay ≤ elapsed b.clock t)))

/-! ### Attention (R161) -/

/-- The bit of an attention event (R172). -/
def AttnEvent.bit : AttnEvent → Nat
  | .cartridgeReady => 0 | .cartridgeGone => 1 | .cartridgeUnusable => 2 | .ejectRefused => 3
  | .exceptionAdded => 4 | .mechHalted => 5

/-- The frame is an attention frame. -/
def OutFrame.isAttention : OutFrame → Bool
  | .attention .. => true
  | .reply .. | .tagInUse .. | .relayed .. => false

/-- An attention frame waits in the queue or is in transmission. -/
def attnWaiting (b : Bridge) : Bool := b.link.queue.any OutFrame.isAttention || b.link.tx.any OutFrame.isAttention

/-- The key of a reply frame waiting or in transmission. -/
def OutFrame.key : OutFrame → Option Key
  | .reply k .. => some k
  | .tagInUse k _ => some k
  | .relayed k _ => some k
  | .attention .. => none

end Sys2Proof.Machine
end

