-- ==== Sys2Proof/Machine/Ops.lean ====
section
/-! DEFINITION. The operations every command shares: pending stamps (R86), attention events and exception records
(R161, R182), withdrawing loads and freeing buffers (R59, R70, R100), answering an entry (R40), taking in a request
(R37, R38), and the transmissions of the two links (R160, R163). -/

namespace Sys2Proof.Machine

/-! ### Stamps (R86) -/

/-- Take the next pending stamp, which is `b.arb.stamps`. Work that becomes pending ends the idleness of the
arbiter, which stops the spin-down timer (R102, R146). -/
def takeStamp (b : Bridge) : Bridge :=
  { b with arb := { b.arb with stamps := b.arb.stamps + 1 }, cart := { b.cart with spinTimer := none } }

/-! ### Attention and exceptions (R161, R182) -/

/-- The test of R161: build an attention frame when the pending set is not empty, the attention originator names an
originator, and no attention frame is waiting or in transmission. -/
def attnTest (b : Bridge) : Bridge :=
  match b.mgmt.settings.attnOrig with
  | none => b
  | some o =>
    if b.mgmt.attnPending != 0 && !attnWaiting b then
      { b with
        link := { b.link with queue := b.link.queue ++ [.attention o b.mgmt.attnPending b.mgmt.exceptions.length] }
        mgmt := { b.mgmt with attnPending := 0 } }
    else b

/-- An attention event occurs: it joins the pending set when it is selected and the attention originator is not
none, and the test of R161 is made (R182). -/
def raiseEvent (b : Bridge) (ev : AttnEvent) : Bridge :=
  if b.mgmt.settings.attnOrig.isSome && b.mgmt.settings.attnEvents.getLsbD ev.bit then
    attnTest { b with mgmt := { b.mgmt with attnPending := b.mgmt.attnPending ||| (1#6 <<< ev.bit) } }
  else b

/-- Record an exception: it joins the list and raises EXCEPTION_ADDED, or it is dropped and counted when the list
holds 32 (R182). -/
def record (b : Bridge) (r : ExceptionRecord) : Bridge :=
  if b.mgmt.exceptions.length < 32 then
    raiseEvent { b with mgmt := { b.mgmt with exceptions := b.mgmt.exceptions ++ [r] } } .exceptionAdded
  else { b with mgmt := { b.mgmt with overflow := satInc 255 b.mgmt.overflow } }

/-! ### Buffers (R59, R63, R70) -/

/-- A CLEAN unpinned buffer joins the newest end of the eviction order (R63). -/
def joinEvict (b : Bridge) (i : BufIdx) : Bridge :=
  if (b.buf i).state = .clean ∧ pinCount b i = 0 ∧ i ∉ b.pool.evict then
    { b with pool := { b.pool with evict := b.pool.evict ++ [i] } }
  else b

/-- A buffer leaves the eviction order (R63). -/
def leaveEvict (b : Bridge) (i : BufIdx) : Bridge :=
  { b with pool := { b.pool with evict := b.pool.evict.filter (· != i) } }

/-- The buffer is to be tested for eligibility in this step (R107). -/
def testLater (b : Bridge) (i : BufIdx) : Bridge :=
  { b with pool := { b.pool with testDue := i :: b.pool.testDue } }

/-- A successor link to the buffer is removed (R81). -/
def unlink (i : BufIdx) (b : Bridge) (j : BufIdx) : Bridge :=
  if (b.buf j).successor = some i then b.putBuf j { b.buf j with successor := none } else b

/-- The buffer becomes FREE: every field takes the value of R59, it leaves the eviction order, and no successor link
points to it. -/
def freeBuf (b : Bridge) (i : BufIdx) : Bridge :=
  leaveEvict ((b.forBufs (unlink i)).putBuf i Buffer.free) i

/-- A PENDING load is withdrawn: its context is removed and its buffer changes as R70 states. -/
def withdrawLoad (b : Bridge) (i : BufIdx) : Bridge :=
  let x := b.buf i
  if x.state = .loading then
    (if x.dirty = 0 then freeBuf b i else testLater (b.putBuf i { x with state := .opened, load := none }) i)
  else b.putBuf i { x with load := none }

/-- Withdraw the buffer's load when it is PENDING with no reader and no fill need (R100). -/
def withdrawUnneeded (b : Bridge) (i : BufIdx) : Bridge :=
  match (b.buf i).load with
  | none => b
  | some l => if l.stage = .pending ∧ l.readers = [] ∧ l.fillNeed = false then withdrawLoad b i else b

/-- Withdraw every load that is no longer needed (R100). -/
def sweepLoads (b : Bridge) : Bridge := b.forBufs withdrawUnneeded

/-- A reader leaves the load context of one buffer (R70). -/
def dropReaderAt (k : Key) (b : Bridge) (i : BufIdx) : Bridge :=
  match (b.buf i).load with
  | none => b
  | some l => b.putBuf i { b.buf i with load := some { l with readers := l.readers.filter (· != k) } }

/-- A reader leaves every load context, and the loads left without need are withdrawn (R70, R100). -/
def dropReader (b : Bridge) (k : Key) : Bridge := sweepLoads (b.forBufs (dropReaderAt k))

/-! ### Answering an entry (R40) -/

/-- The frame is a TAG_IN_USE reply for a key. -/
def isTagInUseFor (k : Key) : OutFrame → Bool
  | .tagInUse k' _ => k' == k
  | .reply .. | .relayed .. | .attention .. => false

/-- Place the reply frame of an entry in the outgoing queue: in place of a waiting TAG_IN_USE reply for its key, and
otherwise at the tail (R37, R159). -/
def queueReply (q : List OutFrame) (k : Key) (f : OutFrame) : List OutFrame :=
  if q.any (isTagInUseFor k) then q.map (fun g => if isTagInUseFor k g then f else g) else q ++ [f]

/-- The entry as it stands once it is answered (R40): status and blocks done recorded, pins and awaited buffers
let go. -/
def Entry.close (e : Entry) (st : Status) (done : Nat) : Entry :=
  { e with state := .answered, status := some st, blocksDone := done, pins := [], awaited := none }

/-- Answer an entry with a reply frame (R40). An entry in ANSWERED does not change again (R36). A waiting frame of
the entry leaves the forward FIFO unsent (R163). Only a READ in FETCHING is a reader of loads (R67). -/
def answerFrame (b : Bridge) (k : Key) (f : OutFrame) (st : Status) (done : Nat) : Bridge :=
  match b.entry k with
  | none => b
  | some e =>
    if e.state = .answered then b
    else
      let b1 := b.putEntry k (some (e.close st done))
      let b2 := { b1 with
        link := { b1.link with queue := queueReply b1.link.queue k f }
        thru := { b1.thru with fifo := b1.thru.fifo.filter (fun g => g.seq != e.seq) }
        pool := { b1.pool with resQueue := b1.pool.resQueue.filter (· != k) } }
      let b3 := e.pinned.foldl joinEvict b2
      if e.state = .fetching then dropReader b3 k else b3

/-- Answer an entry with a reply frame the bridge builds: its key and unit, the status, the blocks done and the
payload (R40). -/
def answer (b : Bridge) (k : Key) (st : Status) (done : Nat) (payload : Payload) : Bridge :=
  match b.entry k with
  | none => b
  | some e => answerFrame b k (.reply k e.unit st done payload) st done

/-- Answer without payload, blocks done 0. -/
def answerStatus (b : Bridge) (k : Key) (st : Status) : Bridge := answer b k st 0 .none

/-- Answer OK, blocks done 0, with a parameter list. -/
def answerItems (b : Bridge) (k : Key) (items : List Item) : Bridge := answer b k .ok 0 (.items items)

/-- Answer every entry that satisfies a test, in ascending order of key (R40, R54). -/
def answerAll (b : Bridge) (p : Entry → Bool) (st : Status) : Bridge :=
  b.forKeys (fun b k => if (b.entry k).any p then answerStatus b k st else b)

/-! ### Taking in a request (R37, R38) -/

/-- A fresh entry with the identity of the frame, nothing routed yet. No rule names the state that an entry has within the
step that answers it; AWAIT_MECH is one that no condition of the bridge counts (log entry 27). -/
def freshEntry (h : Header) (op : Op) (seq : Nat) : Entry :=
  { unit := h.unit, op, block := h.block, count := h.count, routing := none, writeMode := none, cls := none,
    deadline := none, state := .awaitMech, sectors := [], awaited := none, blocksDone := 0, status := none,
    abortPending := false, pins := [], sent := false, passExpiry := none, seq }

/-- Make an entry: it takes the next admission number. The change given sets its routing and its first state. -/
def makeEntry (b : Bridge) (h : Header) (op : Op) (f : Entry → Entry) : Bridge :=
  let b1 := b.putEntry h.key (some (f (freshEntry h op b.table.nextSeq)))
  { b1 with table := { b1.table with nextSeq := b1.table.nextSeq + 1 } }

/-- A request is refused: its entry is made straight in ANSWERED with the status, blocks done 0 and no payload
(R38). -/
def refuse (b : Bridge) (h : Header) (op : Op) (st : Status) : Bridge :=
  answerStatus (makeEntry b h op id) h.key st

/-- A request whose key is held: a TAG_IN_USE reply joins the tail, or the frame is discarded when a frame for the
key is already in the outgoing queue (R37). -/
def keyHeld (b : Bridge) (h : Header) : Bridge :=
  if b.link.queue.any (fun f => f.key == some h.key) then b
  else { b with link := { b.link with queue := b.link.queue ++ [.tagInUse h.key h.unit] } }

/-- The content tests of R38: a known operation, its count, and the target tag of an ABORT. -/
def contentOk (op : Op) (h : Header) : Bool :=
  match op with
  | .other _ => false
  | .abort => countOk op h.count.toNat && h.block.toNat ≤ 15
  | _ => countOk op h.count.toNat

/-- Take in a well-formed request frame: no frame is received while the upstream link reset condition is held
(R169); a held key is settled by R37; bad content is answered BAD_REQUEST (R38); any other request is routed. -/
def takeRequest (b : Bridge) (h : Header) (op : Op) (route : Bridge → Bridge) : Bridge :=
  if b.link.resetHeld then b
  else
    let b := { b with link := { b.link with partialRx := [] } }
    if (b.entry h.key).isSome then keyHeld b h
    else if contentOk op h then route b
    else refuse b h op .badRequest

/-! ### Transmissions (R160, R163) -/

/-- The Link Port transmits the frame at the head of the queue whenever no frame is in transmission; nothing is sent
while the upstream link reset condition is held (R160, R169). -/
def pumpUp (b : Bridge) : Bridge :=
  match b.link.tx, b.link.queue with
  | none, f :: rest => if b.link.resetHeld then b else { b with link := { b.link with tx := some f, queue := rest } }
  | _, _ => b

/-- The Through Port transmits the head of the forward FIFO while the downstream link is UP, no frame is in
transmission and it holds no link reset condition downstream (R163, R170, R171). -/
def pumpDown (b : Bridge) : Bridge :=
  match b.thru.tx, b.thru.fifo with
  | none, f :: rest =>
    if b.thru.line = .up ∧ b.thru.powerHold = none ∧ b.thru.linkHold = false then
      { b with thru := { b.thru with tx := some f, fifo := rest } }
    else b
  | _, _ => b

/-- Begin the transmissions that may begin. -/
def pump (b : Bridge) : Bridge := pumpDown (pumpUp b)

/-- The outcome of a command whose effect is `f`: a next state with the queue as it is. -/
def State.become (s : State) (f : Bridge → Bridge) : Host.Outcome State Fault Refusal :=
  .next { s with bridge := f s.bridge }

end Sys2Proof.Machine
end

