-- ==== Sys2Proof/Machine/Pool.lean ====
section
/-! DEFINITION. The sector buffer pool (spec/04_the_sector_buffer_pool.md): testing READs against their buffers
(R43, R44), taking buffers (R63, R67, R74), the reservation queue (R66) and the grant (R67), merges (R74 to R76), and
the results of loads (R71, R72). -/

namespace Sys2Proof.Machine

/-! ### READs and the buffers they pin (R43, R44) -/

/-- The cartridge block of an entry's first block. -/
def Entry.cb (e : Entry) : Nat :=
  match e.routing with
  | some (.window _ cb) => cb
  | _ => 0

/-- The buffer and quarter that hold each block of a READ, in block order: the k-th pin is the buffer of the k-th
sector of the list. -/
def blockPlaces (e : Entry) : List (Option BufIdx × Fin 4) :=
  (List.range e.count.toNat).map fun j =>
    (e.pins[lsnOf (e.cb + j) - lsnOf e.cb]?, quarterOf (e.cb + j))

/-- The quarter at a place is valid and not lost. -/
def placeGood (b : Bridge) (p : Option BufIdx × Fin 4) : Bool :=
  p.1.any (fun i => hasQuarter (b.buf i).valid p.2 && !hasQuarter (b.buf i).lost p.2)

/-- The quarter at a place is lost. -/
def placeLost (b : Bridge) (p : Option BufIdx × Fin 4) : Bool := p.1.any (fun i => hasQuarter (b.buf i).lost p.2)

/-- The data at a place. -/
def placeData (b : Bridge) (p : Option BufIdx × Fin 4) : Block :=
  match p.1 with
  | some i => (b.buf i).data[p.2]
  | none => 0

/-- Answer a READ MEDIA_ERROR: blocks done and payload are its leading blocks whose quarters are valid and not lost
at this moment (R44). -/
def answerMediaError (b : Bridge) (k : Key) : Bridge :=
  match b.entry k with
  | none => b
  | some e =>
    let good := (blockPlaces e).takeWhile (placeGood b)
    answer b k .mediaError good.length (.blocks (good.map (placeData b)))

/-- Test a READ in FETCHING: MEDIA_ERROR when a needed quarter is lost, OK when every needed quarter is valid, and
otherwise it goes on waiting (R43, R44). -/
def testRead (b : Bridge) (k : Key) : Bridge :=
  match b.entry k with
  | none => b
  | some e =>
    if e.state = .fetching then
      let places := blockPlaces e
      if places.any (placeLost b) then answerMediaError b k
      else if places.all (placeGood b) then answer b k .ok places.length (.blocks (places.map (placeData b)))
      else b
    else b

/-- Test every READ in FETCHING, in ascending order of key (R40, R43). A READ whose buffers have not changed tests
as it did before. -/
def testReads (b : Bridge) : Bridge := b.forKeys testRead

/-- Answer MEDIA_ERROR every READ in FETCHING that pins a buffer, in ascending order of key (R44, R72, R79). -/
def failReaders (b : Bridge) (i : BufIdx) : Bridge :=
  b.forKeys (fun b k =>
    if (b.entry k).any (fun e => e.state == .fetching && e.pins.contains i) then answerMediaError b k else b)

/-! ### Taking a buffer (R63, R67, R74) -/

/-- Take a buffer for a sector: the lowest-index FREE buffer, and otherwise the oldest buffer of the eviction order
whose LSN is not in the list, which is evicted. Its record is set to the FREE values. -/
def takeBuffer (b : Bridge) (lsns : List Nat) : Option (Bridge × BufIdx) :=
  match freeBufs b with
  | i :: _ => some (b, i)
  | [] => match evictableFor b lsns with
    | i :: _ => some (freeBuf b i, i)
    | [] => none

/-! ### Loads (R70) -/

/-- A load context as it is made: PENDING, with no retries, and its stamp (R70, R86, R94). -/
def newLoad (readers : List Key) (fillNeed : Bool) (stamp : Nat) : Load :=
  { readers, fillNeed, stage := .pending, retries := 0, stamp, orderedAt := none }

/-- A reader joins the load of a buffer, or makes it, PENDING with a new stamp (R67, R70). -/
def addReader (b : Bridge) (i : BufIdx) (k : Key) : Bridge :=
  match (b.buf i).load with
  | some l => b.putBuf i { b.buf i with load := some { l with readers := l.readers ++ [k] } }
  | none => takeStamp (b.putBuf i { b.buf i with load := some (newLoad [k] false b.arb.stamps) })

/-- The fill need of a buffer's load becomes yes, joining its context or making one (R107). -/
def addFillNeed (b : Bridge) (i : BufIdx) : Bridge :=
  match (b.buf i).load with
  | some l => b.putBuf i { b.buf i with load := some { l with fillNeed := true } }
  | none => takeStamp (b.putBuf i { b.buf i with load := some (newLoad [] true b.arb.stamps) })

/-! ### The reservation queue (R66) -/

/-- An entry's place in the queue comes after another's: STREAM by deadline expiry, NORMAL after every STREAM, ties
by arrival (R66). -/
def queuesAfter (b : Bridge) (k other : Key) : Bool :=
  match (b.entry k).bind Entry.deadline, (b.entry other).bind Entry.deadline with
  | some d, some d' => ahead b.clock d' ≤ ahead b.clock d
  | some _, none => false
  | none, _ => true

/-- Place a READ in the reservation queue (R66). -/
def insertReservation (b : Bridge) (k : Key) : Bridge :=
  { b with pool := { b.pool with
      resQueue := b.pool.resQueue.takeWhile (queuesAfter b k) ++ k :: b.pool.resQueue.dropWhile (queuesAfter b k) } }

/-- The READ may be granted: the buffers available to it number at least its new-buffer count (R65). -/
def mayGrant (b : Bridge) (k : Key) : Bool :=
  (b.entry k).any (fun e => newBufferCount b e.sectors ≤ availableFor b e.sectors)

/-- Step 1 of a grant for one sector: a sector that has a buffer keeps it out of the eviction order (R67). -/
def grantExisting (b : Bridge) (lsn : Nat) : Bridge :=
  match currentBuf b lsn with
  | some i => leaveEvict b i
  | none => b

/-- Step 2 of a grant for one sector: a sector with no buffer takes one, in LOADING (R67). -/
def grantNew (lsns : List Nat) (b : Bridge) (lsn : Nat) : Bridge :=
  match currentBuf b lsn with
  | some _ => b
  | none => match takeBuffer b lsns with
    | none => b
    | some (b', i) => b'.putBuf i { Buffer.free with state := .loading, lsn := some lsn }

/-- Step 3 of a grant for one sector: its load gains this READ's need when a needed quarter is neither valid nor
lost (R67). -/
def grantLoad (k : Key) (e : Entry) (b : Bridge) (lsn : Nat) : Bridge :=
  match currentBuf b lsn with
  | none => b
  | some i =>
    if neededQuarters e.cb e.count.toNat lsn &&& ~~~ ((b.buf i).valid ||| (b.buf i).lost) != 0 then addReader b i k
    else b

/-- A READ leaves the reservation queue. -/
def leaveQueue (b : Bridge) (k : Key) : Bridge :=
  { b with pool := { b.pool with resQueue := b.pool.resQueue.filter (· != k) } }

/-- The grant of a reservation (R67): existing buffers are pinned, new ones taken, loads made, and the entry, now in
FETCHING, is tested at once. -/
def grant (b : Bridge) (k : Key) : Bridge :=
  match b.entry k with
  | none => leaveQueue b k
  | some e =>
    if e.state = .reserving then
      let b1 := e.sectors.foldl grantExisting b
      let b2 := e.sectors.foldl (grantNew e.sectors) b1
      let b3 := e.sectors.foldl (grantLoad k e) b2
      let b4 := b3.putEntry k (some { e with state := .fetching, pins := e.sectors.filterMap (currentBuf b2) })
      testRead (leaveQueue b4 k) k
    else leaveQueue b k

/-! ### Writes into buffers (R74 to R76) -/

/-- A sector's case of write admission needs a new buffer: it has none, or one COMMITTING and no successor (R74). -/
def needsBuffer (b : Bridge) (lsn : Nat) : Bool :=
  match currentBuf b lsn with
  | none => true
  | some i => (b.buf i).state == .committing

/-- A WRITE's buffers are available: the buffers it needs do not exceed those available to it (R74). -/
def writeFits (b : Bridge) (lsns : List Nat) : Bool := (lsns.filter (needsBuffer b)).length ≤ availableFor b lsns

/-- Take the buffer that one sector of a WRITE needs: a successor copied from its COMMITTING buffer (R76), or a new
OPEN buffer (R75). -/
def takeForWrite (lsns : List Nat) (b : Bridge) (lsn : Nat) : Bridge :=
  if needsBuffer b lsn then
    match takeBuffer b lsns with
    | none => b
    | some (b', j) =>
      match currentBuf b' lsn with
      | none => b'.putBuf j { Buffer.free with state := .opened, lsn := some lsn }
      | some c =>
        let x := b'.buf c
        (b'.putBuf c { x with successor := some j }).putBuf j
          { Buffer.free with state := .opened, lsn := some lsn, data := x.data, valid := x.valid, dirty := x.dirty,
                             lost := x.lost }
  else b

/-- The quarters of a sector with the written ones copied in. -/
def writeQuarters (cb lsn : Nat) (data : List Block) (q : QSet) (old : Quad) : Quad :=
  Vector.ofFn (fun i : Fin 4 => if hasQuarter q i then data.getD (4 * lsn + i - cb) 0 else old[i])

/-- The record of a buffer after a merge (R75): the written quarters join valid and dirty and leave lost, and the
last write time is the clock. A CLEAN buffer becomes OPEN, and a LOADING buffer that is now all valid and whose load
is PENDING becomes OPEN without its load (R70), a buffer that was all valid before the merge included (log entry 40). -/
def mergedBuffer (now : Clock) (cb lsn : Nat) (data : List Block) (q : QSet) (x : Buffer) : Buffer :=
  let y := { x with
    data := writeQuarters cb lsn data q x.data, valid := x.valid ||| q, dirty := x.dirty ||| q,
    lost := x.lost &&& ~~~ q, lastWrite := some now }
  match x.state with
  | .clean => { y with state := .opened }
  | .loading =>
    if y.valid = allQuarters ∧ x.load.all (fun l => l.stage == .pending) then
      { y with state := .opened, load := none }
    else y
  | .free | .opened | .committing | .stranded => y

/-- Merge one sector of a WRITE into its buffer (R75). A buffer that is OPEN afterwards is tested for eligibility
(R107). -/
def mergeSector (cb n : Nat) (data : List Block) (b : Bridge) (lsn : Nat) : Bridge :=
  match currentBuf b lsn with
  | none => b
  | some i =>
    let y := mergedBuffer b.clock cb lsn data (neededQuarters cb n lsn) (b.buf i)
    let b1 := leaveEvict (b.putBuf i y) i
    if y.state = .opened then testLater b1 i else b1

/-- Write admission (R74): every sector that needs a buffer takes one, in sector list order, and then every sector
is merged. -/
def admitWrite (b : Bridge) (cb n : Nat) (data : List Block) : Bridge :=
  let lsns := sectorList cb n
  lsns.foldl (mergeSector cb n data) (lsns.foldl (takeForWrite lsns) b)

/-! ### Results of loads (R71, R72) -/

/-- The quarters read join those that are neither valid nor lost (R71). -/
def fillQuarters (x : Buffer) (q : Quad) : Quad :=
  Vector.ofFn (fun i : Fin 4 => if hasQuarter (x.valid ||| x.lost) i then x.data[i] else q[i])

/-- A load ends good (R71). As a relocation the buffer becomes OPEN with every quarter dirty and the relocate mark;
otherwise a LOADING buffer becomes CLEAN, or OPEN when it has dirty quarters. -/
def loadGood (b : Bridge) (i : BufIdx) (q : Quad) (relocation : Bool) : Bridge :=
  let x := b.buf i
  let y := { x with data := fillQuarters x q, valid := x.valid ||| ~~~ (x.valid ||| x.lost), load := none }
  if relocation && (x.state == .loading || x.state == .opened) then
    testReads (testLater (b.putBuf i
      { y with state := .opened, dirty := allQuarters, relocate := true, lastWrite := some b.clock }) i)
  else if x.state = .loading then
    if x.dirty = 0 then testReads (joinEvict (b.putBuf i { y with state := .clean }) i)
    else testReads (testLater (b.putBuf i { y with state := .opened }) i)
  else testReads (b.putBuf i y)

/-- A load ends unrecovered (R72). A LOADING buffer without dirty quarters answers its readers MEDIA_ERROR and
becomes FREE; any other buffer loses the quarters that are neither valid nor lost, and FILL_LOSS is recorded. -/
def loadLost (b : Bridge) (i : BufIdx) : Bridge :=
  let x := b.buf i
  if x.state = .loading ∧ x.dirty = 0 then
    freeBuf (failReaders (b.putBuf i { x with load := none }) i) i
  else
    let gone := ~~~ (x.valid ||| x.lost)
    let y := { x with lost := x.lost ||| gone, load := none }
    let b1 := if x.state = .loading then testLater (b.putBuf i { y with state := .opened }) i else b.putBuf i y
    testReads (record b1 { kind := .fillLoss, time := b.clock, lsn := x.lsn, sectorCount := some (quarterCount gone) })

end Sys2Proof.Machine
end

