-- ==== Sys2Proof/Machine/Defects.lean ====
section
/-! DEFINITION. The Defect Manager (spec/07_defect_management.md): map changes and their consequences (R131, R132),
grants and marks (R128 to R130, R138), and the map write-back (R133 to R136). -/

namespace Sys2Proof.Machine

/-- Put the held map. -/
def putMap (b : Bridge) (m : HeldMap) : Bridge := { b with dm := { b.dm with map := some m } }

/-- A write-back attempt starts (R133, R136): the state is SAVING, the snapshot of the map as it stands fills the
staging area, and the ERASE of PSAs 1-4 is made pending. -/
def startMapWrite (b : Bridge) (m : HeldMap) (attempt : Nat) : Bridge :=
  takeStamp { b with dm :=
    { map := some { m with
        writeState := .saving, attempt := some attempt, step := some ⟨.erase, false, b.arb.stamps, m.generation⟩ }
      staging := snapshotSectors m.entries m.generation } }

/-- A write-back starts when R133 lets it start. -/
def tryMapWrite (b : Bridge) : Bridge :=
  match b.dm.map with
  | none => b
  | some m => if mapWriteDue b m then startMapWrite b m 1 else b

/-- One map change (R131, R132): the generation rises by 1, the last change time is the clock, a CLEAN map becomes
DIRTY, and a write-back starts at once when R133 says so. -/
def changeMap (b : Bridge) (m : HeldMap) (entries : List MapEntry) : Bridge :=
  tryMapWrite (putMap b { m with
    entries, generation := m.generation + 1, lastChange := some b.clock,
    writeState := if m.writeState = .clean then .dirty else m.writeState })

/-- The spare that a request for user PSA `u` is granted, or `none` when it is refused (R128). -/
def chooseSpare (b : Bridge) (u : Nat) : Option Nat :=
  match b.cart.layout, b.dm.map with
  | some l, some m => if isWritable b && m.entries.length < 1024 then findSpare l m.entries u else none
  | _, _ => none

/-- Spare `s` is granted to user PSA `u`: one map change, counted as a relocation or a remap (R129, R138). -/
def grantSpare (b : Bridge) (u s : Nat) (relocate : Bool) : Bridge :=
  match b.dm.map with
  | none => b
  | some m =>
    let b1 := changeMap b m (grantEntries m.entries u s (if relocate then .relocate else .verify))
    { b1 with cart :=
      if relocate then { b1.cart with relocations := satInc 65535 b1.cart.relocations }
      else { b1.cart with remaps := satInc 65535 b1.cart.remaps } }

/-- User PSA `u` is marked LOST (R130); an ask that leaves the map unchanged is no map change (R131). -/
def markLost (b : Bridge) (u : Nat) : Bridge :=
  match b.dm.map with
  | none => b
  | some m => match lostEntries m.entries u with
    | none => b
    | some entries => changeMap b m entries

/-! ### Write-back steps (R134 to R136) -/

/-- The data of a map sector, as map sector fields. -/
def asMapSector (d : SectorData) : MapSector :=
  match d with
  | .map m => m
  | .user q => Config.mapOfBytes q
  | .label l => Config.mapOfBytes (Config.labelBytes l)

/-- The outcome of one map sector is good: GOOD, and for a VERIFY the data read back equals the staging sector
(R134), slot for slot (log entry 35). -/
def mapSectorGood (pass : MapPass) (staged : SectorData) (o : SectorOutcome) : Bool :=
  match o with
  | .good d => pass != .verify || asMapSector (d.getD Config.absentData) == asMapSector staged
  | .noId | .dataError | .writeFault => false

/-- The PSA of the first map sector whose outcome or comparison failed. -/
def firstMapFailure (pass : MapPass) : Nat → List SectorData → List SectorOutcome → Option Nat
  | psa, s :: ss, o :: os => if mapSectorGood pass s o then firstMapFailure pass (psa + 1) ss os else some psa
  | _, _, _ => none

/-- The write state becomes WRITE_LOCKED; only a WRITABLE cartridge changes (R145). -/
def lockWrites (b : Bridge) : Bridge :=
  if isWritable b then { b with cart := { b.cart with writeState := some .writeLocked } } else b

/-- An attempt whose VERIFY ended good (R135). -/
def mapSaved (b : Bridge) (m : HeldMap) (st : MapStep) : Bridge :=
  tryMapWrite (putMap b { m with
    saved := st.generation, attempt := none, step := none,
    writeState := if m.generation = st.generation then .clean else .dirty })

/-- An attempt failed at map sector `psa` (R136): the second attempt starts at once, or the map is UNSAVABLE. -/
def mapAttemptFailed (b : Bridge) (m : HeldMap) (psa : Nat) : Bridge :=
  if m.attempt = some 1 then startMapWrite b m 2
  else
    record (lockWrites (putMap b { m with writeState := .unsavable, attempt := none, step := none }))
      { kind := .mapWriteFailed, time := b.clock, psa := some psa, retries := some 2 }

/-- A write-back step ends with its four outcomes (R134). -/
def mapStepEnded (b : Bridge) (outcomes : List SectorOutcome) : Bridge :=
  match b.dm.map with
  | none => b
  | some m => match m.step with
    | none => b
    | some st =>
      match firstMapFailure st.pass 1 b.dm.staging.toList outcomes with
      | some psa => mapAttemptFailed b m psa
      | none => match st.pass with
        | .erase =>
          takeStamp (putMap b { m with step := some { st with pass := .write, inFlight := false, stamp := b.arb.stamps } })
        | .write =>
          takeStamp (putMap b { m with step := some { st with pass := .verify, inFlight := false, stamp := b.arb.stamps } })
        | .verify => mapSaved b m st

/-- The order of a write-back step is abandoned: the step is pending again with its stamp (R134). -/
def mapStepReturned (b : Bridge) : Bridge :=
  match b.dm.map with
  | none => b
  | some m => putMap b { m with step := m.step.map (fun st => { st with inFlight := false }) }

/-- Map changes are carried away unsaved (R137): MAP_WRITE_FAILED without PSA and with 0 retries is recorded, and a
pending step is withdrawn. -/
def abandonMapWrite (b : Bridge) : Bridge :=
  match b.dm.map with
  | none => b
  | some m =>
    if m.writeState = .dirty ∨ m.writeState = .saving then
      record (putMap b { m with step := none }) { kind := .mapWriteFailed, time := b.clock, retries := some 0 }
    else b

/-- The map and all its state are forgotten; the staging area holds nothing of use (R126; log entry 28). -/
def forgetMap (b : Bridge) : Bridge := { b with dm := { map := none, staging := unusedStaging } }

/-- The GOOD data of a mount read goes to the staging area, the k-th sector of the run to its k-th place; a sector that
failed leaves its place as it was (R3, R93; log entry 28). -/
def stageRead (b : Bridge) (outcomes : List SectorOutcome) : Bridge :=
  { b with dm := { b.dm with staging := Vector.ofFn fun k : Fin 4 =>
      match outcomes[k.val]? with
      | some (.good d) => d.getD Config.absentData
      | some .noId | some .dataError | some .writeFault | none => b.dm.staging[k] } }

end Sys2Proof.Machine
end

