-- ==== Sys2Proof/Machine/WriteBack.lean ====
section
/-! DEFINITION. The Write-Back Unit (spec/06_write_back_fill_erase_write_and_verify.md): notices (R48, R49), taking a
target (R110), making jobs and keeping their causes (R106, R107), the ends of a job (R77 to R80, R117, R118), and the
outcomes of its orders (R112 to R116). -/

namespace Sys2Proof.Machine

/-- Put the flush context of a buffer. -/
def putFlush (b : Bridge) (i : BufIdx) (f : Flush) : Bridge := b.putBuf i { b.buf i with flush := some f }

/-! ### Taking a target (R110) -/

/-- The phase ERASE, PENDING on a target, with a new stamp (R110, R116). -/
def eraseAt (b : Bridge) (i : BufIdx) (f : Flush) (psa : Nat) : Bridge :=
  takeStamp (putFlush b i { f with
    phase := .erase, stage := some .pending, target := some psa, erased := false, request := none,
    stamp := b.arb.stamps })

/-- The phase REMAP with a spare request, or with none when the job's permanent failure is due at once (R110,
R111). -/
def remapAt (b : Bridge) (i : BufIdx) (f : Flush) (r : Option SpareRequest) : Bridge :=
  putFlush b i { f with phase := .remap, stage := none, request := r }

/-- A job takes its target (R110). A LOST sector whose write state is not WRITABLE fails permanently: its job is put
in REMAP without a request, and `poolStep` ends it in the same step. -/
def takeTarget (b : Bridge) (i : BufIdx) : Bridge :=
  match (b.buf i).flush with
  | none => b
  | some f =>
    if f.causes.relocate then remapAt b i f (some .first)
    else match (b.buf i).lsn.bind (translate b) with
      | none => b
      | some (.home p) => eraseAt b i f p
      | some (.spare p) => eraseAt b i f p
      | some .lost => remapAt b i f (if isWritable b then some .first else none)

/-- The hold of a successor's job is released (R119). -/
def releaseHold (b : Bridge) (i : BufIdx) : Bridge :=
  if (b.buf i).flush.any (fun f => f.stage == some .held) then takeTarget b i else b

/-! ### Making jobs and keeping causes (R106, R107) -/

/-- A flush context as it is made, in ERASE HELD until its target is taken. -/
def newFlush (c : Causes) : Flush :=
  { phase := .erase, stage := some .held, target := none, erased := false, attempts := 0, request := none, causes := c,
    stamp := 0 }

/-- A job is made for an eligible buffer (R107): FILL when some quarter is neither valid nor lost, ERASE HELD for the
successor of a COMMITTING buffer, and otherwise its target is taken at once. -/
def makeJob (b : Bridge) (i : BufIdx) (c : Causes) : Bridge :=
  let b1 := putFlush b i (newFlush c)
  if !isFull (b.buf i) then
    addFillNeed (putFlush b i { newFlush c with phase := .fill, stage := none }) i
  else if isHeldBack b i then b1
  else takeTarget b1 i

/-- The fill of a job is over: the fill need becomes no, and the job takes its target (R109). -/
def endFill (b : Bridge) (i : BufIdx) (f : Flush) : Bridge :=
  let x := b.buf i
  takeTarget (b.putBuf i { x with
    load := x.load.map (fun l => { l with fillNeed := false }), flush := some { f with phase := .erase, stage := some .held } }) i

/-- The causes of a job as its conditions stand (R106): QUIESCE and AGED are kept, AGED is gained when the aging
expiry of an OPEN buffer tested in this step has been reached. -/
def jobCauses (b : Bridge) (i : BufIdx) (f : Flush) : Causes :=
  let x := b.buf i
  let now := causesNow b i
  { now with
    aged := f.causes.aged || (x.state == .opened && b.pool.testDue.contains i && agingDue b x)
    quiesce := f.causes.quiesce }

/-- Bring one buffer's job up to date: its causes follow their conditions, a FILL with nothing left to fill ends, and
an OPEN buffer for which a condition holds is made a job (R106, R107, R109). -/
def syncJob (b : Bridge) (i : BufIdx) : Bridge :=
  let x := b.buf i
  match x.flush with
  | some f =>
    let f1 := { f with causes := (jobCauses b i f).orAged }
    if f.phase = .fill ∧ isFull x then endFill b i f1
    else if f1 = f then b else putFlush b i f1
  | none =>
    if x.state = .opened then
      let c := { causesNow b i with aged := b.pool.testDue.contains i && agingDue b x }
      if c = Causes.none then b else makeJob b i c
    else b

/-- A start or an end of pool pressure is reported to the Write-Back Unit (R64). -/
def notePressure (b : Bridge) : Bridge := { b with pool := { b.pool with pressure := pressureNow b } }

/-- Bring every job up to date in ascending buffer index, with pool pressure as it now is; the tests due are made (R64, R106,
R107; pressure first, and one order for the jobs made and those whose FILL ends: log entry 7). -/
def syncJobs (b : Bridge) : Bridge :=
  let b1 := (notePressure b).forBufs syncJob
  sweepLoads { b1 with pool := { b1.pool with testDue := [] } }

/-- A job loses QUIESCE; AGED takes its place when it was the last cause (R106). -/
def dropQuiesceAt (b : Bridge) (i : BufIdx) : Bridge :=
  match (b.buf i).flush with
  | none => b
  | some f => putFlush b i { f with causes := { f.causes with quiesce := false }.orAged }

/-- Every job loses QUIESCE (R123). -/
def dropQuiesce (b : Bridge) : Bridge := b.forBufs dropQuiesceAt

/-- A job gains QUIESCE (R123). -/
def addQuiesceAt (b : Bridge) (i : BufIdx) : Bridge :=
  match (b.buf i).flush with
  | none => b
  | some f => putFlush b i { f with causes := { f.causes with quiesce := true } }

/-- Every job gains QUIESCE (R123). -/
def addQuiesce (b : Bridge) : Bridge := b.forBufs addQuiesceAt

/-! ### Notices (R48, R49) -/

/-- The entry awaits the buffer. -/
def awaits (e : Entry) (i : BufIdx) : Bool := e.state == .awaitCommit && (e.awaited.getD []).contains i

/-- The blocks of a request that lie in the sectors before the k-th of its list, no more than the count (R49). -/
def blocksBefore (e : Entry) (k : Nat) : Nat :=
  if k = 0 then 0 else min (4 - e.cb % 4 + 4 * (k - 1)) e.count.toNat

/-- A sector failed for a confirmed WRITE: blocks done is lowered to the blocks before it (R49). -/
def Entry.failSector (e : Entry) (lsn : Nat) : Entry :=
  if e.op = .write then { e with blocksDone := min e.blocksDone (blocksBefore e (e.sectors.idxOf lsn)) } else e

/-- An entry whose awaited set is empty is answered: a FLUSH OK, a confirmed WRITE OK or WRITE_FAILED (R49, R50). -/
def finishAwait (b : Bridge) (k : Key) : Bridge :=
  match b.entry k with
  | none => b
  | some e =>
    if e.state = .awaitCommit ∧ e.awaited = some [] then
      (if e.op = .write then
        (if e.blocksDone < e.count.toNat then answer b k .writeFailed e.blocksDone .none
        else answer b k .ok e.count.toNat .none)
      else answer b k .ok 0 .none)
    else b

/-- A notice acts on every entry that awaits the buffer, in ascending order of key (R40, R48). -/
def notice (b : Bridge) (i : BufIdx) (f : Entry → Entry) : Bridge :=
  b.forKeys (fun b k =>
    match b.entry k with
    | none => b
    | some e => if awaits e i then finishAwait (b.putEntry k (some (f e))) k else b)

/-- The buffer leaves the awaited set. -/
def Entry.unawait (i : BufIdx) (e : Entry) : Entry := { e with awaited := e.awaited.map (fun l => l.filter (· != i)) }

/-- The buffer's place in the awaited set is taken by its successor, which stays there once (R48). -/
def Entry.awaitInstead (i j : BufIdx) (e : Entry) : Entry :=
  { e with awaited := e.awaited.map (fun l =>
      if l.contains j then l.filter (· != i) else l.map (fun a => if a = i then j else a)) }

/-- The COMMITTED notice (R48). -/
def noticeCommitted (b : Bridge) (i : BufIdx) : Bridge := notice b i (Entry.unawait i)

/-- The MOVED notice (R48). -/
def noticeMoved (b : Bridge) (i j : BufIdx) : Bridge := notice b i (Entry.awaitInstead i j)

/-- The FAILED notice (R48): the buffer's sector is failed for each confirmed WRITE that awaited it. -/
def noticeFailed (b : Bridge) (i : BufIdx) : Bridge :=
  notice b i (fun e => (Entry.unawait i e).failSector ((b.buf i).lsn.getD 0))

/-! ### The ends of a job (R77 to R81) -/

/-- Every pin on a buffer moves to its successor (R62, R78, R80). -/
def movePins (b : Bridge) (i j : BufIdx) : Bridge :=
  b.forKeys (fun b k =>
    match b.entry k with
    | none => b
    | some e =>
      if e.state = .fetching ∧ i ∈ e.pins then
        b.putEntry k (some { e with pins := e.pins.map (fun a => if a = i then j else a) })
      else b)

/-- The buffer of a job that has ended leaves its data with its successor: pins move, the buffer becomes FREE, the
readers are tested against the successor, and its hold is released (R78, R80, R119). -/
def endToSuccessor (b : Bridge) (i j : BufIdx) : Bridge :=
  releaseHold (testReads (freeBuf (movePins b i j) i)) j

/-- The record of a buffer whose job committed without a successor (R77): lost quarters are zeros and valid. -/
def committedBuffer (x : Buffer) : Buffer :=
  { x with
    state := .clean
    data := Vector.ofFn (fun q : Fin 4 => if hasQuarter x.lost q then 0 else x.data[q])
    valid := x.valid ||| x.lost, lost := 0, dirty := 0, relocate := false, lastWrite := none, load := none,
    flush := none }

/-- A job commits (R118, R77, R78). -/
def commitJob (b : Bridge) (i : BufIdx) : Bridge :=
  let b1 := noticeCommitted b i
  match (b1.buf i).successor with
  | some j => endToSuccessor b1 i j
  | none => testReads (joinEvict (b1.putBuf i (committedBuffer (b1.buf i))) i)

/-- The buffer of a failed job becomes STRANDED, or its data is discarded when 8 buffers are STRANDED already (R79).
The eighth STRANDED buffer makes the write state WRITE_LOCKED (R145). -/
def strand (b : Bridge) (i : BufIdx) : Bridge :=
  let x := b.buf i
  if strandedCount b < 8 then
    let b1 := b.putBuf i { x with state := .stranded, load := none, flush := none, relocate := false }
    if strandedCount b1 = 8 then lockWrites b1 else b1
  else
    let b1 := failReaders (b.putBuf i { x with valid := 0, load := none, flush := none }) i
    let b2 := record b1 { kind := .dataDiscarded, time := b.clock, lsn := x.lsn, sectorCount := some 1 }
    freeBuf { b2 with cart := { b2.cart with deferred := satInc 255 b2.cart.deferred } } i

/-- A job fails permanently (R117): the sector is marked LOST, SPARE_EXHAUSTED is recorded, the notice is sent, and
the buffer is stranded, or freed to its successor whose hold is released. -/
def permanentFailure (b : Bridge) (i : BufIdx) (failed : Option Nat) : Bridge :=
  let x := b.buf i
  let home := x.lsn.bind (homeOf b)
  let b1 := match home with
    | some u => markLost b u
    | none => b
  let b2 := record b1 { kind := .spareExhausted, time := b.clock, lsn := x.lsn, psa := failed.or home,
                        retries := x.flush.map Flush.attempts }
  match x.successor with
  | some j => endToSuccessor (noticeMoved b2 i j) i j
  | none => strand (noticeFailed b2 i) i

/-- Free a buffer by a discard (R81): a FAILED notice to any entry still awaiting it, then the FREE values. -/
def discardBuf (b : Bridge) (i : BufIdx) : Bridge := freeBuf (noticeFailed b i) i

/-- Free every buffer that satisfies a test, in ascending index (R81). -/
def discardWhere (b : Bridge) (p : Buffer → Bool) : Bridge :=
  b.forBufs (fun b i => if p (b.buf i) then discardBuf b i else b)

/-! ### Outcomes of the job's orders (R112 to R116) -/

/-- A failure of the target (R115): a REPLACE request, or permanent failure when the attempts are used up or the write
state is not WRITABLE. -/
def targetFailed (b : Bridge) (i : BufIdx) (f : Flush) (psa : Nat) : Bridge :=
  if f.attempts < 3 && isWritable b then remapAt b i f (some (.replace psa))
  else permanentFailure b i (some psa)

/-- The bytes that a user sector's outcome carries, as four quarters. -/
def asQuad (d : Option SectorData) : Quad :=
  match d.getD Config.absentData with
  | .user q => q
  | .map m => Config.mapBytes m
  | .label l => Config.labelBytes l

/-- The data a WRITE gives for a buffer: its four quarters, every lost quarter as zeros (R113). -/
def givenData (x : Buffer) : Quad :=
  Vector.ofFn (fun q : Fin 4 => if hasQuarter x.lost q then 0 else x.data[q])

/-- The next phase of a job, PENDING with a new stamp. -/
def nextPhase (b : Bridge) (i : BufIdx) (f : Flush) (p : Phase) : Bridge :=
  takeStamp (putFlush b i { f with phase := p, stage := some .pending, erased := true, stamp := b.arb.stamps })

/-- The outcome of one sector of an ERASE, WRITE or VERIFY order for the job of a buffer (R112 to R115). It is dropped
when the buffer holds no such phase in flight on that PSA (R96). -/
def phaseEnded (b : Bridge) (i : BufIdx) (psa : Nat) (kind : OrderKind) (o : SectorOutcome) : Bridge :=
  match (b.buf i).flush with
  | none => b
  | some f =>
    if f.stage = some .inFlight ∧ f.target = some psa then
      match o, f.phase, kind with
      | .good _, .erase, .erase => nextPhase b i f .write
      | .good _, .write, .write => nextPhase b i f .verify
      | .good d, .verify, .verify => if asQuad d = givenData (b.buf i) then commitJob b i else targetFailed b i f psa
      | .good _, _, _ => b
      | .noId, _, _ => targetFailed b i f psa
      | .dataError, _, _ => targetFailed b i f psa
      | .writeFault, _, _ => targetFailed b i f psa
    else b

/-- A spare is granted to the job of a buffer (R111, R116, R120): one map change, the new target, and the exception of
its kind. -/
def spareGranted (b : Bridge) (i : BufIdx) (f : Flush) (r : SpareRequest) (u s : Nat) : Bridge :=
  let lsn := (b.buf i).lsn
  match r with
  | .first =>
    let b1 := eraseAt (grantSpare b u s f.causes.relocate) i f s
    if f.causes.relocate then record b1 { kind := .relocated, time := b.clock, lsn, psa := some s } else b1
  | .replace _ =>
    let b1 := eraseAt (grantSpare b u s false) i { f with attempts := f.attempts + 1 } s
    record b1 { kind := .remapped, time := b.clock, lsn, psa := some s, retries := some (f.attempts + 1) }

/-- A spare request is refused (R111, R120): a relocation is written in place, any other job fails permanently. -/
def spareRefused (b : Bridge) (i : BufIdx) (f : Flush) (r : SpareRequest) : Bridge :=
  match r with
  | .replace psa => permanentFailure b i (some psa)
  | .first =>
    if f.causes.relocate then
      let f1 := { f with request := none, causes := { f.causes with relocate := false }.orAged }
      takeTarget (b.putBuf i { b.buf i with relocate := false, flush := some f1 }) i
    else permanentFailure b i none

/-- The Defect Manager takes the spare request of a buffer's job (R128). Without a request there is nothing to
take. -/
def takeSpareRequest (b : Bridge) (i : BufIdx) : Bridge :=
  match (b.buf i).flush with
  | none => b
  | some f => match f.request with
    | none => b
    | some r =>
      match (b.buf i).lsn.bind (homeOf b) with
      | none => spareRefused b i f r
      | some u => match chooseSpare b u with
        | some s => spareGranted b i f r u s
        | none => spareRefused b i f r

end Sys2Proof.Machine
end

