-- ==== Sys2Proof/Machine/Arbiter.lean ====
section
/-! DEFINITION. The Head Arbiter (spec/05_mechanism_orders_and_the_head_arbiter.md): pending work and its classes (R86,
R87), the choice with its streak rule (R89, R90), the building and issue of an order (R91, R92), the results of loads
(R93 to R95), and the return of an abandoned order's pieces (R97, R99). -/

namespace Sys2Proof.Machine

/-! ### Pending work (R86) -/

/-- A piece of pending work of classes 1 to 5, by its owner. -/
inductive Work where
  | load  (buf : BufIdx)
  | phase (buf : BufIdx)
  | map
deriving DecidableEq, Repr

/-- The order kind of a phase; FILL is ordered as a load and REMAP not at all (R86). -/
def Phase.kind : Phase → Option OrderKind
  | .erase => some .erase
  | .write => some .write
  | .verify => some .verify
  | .fill | .remap => none

/-- The order kind of a map write-back step (R134). -/
def MapPass.kind : MapPass → OrderKind
  | .erase => .erase
  | .write => .write
  | .verify => .verify

/-- The buffer's load is PENDING. -/
def loadPending (b : Bridge) (i : BufIdx) : Bool := (b.buf i).load.any (fun l => l.stage == .pending)

/-- The buffer's flush phase is PENDING. -/
def phasePending (b : Bridge) (i : BufIdx) : Bool :=
  (b.buf i).flush.any (fun f => f.stage == some .pending && f.phase.kind.isSome)

/-- The map write-back step that is ready to be ordered. -/
def pendingStep (b : Bridge) : Option MapStep :=
  (b.dm.map.bind HeldMap.step).filter (fun st => !st.inFlight)

/-- The translation of the sector of a buffer. -/
def bufTranslation (b : Bridge) (i : BufIdx) : Option Translation := (b.buf i).lsn.bind (translate b)

/-- The load's sector translates to LOST: it cannot be ordered (R91). -/
def isLostLoad (b : Bridge) (i : BufIdx) : Bool := loadPending b i && bufTranslation b i == some .lost

/-- The kind and the first PSA of the order for a piece of pending work (R91), or `none` when it is not pending or
cannot be ordered. -/
def workOrder (b : Bridge) : Work → Option (OrderKind × Nat)
  | .load i => if loadPending b i then ((bufTranslation b i).bind Translation.psa).map (fun p => (.read, p)) else none
  | .phase i =>
    if phasePending b i then
      (b.buf i).flush.bind (fun f => f.phase.kind.bind (fun k => f.target.map (fun p => (k, p))))
    else none
  | .map => (pendingStep b).map (fun st => (st.pass.kind, 1))

/-- Every piece of work that could be pending. -/
def allWork : List Work := allBufs.map .load ++ allBufs.map .phase ++ [.map]

/-- The pending work of classes 1 to 5. -/
def pendingWork (b : Bridge) : List Work :=
  allWork.filter (fun w => (workOrder b w).isSome || (match w with
    | .load i => isLostLoad b i
    | .phase _ | .map => false))

/-! ### Classes and the choice within a class (R87, R89) -/

/-- The entry of a key is a STREAM READ. -/
def isStream (b : Bridge) (k : Key) : Bool := (b.entry k).any (fun e => e.cls == some .stream)

/-- The class of a piece of pending work (R87). -/
def workClass (b : Bridge) : Work → Nat
  | .load i =>
    match (b.buf i).load with
    | none => 3
    | some l =>
      if l.readers.any (isStream b) then 1
      else if l.fillNeed && (b.buf i).flush.any (fun f => isUrgent f.causes) then 2
      else 3
  | .phase i => if (b.buf i).flush.any (fun f => isUrgent f.causes) then 2 else 4
  | .map => if b.cart.state = .quiescing then 2 else 5

/-- The pending stamp of a piece of work (R86). -/
def workStamp (b : Bridge) : Work → Nat
  | .load i => ((b.buf i).load.map Load.stamp).getD 0
  | .phase i => ((b.buf i).flush.map Flush.stamp).getD 0
  | .map => ((pendingStep b).map MapStep.stamp).getD 0

/-- The least of a list by an order, the first of equals. -/
def leastBy {α : Type} (before : α → α → Bool) : List α → Option α
  | [] => none
  | a :: l => some (l.foldl (fun best x => if before x best then x else best) a)

/-- The deadline distance and admission number of a STREAM reader (R89). -/
def readerRank (b : Bridge) (k : Key) : Int × Nat :=
  match b.entry k with
  | some e => (ahead b.clock (e.deadline.getD 0), e.seq)
  | none => (0, 0)

/-- A STREAM reader ranks before another: the earlier expiry, then the earlier admission. -/
def rankBefore (p q : Int × Nat) : Bool := p.1 < q.1 || (p.1 == q.1 && p.2 < q.2)

/-- The rank of the deciding reader of a load (R89): the STREAM reader whose deadline expiry is earliest. R89 does not say
which of two STREAM readers of one load with equal expiries decides; here it is the one admitted first (log entry 38, DESIGN
CHOICE). -/
def decidingRank (b : Bridge) : Work → Int × Nat
  | .load i =>
    let readers := (((b.buf i).load.map Load.readers).getD []).filter (isStream b)
    (leastBy rankBefore (readers.map (readerRank b))).getD (0, 0)
  | .phase _ | .map => (0, 0)

/-- A piece of work is chosen before another of the same class: in class 1 by the deciding reader, then by stamp
(R89). -/
def chosenBefore (b : Bridge) (v w : Work) : Bool :=
  let old := workStamp b v < workStamp b w
  if workClass b v = 1 ∧ workClass b w = 1 then
    let p := decidingRank b v
    let q := decidingRank b w
    rankBefore p q || (p == q && old)
  else old

/-- A piece of work ranks before another: the lower class, and within the class as R89 states. -/
def workBefore (b : Bridge) (v w : Work) : Bool :=
  workClass b v < workClass b w || (workClass b v == workClass b w && chosenBefore b v w)

/-- The pending work of classes 2 and 3 (R90). -/
def ordinaryWork (b : Bridge) (works : List Work) : List Work :=
  works.filter (fun w => workClass b w == 2 || workClass b w == 3)

/-- The piece of work that the arbiter chooses (R89, R90). -/
def chooseWork (b : Bridge) (works : List Work) : Option Work :=
  match ordinaryWork b works with
  | [] => leastBy (workBefore b) works
  | ordinary =>
    if b.arb.streak = 8 then leastBy (fun v w => workStamp b v < workStamp b w) ordinary
    else leastBy (workBefore b) works

/-- The streak count after a grant of a piece of work (R90). -/
def nextStreak (b : Bridge) (works : List Work) (w : Work) : Nat :=
  if workClass b w = 1 ∧ ordinaryWork b works ≠ [] then min (b.arb.streak + 1) 8 else 0

/-! ### Issuing an order (R83, R92) -/

/-- The order is in flight: it takes the next order number, and its timeout runs (R83). -/
def issueOrder (b : Bridge) (kind : OrderKind) (pieces : List Piece) (data : List SectorData) : Bridge :=
  { b with arb := { b.arb with
      order := some { number := b.arb.nextNumber, kind, pieces, data, issued := b.clock,
                      expiry := later b.clock b.mgmt.settings.orderTimeout }
      nextNumber := b.arb.nextNumber + 1 } }

/-- A life-cycle order becomes pending, with its stamp (R86, R101, R103). -/
def askLife (b : Bridge) (o : LifeOrder) : Bridge :=
  takeStamp { b with arb := { b.arb with life := some o, lifeStamp := b.arb.stamps } }

/-- A class 0 order is issued: the streak count becomes 0 and the ask is met (R90, R103). -/
def issueLife (b : Bridge) (kind : OrderKind) (pieces : List Piece) : Bridge :=
  let b1 := issueOrder b kind pieces []
  { b1 with arb := { b1.arb with streak := 0, life := none } }

/-- The data of one piece of a WRITE order, as its owner gives it at the issue (R83, R113, R134). A load and a mount read
are never written. -/
def pieceData (b : Bridge) : Piece → SectorData
  | .phase i _ _ => .user (givenData (b.buf i))
  | .map psa => b.dm.staging[Fin.ofNat 4 (psa - 1)]
  | .load i _ _ => .user (b.buf i).data
  | .mount _ => b.dm.staging[0]

/-- A flush phase goes IN_FLIGHT. At the first WRITE the buffer becomes COMMITTING, which holds no load (R60, R92,
R113; log entry 10). -/
def startPhase (kind : OrderKind) (x : Buffer) : Buffer :=
  let y := { x with flush := x.flush.map (fun f => { f with stage := some .inFlight }) }
  if kind = .write ∧ x.state = .opened then { y with state := .committing, load := none } else y

/-- A piece of the run leaves PENDING (R92). -/
def startPiece (kind : OrderKind) (b : Bridge) : Piece → Bridge
  | .load i _ psa =>
    b.putBuf i { b.buf i with
      load := (b.buf i).load.map (fun l => { l with stage := .inFlight, orderedAt := some psa }) }
  | .phase i _ _ => b.putBuf i (startPhase kind (b.buf i))
  | .map _ =>
    match b.dm.map with
    | none => b
    | some m => putMap b { m with step := m.step.map (fun st => { st with inFlight := true }) }
  | .mount _ => b

/-! ### Building a run (R91) -/

/-- The piece that a load or a phase makes, with the PSA of its order, when it is of the kind. -/
def asPiece (b : Bridge) (kind : OrderKind) (w : Work) : Option (Nat × Piece) :=
  match workOrder b w with
  | none => none
  | some (k, psa) =>
    if k = kind then
      match w with
      | .load i => some (psa, .load i ((b.buf i).lsn.getD 0) psa)
      | .phase i => some (psa, .phase i ((b.buf i).lsn.getD 0) psa)
      | .map => none
    else none

/-- Grow a run upward from PSA `p` for at most `n` PSAs, on the track of `start`. -/
def growUp (l : Label) (ps : List (Nat × Piece)) (start : Nat) : Nat → Nat → List Piece
  | 0, _ => []
  | n + 1, p =>
    if sameTrack l start p then
      match ps.find? (fun q => q.1 == p) with
      | some q => q.2 :: growUp l ps start n (p + 1)
      | none => []
    else []

/-- Grow a run downward from below PSA `p` for at most `n` PSAs, on the track of `start`. The pieces come in PSA
order. -/
def growDown (l : Label) (ps : List (Nat × Piece)) (start : Nat) : Nat → Nat → List Piece
  | 0, _ => []
  | _, 0 => []
  | n + 1, p + 1 =>
    if sameTrack l start p then
      match ps.find? (fun q => q.1 == p) with
      | some q => growDown l ps start n p ++ [q.2]
      | none => []
    else []

/-- The pieces of the run of a chosen load or phase: upward first, then downward, up to 16 PSAs (R91). -/
def runPieces (b : Bridge) (kind : OrderKind) (psa : Nat) (chosen : Piece) : List Piece :=
  match b.cart.layout with
  | none => [chosen]
  | some l =>
    let ps := (pendingWork b).filterMap (asPiece b kind)
    let up := growUp l ps psa 15 (psa + 1)
    let down := growDown l ps psa (15 - up.length) psa
    down ++ chosen :: up

/-- The pieces of the order for a chosen piece of work: the map sectors as a run of their own, and otherwise the run
that grows from it. -/
def orderPieces (b : Bridge) (kind : OrderKind) (psa : Nat) : Work → List Piece
  | .map => [.map 1, .map 2, .map 3, .map 4]
  | .load i => runPieces b kind psa (.load i ((b.buf i).lsn.getD 0) psa)
  | .phase i => runPieces b kind psa (.phase i ((b.buf i).lsn.getD 0) psa)

/-- Issue the order of a piece of work, with the streak count of its grant (R90 to R92). -/
def issueWork (b : Bridge) (w : Work) (kind : OrderKind) (psa streak : Nat) : Bridge :=
  let pieces := orderPieces b kind psa w
  let b1 := issueOrder b kind pieces (if kind = .write then pieces.map (pieceData b) else [])
  pieces.foldl (startPiece kind) { b1 with arb := { b1.arb with streak } }

/-- A load whose translation is LOST ends unrecovered at once (R72, R91). -/
def endLostLoad (b : Bridge) (i : BufIdx) : Bridge := if isLostLoad b i then loadLost b i else b

/-- Grant the head to a piece of work (R88 to R92). The building of a READ order finds every LOST load; when the chosen
piece is no longer pending, the arbiter chooses again. -/
def grantWork (b : Bridge) : Option Bridge :=
  let works := pendingWork b
  (chooseWork b works).map fun w =>
    let streak := nextStreak b works w
    let b1 := match w with
      | .load _ => b.forBufs endLostLoad
      | .phase _ | .map => b
    match workOrder b1 w with
    | some (kind, psa) => issueWork b1 w kind psa streak
    | none => b1

/-! ### The grant by cartridge state (R88, R101 to R103) -/

/-- The pieces of a mount read (R143). -/
def mountPieces : MountRead → List Piece
  | .label => [.mount 0]
  | .map => [.mount 1, .mount 2, .mount 3, .mount 4]

/-- The arbiter grants classes 1 to 5: READY, or QUIESCING before a forced expiry (R88, R150). -/
def serves (b : Bridge) : Bool :=
  b.cart.state == .ready || (b.cart.state == .quiescing && !b.cart.quiesce.any Quiesce.ending)

/-- No order is in flight and no work of classes 1 to 5 that may be granted is pending (R102). -/
def isIdle (b : Bridge) : Bool := b.arb.order.isNone && (!serves b || (pendingWork b).isEmpty)

/-- A SPIN_UP is due (R101): it becomes pending with a stamp, or keeps the stamp of its order that timed out (R86, R97). -/
def dueSpinUp (b : Bridge) : Bridge := if b.arb.life = some .demandSpinUp then b else askLife b .demandSpinUp

/-- No life-cycle order is pending any more. -/
def dropLife (b : Bridge) : Bridge := { b with arb := { b.arb with life := none } }

/-- The grant while the arbiter serves. With no work pending an asked SPIN_DOWN is granted (R102) and no SPIN_UP is due;
with work pending a demand SPIN_UP comes before it (R101), and otherwise an asked SPIN_DOWN is dropped (R102) and the work
is granted. -/
def grantServing (b : Bridge) : Option Bridge :=
  if (pendingWork b).isEmpty then
    (match b.arb.life with
    | some .spinDown => some (issueLife b .spinDown [])
    | some .demandSpinUp => some (dropLife b)
    | some .insertSpinUp | some .recoverSpinUp | some .eject | none => none)
  else if b.cart.spindle = .parked then some (issueLife (dueSpinUp b) .spinUp [])
  else grantWork (dropLife b)

/-- One grant of the arbiter, when no order is in flight and the state lets it grant something (R88). -/
def arbiterStep (b : Bridge) : Option Bridge :=
  if b.arb.order.isSome then none
  else match b.cart.state with
    | .empty | .settling | .unusable => none
    | .spinup => if b.arb.life = some .insertSpinUp then some (issueLife b .spinUp []) else none
    | .mounting => b.cart.mountStep.map (fun st => issueLife b .read (mountPieces st.read))
    | .ready | .quiescing => if serves b then grantServing b else none
    | .ejecting => if b.arb.life = some .eject then some (issueLife b .eject []) else none
    | .halted => if b.arb.life = some .recoverSpinUp then some (issueLife b .spinUp []) else none

/-! ### Results of loads (R93 to R95) -/

/-- The reader of a load that was admitted first (R182). -/
def firstReader (b : Bridge) (l : Load) : Option Key :=
  leastBy (fun j k => ((b.entry j).map Entry.seq).getD 0 < ((b.entry k).map Entry.seq).getD 0) l.readers

/-- A load's sector failed (R94): it is retried, withdrawn when no longer needed, or it ends unrecovered with a hard
read error and READ_UNRECOVERED (log entry 11). -/
def loadFailed (b : Bridge) (i : BufIdx) (l : Load) (lsn psa : Nat) : Bridge :=
  if l.retries < b.mgmt.settings.retryLimit then
    (if l.readers = [] ∧ l.fillNeed = false then withdrawLoad b i
    else b.putBuf i { b.buf i with
      load := some { l with stage := .pending, retries := l.retries + 1, orderedAt := none } })
  else
    let reader := firstReader b l
    let b1 := loadLost b i
    record { b1 with cart := { b1.cart with hard := satInc 65535 b1.cart.hard } }
      { kind := .readUnrecovered, time := b.clock, lsn := some lsn, psa := some psa, retries := some l.retries,
        orig := reader.map Key.orig, tag := reader.map Key.tag }

/-- A load's sector came back GOOD (R95): a soft read error after a retry, and a relocation at the threshold while the
write state is WRITABLE. -/
def loadCame (b : Bridge) (i : BufIdx) (l : Load) (d : Option SectorData) : Bridge :=
  let b1 := if 1 ≤ l.retries then { b with cart := { b.cart with soft := satInc 65535 b.cart.soft } } else b
  loadGood b1 i (asQuad d) (decide (b.mgmt.settings.relocThreshold ≤ l.retries) && isWritable b)

/-- The outcome of one sector of a READ order for a load, applied when its buffer still holds the sector with the load
in flight (R73, R93). -/
def loadEnded (b : Bridge) (i : BufIdx) (lsn psa : Nat) (o : SectorOutcome) : Bridge :=
  match (b.buf i).load with
  | none => b
  | some l =>
    if (b.buf i).lsn = some lsn ∧ l.stage = .inFlight then
      match o with
      | .good d => loadCame b i l d
      | .noId | .dataError | .writeFault => loadFailed b i l lsn psa
    else b

/-- The outcome of one sector, handed to the owner of its piece (R93, R96). The outcomes of a map write-back step and
of a mount read are judged together, apart from this. -/
def pieceEnded (kind : OrderKind) (b : Bridge) (p : Piece) (o : SectorOutcome) : Bridge :=
  match p with
  | .load i lsn psa => loadEnded b i lsn psa o
  | .phase i _ psa => phaseEnded b i psa kind o
  | .map _ | .mount _ => b

/-! ### Abandoning an order (R97, R99) -/

/-- A piece of an abandoned order returns to PENDING with its stamp (R97). -/
def returnPiece (b : Bridge) (p : Piece) : Bridge :=
  match p with
  | .load i _ _ =>
    b.putBuf i { b.buf i with
      load := (b.buf i).load.map (fun l => if l.stage = .inFlight then { l with stage := .pending, orderedAt := none } else l) }
  | .phase i _ _ =>
    b.putBuf i { b.buf i with
      flush := (b.buf i).flush.map (fun f => if f.stage = some .inFlight then { f with stage := some .pending } else f) }
  | .map _ => mapStepReturned b
  | .mount _ => b

/-- The order in flight is abandoned: its pieces are pending again, and loads no longer needed are withdrawn (R97,
R100). -/
def abandonOrder (b : Bridge) (o : Order) : Bridge :=
  sweepLoads (o.pieces.foldl returnPiece { b with arb := { b.arb with order := none } })

/-- The PSA of a piece. -/
def Piece.psa : Piece → Nat
  | .load _ _ psa => psa
  | .phase _ _ psa => psa
  | .map psa => psa
  | .mount psa => psa

/-- The first PSA of a run. -/
def Order.firstPsa (o : Order) : Option Nat := o.pieces.head?.map Piece.psa

/-- The sector count of a run. -/
def Order.sectorCount (o : Order) : Option Nat := if o.pieces = [] then none else some o.pieces.length

end Sys2Proof.Machine
end

