-- ==== Sys2Proof/Machine/Cartridge.lean ====
section
/-! DEFINITION. The Cartridge Controller (spec/08_cartridge_life_cycle.md): asking for life-cycle orders (R103), the
settle (R141), the mount (R142 to R144), the quiesce (R148, R150), entering EJECTING (R151), the end of an eject (R152),
removal (R153), HALTED (R154), RECOVER (R155) and the spin-down timer (R146). -/

namespace Sys2Proof.Machine

/-- Change the cartridge record. -/
def withCart (b : Bridge) (f : CartRecord → CartRecord) : Bridge := { b with cart := f b.cart }

/-! ### Asking for mount reads (R86, R103) -/

/-- A mount read is made pending (R143). -/
def askMount (b : Bridge) (st : MountStep) : Bridge :=
  takeStamp { b with
    arb := { b.arb with mountStamp := b.arb.stamps }
    cart := { b.cart with mountStep := some st } }

/-! ### Answers of the life cycle (R54, R55) -/

/-- The entry is an EJECT that waits. -/
def isEjectWait (e : Entry) : Bool := e.op == .eject && e.state == .awaitEject

/-- The entry is a RECOVER that waits. -/
def isRecoverWait (e : Entry) : Bool := e.op == .recover && e.state == .awaitMech

/-- Answer the EJECT that waits, if there is one. -/
def answerEject (b : Bridge) (st : Status) : Bridge := answerAll b isEjectWait st

/-- Answer the RECOVER that waits, if there is one. -/
def answerRecover (b : Bridge) (st : Status) : Bridge := answerAll b isRecoverWait st

/-! ### Settle (R141) -/

/-- A settle starts, or starts afresh: the write state is set from the tab (R141). -/
def startSettle (b : Bridge) (tab : Bool) : Bridge :=
  withCart b fun c =>
    { c with
      state := .settling, writeState := some (if tab then .isProtected else .writable),
      settleExpiry := some (later b.clock b.mgmt.settings.settleTime), reason := none }

/-- A PRESENCE on (R141). -/
def presenceArrives (b : Bridge) (tab : Bool) : Bridge :=
  match b.cart.state with
  | .empty | .settling => startSettle b tab
  | .spinup | .mounting | .ready | .quiescing | .ejecting | .unusable | .halted => b

/-- The settle expiry: SPINUP, and the SPIN_UP of the insertion is asked for (R141). -/
def endSettle (b : Bridge) : Bridge :=
  askLife (withCart b fun c => { c with state := .spinup, settleExpiry := none }) .insertSpinUp

/-! ### UNUSABLE and HALTED (R142, R143, R154) -/

/-- The cartridge is refused (R142, R143). -/
def enterUnusable (b : Bridge) (r : Reason) : Bridge :=
  raiseEvent { b with
    cart := { b.cart with state := .unusable, reason := some r, mountStep := none }
    arb := { b.arb with life := none } } .cartridgeUnusable

/-- The cartridge enters HALTED (R154): answers, record, counts, attention. -/
def enterHalted (b : Bridge) : Bridge :=
  let b1 := withCart b fun c => { c with state := .halted }
  let b2 := answerAll b1 (fun e => isActive e || isEjectWait e) .mechFault
  raiseEvent { b2 with
    cart := { b2.cart with quiesce := none, ejectWaiting := none, mountStep := none, spinTimer := none }
    arb := { b2.arb with life := none, streak := 0 } } .mechHalted

/-! ### Mount (R142 to R144) -/

/-- The SPIN_UP of the insertion ended GOOD (R142). -/
def startMount (b : Bridge) : Bridge :=
  askMount (withCart b fun c => { c with state := .mounting }) ⟨.label, 1⟩

/-- The reason of a mount read that failed four times (R143). -/
def failReason : MountRead → Reason
  | .label => .badLabel
  | .map => .mapUnreadable

/-- A mount read's attempt failed with a completion (R143). -/
def mountFailed (b : Bridge) (st : MountStep) : Bridge :=
  if st.attempt < 4 then askMount b ⟨st.read, st.attempt + 1⟩ else enterUnusable b (failReason st.read)

/-- A mount read's attempt failed by a timeout: below the fourth attempt the read is pending again with its stamp
(R143). -/
def mountTimedOut (b : Bridge) (st : MountStep) : Bridge :=
  if st.attempt < 4 then withCart b fun c => { c with mountStep := some ⟨st.read, st.attempt + 1⟩ }
  else enterUnusable b (failReason st.read)

/-- The data of the label sector, as label fields. -/
def asLabel (d : SectorData) : Label :=
  match d with
  | .label l => l
  | .user q => Config.labelOfBytes q
  | .map m => Config.labelOfBytes (Config.mapBytes m)

/-- The label read into the staging area is judged, and then its zone table; a pass records the held layout and moves to the
map (R3, R5, R7, R10, R143). -/
def judgeLabel (b : Bridge) : Bridge :=
  let l := asLabel b.dm.staging[0]
  if !labelOk l then enterUnusable b .badLabel
  else if !zonesOk l then enterUnusable b .badZones
  else askMount (withCart b fun c => { c with layout := some l }) ⟨.map, 1⟩

/-- The map as it is held at acceptance (R126). -/
def acceptedMap (entries : List MapEntry) (generation : BitVec 32) : HeldMap :=
  { entries, generation, saved := generation, lastChange := none, writeState := .clean, attempt := none, step := none }

/-- The map is accepted: the cartridge enters READY (R144). -/
def acceptMount (b : Bridge) (entries : List MapEntry) (generation : BitVec 32) : Bridge :=
  raiseEvent { b with
    dm := { b.dm with map := some (acceptedMap entries generation) }
    cart := { b.cart with
      state := .ready, soft := 0, hard := 0, remaps := 0, relocations := 0, deferred := 0, mountStep := none } }
    .cartridgeReady

/-- The four map sectors read into the staging area are judged, and stay there (R3, R14, R126, R143). -/
def judgeMapRead (b : Bridge) : Bridge :=
  match b.cart.layout with
  | none => enterUnusable b .badMap
  | some l => match judgeMap l (b.dm.staging.toList.map asMapSector) with
    | none => enterUnusable b .badMap
    | some entries => acceptMount b entries (asMapSector b.dm.staging[0]).generation

/-- The outcome is GOOD. -/
def outcomeGood : SectorOutcome → Bool
  | .good _ => true
  | .noId | .dataError | .writeFault => false

/-- A mount read's completion: its GOOD data goes to the staging area, and the read is judged there, or it failed (R93,
R143). -/
def mountReadEnded (b : Bridge) (outcomes : List SectorOutcome) : Bridge :=
  match b.cart.mountStep with
  | none => b
  | some st =>
    let b1 := stageRead b outcomes
    if outcomes.all outcomeGood then
      match st.read with
      | .label => judgeLabel b1
      | .map => judgeMapRead b1
    else mountFailed b1 st

/-! ### Quiesce (R148, R150) -/

/-- A quiesce begins (R148): the jobs gain QUIESCE and the OPEN buffers are made jobs, and a DIRTY map starts its
write-back. -/
def beginQuiesce (b : Bridge) (source : EjectSource) (forced : Bool) : Bridge :=
  let b1 := withCart b fun c =>
    { c with state := .quiescing, spinTimer := none,
             quiesce := some ⟨source, forced, later b.clock b.mgmt.settings.quiesceTimeout, false⟩ }
  tryMapWrite (syncJobs (addQuiesce b1))

/-- The quiesce is over without an eject: READY again, the jobs lose QUIESCE, and a DIRTY map waits its delay (R150). -/
def leaveQuiesce (b : Bridge) : Bridge :=
  tryMapWrite (dropQuiesce (withCart b fun c => { c with state := .ready, quiesce := none }))

/-- The eject is refused (R150). -/
def refuseEject (b : Bridge) : Bridge := raiseEvent (answerEject (leaveQuiesce b) .ejectRefused) .ejectRefused

/-! ### Eject and removal (R151 to R153) -/

/-- Discarded data is recorded and counted as one deferred error when there was any (R81, R151, R153). -/
def reportDiscard (b : Bridge) (n : Nat) : Bridge :=
  if 1 ≤ n then
    record (withCart b fun c => { c with deferred := satInc 255 c.deferred })
      { kind := .dataDiscarded, time := b.clock, sectorCount := some n }
  else b

/-- Steps 1 to 3 of entering EJECTING (R151): answers, discard, map. -/
def beginEject (b : Bridge) : Bridge :=
  let b1 := answerAll b isActive .mediaGone
  abandonMapWrite (reportDiscard (discardWhere b1 isDirty) (dirtyCount b1))

/-- The cartridge enters EJECTING (R151). -/
def enterEjecting (b : Bridge) : Bridge :=
  let b1 := withCart b fun c => { c with state := .ejecting, spinTimer := none }
  let b2 := if b.cart.ejectBegun then b1 else beginEject b1
  askLife (withCart b2 fun c =>
    { c with quiesce := none, ejectWaiting := none, mountStep := none, ejectBegun := true }) .eject

/-- The record of a bridge that holds no cartridge any more; the counters and the deferred-error count keep their
values (R51, R140). -/
def CartRecord.gone (c : CartRecord) : CartRecord :=
  { c with
    state := .empty, writeState := none, spindle := .parked, layout := none, reason := none, mountStep := none,
    ejectWaiting := none, ejectBegun := false, quiesce := none, settleExpiry := none, spinTimer := none }

/-- The cartridge is gone: the map is forgotten, the record is emptied, and the timeout and streak counts become 0
(R98, R126, R152, R153). -/
def becomeEmpty (b : Bridge) : Bridge :=
  let b1 := withCart (forgetMap b) CartRecord.gone
  { b1 with arb := { b1.arb with life := none, streak := 0, timeouts := 0 } }

/-- The eject is complete (R152). -/
def ejectComplete (b : Bridge) : Bridge :=
  let b1 := discardWhere b (fun x => x.state != .free)
  raiseEvent (answerEject (becomeEmpty b1) .ok) .cartridgeGone

/-- A surprise removal (R153). -/
def removeCartridge (b : Bridge) : Bridge :=
  let b1 := { b with arb := { b.arb with order := none, life := none } }
  let b2 := answerAll b1 (fun e => isActive e || isEjectWait e || isRecoverWait e) .mediaGone
  let b3 := reportDiscard (discardWhere b2 (fun x => x.state != .free)) (dirtyCount b2)
  raiseEvent (becomeEmpty (abandonMapWrite b3)) .cartridgeGone

/-- The end of a settle without attention (R141). -/
def abortSettle (b : Bridge) : Bridge := becomeEmpty b

/-! ### RECOVER (R155) -/

/-- The SPIN_UP of a RECOVER ended GOOD (R155). -/
def recoverGood (b : Bridge) : Bridge :=
  let b1 := withCart b fun c => { c with spindle := .spinning }
  if b1.cart.ejectBegun then answerRecover (enterEjecting b1) .ok
  else if b1.dm.map.isSome then
    let b2 := tryMapWrite (dropQuiesce (withCart b1 fun c => { c with state := .ready }))
    raiseEvent (answerRecover b2 .ok) .cartridgeReady
  else
    let b2 := withCart b1 fun c => { c with state := .mounting }
    answerRecover (askMount b2 ⟨if b2.cart.layout.isSome then .map else .label, 1⟩) .ok

/-! ### The spin-down timer (R146) -/

/-- The spin-down delay in milliseconds. -/
def spinDownMs (b : Bridge) : Nat := 1000 * b.mgmt.settings.spinDownDelay

/-- The spin-down timer has run out: the clock has reached its start plus the delay (R146). -/
def spinDownDue (b : Bridge) : Bool :=
  b.mgmt.settings.spinDownDelay != 0 && b.cart.spinTimer.any (fun t => spinDownMs b ≤ elapsed b.clock t)

/-- The controller asks for SPIN_DOWN, and the timer stops (R146). -/
def askSpinDown (b : Bridge) : Bridge := askLife b .spinDown

/-- The four conditions under which the spin-down timer runs hold (R146). -/
def timerRuns (b : Bridge) : Bool :=
  b.cart.state == .ready && b.cart.spindle == .spinning && isIdle b && b.mgmt.settings.spinDownDelay != 0

/-- The spin-down timer starts when the last of its conditions comes to hold, and stops when any ceases (R146). -/
def refreshTimer (b : Bridge) : Bridge :=
  withCart b fun c =>
    { c with spinTimer := if timerRuns b then some (c.spinTimer.getD b.clock) else none }

/-! ### Eject requests (R147) -/

/-- A RECOVER's SPIN_UP is asked for or in flight (R147, R155). -/
def recoverUnderWay (b : Bridge) : Bool :=
  b.cart.state == .halted && (b.arb.order.isSome || b.arb.life == some .recoverSpinUp)

/-- What an eject request does by the cartridge state (R147), or `none` when it is ignored or answered WRONG_STATE. -/
def requestEject (b : Bridge) (source : EjectSource) (forced : Bool) : Option Bridge :=
  match b.cart.state with
  | .empty | .settling | .quiescing | .ejecting => none
  | .spinup | .mounting =>
    if b.cart.ejectWaiting.isSome then none
    else some (withCart b fun c => { c with ejectWaiting := some source })
  | .ready => some (beginQuiesce b source forced)
  | .unusable => some (enterEjecting b)
  | .halted => if recoverUnderWay b then none else some (enterEjecting b)

/-- An eject waits in SPINUP or MOUNTING (R147). -/
def ejectWaits (b : Bridge) : Bool :=
  (b.cart.state == .spinup || b.cart.state == .mounting) && b.cart.ejectWaiting.isSome

end Sys2Proof.Machine
end

