-- ==== Sys2Proof/Machine/Settle.lean ====
section
/-! DEFINITION. What follows within the step of every event that touches the pool, the mechanism or the cartridge: the
consequences that the manual states as "at once", carried out until none is left (log entry 7). -/

namespace Sys2Proof.Machine

/-! ### The pool and the flush jobs -/

/-- The lowest buffer whose job has come to its permanent failure without an answer to wait for: REMAP with no request
(R110; the lowest first: log entry 7). -/
def failDue (b : Bridge) : Option BufIdx :=
  allBufs.find? (fun i => (b.buf i).flush.any (fun f => f.phase == .remap && f.request.isNone))

/-- One consequence in the pool: a permanent failure that is due (R110), a start or an end of pool pressure (R64), the
grant of the head of the reservation queue (R66), or a test of eligibility that is still to be made (R107), in this order
(log entry 7). -/
def poolStep (b : Bridge) : Option Bridge :=
  match failDue b with
  | some i => some (permanentFailure b i none)
  | none =>
    if b.pool.pressure != pressureNow b then some (notePressure b)
    else match b.pool.resQueue with
      | k :: _ =>
        if (b.entry k).isNone || mayGrant b k then some (grant b k)
        else if b.pool.testDue.isEmpty then none else some b
      | [] => if b.pool.testDue.isEmpty then none else some b

/-- The jobs are brought up to date, and one consequence in the pool is carried out, with those that follow it. -/
def poolOnce (rest : Bridge → Bridge) (b : Bridge) : Bridge :=
  let b1 := syncJobs b
  match poolStep b1 with
  | none => b1
  | some b2 => rest b2

/-- Carry out the pool's consequences, at most `n` of them. -/
def poolSettleFor : Nat → Bridge → Bridge
  | 0 => id
  | n + 1 => poolOnce (poolSettleFor n)

/-- More consequences than the pool can have at one event. -/
def poolFuel : Nat := 400

/-- Carry out the pool's consequences (R64, R66, R106, R107, R110). -/
def poolSettle (b : Bridge) : Bridge := poolSettleFor poolFuel b

/-! ### The cartridge and the head -/

/-- A quiesce ends in EJECTING: every selected condition is met, or a forced expiry has passed, and no order is in
flight (R149, R150). -/
def quiesceEnds (b : Bridge) : Bool :=
  b.cart.state == .quiescing && b.arb.order.isNone
    && (b.cart.quiesce.any Quiesce.ending || conditionsUnmet b == 0)

/-- One consequence at the head: a waiting eject is acted on (R147), a quiesce ends (R149), or the arbiter makes a grant
(R88). -/
def headStep (b : Bridge) : Option Bridge :=
  if (ejectWaits b && b.arb.order.isNone) || quiesceEnds b then some (enterEjecting b)
  else arbiterStep b

/-- The pool's consequences are carried out, and one at the head, with those that follow it. -/
def settleOnce (rest : Bridge → Bridge) (b : Bridge) : Bridge :=
  let b1 := poolSettle b
  match headStep b1 with
  | none => b1
  | some b2 => rest b2

/-- Carry out the consequences of an event, at most `n` at the head. -/
def settleFor : Nat → Bridge → Bridge
  | 0 => id
  | n + 1 => settleOnce (settleFor n)

/-- More consequences than the head can have at one event. -/
def headFuel : Nat := 100

/-- Carry out the consequences of an event. -/
def settle (b : Bridge) : Bridge := settleFor headFuel b

/-- The end of every step that touches the pool, the mechanism or the cartridge: its consequences, the report of idleness
(R102, R146), and the transmissions that may begin (R160, R163). -/
def finish (b : Bridge) : Bridge := pump (refreshTimer (settle b))

end Sys2Proof.Machine
end

