-- ==== Sys2Proof/Machine/Router.lean ====
section
/-! DEFINITION. The Router (spec/02_windows_gaps_and_read_classes.md): claims and translation (R19, R20), the block test
(R22), the checks of a claimed request (R23), the pass-through test and the forwarding of a frame (R24, R25, R56), and
the class of a READ (R32). -/

namespace Sys2Proof.Machine

/-! ### Claims (R19, R20) -/

/-- Unit block `x` lies in the gap of the window (R19). -/
def inGap (w : Window) (x : Nat) : Bool := w.gap.any (fun g => g.first ≤ x && x ≤ g.first + g.count - 1)

/-- The window claims unit block `x` of unit `u` (R19). -/
def claims (w : Window) (u x : Nat) : Bool := w.enabled && w.unit == u && w.first ≤ x && x ≤ w.last && !inGap w x

/-- The cartridge block of a unit block that the window claims (R19). -/
def cbOf (w : Window) (x : Nat) : Nat :=
  match w.gap with
  | none => w.start + (x - w.first)
  | some g => if g.first + g.count ≤ x then w.start + (x - w.first) - g.count else w.start + (x - w.first)

/-- The claiming window of a unit block: the enabled window of lowest index that claims it (R20). -/
def claimingWindow (r : Router) (u x : Nat) : Option (Fin 16) :=
  (List.finRange 16).find? (fun i => claims r.windows[i] u x)

/-- The enabled window count of a unit (R25). -/
def enabledCount (r : Router) (u : Nat) : Nat :=
  ((List.finRange 16).filter (fun i => r.windows[i].enabled && r.windows[i].unit == u)).length

/-- The results of the block test (R22). -/
inductive BlockTest where
  | claimed (index : Fin 16)
  | spans
  | unclaimed
deriving DecidableEq, Repr

/-- The block test of a READ or WRITE on unit `u` (R22). The blocks are claimed by one window when each of them has that
window as its claiming window: then the window claims them all, and no lower enabled window claims any. -/
def blockTest (r : Router) (u : Nat) (blocks : List Nat) : BlockTest :=
  match blocks.head?.bind (claimingWindow r u) with
  | some i => if blocks.all (fun x => claimingWindow r u x == some i) then .claimed i else .spans
  | none => if blocks.all (fun x => (claimingWindow r u x).isNone) then .unclaimed else .spans

/-! ### Checks of a claimed request (R23) -/

/-- The status that the cartridge state gives a claimed request, or `none` in READY (R23, check 2). -/
def stateRefusal (s : CartState) : Option Status :=
  match s with
  | .ready => none
  | .empty | .settling | .spinup | .mounting => some .notReady
  | .quiescing | .ejecting => some .mediaChanging
  | .unusable => some .mediaUnusable
  | .halted => some .mechFault

/-- The request's last cartridge block is beyond the mounted capacity (R23, check 3). -/
def beyondCapacity (b : Bridge) (cb n : Nat) : Bool :=
  b.cart.layout.all (fun l => 4 * userCount l ≤ cb + n - 1)

/-- The status of the first failing check of a request claimed by a window, or `none` (R23). -/
def claimedRefusal (b : Bridge) (w : Window) (op : Op) (cb n : Nat) : Option Status :=
  if op = .read ∧ w.readAllowed = false then some .readProhibited
  else if op = .write ∧ w.writeAllowed = false then some .writeProhibited
  else (stateRefusal b.cart.state).or (if beyondCapacity b cb n then some .outOfMedia else none)

/-! ### Pass-through (R24, R56, R163, R168) -/

/-- The unit is in the pass-through unit set and the downstream link is UP (R24). -/
def mayPass (b : Bridge) (u : Nat) : Bool := b.mgmt.settings.passUnits.getLsbD u && b.thru.line == .up

/-- A request is forwarded: its entry is FORWARDED with its pass-through timer, and its frame joins the tail of the
forward FIFO (R56, R163, R168). -/
def forward (b : Bridge) (h : Header) (op : Op) (data : List Block) : Bridge :=
  let frame : FwdFrame := ⟨h, op, data, b.table.nextSeq⟩
  let b1 := makeEntry b h op fun e =>
    { e with routing := some .pass, state := .forwarded,
             passExpiry := some (later b.clock b.mgmt.settings.passTimeout) }
  { b1 with thru := { b1.thru with fifo := b1.thru.fifo ++ [frame] } }

/-- An unclaimed request is sent downstream or answered NOT_MAPPED (R24). -/
def passOrRefuse (b : Bridge) (h : Header) (op : Op) (data : List Block) : Bridge :=
  if mayPass b h.unit then forward b h op data else refuse b h op .notMapped

/-- Route a READ or WRITE: its unit and blocks (R21), the block test (R22), and the checks of a claimed request (R23).
What a request that passes them all does is given. -/
def routeBlocks (h : Header) (op : Op) (data : List Block) (accept : Fin 16 → Nat → Bridge → Bridge) (b : Bridge) :
    Bridge :=
  if h.unit = 15 ∨ topBlock < h.block.toNat + h.count.toNat - 1 then refuse b h op .badRequest
  else match blockTest b.router h.unit (blockRun h) with
    | .spans => refuse b h op .spansBoundary
    | .unclaimed => passOrRefuse b h op data
    | .claimed i =>
      let cb := cbOf b.router.windows[i] h.block.toNat
      match claimedRefusal b b.router.windows[i] op cb h.count.toNat with
      | some st => refuse b h op st
      | none => accept i cb b

/-- Route a FLUSH or SENSE: LOCAL when an enabled window has the unit, and otherwise by the pass-through test (R21,
R25). -/
def routeLocal (h : Header) (op : Op) (act : Bridge → Bridge) (b : Bridge) : Bridge :=
  if h.unit = 15 then refuse b h op .badRequest
  else if 0 < enabledCount b.router h.unit then act b
  else passOrRefuse b h op []

/-! ### The class of a READ (R32) -/

/-- A class entry matches a READ (R32). -/
def classMatches (c : ClassEntry) (h : Header) : Bool :=
  c.enabled && c.origs.getLsbD h.orig && c.units.getLsbD h.unit
    && c.range.all (fun r => r.first ≤ h.block.toNat && h.block.toNat + h.count.toNat - 1 ≤ r.last)

/-- The deadline of a READ: that of the first class entry that matches it, or none for a NORMAL READ (R32). -/
def deadlineOf (r : Router) (h : Header) : Option Nat :=
  ((List.finRange 8).find? (fun i => classMatches r.classes[i] h)).map (fun i => r.classes[i].deadline)

end Sys2Proof.Machine
end

