-- ==== Sys2Proof/Machine/Requests.lean ====
section
/-! DEFINITION. The data-unit requests: READ (R42), WRITE (R46, R47, R74), FLUSH (R50), SENSE (R51), ABORT (R52, R56) and
the request of an unknown operation (R38). -/

namespace Sys2Proof.Machine

/-- Change the entry of a key, if there is one. -/
def editEntry (b : Bridge) (k : Key) (f : Entry → Entry) : Bridge :=
  match b.entry k with
  | none => b
  | some e => b.putEntry k (some (f e))

/-- Two answers of one event, in ascending order of key (R40; log entry 8): the request's own answer and the change that
answers another entry. -/
def inKeyOrder (own other : Key) (answerOwn answerOther : Bridge → Bridge) (b : Bridge) : Bridge :=
  if keyIdx own < keyIdx other then answerOther (answerOwn b) else answerOwn (answerOther b)

/-! ### READ (R31, R32, R42) -/

/-- A READ that passed the checks of R23: its entry is made in RESERVING and takes its place in the reservation queue,
whose head is then considered (R31, R42, R66). -/
def admitRead (h : Header) (i : Fin 16) (cb : Nat) (b : Bridge) : Bridge :=
  let deadline := deadlineOf b.router h
  let b1 := makeEntry b h .read fun e =>
    { e with
      routing := some (.window i cb), state := .reserving, sectors := sectorList cb h.count.toNat,
      cls := some (if deadline.isSome then .stream else .normal),
      deadline := deadline.map (later b.clock) }
  insertReservation b1 h.key

/-- READ (R21 to R24, R37, R38, R42). -/
def execRead (h : Header) (s : State) : Host.Outcome State Fault Refusal :=
  s.become fun b => finish (takeRequest b h .read (routeBlocks h .read [] (admitRead h)))

/-! ### WRITE (R39, R46, R47) -/

/-- The status of the first failing admission check of a WRITE, or `none` (R39). -/
def writeRefusal (b : Bridge) (mode : WriteMode) (lsns : List Nat) : Option Status :=
  match b.cart.writeState with
  | some .isProtected => some .writeProtected
  | some .writeLocked => some .mediaLocked
  | some .writable | none =>
    if mode = .confirmed ∧ b.mgmt.settings.confirmedLimit ≤ confirmedCount b then some .retryLater
    else if writeFits b lsns then none
    else some .retryLater

/-- The merged buffer of one sector joins the awaited buffers of a confirmed WRITE, or the sector is failed at once when
that buffer is STRANDED (R47). -/
def awaitMerged (b : Bridge) (e : Entry) (lsn : Nat) : Entry :=
  match currentBuf b lsn with
  | none => e
  | some i =>
    if (b.buf i).state = .stranded then e.failSector lsn
    else { e with awaited := e.awaited.map (fun l => l ++ [i]) }

/-- The entry of an admitted WRITE as its merge leaves it (R31, R46, R47). -/
def writeEntry (b : Bridge) (i : Fin 16) (cb : Nat) (mode : WriteMode) (e : Entry) : Entry :=
  let lsns := sectorList cb e.count.toNat
  let e1 := { e with routing := some (.window i cb), writeMode := some mode, sectors := lsns,
                     blocksDone := e.count.toNat }
  match mode with
  | .posted => e1
  | .confirmed => lsns.foldl (awaitMerged b) { e1 with state := .awaitCommit, awaited := some [] }

/-- The answers that an admitted WRITE brings: its own when it awaits nothing, and those of the READs whose quarters the
merge made valid, in ascending order of key (R40, R43, R46, R49). -/
def answerMerged (k : Key) (mode : WriteMode) (n : Nat) (b : Bridge) : Bridge :=
  b.forKeys fun b j =>
    if j = k then
      match mode with
      | .posted => answer b k .ok n .none
      | .confirmed => finishAwait b k
    else testRead b j

/-- A WRITE that passed the checks of R23: the admission checks of R39, the merge, and the answers. A WRITE that R39 refuses
holds no routing, although the Router had handed it on (log entry 17). -/
def admitWriteRequest (h : Header) (data : List Block) (i : Fin 16) (cb : Nat) (b : Bridge) : Bridge :=
  let n := h.count.toNat
  let mode := b.router.windows[i].writeMode
  match writeRefusal b mode (sectorList cb n) with
  | some st => refuse b h .write st
  | none =>
    let b1 := admitWrite b cb n data
    answerMerged h.key mode n (makeEntry b1 h .write (writeEntry b1 i cb mode))

/-- The payload of a WRITE fits its count, or the count is one that R38 refuses (R158). -/
def writeFormOk (h : Header) (data : List Block) : Bool := !countOk .write h.count.toNat || data.length == h.count.toNat

/-- A frame is discarded as malformed and counted (R158, R162). -/
def countMalformed (b : Bridge) : Bridge :=
  if b.link.resetHeld then b
  else { b with link := { b.link with partialRx := [], malformed := satInc 65535 b.link.malformed } }

/-- WRITE (R21 to R24, R37 to R39, R74). A frame whose payload does not fit its count is malformed (log entry 23). -/
def execWrite (h : Header) (data : List Block) (s : State) : Host.Outcome State Fault Refusal :=
  s.become fun b =>
    if writeFormOk h data then finish (takeRequest b h .write (routeBlocks h .write data (admitWriteRequest h data)))
    else countMalformed b

/-! ### FLUSH (R50) -/

/-- The buffers that a FLUSH awaits (R50). -/
def flushTargets (b : Bridge) : List BufIdx := allBufs.filter (fun i => isUnsaved (b.buf i))

/-- A FLUSH routed LOCAL (R50). -/
def flushLocal (h : Header) (b : Bridge) : Bridge :=
  let awaited := flushTargets b
  let b1 := makeEntry b h .flush fun e => { e with routing := some (.onBridge none) }
  if awaited = [] then answerStatus b1 h.key .ok
  else if b.cart.state = .halted then answerStatus b1 h.key .mechFault
  else editEntry b1 h.key fun e => { e with state := .awaitCommit, awaited := some awaited }

/-- FLUSH (R25, R37, R38, R50). -/
def execFlush (h : Header) (s : State) : Host.Outcome State Fault Refusal :=
  s.become fun b => finish (takeRequest b h .flush (routeLocal h .flush (flushLocal h)))

/-! ### SENSE (R51) -/

/-- The number of a cartridge state (R174). -/
def CartState.code : CartState → Nat
  | .empty => 0 | .settling => 1 | .spinup => 2 | .mounting => 3 | .ready => 4 | .quiescing => 5 | .ejecting => 6
  | .unusable => 7 | .halted => 8

/-- The number of a write state (R174). -/
def WriteState.code : WriteState → Nat
  | .writable => 0 | .isProtected => 1 | .writeLocked => 2

/-- The report of a SENSE on a unit (R51), in the order of the item codes (log entry 32). -/
def senseItems (b : Bridge) (u : Nat) : List Item :=
  [numItem 0x60 1 b.cart.state.code] ++ optItem 0x61 1 ((reportedWriteState b).map WriteState.code)
    ++ [numItem 0x62 1 (enabledCount b.router u), numItem 0x63 1 b.cart.deferred, numItem 0x64 1 (dirtyCount b)]

/-- A SENSE routed LOCAL (R51). -/
def senseLocal (h : Header) (b : Bridge) : Bridge :=
  answerItems (makeEntry b h .sense fun e => { e with routing := some (.onBridge none) }) h.key (senseItems b h.unit)

/-- SENSE (R25, R37, R38, R51). -/
def execSense (h : Header) (s : State) : Host.Outcome State Fault Refusal :=
  s.become fun b => pump (takeRequest b h .sense (routeLocal h .sense (senseLocal h)))

/-! ### ABORT (R26, R52, R56) -/

/-- The target of an ABORT: the same originator, and the tag in the block field (R26, R52). -/
def abortTarget (h : Header) : Key := ⟨h.orig, Fin.ofNat 16 h.block.toNat⟩

/-- The status that answers an ABORT whose target is in a state other than FORWARDED (R52). -/
def abortStatus (b : Bridge) (target : Option Entry) : Status :=
  match target with
  | none => .notFound
  | some e =>
    match e.state with
    | .answered | .forwarded => .notFound
    | .reserving | .fetching | .awaitCommit | .awaitLock => .ok
    | .awaitEject => if b.cart.state = .quiescing then .ok else .tooLate
    | .awaitMech => .tooLate

/-- An originator leaves the pending list of the edit lock (R179). -/
def leavePending (b : Bridge) (o : Originator) : Bridge :=
  { b with mgmt := { b.mgmt with waiting := b.mgmt.waiting.filter (· != o) } }

/-- The effect of an ABORT on its target (R52). -/
def abortEffect (t : Key) (b : Bridge) : Bridge :=
  match b.entry t with
  | none => b
  | some e =>
    match e.state with
    | .answered | .forwarded | .awaitMech => b
    | .reserving | .fetching | .awaitCommit => answerStatus b t .aborted
    | .awaitLock => answerStatus (leavePending b t.orig) t .aborted
    | .awaitEject => if b.cart.state = .quiescing then answerStatus (leaveQuiesce b) t .aborted else b

/-- An ABORT of a FORWARDED target is forwarded itself, and the target becomes abort-pending (R26, R56). -/
def forwardAbort (h : Header) (b : Bridge) : Bridge :=
  forward (editEntry b (abortTarget h) fun e => { e with abortPending := true }) h .abort []

/-- An ABORT handled on the bridge: its own answer and its target's (R52). -/
def abortLocal (h : Header) (b : Bridge) : Bridge :=
  let t := abortTarget h
  let st := abortStatus b (b.entry t)
  let b1 := makeEntry b h .abort fun e => { e with routing := some (.onBridge (some t.tag)) }
  if st = .ok then inKeyOrder h.key t (answerStatus · h.key .ok) (abortEffect t) b1
  else answerStatus b1 h.key st

/-- Route an ABORT by its target (R26). -/
def routeAbort (h : Header) (b : Bridge) : Bridge :=
  if (b.entry (abortTarget h)).any (fun e => e.state == .forwarded) then forwardAbort h b else abortLocal h b

/-- ABORT (R26, R37, R38, R52, R56). -/
def execAbort (h : Header) (s : State) : Host.Outcome State Fault Refusal :=
  s.become fun b => finish (takeRequest b h .abort (routeAbort h))

/-! ### UNKNOWN_OPERATION (R38) -/

/-- UNKNOWN_OPERATION (R37, R38): the content test refuses it. -/
def execUnknownOperation (h : Header) (code : Byte) (s : State) : Host.Outcome State Fault Refusal :=
  s.become fun b => pump (takeRequest b h (.other code) id)

end Sys2Proof.Machine
end

