-- ==== Sys2Proof/Machine/Management.lean ====
section
/-! DEFINITION. The operations of the Management Unit that act on its own state and on the Router's tables
(spec/10_the_management_unit.md): the course of a management request (R21, R176), the edit lock (R177 to R179), the
settings (R180, R181), the window and class entries (R27 to R29, R34), and the operations that reach the cartridge (R147,
R155, R186). -/

namespace Sys2Proof.Machine

/-- Take in a management request: its unit (R21), its items, and the edit lock where the operation needs it (R176). What
the operation then does is given. -/
def manage (h : Header) (op : Op) (items : List Item) (act : Bridge → Bridge) (b : Bridge) : Bridge :=
  takeRequest b h op fun b =>
    if h.unit ≠ 15 then refuse b h op .badRequest
    else
      let b1 := makeEntry b h op fun e => { e with routing := some .management }
      if !itemsOk op items then answerStatus b1 h.key .badRequest
      else if needsLock op && b1.mgmt.holder != some h.orig then answerStatus b1 h.key .lockRequired
      else act b1

/-- The entry of a management request waits in a state (R55). -/
def waitIn (b : Bridge) (k : Key) (st : EntryState) : Bridge := editEntry b k fun e => { e with state := st }

/-! ### The edit lock (R177 to R179) -/

/-- The entry is the waiting LOCK_REQUEST of an originator. -/
def isLockWait (o : Originator) (k : Key) (e : Entry) : Bool :=
  k.orig == o && e.op == .lockRequest && e.state == .awaitLock

/-- Answer a request OK and the waiting LOCK_REQUEST of an originator with a status, in ascending order of key (R40, R178,
R179; log entry 8). -/
def answerLock (b : Bridge) (own : Key) (o : Originator) (st : Status) : Bridge :=
  b.forKeys fun b k =>
    if k = own then answerStatus b k .ok
    else if (b.entry k).any (isLockWait o k) then answerStatus b k st
    else b

/-- LOCK_REQUEST (R177). -/
def lockRequest (h : Header) (b : Bridge) : Bridge :=
  match b.mgmt.holder with
  | none => answerStatus { b with mgmt := { b.mgmt with holder := some h.orig } } h.key .ok
  | some o =>
    if o = h.orig then answerStatus b h.key .alreadyHeld
    else if h.orig ∈ b.mgmt.waiting then answerStatus b h.key .badRequest
    else waitIn { b with mgmt := { b.mgmt with waiting := b.mgmt.waiting ++ [h.orig] } } h.key .awaitLock

/-- LOCK_RELEASE (R178). -/
def lockRelease (h : Header) (b : Bridge) : Bridge :=
  if b.mgmt.holder = some h.orig then
    match b.mgmt.waiting with
    | [] => answerStatus { b with mgmt := { b.mgmt with holder := none } } h.key .ok
    | o :: rest => answerLock { b with mgmt := { b.mgmt with holder := some o, waiting := rest } } h.key o .ok
  else answerStatus b h.key .notHolder

/-- LOCK_CANCEL (R179). -/
def lockCancel (h : Header) (b : Bridge) : Bridge :=
  if h.orig ∈ b.mgmt.waiting then answerLock (leavePending b h.orig) h.key h.orig .cancelled
  else answerStatus b h.key .notPending

/-- The items of LOCK_STATUS (R179), in the order of their codes (log entry 32). -/
def lockStatusItems (b : Bridge) : List Item :=
  [numItem 0xE0 1 ((b.mgmt.holder.map Fin.val).getD 0xFF), listItem 0xE1 (b.mgmt.waiting.map Fin.val)]

/-- LOCK_REQUEST (R176, R177). -/
def execLockRequest (h : Header) (items : List Item) (s : State) : Host.Outcome State Fault Refusal :=
  s.become fun b => pump (manage h .lockRequest items (lockRequest h) b)

/-- LOCK_RELEASE (R176, R178). -/
def execLockRelease (h : Header) (items : List Item) (s : State) : Host.Outcome State Fault Refusal :=
  s.become fun b => pump (manage h .lockRelease items (lockRelease h) b)

/-- LOCK_CANCEL (R176, R179). -/
def execLockCancel (h : Header) (items : List Item) (s : State) : Host.Outcome State Fault Refusal :=
  s.become fun b => pump (manage h .lockCancel items (lockCancel h) b)

/-- LOCK_STATUS (R176, R179). -/
def execLockStatus (h : Header) (items : List Item) (s : State) : Host.Outcome State Fault Refusal :=
  s.become fun b => pump (manage h .lockStatus items (fun b => answerItems b h.key (lockStatusItems b)) b)

/-! ### Settings (R180, R181) -/

/-- The status of the first failing check of a SET_SETTINGS, or `none` (R180). -/
def settingsRefusal (b : Bridge) (items : List Item) : Option Status :=
  if !settingRangesOk items then some .outOfRange
  else if (itemNat items 0x39).any (fun v => v < confirmedCount b) then some .inUse
  else none

/-- The attention pending set after a change of the settings, and the test of R161 (R181). -/
def pruneAttention (b : Bridge) : Bridge :=
  let kept := if b.mgmt.settings.attnOrig.isNone then 0 else b.mgmt.attnPending &&& b.mgmt.settings.attnEvents
  attnTest { b with mgmt := { b.mgmt with attnPending := kept } }

/-- Every OPEN buffer is tested for its aging expiry (R108). -/
def testAllOpen (b : Bridge) : Bridge :=
  b.forBufs (fun b i => if (b.buf i).state = .opened then testLater b i else b)

/-- The settings carried act at once on work already started (R108, R133, R146, R181). A map write-back that starts takes its
stamp before the jobs of the buffers that are due, which are made at the end of the step (log entry 7). -/
def settingsAct (items : List Item) (b : Bridge) : Bridge :=
  let b1 := if (findItem items 0x32).isSome then testAllOpen b else b
  let b2 := if (findItem items 0x33).isSome then tryMapWrite b1 else b1
  if (findItem items 0x36).isSome && spinDownDue b2 then askSpinDown b2 else b2

/-- SET_SETTINGS (R180, R181). Its own answer comes before those of the entries that the new settings bring about (log
entry 37). -/
def setSettings (h : Header) (items : List Item) (b : Bridge) : Bridge :=
  match settingsRefusal b items with
  | some st => answerStatus b h.key st
  | none =>
    let b1 := answerStatus b h.key .ok
    let b2 := { b1 with mgmt := { b1.mgmt with settings := applySettingItems items b1.mgmt.settings } }
    settingsAct items (pruneAttention b2)

/-- The settings that READ_SETTINGS returns: every one, or those that its items name (R181). -/
def readSettingItems (b : Bridge) (items : List Item) : List Item :=
  let all := settingItems b.mgmt.settings
  if items = [] then all else all.filter (fun it => items.any (fun j => j.code == it.code))

/-- READ_SETTINGS (R176, R181). -/
def execReadSettings (h : Header) (items : List Item) (s : State) : Host.Outcome State Fault Refusal :=
  s.become fun b => pump (manage h .readSettings items (fun b => answerItems b h.key (readSettingItems b items)) b)

/-- SET_SETTINGS (R176, R180, R181). -/
def execSetSettings (h : Header) (items : List Item) (s : State) : Host.Outcome State Fault Refusal :=
  s.become fun b => finish (manage h .setSettings items (setSettings h items) b)

/-! ### Window and class entries (R27 to R29, R34) -/

/-- The index that a request carries, when it is below `n` (R27, R29, R34, R176). -/
def indexOf (n : Nat) (items : List Item) : Option (Fin n) :=
  (itemNat items 0x01).bind (fun v => if h : v < n then some ⟨v, h⟩ else none)

/-- Put a window entry. -/
def putWindow (b : Bridge) (i : Fin 16) (w : Window) : Bridge :=
  { b with router := { b.router with windows := b.router.windows.set i w } }

/-- Put a class entry. -/
def putClass (b : Bridge) (i : Fin 8) (c : ClassEntry) : Bridge :=
  { b with router := { b.router with classes := b.router.classes.set i c } }

/-- WRITE_WINDOW: the checks of R27 in order, and then the resulting entry whole. -/
def writeWindow (h : Header) (items : List Item) (b : Bridge) : Bridge :=
  match indexOf 16 items with
  | none => answerStatus b h.key .outOfRange
  | some i =>
    let w := b.router.windows[i]
    let w' := applyWindowItems items w
    if w.locked then answerStatus b h.key .lockedEntry
    else if !windowRangesOk items then answerStatus b h.key .outOfRange
    else if !windowConsistent w' then answerStatus b h.key .inconsistent
    else answerStatus (putWindow b i w') h.key .ok

/-- READ_WINDOW (R29). -/
def readWindow (h : Header) (items : List Item) (b : Bridge) : Bridge :=
  match indexOf 16 items with
  | none => answerStatus b h.key .outOfRange
  | some i => answerItems b h.key (windowItems b.router.windows[i])

/-- WRITE_CLASS: the checks of R34 in order, and then the resulting entry whole. -/
def writeClass (h : Header) (items : List Item) (b : Bridge) : Bridge :=
  match indexOf 8 items with
  | none => answerStatus b h.key .outOfRange
  | some i =>
    let c' := applyClassItems items b.router.classes[i]
    if !classRangesOk items then answerStatus b h.key .outOfRange
    else if !classConsistent c' then answerStatus b h.key .inconsistent
    else answerStatus (putClass b i c') h.key .ok

/-- READ_CLASS (R34). -/
def readClass (h : Header) (items : List Item) (b : Bridge) : Bridge :=
  match indexOf 8 items with
  | none => answerStatus b h.key .outOfRange
  | some i => answerItems b h.key (classItems b.router.classes[i])

/-- WRITE_WINDOW (R27, R28, R176). -/
def execWriteWindow (h : Header) (items : List Item) (s : State) : Host.Outcome State Fault Refusal :=
  s.become fun b => pump (manage h .writeWindow items (writeWindow h items) b)

/-- READ_WINDOW (R29, R176). -/
def execReadWindow (h : Header) (items : List Item) (s : State) : Host.Outcome State Fault Refusal :=
  s.become fun b => pump (manage h .readWindow items (readWindow h items) b)

/-- WRITE_CLASS (R34, R176). -/
def execWriteClass (h : Header) (items : List Item) (s : State) : Host.Outcome State Fault Refusal :=
  s.become fun b => pump (manage h .writeClass items (writeClass h items) b)

/-- READ_CLASS (R34, R176). -/
def execReadClass (h : Header) (items : List Item) (s : State) : Host.Outcome State Fault Refusal :=
  s.become fun b => pump (manage h .readClass items (readClass h items) b)

/-! ### Eject, RECOVER and DISCARD_STRANDED (R147, R155, R186) -/

/-- EJECT (R147). A force value other than 00h and 01h is OUT_OF_RANGE (log entry 16). The entry waits before the eject
acts, so that an eject that completes answers it. -/
def eject (h : Header) (items : List Item) (b : Bridge) : Bridge :=
  let force := (itemNat items 0x02).getD 0
  if 2 ≤ force then answerStatus b h.key .outOfRange
  else match requestEject (waitIn b h.key .awaitEject) .management (force == 1) with
    | some b' => b'
    | none => answerStatus b h.key .wrongState

/-- RECOVER (R155). -/
def recover (h : Header) (b : Bridge) : Bridge :=
  if b.cart.state = .halted then
    (if recoverUnderWay b then answerStatus b h.key .inUse
    else waitIn (askLife b .recoverSpinUp) h.key .awaitMech)
  else answerStatus b h.key .wrongState

/-- Some STRANDED buffer is pinned (R186). -/
def strandedPinned (b : Bridge) : Bool :=
  allBufs.any (fun i => (b.buf i).state == .stranded && pinCount b i != 0)

/-- DISCARD_STRANDED (R81, R186). Where the discard also ends a quiesce, its own answer comes before those of the entries that
the eject answers (log entry 37). -/
def discardStranded (h : Header) (b : Bridge) : Bridge :=
  if strandedPinned b then answerStatus b h.key .inUse
  else answerItems (discardWhere b (fun x => x.state == .stranded)) h.key [numItem 0xB0 1 (strandedCount b)]

/-- EJECT, the management operation (R147, R176). -/
def execEject (h : Header) (items : List Item) (s : State) : Host.Outcome State Fault Refusal :=
  s.become fun b => finish (manage h .eject items (eject h items) b)

/-- RECOVER (R155, R176). -/
def execRecover (h : Header) (items : List Item) (s : State) : Host.Outcome State Fault Refusal :=
  s.become fun b => finish (manage h .recover items (recover h) b)

/-- DISCARD_STRANDED (R176, R186). -/
def execDiscardStranded (h : Header) (items : List Item) (s : State) : Host.Outcome State Fault Refusal :=
  s.become fun b => finish (manage h .discardStranded items (discardStranded h) b)

end Sys2Proof.Machine
end

