-- ==== Sys2Proof/Machine/Reports.lean ====
section
/-! DEFINITION. The reports of the Management Unit (R183 to R185): IDENTIFY, READ_CARTRIDGE, READ_ZONES, READ_DEFECTS,
READ_EXCEPTIONS, READ_POOL and READ_LINK_COUNTS. Items stand in code order, which R184 states for its four reports and the
model keeps for the others (log entry 32); an item whose content is absent is left out. -/

namespace Sys2Proof.Machine

/-! ### Choices (R184, R185) -/

/-- The number of a spindle state. -/
def Spindle.code : Spindle → Nat
  | .spinning => 0 | .parked => 1

/-- The number of an unusable reason. -/
def Reason.code : Reason → Nat
  | .noSpin => 0 | .badLabel => 1 | .badZones => 2 | .mapUnreadable => 3 | .badMap => 4

/-- The number of a map write state. -/
def MapWriteState.code : MapWriteState → Nat
  | .clean => 0 | .dirty => 1 | .saving => 2 | .unsavable => 3

/-- The number of an origin. -/
def originCode : Origin → Nat
  | .factory => 0 | .verify => 1 | .relocate => 2 | .retired => 3 | .lost => 4

/-- The number of an exception kind (R183). -/
def ExceptionKind.code : ExceptionKind → Nat
  | .readUnrecovered => 0 | .relocated => 1 | .remapped => 2 | .spareExhausted => 3 | .fillLoss => 4
  | .mapWriteFailed => 5 | .dataDiscarded => 6 | .mechTimeout => 7

/-- The number of a buffer state (R59). -/
def BufState.code : BufState → Nat
  | .free => 0 | .loading => 1 | .clean => 2 | .opened => 3 | .committing => 4 | .stranded => 5

/-- The number of a stage (R185). -/
def Stage.code : Stage → Nat
  | .pending => 0 | .inFlight => 1 | .held => 2

/-- The number of a phase (R105). -/
def Phase.code : Phase → Nat
  | .fill => 0 | .erase => 1 | .write => 2 | .verify => 3 | .remap => 4

/-- A cause set as a number, bit n for the n-th cause of R105. -/
def Causes.code (c : Causes) : Nat :=
  c.aged.toNat + 2 * c.pressure.toNat + 4 * c.confirmed.toNat + 8 * c.flushWait.toNat + 16 * c.quiesce.toNat
    + 32 * c.relocate.toNat

/-- The number of an order kind (R83). -/
def orderKindCode : OrderKind → Nat
  | .read => 0 | .erase => 1 | .write => 2 | .verify => 3 | .spinUp => 4 | .spinDown => 5 | .eject => 6

/-- The number of an entry state (R36). -/
def EntryState.code : EntryState → Nat
  | .reserving => 0 | .fetching => 1 | .awaitCommit => 2 | .awaitLock => 3 | .awaitEject => 4 | .awaitMech => 5
  | .forwarded => 6 | .answered => 7

/-- The number of a routing (R185). -/
def Routing.code : Routing → Nat
  | .window _ _ => 0 | .pass => 1 | .management => 2 | .onBridge _ => 3

/-- The number of a class (R185). -/
def ReadClass.code : ReadClass → Nat
  | .stream => 0 | .normal => 1

/-- The number of a line state (R185). -/
def lineCode : LineState → Nat
  | .up => 0 | .down => 1

/-! ### IDENTIFY, READ_CARTRIDGE, READ_ZONES, READ_DEFECTS (R184) -/

/-- The part name, "NELZO 4120". -/
def partName : List Byte := [0x4E, 0x45, 0x4C, 0x5A, 0x4F, 0x20, 0x34, 0x31, 0x32, 0x30]

/-- The identity report (R184). -/
def identityItems (b : Bridge) : List Item :=
  [⟨0xD0, partName⟩, numItem 0xD1 4 0x4E5A3431, numItem 0xD2 1 32, numItem 0xD3 1 16, numItem 0xD4 1 8,
   numItem 0xD5 1 64, numItem 0xD6 2 1024, numItem 0xD7 1 32, numItem 0xD8 4 b.clock.toNat]

/-- The cartridge report (R184). -/
def cartridgeItems (b : Bridge) : List Item :=
  let c := b.cart
  [numItem 0x70 1 c.state.code]
    ++ optItem 0x71 1 ((reportedWriteState b).map WriteState.code)
    ++ [numItem 0x72 1 c.spindle.code]
    ++ optItem 0x73 1 (c.reason.map Reason.code)
    ++ optItem 0x74 4 (c.layout.map (fun l => l.serial.toNat))
    ++ (c.layout.map (fun l => (⟨0x75, l.name⟩ : Item))).toList
    ++ optItem 0x76 1 (c.layout.map Label.controlCount)
    ++ optItem 0x77 1 (c.layout.map (fun l => l.zones.length))
    ++ optItem 0x78 4 (c.layout.map userCount)
    ++ [numItem 0x79 2 c.soft, numItem 0x7A 2 c.hard, numItem 0x7B 2 c.remaps, numItem 0x7C 2 c.relocations,
        numItem 0x7D 1 c.deferred]
    ++ optItem 0x7E 1 (b.dm.map.map (fun m => m.writeState.code))
    ++ optItem 0x7F 1 (if c.state = .quiescing then some (conditionsUnmet b).toNat else none)

/-- One zone entry of the report (R184). -/
def zoneItem (l : Label) (z : Nat) (e : ZoneEntry) : Item :=
  compoundItem 0x81 [numItem 1 3 e.first, numItem 2 1 e.sectorsPerTrack, numItem 3 3 e.userTracks,
    numItem 4 1 e.spareTracks, numItem 5 3 (firstLsn l z)]

/-- The zone report: nothing while no layout is held (R184). -/
def zoneItems (b : Bridge) : List Item :=
  match b.cart.layout with
  | none => []
  | some l => numItem 0x80 1 l.zones.length :: l.zones.zipIdx.map (fun p => zoneItem l p.2 p.1)

/-- One defect map entry of the report (R184). -/
def defectItem (l : Option Label) (index : Nat) (e : MapEntry) : Item :=
  compoundItem 0x96 ([numItem 1 2 index, numItem 2 3 e.defective] ++ optItem 3 3 e.spare
    ++ [numItem 4 1 (originCode e.origin)] ++ optItem 5 3 (l.bind (fun l => homeLsn l e.defective)))

/-- The defect report from a first index on: at most 256 entries (R139, R184). -/
def defectItems (b : Bridge) (first : Nat) : List Item :=
  numItem 0x90 2 first ::
    match b.dm.map with
    | none => []
    | some m =>
      [numItem 0x91 4 m.generation.toNat, numItem 0x92 4 m.saved.toNat, numItem 0x93 1 m.writeState.code]
        ++ optItem 0x94 1 m.attempt
        ++ [numItem 0x95 2 m.entries.length]
        ++ ((m.entries.drop first).take 256).zipIdx.map (fun p => defectItem b.cart.layout (first + p.2) p.1)

/-- READ_DEFECTS (R184). -/
def readDefects (h : Header) (items : List Item) (b : Bridge) : Bridge :=
  let first := (itemNat items 0x90).getD 0
  if 1023 < first then answerStatus b h.key .outOfRange else answerItems b h.key (defectItems b first)

/-- IDENTIFY (R176, R184). -/
def execIdentify (h : Header) (items : List Item) (s : State) : Host.Outcome State Fault Refusal :=
  s.become fun b => pump (manage h .identify items (fun b => answerItems b h.key (identityItems b)) b)

/-- READ_CARTRIDGE (R176, R184). -/
def execReadCartridge (h : Header) (items : List Item) (s : State) : Host.Outcome State Fault Refusal :=
  s.become fun b => pump (manage h .readCartridge items (fun b => answerItems b h.key (cartridgeItems b)) b)

/-- READ_ZONES (R176, R184). -/
def execReadZones (h : Header) (items : List Item) (s : State) : Host.Outcome State Fault Refusal :=
  s.become fun b => pump (manage h .readZones items (fun b => answerItems b h.key (zoneItems b)) b)

/-- READ_DEFECTS (R176, R184). -/
def execReadDefects (h : Header) (items : List Item) (s : State) : Host.Outcome State Fault Refusal :=
  s.become fun b => pump (manage h .readDefects items (readDefects h items) b)

/-! ### READ_EXCEPTIONS (R183) -/

/-- One exception record of the report (R183). -/
def exceptionItem (r : ExceptionRecord) : Item :=
  compoundItem 0xA2 ([numItem 1 1 r.kind.code, numItem 2 4 r.time.toNat] ++ optItem 3 3 r.lsn ++ optItem 4 3 r.psa
    ++ optItem 5 1 r.retries ++ optItem 6 1 (r.orig.map Fin.val) ++ optItem 7 1 (r.tag.map Fin.val)
    ++ optItem 8 1 r.sectorCount)

/-- The exception report (R183). -/
def exceptionItems (b : Bridge) : List Item :=
  [numItem 0xA0 1 b.mgmt.overflow, numItem 0xA1 1 (b.mgmt.exceptions.drop 8).length]
    ++ (b.mgmt.exceptions.take 8).map exceptionItem

/-- READ_EXCEPTIONS: the oldest records, up to 8, are removed, and the overflow count becomes 0 (R183). -/
def readExceptions (h : Header) (b : Bridge) : Bridge :=
  answerItems { b with mgmt := { b.mgmt with exceptions := b.mgmt.exceptions.drop 8, overflow := 0 } } h.key
    (exceptionItems b)

/-- READ_EXCEPTIONS (R176, R183). -/
def execReadExceptions (h : Header) (items : List Item) (s : State) : Host.Outcome State Fault Refusal :=
  s.become fun b => pump (manage h .readExceptions items (readExceptions h) b)

/-! ### READ_POOL and READ_LINK_COUNTS (R185) -/

/-- The stage of a flush context as reported: in FILL that of the buffer's load (R105). -/
def reportedStage (x : Buffer) (f : Flush) : Option Stage :=
  if f.phase = .fill then x.load.map Load.stage else f.stage

/-- One buffer record of the report (R185). -/
def bufferItem (b : Bridge) (i : BufIdx) : Item :=
  let x := b.buf i
  compoundItem 0xB0 ([numItem 1 1 i, numItem 2 1 x.state.code] ++ optItem 3 3 x.lsn
    ++ [numItem 4 1 x.valid.toNat, numItem 5 1 x.dirty.toNat, numItem 6 1 x.lost.toNat, numItem 7 1 (pinCount b i)]
    ++ optItem 8 4 (x.lastWrite.map BitVec.toNat)
    ++ optItem 9 1 (if i ∈ b.pool.evict then some (b.pool.evict.idxOf i) else none)
    ++ optItem 10 1 (x.load.map (fun l => l.stage.code)) ++ optItem 11 1 (x.load.map Load.retries)
    ++ optItem 12 1 (x.successor.map Fin.val) ++ [boolItem 13 x.relocate]
    ++ optItem 14 1 (x.flush.map (fun f => f.phase.code))
    ++ optItem 15 1 ((x.flush.bind (reportedStage x)).map Stage.code)
    ++ optItem 16 3 (x.flush.bind Flush.target) ++ optItem 17 1 (x.flush.map (fun f => f.erased.toNat))
    ++ optItem 18 1 (x.flush.map Flush.attempts) ++ optItem 19 1 (x.flush.map (fun f => f.causes.code)))

/-- The order in flight of the report (R185). -/
def orderItem (o : Order) : Item :=
  compoundItem 0xB6 ([numItem 1 1 o.number.toNat, numItem 2 1 (orderKindCode o.kind)] ++ optItem 3 3 o.firstPsa
    ++ optItem 4 1 o.sectorCount ++ [numItem 5 4 o.issued.toNat])

/-- One request entry of the report (R185). The state of READ_POOL's own entry is a free value (log entry 27). -/
def entryItem (own k : Key) (e : Entry) : Item :=
  compoundItem 0xB9 ([numItem 1 1 k.orig, numItem 2 1 k.tag, numItem 3 1 e.unit, numItem 4 1 e.op.code.toNat,
      numItem 5 1 (if k = own then (Config.ownEntryState e.seq).val else e.state.code)]
    ++ optItem 6 1 (e.routing.map Routing.code) ++ optItem 7 1 (e.cls.map ReadClass.code) ++ [boolItem 8 e.abortPending])

/-- The pool report (R185). -/
def poolItems (own : Key) (b : Bridge) : List Item :=
  allBufs.map (bufferItem b)
    ++ [listItem 0xB1 (b.pool.resQueue.map (fun k => k.orig.val * 16 + k.tag.val)),
        listItem 0xB2 (b.pool.evict.map Fin.val),
        numItem 0xB3 1 (availableCount b), boolItem 0xB4 b.pool.pressure, numItem 0xB5 1 (strandedCount b)]
    ++ (b.arb.order.map orderItem).toList
    ++ [numItem 0xB7 1 b.arb.streak, numItem 0xB8 1 b.arb.timeouts]
    ++ allKeys.filterMap (fun k => (b.entry k).map (entryItem own k))

/-- READ_POOL (R176, R185). -/
def execReadPool (h : Header) (items : List Item) (s : State) : Host.Outcome State Fault Refusal :=
  s.become fun b => pump (manage h .readPool items (fun b => answerItems b h.key (poolItems h.key b)) b)

/-- The link report (R185). -/
def linkItems (b : Bridge) : List Item :=
  [numItem 0xC0 2 b.link.badCheck, numItem 0xC1 2 b.link.malformed, numItem 0xC2 2 b.link.attnSent,
   numItem 0xC3 2 b.thru.stray, numItem 0xC4 1 (lineCode b.thru.line)]

/-- READ_LINK_COUNTS (R176, R185). -/
def execReadLinkCounts (h : Header) (items : List Item) (s : State) : Host.Outcome State Fault Refusal :=
  s.become fun b => pump (manage h .readLinkCounts items (fun b => answerItems b h.key (linkItems b)) b)

end Sys2Proof.Machine
end

