-- ==== Sys2Proof/Machine/Lines.lean ====
section
/-! DEFINITION. The events of the two storage links: discarded frames (R157, R158, R162), transmissions (R160, R163),
downstream frames (R165 to R167), the downstream line condition (R164), the pass-through timer (R168), link reset (R57,
R82, R169, R170, R187) and power-on reset (R171). -/

namespace Sys2Proof.Machine

/-! ### Discarded upstream frames (R157, R158, R162) -/

/-- BAD_CHECK_FRAME (R157, R162). No frame is received while the upstream link reset condition is held (R169). -/
def execBadCheckFrame (_frame : List Byte) (s : State) : Host.Outcome State Fault Refusal :=
  s.become fun b =>
    if b.link.resetHeld then b
    else { b with link := { b.link with partialRx := [], badCheck := satInc 65535 b.link.badCheck } }

/-- MALFORMED_FRAME (R158, R162). -/
def execMalformedFrame (_frame : List Byte) (s : State) : Host.Outcome State Fault Refusal := s.become countMalformed

/-! ### Transmissions (R41, R160, R163) -/

/-- An entry is released: its key is free (R41). -/
def releaseEntry (b : Bridge) (k : Key) : Bridge :=
  if (b.entry k).any (fun e => e.state == .answered) then b.putEntry k none else b

/-- The Link Port's report at the end of a frame's transmission (R160). -/
def reportSent (b : Bridge) (f : OutFrame) : Bridge :=
  match f with
  | .reply k _ _ _ _ => releaseEntry b k
  | .relayed k _ => releaseEntry b k
  | .tagInUse _ _ => b
  | .attention .. => attnTest { b with link := { b.link with attnSent := satInc 65535 b.link.attnSent } }

/-- The upstream frame in transmission has been sent (R160). -/
def endTransmission (b : Bridge) : Bridge :=
  match b.link.tx with
  | none => b
  | some f => reportSent { b with link := { b.link with tx := none } } f

/-- TRANSMISSION_END (R41, R160, R161). -/
def execTransmissionEnd (s : State) : Host.Outcome State Fault Refusal := s.become fun b => pump (endTransmission b)

/-- The entry of a forwarded frame is marked sent (R163). -/
def markSent (b : Bridge) (f : FwdFrame) : Bridge :=
  match b.entry f.header.key with
  | none => b
  | some e =>
    if e.seq = f.seq ∧ e.state = .forwarded then b.putEntry f.header.key (some { e with sent := true }) else b

/-- The forwarded frame in transmission has been sent (R163). -/
def endForward (b : Bridge) : Bridge :=
  match b.thru.tx with
  | none => b
  | some f => markSent { b with thru := { b.thru with tx := none } } f

/-- FORWARD_TRANSMISSION_END (R163). -/
def execForwardTransmissionEnd (s : State) : Host.Outcome State Fault Refusal := s.become fun b => pump (endForward b)

/-! ### Downstream frames (R165 to R167) -/

/-- A downstream frame is discarded and counted (R167). -/
def countStray (b : Bridge) : Bridge := { b with thru := { b.thru with stray := satInc 65535 b.thru.stray } }

/-- A downstream reply matches the entry with its key (R166). -/
def repliesTo (e : Entry) (unit : Fin 16) : Bool := e.state == .forwarded && e.sent && e.unit == unit

/-- Take a downstream frame (R165 to R167). -/
def takeDownstream (b : Bridge) (frame : List Byte) : Bridge :=
  match judgeDownstream frame with
  | .stray => countStray b
  | .attention => b
  | .reply key unit status done =>
    if (b.entry key).any (fun e => repliesTo e unit) then
      answerFrame b key (.relayed key frame) (statusOfCode status) done
    else countStray b

/-- DOWNSTREAM_FRAME (R165 to R167). -/
def execDownstreamFrame (frame : List Byte) (s : State) : Host.Outcome State Fault Refusal :=
  s.become fun b => pump (takeDownstream { b with thru := { b.thru with partialRx := [] } } frame)

/-! ### The downstream line condition (R164) -/

/-- The entry is FORWARDED. -/
def isForwarded (e : Entry) : Bool := e.state == .forwarded

/-- DOWNSTREAM_LINK_DOWN (R56, R164). -/
def execDownstreamLinkDown (s : State) : Host.Outcome State Fault Refusal :=
  s.become fun b =>
    let b1 := { b with thru := { b.thru with line := .down, partialRx := [], tx := none } }
    let b2 := answerAll b1 isForwarded .passTimeout
    pump { b2 with thru := { b2.thru with fifo := [] } }

/-- DOWNSTREAM_LINK_UP (R164). -/
def execDownstreamLinkUp (s : State) : Host.Outcome State Fault Refusal :=
  s.become fun b => pump { b with thru := { b.thru with line := .up } }

/-! ### The pass-through timer (R168) -/

/-- The pass-through timer of an entry has run out. -/
def passDue (b : Bridge) (e : Entry) : Bool :=
  e.state == .forwarded && e.passExpiry.any (fun t => reached b.clock t)

/-- PASS_THROUGH_TIMEOUT (R56, R168). A timer that does not run, or has not run out, has no expiry (log entry 2). -/
def execPassThroughTimeout (key : Key) (s : State) : Host.Outcome State Fault Refusal :=
  s.become fun b =>
    if (b.entry key).any (passDue b) then pump (answerStatus b key .passTimeout) else b

/-! ### Link reset (R57, R82, R124, R169, R170, R187) -/

/-- Every reader leaves the load of a buffer (R82). -/
def dropReadersAt (b : Bridge) (i : BufIdx) : Bridge :=
  match (b.buf i).load with
  | none => b
  | some l => b.putBuf i { b.buf i with load := some { l with readers := [] } }

/-- Link reset at the owners of its state: the ports (R169, R170), the request table (R57), the reservation queue (R82),
the edit lock and the attention pending set (R187). -/
def resetOwners (b : Bridge) : Bridge :=
  { b with
    link := { b.link with partialRx := [], resetHeld := true, queue := [], tx := none }
    thru := { b.thru with fifo := [], tx := none, linkHold := b.thru.line == .up }
    table := { b.table with entries := Vector.replicate 64 none }
    pool := { b.pool with resQueue := [] }
    mgmt := { b.mgmt with holder := none, waiting := [], attnPending := 0 } }

/-- Link reset (R57, R82, R104, R124, R169, R170, R187): the CLEAN buffers that lose their pins join the eviction order
in ascending index, and the loads left without need are withdrawn. -/
def linkReset (b : Bridge) : Bridge :=
  sweepLoads (((resetOwners b).forBufs dropReadersAt).forBufs joinEvict)

/-- LINK_RESET (R169). -/
def execLinkReset (s : State) : Host.Outcome State Fault Refusal := s.become fun b => finish (linkReset b)

/-- LINK_RESET_END (R169, R170): frames are received and sent again, and the downstream condition is released. -/
def execLinkResetEnd (s : State) : Host.Outcome State Fault Refusal :=
  s.become fun b => pump { b with
    link := { b.link with resetHeld := false }
    thru := { b.thru with linkHold := false } }

/-! ### Power-on reset (R18, R33, R58, R82, R104, R124, R126, R140, R171, R187) -/

/-- The time that power-on holds the link reset condition downstream, in milliseconds (R175). -/
def powerHoldTime : Nat := 20

/-- The end of the condition that power-on holds on a downstream link that is UP (R171, R175). -/
def powerHoldEnd (line : LineState) : Option Clock :=
  if line = .up then some (later Bridge.powerOn.clock powerHoldTime) else none

/-- The bridge after power-on, by what its lines report (R140, R171). -/
def powerOnBridge (presence : Option Bool) (line : LineState) : Bridge :=
  let b := { Bridge.powerOn with thru := { Bridge.powerOn.thru with line, powerHold := powerHoldEnd line } }
  match presence with
  | none => b
  | some tab => presenceArrives b tab

/-- POWER_ON_RESET (R140, R171). The commands that wait are not the bridge's and stay (log entry 30). -/
def execPowerOnReset (presence : Option Bool) (line : LineState) (s : State) : Host.Outcome State Fault Refusal :=
  s.become fun _ => powerOnBridge presence line

/-- DOWNSTREAM_RESET_RELEASE (R171, R175): the link reset condition of power-on is released downstream once its 20 ms have
passed. A condition that is not held, or whose time has not passed, has no release (log entry 2). -/
def execDownstreamResetRelease (s : State) : Host.Outcome State Fault Refusal :=
  s.become fun b =>
    if b.thru.powerHold.any (fun t => reached b.clock t) then pump { b with thru := { b.thru with powerHold := none } }
    else b

end Sys2Proof.Machine
end

