-- ==== Sys2Proof/Machine/Mechanism.lean ====
section
/-! DEFINITION. The events of the mechanism and of its timers: COMPLETION (R84), ORDER_TIMEOUT (R97), PRESENCE (R141,
R153), EJECT_BUTTON (R147), FAULT (R99, R154), and the expiries of R45, R108, R133, R141, R146 and R150, with
SPARE_REQUEST_TAKEN (R128). An expiry acts when its timer runs and the clock has reached it; otherwise the event does not
occur, and the command changes nothing (log entry 2). -/

namespace Sys2Proof.Machine

/-! ### FAULT (R99, R154) -/

/-- The order in flight, if any, is abandoned without a count and without an exception (R99). -/
def abandonByFault (b : Bridge) : Bridge :=
  match b.arb.order with
  | none => b
  | some o => abandonOrder b o

/-- A FAULT (R99, R154). -/
def takeFault (b : Bridge) : Bridge :=
  let b1 := abandonByFault b
  match b1.cart.state with
  | .empty | .settling | .unusable => b1
  | .spinup | .mounting | .ready | .quiescing | .ejecting => enterHalted b1
  | .halted => answerRecover { b1 with arb := { b1.arb with life := none } } .mechFault

/-- FAULT (R85, R99, R154). -/
def execFault (s : State) : Host.Outcome State Fault Refusal := s.become fun b => finish (takeFault b)

/-! ### COMPLETION (R84) -/

/-- The kind is a life-cycle order's. -/
def isLifeKind (k : OrderKind) : Bool :=
  match k with
  | .spinUp | .spinDown | .eject => true
  | .read | .erase | .write | .verify => false

/-- The completion has the kind and the sector count of the order (R84). -/
def completionFits (o : Order) (kind : OrderKind) (result : CompletionResult) : Bool :=
  o.kind == kind && match result with
    | .run sectors => !isLifeKind kind && sectors.length == o.pieces.length
    | .life _ => isLifeKind kind

/-- The order is a mount read. -/
def Order.isMount (o : Order) : Bool :=
  match o.pieces with
  | .mount _ :: _ => true
  | _ => false

/-- The order is a step of a map write-back. -/
def Order.isMap (o : Order) : Bool :=
  match o.pieces with
  | .map _ :: _ => true
  | _ => false

/-- The outcomes of a run are handed to the owners of its pieces in PSA order; what each brings about in the pool is
carried out before the next (R84, R93, R96; log entry 7). -/
def handOutcomes (kind : OrderKind) (b : Bridge) : List (Piece × SectorOutcome) → Bridge
  | [] => b
  | (p, o) :: rest => handOutcomes kind (poolSettle (pieceEnded kind b p o)) rest

/-- A run has ended with its outcomes (R93, R96, R143). The outcome of a mount read that a waiting eject ended is not
applied (R147). -/
def runEnded (b : Bridge) (o : Order) (sectors : List SectorOutcome) : Bridge :=
  if o.isMount then (if ejectWaits b then b else mountReadEnded b sectors)
  else if o.isMap then mapStepEnded b sectors
  else handOutcomes o.kind b (o.pieces.zip sectors)

/-- A SPIN_UP has ended (R101, R142, R155). A waiting eject keeps the outcome from the mount; the spindle is SPINNING
after GOOD all the same (R147; log entry 13). -/
def spinUpEnded (b : Bridge) (good : Bool) : Bridge :=
  let spun := if good then withCart b fun c => { c with spindle := .spinning } else b
  match b.cart.state with
  | .spinup =>
    if ejectWaits b then spun
    else if good then startMount spun
    else enterUnusable b .noSpin
  | .ready | .quiescing => if good then spun else enterHalted b
  | .halted => if good then recoverGood b else answerRecover b .mechFault
  | .empty | .settling | .mounting | .ejecting | .unusable => spun

/-- A life-cycle order has ended (R101, R102, R152). -/
def lifeEnded (b : Bridge) (kind : OrderKind) (good : Bool) : Bridge :=
  match kind with
  | .spinUp => spinUpEnded b good
  | .spinDown => if good then withCart b fun c => { c with spindle := .parked } else b
  | .eject => if good then ejectComplete b else enterHalted b
  | .read | .erase | .write | .verify => b

/-- A completion that is taken (R84): the order is no longer in flight, the consecutive timeout count becomes 0, and the
outcomes are handed on. -/
def completionTaken (b : Bridge) (o : Order) (result : CompletionResult) : Bridge :=
  let b1 := { b with arb := { b.arb with order := none, timeouts := 0 } }
  match result with
  | .run sectors => runEnded b1 o sectors
  | .life good => lifeEnded b1 o.kind good

/-- A completion arrives (R84): late and ignored, taken, or taken as a FAULT. -/
def takeCompletion (b : Bridge) (number : BitVec 8) (kind : OrderKind) (result : CompletionResult) : Bridge :=
  match b.arb.order with
  | none => b
  | some o =>
    if o.number ≠ number then b
    else if completionFits o kind result then finish (completionTaken b o result)
    else finish (takeFault b)

/-- COMPLETION (R84). -/
def execCompletion (number : BitVec 8) (kind : OrderKind) (result : CompletionResult) (s : State) :
    Host.Outcome State Fault Refusal :=
  s.become fun b => takeCompletion b number kind result

/-! ### ORDER_TIMEOUT (R97, R98) -/

/-- The order is abandoned by its timeout: its pieces are pending again, the consecutive timeout count rises, and
MECH_TIMEOUT is recorded (R97). -/
def timeOutOrder (b : Bridge) (o : Order) : Bridge :=
  let b1 := abandonOrder b o
  record { b1 with arb := { b1.arb with timeouts := min (b1.arb.timeouts + 1) 2 } }
    { kind := .mechTimeout, time := b.clock, psa := o.firstPsa, sectorCount := o.sectorCount }

/-- A life-cycle order of a READY or QUIESCING cartridge that timed out is pending again with its stamp: a demand SPIN_UP is
due again (R86, R97, R101), and a SPIN_DOWN is asked for again (log entry 12). -/
def lifeReturned (b : Bridge) (kind : OrderKind) : Bridge :=
  match kind with
  | .spinUp => { b with arb := { b.arb with life := some .demandSpinUp } }
  | .spinDown => { b with arb := { b.arb with life := some .spinDown } }
  | .read | .erase | .write | .verify | .eject => b

/-- What the Cartridge Controller does at a timeout (R98, R142, R143, R152, R155). -/
def timeoutFollows (b : Bridge) (o : Order) : Bridge :=
  match b.cart.state with
  | .empty | .settling | .unusable => b
  | .spinup => if ejectWaits b then b else enterUnusable b .noSpin
  | .mounting =>
    if b.arb.timeouts = 2 then enterHalted b
    else if ejectWaits b then b
    else match b.cart.mountStep with
      | none => b
      | some st => mountTimedOut b st
  | .ready | .quiescing =>
    if b.arb.timeouts = 2 then enterHalted b else lifeReturned b o.kind
  | .ejecting => enterHalted b
  | .halted => answerRecover b .mechFault

/-- ORDER_TIMEOUT (R97, R98). -/
def execOrderTimeout (s : State) : Host.Outcome State Fault Refusal :=
  s.become fun b =>
    match b.arb.order with
    | none => b
    | some o => if reached b.clock o.expiry then finish (timeoutFollows (timeOutOrder b o) o) else b

/-! ### PRESENCE and the eject button (R141, R147, R153) -/

/-- PRESENCE_ON (R141). -/
def execPresenceOn (tab : Bool) (s : State) : Host.Outcome State Fault Refusal :=
  s.become fun b => presenceArrives b tab

/-- A PRESENCE off by the cartridge state (R141, R152, R153). -/
def presenceLeaves (b : Bridge) : Bridge :=
  match b.cart.state with
  | .empty => b
  | .settling => abortSettle b
  | .ejecting => ejectComplete { b with arb := { b.arb with order := none } }
  | .spinup | .mounting | .ready | .quiescing | .unusable | .halted => removeCartridge b

/-- PRESENCE_OFF (R141, R152, R153). -/
def execPresenceOff (s : State) : Host.Outcome State Fault Refusal := s.become fun b => finish (presenceLeaves b)

/-- EJECT_BUTTON (R147): ignored where no eject follows. -/
def execEjectButton (s : State) : Host.Outcome State Fault Refusal :=
  s.become fun b =>
    match requestEject b .button false with
    | some b' => finish b'
    | none => b

/-! ### Expiries -/

/-- The deadline of a STREAM READ has run out while it waits (R45). -/
def deadlineDue (b : Bridge) (e : Entry) : Bool :=
  (e.state == .reserving || e.state == .fetching) && e.deadline.any (fun t => reached b.clock t)

/-- DEADLINE_EXPIRY (R45). -/
def execDeadlineExpiry (key : Key) (s : State) : Host.Outcome State Fault Refusal :=
  s.become fun b =>
    if (b.entry key).any (deadlineDue b) then finish (answerStatus b key .deadlineMissed) else b

/-- AGING_EXPIRY (R107, R108): the buffer is tested for eligibility with its aging expiry reached. -/
def execAgingExpiry (buffer : BufIdx) (s : State) : Host.Outcome State Fault Refusal :=
  s.become fun b =>
    if (b.buf buffer).state = .opened ∧ agingDue b (b.buf buffer) then finish (testLater b buffer) else b

/-- MAP_WRITE_DELAY_EXPIRY (R133). -/
def execMapWriteDelayExpiry (s : State) : Host.Outcome State Fault Refusal :=
  s.become fun b => if b.dm.map.any (mapWriteDue b) then finish (tryMapWrite b) else b

/-- The settle expiry has been reached (R141). -/
def settleDue (b : Bridge) : Bool :=
  b.cart.state == .settling && b.cart.settleExpiry.any (fun t => reached b.clock t)

/-- SETTLE_EXPIRY (R141). -/
def execSettleExpiry (s : State) : Host.Outcome State Fault Refusal :=
  s.become fun b => if settleDue b then finish (endSettle b) else b

/-- The eject of a quiesce is forced at its expiry (R150). -/
def isForced (b : Bridge) (q : Quiesce) : Bool :=
  match q.source with
  | .management => q.forced
  | .button => b.mgmt.settings.buttonForced

/-- The quiesce expiry is taken (R150): forced, it no longer waits for the conditions; not forced, it is refused. -/
def quiesceExpires (b : Bridge) (q : Quiesce) : Bridge :=
  if isForced b q then withCart b fun c => { c with quiesce := some { q with ending := true } } else refuseEject b

/-- QUIESCE_EXPIRY (R150). It acts too where the selected conditions are met and only the order in flight keeps the quiesce
from ending (log entry 41). -/
def execQuiesceExpiry (s : State) : Host.Outcome State Fault Refusal :=
  s.become fun b =>
    match b.cart.quiesce with
    | none => b
    | some q =>
      if b.cart.state = .quiescing ∧ q.ending = false ∧ reached b.clock q.expiry then finish (quiesceExpires b q) else b

/-- SPIN_DOWN_TIMER_EXPIRY (R146). -/
def execSpinDownTimerExpiry (s : State) : Host.Outcome State Fault Refusal :=
  s.become fun b => if spinDownDue b then finish (askSpinDown b) else b

/-- SPARE_REQUEST_TAKEN (R111, R128): the Defect Manager takes the request of a buffer's job. -/
def execSpareRequestTaken (buffer : BufIdx) (s : State) : Host.Outcome State Fault Refusal :=
  s.become fun b => finish (takeSpareRequest b buffer)

end Sys2Proof.Machine
end

