-- ==== Sys2Proof/Machine/Dispatch.lean ====
section
/-! DEFINITION. The meaning of each command: one direct call for each row of spec/opcode_table.json. -/

namespace Sys2Proof.Machine

def exec (i : Instr) (s : State) : Host.Outcome State Fault Refusal :=
  match i with
  | .powerOnReset presence line => Sys2Proof.Machine.execPowerOnReset presence line s
  | .linkReset => Sys2Proof.Machine.execLinkReset s
  | .linkResetEnd => Sys2Proof.Machine.execLinkResetEnd s
  | .badCheckFrame frame => Sys2Proof.Machine.execBadCheckFrame frame s
  | .malformedFrame frame => Sys2Proof.Machine.execMalformedFrame frame s
  | .unknownOperation h code => Sys2Proof.Machine.execUnknownOperation h code s
  | .read h => Sys2Proof.Machine.execRead h s
  | .write h data => Sys2Proof.Machine.execWrite h data s
  | .flush h => Sys2Proof.Machine.execFlush h s
  | .sense h => Sys2Proof.Machine.execSense h s
  | .abort h => Sys2Proof.Machine.execAbort h s
  | .identify h items => Sys2Proof.Machine.execIdentify h items s
  | .readSettings h items => Sys2Proof.Machine.execReadSettings h items s
  | .setSettings h items => Sys2Proof.Machine.execSetSettings h items s
  | .readWindow h items => Sys2Proof.Machine.execReadWindow h items s
  | .writeWindow h items => Sys2Proof.Machine.execWriteWindow h items s
  | .readClass h items => Sys2Proof.Machine.execReadClass h items s
  | .writeClass h items => Sys2Proof.Machine.execWriteClass h items s
  | .lockRequest h items => Sys2Proof.Machine.execLockRequest h items s
  | .lockRelease h items => Sys2Proof.Machine.execLockRelease h items s
  | .lockCancel h items => Sys2Proof.Machine.execLockCancel h items s
  | .lockStatus h items => Sys2Proof.Machine.execLockStatus h items s
  | .readCartridge h items => Sys2Proof.Machine.execReadCartridge h items s
  | .readZones h items => Sys2Proof.Machine.execReadZones h items s
  | .readDefects h items => Sys2Proof.Machine.execReadDefects h items s
  | .readExceptions h items => Sys2Proof.Machine.execReadExceptions h items s
  | .readPool h items => Sys2Proof.Machine.execReadPool h items s
  | .readLinkCounts h items => Sys2Proof.Machine.execReadLinkCounts h items s
  | .eject h items => Sys2Proof.Machine.execEject h items s
  | .recover h items => Sys2Proof.Machine.execRecover h items s
  | .discardStranded h items => Sys2Proof.Machine.execDiscardStranded h items s
  | .transmissionEnd => Sys2Proof.Machine.execTransmissionEnd s
  | .forwardTransmissionEnd => Sys2Proof.Machine.execForwardTransmissionEnd s
  | .downstreamFrame frame => Sys2Proof.Machine.execDownstreamFrame frame s
  | .downstreamLinkDown => Sys2Proof.Machine.execDownstreamLinkDown s
  | .downstreamLinkUp => Sys2Proof.Machine.execDownstreamLinkUp s
  | .deadlineExpiry key => Sys2Proof.Machine.execDeadlineExpiry key s
  | .passThroughTimeout key => Sys2Proof.Machine.execPassThroughTimeout key s
  | .orderTimeout => Sys2Proof.Machine.execOrderTimeout s
  | .agingExpiry buffer => Sys2Proof.Machine.execAgingExpiry buffer s
  | .mapWriteDelayExpiry => Sys2Proof.Machine.execMapWriteDelayExpiry s
  | .settleExpiry => Sys2Proof.Machine.execSettleExpiry s
  | .quiesceExpiry => Sys2Proof.Machine.execQuiesceExpiry s
  | .spinDownTimerExpiry => Sys2Proof.Machine.execSpinDownTimerExpiry s
  | .completion number kind result => Sys2Proof.Machine.execCompletion number kind result s
  | .presenceOn tab => Sys2Proof.Machine.execPresenceOn tab s
  | .presenceOff => Sys2Proof.Machine.execPresenceOff s
  | .ejectButton => Sys2Proof.Machine.execEjectButton s
  | .fault => Sys2Proof.Machine.execFault s
  | .spareRequestTaken buffer => Sys2Proof.Machine.execSpareRequestTaken buffer s
  | .downstreamResetRelease => Sys2Proof.Machine.execDownstreamResetRelease s

end Sys2Proof.Machine
end

