-- ==== Sys2Proof/Machine/Step.lean ====
section
/-! DEFINITION. One step: the command in front of the queue is taken and runs with the rest of the queue. On an empty
queue a millisecond passes (spec/00_scope.md, Time; log entry 1). -/

namespace Sys2Proof.Machine

/-- A millisecond passes: the clock counts on and wraps to 0. -/
def State.tick (s : State) : State := { s with bridge := { s.bridge with clock := s.bridge.clock + 1 } }

/-- One step of the machine. -/
def step (s : State) : Host.Outcome State Fault Refusal :=
  match s.pending with
  | [] => .next s.tick
  | c :: rest => exec c { s with pending := rest }

/-- The state with the command that a word spells in front of its queue; unchanged where the word spells none. -/
def State.withFetchWord (s : State) (nbits w : Nat) : State :=
  match decodeTableWord nbits w with
  | some c => { s with pending := c :: s.pending }
  | none => s

end Sys2Proof.Machine
end

