-- ==== Sys2Proof/Safety.lean ====
section
/-! DEFINITION. What the statements about the bridge say: the ranges and laws that its state obeys, what the consequences of
an event leave alone, and the answer of an entry as the workstation sees it. -/

namespace Sys2Proof.Machine

/-! ### Ranges and laws of the state -/

/-- Every window and class entry is within its ranges and consistent, and every setting is within its range (R17, R33,
R180). -/
def TablesOk (b : Bridge) : Prop :=
  (∀ i : Fin 16, windowInRange b.router.windows[i] = true ∧ windowConsistent b.router.windows[i] = true)
  ∧ (∀ i : Fin 8, classInRange b.router.classes[i] = true ∧ classConsistent b.router.classes[i] = true)
  ∧ settingsInRange b.mgmt.settings = true

/-- The laws of the pending list of the edit lock: it holds each originator at most once and never the holder, and it is
empty while there is no holder (R177). -/
def LockListOk (b : Bridge) : Prop :=
  b.mgmt.waiting.Nodup ∧ (∀ o, b.mgmt.holder = some o → o ∉ b.mgmt.waiting)
  ∧ (b.mgmt.holder = none → b.mgmt.waiting = [])

/-- The entries in AWAIT_LOCK: each is a LOCK_REQUEST of a pending originator, and every pending originator has exactly one
(R177). -/
def LockWaitsOk (b : Bridge) : Prop :=
  (∀ k e, b.entry k = some e → e.state = .awaitLock → e.op = .lockRequest ∧ k.orig ∈ b.mgmt.waiting)
  ∧ (∀ o ∈ b.mgmt.waiting, ∃ k e, k.orig = o ∧ b.entry k = some e ∧ e.state = .awaitLock)
  ∧ ∀ j k e f, b.entry j = some e → b.entry k = some f → e.state = .awaitLock → f.state = .awaitLock →
      j.orig = k.orig → j = k

/-- The laws of the edit lock (R177). -/
def LockOk (b : Bridge) : Prop := LockListOk b ∧ LockWaitsOk b

/-- Every counter is within its range (R90, R98, R140, R162, R167, R182). -/
def CountsOk (b : Bridge) : Prop :=
  b.link.badCheck ≤ 65535 ∧ b.link.malformed ≤ 65535 ∧ b.link.attnSent ≤ 65535 ∧ b.thru.stray ≤ 65535
  ∧ b.cart.soft ≤ 65535 ∧ b.cart.hard ≤ 65535 ∧ b.cart.remaps ≤ 65535 ∧ b.cart.relocations ≤ 65535
  ∧ b.cart.deferred ≤ 255 ∧ b.mgmt.overflow ≤ 255 ∧ b.mgmt.exceptions.length ≤ 32
  ∧ b.arb.streak ≤ 8 ∧ b.arb.timeouts ≤ 2

/-- The cartridge states in which a map may be held: it is accepted on the way into READY, and forgotten when the
cartridge leaves (R126, R144, R152, R153). -/
def mayHoldMap : CartState → Bool
  | .ready | .quiescing | .ejecting | .halted => true
  | .empty | .settling | .spinup | .mounting | .unusable => false

/-- A held layout has passed its checks, and a held map obeys the laws of R12, names PSAs of the classes R14 asks for, and
is held from READY on only, where no mount read is to come (R7, R10, R12, R14, R126, R144). -/
def MapOk (b : Bridge) : Prop :=
  (∀ l, b.cart.layout = some l → labelOk l = true ∧ zonesOk l = true)
  ∧ (∀ m, b.dm.map = some m →
      mapLaws m.entries = true ∧ ∀ l, b.cart.layout = some l → m.entries.all (entryClassesOk l) = true)
  ∧ (b.dm.map.isSome = true → mayHoldMap b.cart.state = true ∧ b.cart.mountStep = none)

/-- At most 8 buffers are STRANDED (R79). -/
def StrandedOk (b : Bridge) : Prop := strandedCount b ≤ 8

/-- The buffer records and the eviction order agree: a FREE buffer holds the FREE values, a flush job belongs to an OPEN or
COMMITTING buffer, and the eviction order holds CLEAN buffers, each once (R59, R60, R63, R105). -/
def PoolOk (b : Bridge) : Prop :=
  (∀ i, (b.buf i).state = .free → b.buf i = Buffer.free)
  ∧ (∀ i, (b.buf i).flush.isSome = true → (b.buf i).state = .opened ∨ (b.buf i).state = .committing)
  ∧ b.pool.evict.Nodup ∧ ∀ i ∈ b.pool.evict, (b.buf i).state = .clean

/-- The sets of a LOADING buffer: its valid quarters are those that a WRITE made dirty, and none is lost (R60). -/
def LoadingOk (b : Bridge) : Prop :=
  ∀ i, (b.buf i).state = .loading → (b.buf i).valid = (b.buf i).dirty ∧ (b.buf i).lost = 0

/-! ### What the consequences of an event leave alone -/

/-- The frames that wait in the outgoing queue or are in transmission, in the order they leave. -/
def outFrames (b : Bridge) : List OutFrame := b.link.tx.toList ++ b.link.queue

/-- The frame is a TAG_IN_USE reply, which an entry's own reply may replace (R37). -/
def OutFrame.isTagInUse : OutFrame → Bool
  | .tagInUse .. => true
  | .reply .. | .relayed .. | .attention .. => false

/-- The fields of an entry that are written at its admission are not changed afterwards, and its state stays, goes from
RESERVING to FETCHING, or becomes ANSWERED (R35, R36). -/
def SameRequest (e e' : Entry) : Prop :=
  e' = { e with state := e'.state, awaited := e'.awaited, blocksDone := e'.blocksDone, status := e'.status,
                pins := e'.pins }
  ∧ (e'.state = e.state ∨ e'.state = .answered ∨ (e.state = .reserving ∧ e'.state = .fetching))

/-- The requests of `b` as `t` holds them: no key is taken, no entry is lost, what was written at admission stays, and an
entry that waits for no buffer, or is ANSWERED, is as it was. -/
def RequestsKept (b t : Bridge) : Prop :=
  (∀ k, b.entry k = none → t.entry k = none)
  ∧ ∀ k e, b.entry k = some e →
      ∃ e', t.entry k = some e' ∧ SameRequest e e' ∧ (isActive e = false → e' = e)

/-- What the consequences of an event at the pool, the head and the cartridge leave alone: the clock, the tables, the
settings and the edit lock, the counters and conditions of the links, the requests, the replies that wait, the exceptions
recorded, the timeout count, the spindle and the held layout. The state of the cartridge, with its quiesce, its mount step
and its eject, stays as it is, or becomes EJECTING where an eject waits or a quiesce ends. -/
structure Steady (b t : Bridge) : Prop where
  clock      : t.clock = b.clock
  router     : t.router = b.router
  mgmt       : t.mgmt = { b.mgmt with exceptions := t.mgmt.exceptions, overflow := t.mgmt.overflow,
                                      attnPending := t.mgmt.attnPending }
  link       : t.link = { b.link with queue := t.link.queue, tx := t.link.tx }
  thru       : t.thru = { b.thru with fifo := t.thru.fifo, tx := t.thru.tx }
  nextSeq    : t.table.nextSeq = b.table.nextSeq
  requests   : RequestsKept b t
  replies    : ∀ f ∈ outFrames b, f.isTagInUse = false → f ∈ outFrames t
  exceptions : ∃ l, t.mgmt.exceptions = b.mgmt.exceptions ++ l
  timeouts   : t.arb.timeouts = b.arb.timeouts
  cart       : t.cart.layout = b.cart.layout ∧ t.cart.spindle = b.cart.spindle ∧ t.cart.reason = b.cart.reason
                 ∧ t.cart.settleExpiry = b.cart.settleExpiry
  mapHeld    : t.dm.map.isSome = b.dm.map.isSome
  life       : (t.cart.state = b.cart.state ∧ t.cart.ejectWaiting = b.cart.ejectWaiting
                   ∧ t.cart.quiesce = b.cart.quiesce ∧ t.cart.mountStep = b.cart.mountStep
                   ∧ t.cart.ejectBegun = b.cart.ejectBegun)
                 ∨ (t.cart.state = .ejecting ∧ (ejectWaits b = true ∨ b.cart.state = .quiescing))

/-! ### Jobs and quiesces -/

/-- The flush context `f` of a buffer is `f'` once its target is taken (R110): a RELOCATE job asks for a FIRST spare; any
other takes the PSA of its sector's translation, ERASE PENDING there with a new stamp; where the translation is LOST it asks
for a FIRST spare, and with a write state that is not WRITABLE its permanent failure is due, which REMAP without a request
stands for. -/
def TargetTaken (b : Bridge) (i : BufIdx) (f f' : Flush) : Prop :=
  (f.causes.relocate = true → f' = { f with phase := .remap, stage := none, request := some .first })
  ∧ (f.causes.relocate = false → ∀ lsn r, (b.buf i).lsn = some lsn → translate b lsn = some r →
      (∀ p, r = .home p ∨ r = .spare p →
        f' = { f with phase := .erase, stage := some .pending, target := some p, erased := false, request := none,
                      stamp := f'.stamp })
      ∧ (r = .lost → f' = { f with phase := .remap, stage := none,
                                   request := if b.cart.writeState = some .writable then some .first else none }))

/-- From `b` to `t`, the job of buffer `i` has ended and its data is left with its successor `j`: the buffer is FREE, each
READ that pinned it pins the successor instead or is answered, and a hold of the successor's job is released (R78, R80,
R119). -/
def LeftToSuccessor (b t : Bridge) (i j : BufIdx) : Prop :=
  t.buf i = Buffer.free
  ∧ (∀ k e, b.entry k = some e → e.state = .fetching → i ∈ e.pins → ∃ e', t.entry k = some e'
      ∧ (e' = { e with pins := e.pins.map fun a => if a = i then j else a } ∨ e'.state = .answered))
  ∧ ∀ f, (b.buf j).flush = some f → ∃ f',
      t.buf j = { b.buf j with flush := some f', load := (t.buf j).load, successor := (t.buf j).successor }
      ∧ (f.stage ≠ some .held → f' = f) ∧ (f.stage = some .held → TargetTaken t j f f')

/-- From `b` to `t` a quiesce begins (R148): the record holds it and no spin-down timer runs, every job has QUIESCE, every
OPEN buffer has a job, and a DIRTY map has begun its first write-back attempt. No entry, no setting and no exception record
changes. -/
def QuiesceBegun (b t : Bridge) (source : EjectSource) (forced : Bool) : Prop :=
  t.cart = { b.cart with
    state := .quiescing, spinTimer := none
    quiesce := some ⟨source, forced, b.clock + BitVec.ofNat 32 b.mgmt.settings.quiesceTimeout, false⟩ }
  ∧ (∀ i f, (t.buf i).flush = some f → f.causes.quiesce = true)
  ∧ (∀ i, (b.buf i).state = .opened → ∃ f, (t.buf i).flush = some f)
  ∧ (∀ m, b.dm.map = some m → m.writeState = .dirty → ∃ stamp,
      t.dm.map = some { m with
        writeState := .saving, attempt := some 1, step := some ⟨.erase, false, stamp, m.generation⟩ }
      ∧ t.dm.staging = snapshotSectors m.entries m.generation)
  ∧ (∀ m, b.dm.map = some m → m.writeState ≠ .dirty → t.dm = b.dm)
  ∧ t.table = b.table ∧ t.mgmt = b.mgmt ∧ t.arb.order = b.arb.order

/-! ### Requests taken in, and answers -/

/-- The state with another bridge, and the same commands waiting. -/
def State.withBridge (s : State) (b : Bridge) : State := { s with bridge := b }

/-- A request frame that the table takes in: the upstream link reset condition is not held, and its key is free (R37,
R169). -/
def Received (b : Bridge) (h : Header) : Prop := b.link.resetHeld = false ∧ b.entry h.key = none

/-- A management request that its operation acts on: it is taken in, its unit is 15 and its count 0, its items are those
the operation takes, and the sender holds the edit lock where the operation needs it (R21, R38, R176). -/
def Managed (b : Bridge) (h : Header) (op : Op) (items : List Item) : Prop :=
  Received b h ∧ h.unit = 15 ∧ h.count = 0 ∧ itemsOk op items = true
  ∧ (needsLock op = true → b.mgmt.holder = some h.orig)

/-- The entry of a request as it is made: what the frame says, and the admission number (R35). -/
def newEntry (b : Bridge) (h : Header) (op : Op) (routing : Option Routing) : Entry :=
  { freshEntry h op b.table.nextSeq with routing }

/-- The bridge with the entry of a request that was taken in: no byte of the frame is left over, the entry stands at its
key, and the next admission number is one higher. -/
def withEntry (b : Bridge) (h : Header) (e : Entry) : Bridge :=
  { b with
    link := { b.link with partialRx := [] }
    table := { entries := b.table.entries.set (keyIdx h.key) (some e), nextSeq := b.table.nextSeq + 1 } }

/-- The bridge after the entry `e` of a key, which pins no buffer, was answered: status and blocks done are in the entry,
which awaits nothing, its reply is in the outgoing queue, and it waits in no other queue (R40, R159, R163). -/
def closedWith (b : Bridge) (k : Key) (e : Entry) (st : Status) (done : Nat) (payload : Payload) : Bridge :=
  { b with
    link := { b.link with queue := queueReply b.link.queue k (.reply k e.unit st done payload) }
    thru := { b.thru with fifo := b.thru.fifo.filter (fun f => f.seq != e.seq) }
    table := { b.table with entries := b.table.entries.set (keyIdx k) (some
      { e with state := .answered, status := some st, blocksDone := done, pins := [], awaited := none }) }
    pool := { b.pool with resQueue := b.pool.resQueue.filter (· != k) } }

/-- The bridge after a request was taken in and answered in the same step, blocks done 0, with nothing else changed (R38,
R40, R176). -/
def answeredAtOnce (b : Bridge) (h : Header) (op : Op) (routing : Option Routing) (st : Status) (payload : Payload) :
    Bridge :=
  closedWith (withEntry b h (newEntry b h op routing)) h.key (newEntry b h op routing) st 0 payload

/-- The entry of a key is ANSWERED with a status and blocks done, holds no buffer any more, and its reply with this
payload waits or is in transmission (R40). -/
def IsAnswered (b : Bridge) (k : Key) (st : Status) (done : Nat) (payload : Payload) : Prop :=
  ∃ e, b.entry k = some e ∧ e.state = .answered ∧ e.status = some st ∧ e.blocksDone = done ∧ e.pins = []
    ∧ e.awaited = none ∧ .reply k e.unit st done payload ∈ outFrames b

/-- From `b` to `t`, the entries of the keys other than `own` that satisfy `p` are answered with a status, blocks done 0,
every other entry stays as it was, and so do the tables, the cartridge record, the head and the map. -/
def AnswersOnly (b t : Bridge) (own : Key) (p : Key → Entry → Prop) (st : Status) : Prop :=
  (∀ k e, k ≠ own → b.entry k = some e →
    (p k e → IsAnswered t k st 0 .none) ∧ (¬ p k e → t.entry k = some e))
  ∧ (∀ k, k ≠ own → b.entry k = none → t.entry k = none)
  ∧ t.clock = b.clock ∧ t.router = b.router ∧ t.cart = b.cart ∧ t.arb = b.arb ∧ t.dm = b.dm

/-! ### The map and the end of the mechanism -/

/-- From `b` to `t` the held map `m` makes one map change, to these entries (R131, R132): the generation rises by 1, the last
change is at the clock, the saved generation stays, and a CLEAN map is DIRTY then. A map that is DIRTY by that begins its
write-back at once in QUIESCING, and in READY with a map write delay of 0 (R133): SAVING, attempt 1, with the snapshot of the
changed map and the ERASE pending under a new stamp. -/
def MapChanged (b t : Bridge) (m : HeldMap) (entries : List MapEntry) : Prop :=
  let changed := { m with
    entries, generation := m.generation + 1, lastChange := some b.clock
    writeState := if m.writeState = .clean then .dirty else m.writeState }
  let starts := (m.writeState = .clean ∨ m.writeState = .dirty)
    ∧ (b.cart.state = .quiescing ∨ (b.cart.state = .ready ∧ b.mgmt.settings.mapWriteDelay = 0))
  (¬ starts → t.dm = { b.dm with map := some changed })
  ∧ (starts → t.dm.staging = snapshotSectors entries changed.generation
      ∧ ∃ stamp, b.arb.stamps ≤ stamp ∧ stamp < t.arb.stamps ∧ t.dm.map = some { changed with
          writeState := .saving, attempt := some 1, step := some ⟨.erase, false, stamp, changed.generation⟩ })

/-- The entry waits for the mechanism: a READ, WRITE or FLUSH that waits, or the EJECT (R54, R154). -/
def awaitsMechanism (e : Entry) : Prop :=
  e.state = .reserving ∨ e.state = .fetching ∨ e.state = .awaitCommit ∨ (e.op = .eject ∧ e.state = .awaitEject)

/-- From `b` to `c` the cartridge has entered HALTED, but for the attention event that follows (R154): every entry that
waits for it is answered MECH_FAULT and no other entry changes, no quiesce, eject, mount or spin-down goes on, no life-cycle
order is asked for, the streak count is 0, and the rest of the record, the map and every job stay. -/
def Halted (b c : Bridge) : Prop :=
  c.cart = { b.cart with state := .halted, quiesce := none, ejectWaiting := none, mountStep := none, spinTimer := none }
  ∧ c.arb = { b.arb with life := none, streak := 0 } ∧ c.dm = b.dm ∧ c.mgmt = b.mgmt
  ∧ (∀ k e, b.entry k = some e →
      (awaitsMechanism e → IsAnswered c k .mechFault 0 .none) ∧ (¬ awaitsMechanism e → c.entry k = some e))
  ∧ (PoolOk b → ∀ i f, (b.buf i).flush = some f → (c.buf i).flush = some f)

/-! ### Request frames -/

/-- What a command of the upstream link requests, when it is a request frame (R172, R173): its operation and header. -/
def requestOf : Instr → Option (Op × Header)
  | .unknownOperation h code => some (.other code, h)
  | .read h => some (.read, h)
  | .write h _ => some (.write, h)
  | .flush h => some (.flush, h)
  | .sense h => some (.sense, h)
  | .abort h => some (.abort, h)
  | .identify h _ => some (.identify, h)
  | .readSettings h _ => some (.readSettings, h)
  | .setSettings h _ => some (.setSettings, h)
  | .readWindow h _ => some (.readWindow, h)
  | .writeWindow h _ => some (.writeWindow, h)
  | .readClass h _ => some (.readClass, h)
  | .writeClass h _ => some (.writeClass, h)
  | .lockRequest h _ => some (.lockRequest, h)
  | .lockRelease h _ => some (.lockRelease, h)
  | .lockCancel h _ => some (.lockCancel, h)
  | .lockStatus h _ => some (.lockStatus, h)
  | .readCartridge h _ => some (.readCartridge, h)
  | .readZones h _ => some (.readZones, h)
  | .readDefects h _ => some (.readDefects, h)
  | .readExceptions h _ => some (.readExceptions, h)
  | .readPool h _ => some (.readPool, h)
  | .readLinkCounts h _ => some (.readLinkCounts, h)
  | .eject h _ => some (.eject, h)
  | .recover h _ => some (.recover, h)
  | .discardStranded h _ => some (.discardStranded, h)
  | .powerOnReset _ _ | .linkReset | .linkResetEnd | .badCheckFrame _ | .malformedFrame _ | .transmissionEnd
  | .forwardTransmissionEnd | .downstreamFrame _ | .downstreamLinkDown | .downstreamLinkUp | .deadlineExpiry _
  | .passThroughTimeout _ | .orderTimeout | .agingExpiry _ | .mapWriteDelayExpiry | .settleExpiry | .quiesceExpiry
  | .spinDownTimerExpiry | .completion _ _ _ | .presenceOn _ | .presenceOff | .ejectButton | .fault
  | .spareRequestTaken _ | .downstreamResetRelease => none

/-- The items of a management request; none for any other command. -/
def itemsOf : Instr → List Item
  | .identify _ l | .readSettings _ l | .setSettings _ l | .readWindow _ l | .writeWindow _ l | .readClass _ l
  | .writeClass _ l | .lockRequest _ l | .lockRelease _ l | .lockCancel _ l | .lockStatus _ l | .readCartridge _ l
  | .readZones _ l | .readDefects _ l | .readExceptions _ l | .readPool _ l | .readLinkCounts _ l | .eject _ l
  | .recover _ l | .discardStranded _ l => l
  | .unknownOperation _ _ | .read _ | .write _ _ | .flush _ | .sense _ | .abort _
  | .powerOnReset _ _ | .linkReset | .linkResetEnd | .badCheckFrame _ | .malformedFrame _ | .transmissionEnd
  | .forwardTransmissionEnd | .downstreamFrame _ | .downstreamLinkDown | .downstreamLinkUp | .deadlineExpiry _
  | .passThroughTimeout _ | .orderTimeout | .agingExpiry _ | .mapWriteDelayExpiry | .settleExpiry | .quiesceExpiry
  | .spinDownTimerExpiry | .completion _ _ _ | .presenceOn _ | .presenceOff | .ejectButton | .fault
  | .spareRequestTaken _ | .downstreamResetRelease => []

end Sys2Proof.Machine
end

