-- ==== Sys2Proof/WellFormed.lean ====
section
/-! DEFINITION. The commands that the bridge's lines can carry (R84, R157, R158, R173, R174): the check makes no claim
about what a command does, and `exec` gives every command a meaning. -/

namespace Sys2Proof

/-- A parameter list that fits a request frame: each value at most 255 bytes, the list at most 16,384 (R172, R174). -/
def itemsFit (items : List Item) : Bool :=
  items.all (fun it => it.value.length ≤ 255) && (Machine.itemListBytes items).length ≤ 16384

/-- The data of one outcome suits the order kind: a GOOD sector of a READ or VERIFY carries its data, and no other sector
carries any (R84). -/
def outcomeFits (kind : OrderKind) : SectorOutcome → Bool
  | .good data => data.isSome == (kind == .read || kind == .verify)
  | .noId | .dataError | .writeFault => true

/-- A completion's result suits its kind: one outcome for each of 1 to 16 PSAs of a run, or GOOD or FAILED of a life-cycle
order (R83, R84). -/
def resultFits (kind : OrderKind) (result : CompletionResult) : Bool :=
  match kind, result with
  | .read, .run l | .erase, .run l | .write, .run l | .verify, .run l =>
    1 ≤ l.length && l.length ≤ 16 && l.all (outcomeFits kind)
  | .spinUp, .life _ | .spinDown, .life _ | .eject, .life _ => true
  | _, _ => false

/-- The command is one that the lines can bring. -/
def wellFormed : Instr → Bool
  | .write h data => if Machine.countOk .write h.count.toNat then data.length == h.count.toNat else data == []
  | .unknownOperation _ code => Machine.opOfCode code == .other code
  | .badCheckFrame frame => !Machine.checkOk frame
  | .malformedFrame frame => Machine.upstreamCommand frame == .malformedFrame frame
  | .identify _ items | .readSettings _ items | .setSettings _ items | .readWindow _ items | .writeWindow _ items
  | .readClass _ items | .writeClass _ items | .lockRequest _ items | .lockRelease _ items | .lockCancel _ items
  | .lockStatus _ items | .readCartridge _ items | .readZones _ items | .readDefects _ items
  | .readExceptions _ items | .readPool _ items | .readLinkCounts _ items | .eject _ items | .recover _ items
  | .discardStranded _ items => itemsFit items
  | .completion _ kind result => resultFits kind result
  | .powerOnReset _ _ | .linkReset | .linkResetEnd | .read _ | .flush _ | .sense _ | .abort _ | .transmissionEnd
  | .forwardTransmissionEnd | .downstreamFrame _ | .downstreamLinkDown | .downstreamLinkUp | .deadlineExpiry _
  | .passThroughTimeout _ | .orderTimeout | .agingExpiry _ | .mapWriteDelayExpiry | .settleExpiry | .quiesceExpiry
  | .spinDownTimerExpiry | .presenceOn _ | .presenceOff | .ejectButton | .fault | .spareRequestTaken _
  | .downstreamResetRelease => true

end Sys2Proof
end

