-- ==== Sys2Proof/Certificates/Slice0/Obligations.lean ====
section
/-! DEFINITION. The statements about the bridge. A command that touches the pool, the head or the cartridge ends with
`finish`, whose consequences are bounded by `Steady` (ConsequencesLeaveAloneWhatTheyMayNotTouch); every other command ends
with `pump`, the transmissions that may begin. -/

section Statements

open Sys2Proof Sys2Proof.Machine

/-! ### The queue, the clock and the consequences -/

/-- The block's law of its queue: a step with commands waiting is exec of the command in front with the queue's rest (log
entry 29), and a step with none waiting passes one millisecond and changes nothing else (log entry 1). Both are the model's
choices. -/
def Obligations.StepTakesTheFrontCommandOrPassesAMillisecond : Prop :=
  (∀ (c : Instr) (q : List Instr) (s : State), step { s with pending := c :: q } = exec c { s with pending := q })
  ∧ (∀ s : State, s.pending = [] → step s = .next (s.withBridge { s.bridge with clock := s.bridge.clock + 1 }))

/-- Every command, whatever its operands, answers a next state in every state. What it makes of the bridge depends on the
bridge alone, and the commands that wait stay as they are: the queue is the model's own (log entry 29), and POWER_ON_RESET
keeps it too (log entry 30, a DESIGN CHOICE). -/
def Obligations.EveryCommandAnswersANextState : Prop :=
  ∀ c : Instr, ∃ f : Bridge → Bridge, ∀ s : State, exec c s = .next (s.withBridge (f s.bridge))

/-- What the end of a step leaves alone, in every state: the clock, both tables, the settings and the edit lock, the counters
and conditions of the links, every entry that awaits no buffer, every reply that waits, the exceptions recorded, the timeout
count, the spindle and the held layout. A READ, WRITE or FLUSH that awaits a buffer keeps what was written at its admission,
and may go on to FETCHING or be answered. -/
def Obligations.ConsequencesLeaveAloneWhatTheyMayNotTouch : Prop :=
  ∀ b : Bridge, Steady b (finish b) ∧ Steady b (pump b)

/-! ### Reset -/

/-- The machine after power-on reset. The line conditions that State.reset assumes are the model's choice (log entry 3), and
so are the data of a FREE buffer, all zeros (log entry 6), and what the staging area holds, four map sectors without an
entry (log entry 28). POWER_ON_RESET takes the same values, with the downstream link read from its line and, where it is UP,
held in reset until the clock is at 20 ms (R171, R175), and leaves the waiting commands in the queue (log entry 30); a
cartridge that is present settles for 1000 ms with its write state read from the tab. -/
def Obligations.PowerOnResetTakesTheValuesOfPowerOn : Prop :=
  (State.reset.pending = []
   ∧ (∀ i : Fin 16, State.reset.bridge.router.windows[i] =
       { enabled := false, unit := 0, first := 0, last := 0, start := 0, gap := none, readAllowed := false,
         writeAllowed := false, writeMode := .posted, locked := false })
   ∧ (∀ i : Fin 8, State.reset.bridge.router.classes[i].enabled = false)
   ∧ (∀ k, State.reset.bridge.entry k = none)
   ∧ (∀ i, State.reset.bridge.buf i = Buffer.free) ∧ State.reset.bridge.pool.resQueue = []
   ∧ State.reset.bridge.pool.evict = [] ∧ availableCount State.reset.bridge = 32
   ∧ State.reset.bridge.pool.pressure = false
   ∧ State.reset.bridge.link.queue = [] ∧ State.reset.bridge.link.tx = none
   ∧ State.reset.bridge.thru.fifo = [] ∧ State.reset.bridge.thru.tx = none
   ∧ State.reset.bridge.thru.line = .down ∧ State.reset.bridge.thru.powerHold = none
   ∧ (State.reset.bridge.link.badCheck, State.reset.bridge.link.malformed, State.reset.bridge.link.attnSent,
       State.reset.bridge.thru.stray) = (0, 0, 0, 0)
   ∧ State.reset.bridge.arb.order = none ∧ State.reset.bridge.arb.nextNumber = 0
   ∧ (State.reset.bridge.arb.stamps, State.reset.bridge.arb.streak, State.reset.bridge.arb.timeouts) = (0, 0, 0)
   ∧ State.reset.bridge.dm.map = none
   ∧ State.reset.bridge.cart = CartRecord.powerOn ∧ CartRecord.powerOn.state = .empty
   ∧ CartRecord.powerOn.spindle = .parked
   ∧ State.reset.bridge.mgmt.settings =
       { orderTimeout := 3000, passTimeout := 2000, writeBackDelay := 200, mapWriteDelay := 5000,
         quiesceTimeout := 15000, settleTime := 1000, spinDownDelay := 0, retryLimit := 3, relocThreshold := 2,
         confirmedLimit := 4, quiesceSet := 0b1111#4, buttonForced := false, passUnits := 0x7FFF#15, attnOrig := none,
         attnEvents := 0 }
   ∧ State.reset.bridge.mgmt.holder = none ∧ State.reset.bridge.mgmt.waiting = []
   ∧ State.reset.bridge.mgmt.exceptions = [] ∧ State.reset.bridge.mgmt.overflow = 0
   ∧ State.reset.bridge.mgmt.attnPending = 0)
  ∧ (∀ (s : State) (line : LineState),
       let thru := { Bridge.powerOn.thru with line, powerHold := if line = .up then some 20#32 else none }
       exec (.powerOnReset none line) s = .next (s.withBridge { Bridge.powerOn with thru })
       ∧ ∀ tab, exec (.powerOnReset (some tab) line) s = .next (s.withBridge { Bridge.powerOn with
             thru
             cart := { CartRecord.powerOn with
               state := .settling, writeState := some (if tab then .isProtected else .writable),
               settleExpiry := some 1000#32 } }))

/-- LINK_RESET: no entry, no queued frame, no frame in transmission, no holder and no pending originator is left; readers
leave every load; the tables, the settings, the held map and the order in flight are kept, and no exception record is lost.
-/
def Obligations.LinkResetEmptiesTheTableAndTheQueues : Prop :=
  ∀ s : State, ∃ t, exec .linkReset s = .next t ∧ t.pending = s.pending ∧ t.bridge = finish (linkReset s.bridge)
    ∧ (∀ k, t.bridge.entry k = none)
    ∧ t.bridge.link.resetHeld = true ∧ t.bridge.link.partialRx = []
    ∧ t.bridge.thru.linkHold = (s.bridge.thru.line == .up) ∧ t.bridge.thru.stray = s.bridge.thru.stray
    ∧ t.bridge.router = s.bridge.router ∧ t.bridge.mgmt.settings = s.bridge.mgmt.settings
    ∧ t.bridge.mgmt.holder = none ∧ t.bridge.mgmt.waiting = []
    ∧ (∃ l, t.bridge.mgmt.exceptions = s.bridge.mgmt.exceptions ++ l)
    ∧ (linkReset s.bridge).link.queue = [] ∧ (linkReset s.bridge).link.tx = none
    ∧ (linkReset s.bridge).thru.fifo = [] ∧ (linkReset s.bridge).thru.tx = none
    ∧ (linkReset s.bridge).pool.resQueue = [] ∧ (linkReset s.bridge).mgmt.attnPending = 0
    ∧ (linkReset s.bridge).arb.order = s.bridge.arb.order ∧ (linkReset s.bridge).dm = s.bridge.dm
    ∧ ∀ i l, ((linkReset s.bridge).buf i).load = some l → l.readers = []

/-! ### The two links -/

/-- LINK_RESET_END, DOWNSTREAM_RESET_RELEASE and DOWNSTREAM_LINK_UP change one condition each; what it held back may then
leave. The reset of power-on is released once its 20 ms have passed (R171, R175); where it is not held, or its time has not
passed, there is no release (log entry 2). That LINK_RESET_END leaves the reset of power-on held downstream, and
DOWNSTREAM_RESET_RELEASE that of link reset, is log entry 19 (DEDUCED). A frame with a bad check word and a malformed frame are discarded and counted, each in its own
saturating counter, and nothing else changes; while the upstream link reset condition is held no frame is received (log entry
4). -/
def Obligations.LinkConditionsEndAndDiscardedFramesAreCounted : Prop :=
  (∀ s : State,
     exec .linkResetEnd s = .next (s.withBridge (pump { s.bridge with
       link := { s.bridge.link with resetHeld := false }, thru := { s.bridge.thru with linkHold := false } }))
     ∧ (∀ x, s.bridge.thru.powerHold = some x → reached s.bridge.clock x = true →
       exec .downstreamResetRelease s = .next (s.withBridge (pump { s.bridge with
         thru := { s.bridge.thru with powerHold := none } })))
     ∧ ((∀ x, s.bridge.thru.powerHold = some x → reached s.bridge.clock x = false) →
       exec .downstreamResetRelease s = .next s)
     ∧ exec .downstreamLinkUp s = .next (s.withBridge (pump { s.bridge with
       thru := { s.bridge.thru with line := .up } })))
  ∧ (∀ (s : State) (frame : List Byte),
       (s.bridge.link.resetHeld = false →
         exec (.badCheckFrame frame) s = .next (s.withBridge { s.bridge with link :=
           { s.bridge.link with partialRx := [], badCheck := min (s.bridge.link.badCheck + 1) 65535 } })
         ∧ exec (.malformedFrame frame) s = .next (s.withBridge { s.bridge with link :=
           { s.bridge.link with partialRx := [], malformed := min (s.bridge.link.malformed + 1) 65535 } }))
       ∧ (s.bridge.link.resetHeld = true →
         exec (.badCheckFrame frame) s = .next s ∧ exec (.malformedFrame frame) s = .next s))

/-- TRANSMISSION_END: the reply of an entry releases it and its key is free; a TAG_IN_USE reply releases nothing; an attention
frame is counted, and the test for a further one is made; then the next frame of the queue leaves (R41, R160, R161).
FORWARD_TRANSMISSION_END: the FORWARDED entry of the frame is marked sent; a frame whose entry is gone or answered marks
nothing; then the next frame of the forward FIFO leaves (R163). What leaves at the end of a step: the head of the outgoing
queue goes into transmission where no frame is in transmission and the upstream link is not held in reset (R160, R169); the
head of the forward FIFO goes into transmission where no frame is in transmission downstream, the downstream link is UP and
no reset of power-on or of link reset is held downstream (R163, R164, R170, R171); in any other case nothing leaves. -/
def Obligations.TransmissionEndsReleaseAndMark : Prop :=
  (∀ s : State,
     let sent := { s.bridge with link := { s.bridge.link with tx := none } }
     (s.bridge.link.tx = none → exec .transmissionEnd s = .next (s.withBridge (pump s.bridge)))
     ∧ (∀ k e u st done p, s.bridge.link.tx = some (.reply k u st done p) → s.bridge.entry k = some e →
         e.state = .answered →
         exec .transmissionEnd s = .next (s.withBridge (pump (sent.putEntry k none)))
         ∧ (pump (sent.putEntry k none)).entry k = none)
     ∧ (∀ k e frame, s.bridge.link.tx = some (.relayed k frame) → s.bridge.entry k = some e → e.state = .answered →
         exec .transmissionEnd s = .next (s.withBridge (pump (sent.putEntry k none)))
         ∧ (pump (sent.putEntry k none)).entry k = none)
     ∧ (∀ k u, s.bridge.link.tx = some (.tagInUse k u) →
         exec .transmissionEnd s = .next (s.withBridge (pump sent)))
     ∧ (∀ o ev n, s.bridge.link.tx = some (.attention o ev n) →
         exec .transmissionEnd s = .next (s.withBridge (pump (attnTest { sent with
           link := { sent.link with attnSent := min (s.bridge.link.attnSent + 1) 65535 } })))))
  ∧ (∀ s : State,
       let sent := { s.bridge with thru := { s.bridge.thru with tx := none } }
       (s.bridge.thru.tx = none → exec .forwardTransmissionEnd s = .next (s.withBridge (pump s.bridge)))
       ∧ ∀ f, s.bridge.thru.tx = some f →
         (∀ e, s.bridge.entry f.header.key = some e → e.seq = f.seq → e.state = .forwarded →
           exec .forwardTransmissionEnd s = .next (s.withBridge (pump (sent.putEntry f.header.key (some { e with sent := true })))))
         ∧ ((∀ e, s.bridge.entry f.header.key = some e → e.seq ≠ f.seq ∨ e.state ≠ .forwarded) →
           exec .forwardTransmissionEnd s = .next (s.withBridge (pump sent))))
  ∧ (∀ b : Bridge,
       pump b = { b with link := (pump b).link, thru := (pump b).thru }
       ∧ (∀ f rest, b.link.tx = none → b.link.queue = f :: rest → b.link.resetHeld = false →
         (pump b).link = { b.link with tx := some f, queue := rest })
       ∧ (b.link.tx ≠ none ∨ b.link.queue = [] ∨ b.link.resetHeld = true → (pump b).link = b.link)
       ∧ (∀ f rest, b.thru.tx = none → b.thru.fifo = f :: rest → b.thru.line = .up → b.thru.powerHold = none →
         b.thru.linkHold = false → (pump b).thru = { b.thru with tx := some f, fifo := rest })
       ∧ (b.thru.tx ≠ none ∨ b.thru.fifo = [] ∨ b.thru.line = .down ∨ b.thru.powerHold ≠ none ∨ b.thru.linkHold = true →
         (pump b).thru = b.thru))

/-- DOWNSTREAM_FRAME: a well-formed reply that matches a FORWARDED and sent entry by key and unit answers it with its status
and blocks done and leaves upstream unchanged; an attention frame of the old units is dropped uncounted; any other frame is
counted as stray (R165 to R167), and while the link is DOWN as well (log entry 22). What makes a frame a well-formed reply or
an attention frame (R165, R172); a reply of more than the 16,394 bytes of R175 is none (log entry 36, DEDUCED).
DOWNSTREAM_LINK_DOWN: every FORWARDED entry is answered PASS_TIMEOUT, every other entry stays as it is, and nothing is left to
send downstream (R56, R164). -/
def Obligations.DownstreamFramesAndLinkDownAnswerTheForwarded : Prop :=
  (∀ (s : State) (frame : List Byte),
     let b := { s.bridge with thru := { s.bridge.thru with partialRx := [] } }
     let stray := { b with thru := { b.thru with stray := min (b.thru.stray + 1) 65535 } }
     (judgeDownstream frame = .stray → exec (.downstreamFrame frame) s = .next (s.withBridge (pump stray)))
     ∧ (judgeDownstream frame = .attention → exec (.downstreamFrame frame) s = .next (s.withBridge (pump b)))
     ∧ ∀ k u st done, judgeDownstream frame = .reply k u st done →
       ((∀ e, s.bridge.entry k = some e → e.state ≠ .forwarded ∨ e.sent = false ∨ e.unit ≠ u) →
         exec (.downstreamFrame frame) s = .next (s.withBridge (pump stray)))
       ∧ ∀ e, s.bridge.entry k = some e → e.state = .forwarded → e.sent = true → e.unit = u →
         ∃ t, exec (.downstreamFrame frame) s = .next t ∧ t.pending = s.pending
           ∧ (∃ e', t.bridge.entry k = some e' ∧ e'.state = .answered ∧ e'.status = some (statusOfCode st)
               ∧ e'.blocksDone = done)
           ∧ .relayed k frame ∈ outFrames t.bridge
           ∧ (∀ j, j ≠ k → t.bridge.entry j = s.bridge.entry j) ∧ t.bridge.thru.stray = s.bridge.thru.stray)
  ∧ (∀ s : State, ∃ t, exec .downstreamLinkDown s = .next t ∧ t.pending = s.pending
       ∧ t.bridge.thru = { s.bridge.thru with line := .down, partialRx := [], tx := none, fifo := [] }
       ∧ (∀ k e, s.bridge.entry k = some e → e.state = .forwarded →
           IsAnswered t.bridge k .passTimeout 0 .none)
       ∧ (∀ k e, s.bridge.entry k = some e → e.state ≠ .forwarded → t.bridge.entry k = some e)
       ∧ (∀ k, s.bridge.entry k = none → t.bridge.entry k = none))
  ∧ ∀ frame : List Byte,
      ((∃ k u st done, judgeDownstream frame = .reply k u st done) ↔
        checkOk frame = true ∧ byteAt frame 0 = 0x02 ∧ 10 ≤ frame.length ∧ frame.length ≤ 16394
        ∧ (byteAt frame 1).toNat ≤ 3 ∧ (byteAt frame 2).toNat ≤ 15 ∧ (byteAt frame 3).toNat ≤ 15
        ∧ natOfBytes ((frame.drop 6).take 2) = frame.length - 10)
      ∧ (judgeDownstream frame = .attention ↔ checkOk frame = true ∧ byteAt frame 0 = 0x03 ∧ frame.length = 6)
      ∧ ∀ k u st done, judgeDownstream frame = .reply k u st done →
          k.orig.val = (byteAt frame 1).toNat ∧ k.tag.val = (byteAt frame 2).toNat ∧ u.val = (byteAt frame 3).toNat
          ∧ st = byteAt frame 4 ∧ done = (byteAt frame 5).toNat

/-- PASS_THROUGH_TIMEOUT: a FORWARDED entry whose timer has run out is answered PASS_TIMEOUT, blocks done 0, and its frame
leaves the forward FIFO (R168). DEADLINE_EXPIRY: a READ that waits in RESERVING or FETCHING past its deadline is answered
DEADLINE_MISSED, blocks done 0 (R45). A timer that does not run, or has not run out, has no expiry (log entry 2). -/
def Obligations.ExpiredTimersAnswerTheirEntry : Prop :=
  (∀ (s : State) (k : Key),
     (∀ e x, s.bridge.entry k = some e → e.state = .forwarded → e.passExpiry = some x →
       reached s.bridge.clock x = true →
       ∃ t, exec (.passThroughTimeout k) s = .next t ∧ t.pending = s.pending
         ∧ IsAnswered t.bridge k .passTimeout 0 .none ∧ (∀ j, j ≠ k → t.bridge.entry j = s.bridge.entry j)
         ∧ (∀ f ∈ t.bridge.thru.fifo, f.seq ≠ e.seq) ∧ (∀ f ∈ t.bridge.thru.fifo, f ∈ s.bridge.thru.fifo))
     ∧ ((∀ e, s.bridge.entry k = some e → e.state ≠ .forwarded
           ∨ ∀ x, e.passExpiry = some x → reached s.bridge.clock x = false) →
       exec (.passThroughTimeout k) s = .next s))
  ∧ (∀ (s : State) (k : Key),
       (∀ e x, s.bridge.entry k = some e → e.state = .reserving ∨ e.state = .fetching → e.deadline = some x →
         reached s.bridge.clock x = true →
         ∃ t, exec (.deadlineExpiry k) s = .next t ∧ t.pending = s.pending ∧ Steady s.bridge t.bridge
           ∧ IsAnswered t.bridge k .deadlineMissed 0 .none)
       ∧ ((∀ e, s.bridge.entry k = some e → (e.state ≠ .reserving ∧ e.state ≠ .fetching)
             ∨ ∀ x, e.deadline = some x → reached s.bridge.clock x = false) →
         exec (.deadlineExpiry k) s = .next s))

/-! ### Requests: the key, the content and the route -/

/-- A request whose key is held leaves the held entry as it is: it is answered TAG_IN_USE where no frame for the key waits,
and is dropped where one does (R37). While the upstream link reset condition is held no request is received (R169; log entry
4). A request whose key is free and whose content fails is answered BAD_REQUEST at once: an unknown operation, a READ or
WRITE whose count is not 1 to 32, any other operation whose count is not 0, an ABORT whose target tag is above 15 (R38); and
so is a unit that does not fit the operation, and a last block beyond 16,777,215 (R21). That the refused entry holds no
routing is log entry 17 (DEDUCED). -/
def Obligations.HeldKeysAndBadContentAreSettledAtAdmission : Prop :=
  (∀ (c : Instr) (op : Op) (h : Header) (s : State), requestOf c = some (op, h) → wellFormed c = true →
     s.bridge.link.resetHeld = false → (s.bridge.entry h.key).isSome = true →
     let queue := if s.bridge.link.queue.any (fun f => f.key == some h.key) then s.bridge.link.queue
       else s.bridge.link.queue ++ [.tagInUse h.key h.unit]
     let b := { s.bridge with link := { s.bridge.link with partialRx := [], queue } }
     ∃ t, exec c s = .next t ∧ t.pending = s.pending ∧ (t.bridge = finish b ∨ t.bridge = pump b))
  ∧ (∀ (c : Instr) (op : Op) (h : Header) (s : State), requestOf c = some (op, h) → wellFormed c = true →
       s.bridge.link.resetHeld = true →
       ∃ t, exec c s = .next t ∧ t.pending = s.pending ∧ (t.bridge = finish s.bridge ∨ t.bridge = pump s.bridge))
  ∧ (∀ (c : Instr) (op : Op) (h : Header) (s : State), requestOf c = some (op, h) → wellFormed c = true →
       Received s.bridge h →
       ((∃ code, op = .other code)
         ∨ ((op = .read ∨ op = .write) ∧ (h.count.toNat = 0 ∨ 32 < h.count.toNat))
         ∨ (op ≠ .read ∧ op ≠ .write ∧ h.count ≠ 0)
         ∨ (op = .abort ∧ 15 < h.block.toNat)
         ∨ (contentOk op h = true
             ∧ ((op.isManagement = true ∧ h.unit ≠ 15)
               ∨ ((op = .read ∨ op = .write ∨ op = .flush ∨ op = .sense) ∧ h.unit = 15)
               ∨ ((op = .read ∨ op = .write) ∧ 16777215 < h.block.toNat + h.count.toNat - 1)))) →
       let b := answeredAtOnce s.bridge h op none .badRequest .none
       ∃ t, exec c s = .next t ∧ t.pending = s.pending ∧ (t.bridge = finish b ∨ t.bridge = pump b)
         ∧ IsAnswered t.bridge h.key .badRequest 0 .none)

/-- The zone arithmetic, both ways (R8). The three results of a translation; the spare of an entry has no entry of its own, so
a translation is made once (R15). -/
def Obligations.HomePsaAndTranslationFollowTheTables : Prop :=
  (∀ l : Label, zonesOk l = true →
     (∀ z e n, l.zones[z]? = some e → firstLsn l z ≤ n → n < firstLsn l z + e.userTracks * e.sectorsPerTrack →
       homePsa l n = some (e.first + (n - firstLsn l z)))
     ∧ (∀ n, userCount l ≤ n → homePsa l n = none)
     ∧ (∀ z e p, l.zones[z]? = some e → e.first ≤ p → p < e.first + e.userTracks * e.sectorsPerTrack →
       homeLsn l p = some (firstLsn l z + (p - e.first))
       ∧ homePsa l (firstLsn l z + (p - e.first)) = some p)
     ∧ ∀ p, isUser l p = false → homeLsn l p = none ∧ ∀ n, homePsa l n ≠ some p)
  ∧ (∀ (m : List MapEntry) (p : Nat), mapLaws m = true →
       ((∀ e ∈ m, e.defective ≠ p) → translatePsa m p = .home p)
       ∧ (∀ e ∈ m, e.defective = p →
           (∀ s, e.spare = some s → translatePsa m p = .spare s ∧ translatePsa m s = .home s)
           ∧ (e.spare = none → translatePsa m p = .lost)))

/-- What a window claims, and the cartridge block it gives (R19); the claiming window of a unit block is the enabled window of
lowest index that claims it (R20). The block test of a run of blocks, and the cartridge blocks of a claimed request, which are
consecutive (R22). The deadline of a READ is that of the first class entry that matches it, and a READ that no entry matches
has none (R32). -/
def Obligations.WindowsClaimAndClassesMatchByIndex : Prop :=
  (∀ (w : Window) (u x : Nat),
     (claims w u x = true ↔ w.enabled = true ∧ w.unit = u ∧ w.first ≤ x ∧ x ≤ w.last
       ∧ ∀ g, w.gap = some g → ¬ (g.first ≤ x ∧ x ≤ g.first + g.count - 1))
     ∧ (w.gap = none → cbOf w x = w.start + (x - w.first))
     ∧ (∀ g, w.gap = some g →
         (x < g.first → cbOf w x = w.start + (x - w.first))
         ∧ (g.first + g.count ≤ x → cbOf w x = w.start + (x - w.first) - g.count))
     ∧ (windowInRange w = true → windowConsistent w = true → claims w u x = true → cbOf w x ≤ 67108863))
  ∧ (∀ (r : Router) (u x : Nat),
       (∀ i, claimingWindow r u x = some i ↔
         claims r.windows[i] u x = true ∧ ∀ j : Fin 16, j < i → claims r.windows[j] u x = false)
       ∧ (claimingWindow r u x = none ↔ ∀ i : Fin 16, claims r.windows[i] u x = false))
  ∧ (∀ (r : Router) (u : Nat) (blocks : List Nat), blocks ≠ [] →
       (∀ i, blockTest r u blocks = .claimed i ↔
         (∀ x ∈ blocks, claims r.windows[i] u x = true)
         ∧ ∀ x ∈ blocks, ∀ j : Fin 16, j < i → claims r.windows[j] u x = false)
       ∧ (blockTest r u blocks = .unclaimed ↔ ∀ x ∈ blocks, claimingWindow r u x = none)
       ∧ (blockTest r u blocks = .spans ↔
         (∃ x ∈ blocks, claimingWindow r u x ≠ none) ∧ ∀ i, blockTest r u blocks ≠ .claimed i))
  ∧ (∀ (r : Router) (h : Header) (i : Fin 16), blockTest r h.unit (blockRun h) = .claimed i →
       windowConsistent r.windows[i] = true →
       ∀ x ∈ blockRun h, cbOf r.windows[i] x = cbOf r.windows[i] h.block.toNat + (x - h.block.toNat))
  ∧ ∀ (r : Router) (h : Header),
      let fits := fun i : Fin 8 =>
        r.classes[i].enabled = true ∧ r.classes[i].origs.getLsbD h.orig = true ∧ r.classes[i].units.getLsbD h.unit = true
        ∧ ∀ g, r.classes[i].range = some g →
          g.first ≤ h.block.toNat ∧ h.block.toNat + h.count.toNat - 1 ≤ g.last
      (∀ i : Fin 8, fits i → (∀ j : Fin 8, j < i → ¬ fits j) → deadlineOf r h = some r.classes[i].deadline)
      ∧ ((∀ i : Fin 8, ¬ fits i) → deadlineOf r h = none)

/-- A READ or WRITE whose blocks are claimed in part is answered SPANS_BOUNDARY; one that no window claims, whose unit is not
in the pass-through unit set or whose downstream link is DOWN, is answered NOT_MAPPED, and so is a FLUSH or SENSE on a unit
without windows (R22, R24, R25). A claimed one is checked in order: the window allows it, the cartridge is READY, the last
cartridge block lies within the mounted capacity; the first check that fails gives the status (R23). That the refused entry
holds no routing is log entry 17 (DEDUCED). -/
def Obligations.RefusedBlocksAreAnsweredInTheOrderOfTheChecks : Prop :=
  (∀ (h : Header) (data : List Block) (s : State), Received s.bridge h →
     1 ≤ h.count.toNat → h.count.toNat ≤ 32 → h.unit ≠ 15 → h.block.toNat + h.count.toNat - 1 ≤ 16777215 →
     data.length = h.count.toNat →
     ∀ st, (blockTest s.bridge.router h.unit (blockRun h) = .spans ∧ st = .spansBoundary)
         ∨ (blockTest s.bridge.router h.unit (blockRun h) = .unclaimed
             ∧ (s.bridge.mgmt.settings.passUnits.getLsbD h.unit = false ∨ s.bridge.thru.line = .down)
             ∧ st = .notMapped) →
       let rd := finish (answeredAtOnce s.bridge h .read none st .none)
       let wr := finish (answeredAtOnce s.bridge h .write none st .none)
       exec (.read h) s = .next (s.withBridge rd) ∧ IsAnswered rd h.key st 0 .none
       ∧ exec (.write h data) s = .next (s.withBridge wr) ∧ IsAnswered wr h.key st 0 .none)
  ∧ (∀ (h : Header) (s : State), Received s.bridge h → h.count = 0 → h.unit ≠ 15 →
       enabledCount s.bridge.router h.unit = 0 →
       (s.bridge.mgmt.settings.passUnits.getLsbD h.unit = false ∨ s.bridge.thru.line = .down) →
       let fl := finish (answeredAtOnce s.bridge h .flush none .notMapped .none)
       let se := pump (answeredAtOnce s.bridge h .sense none .notMapped .none)
       exec (.flush h) s = .next (s.withBridge fl) ∧ IsAnswered fl h.key .notMapped 0 .none
       ∧ exec (.sense h) s = .next (s.withBridge se) ∧ IsAnswered se h.key .notMapped 0 .none)
  ∧ (∀ (h : Header) (data : List Block) (s : State) (i : Fin 16), Received s.bridge h →
       1 ≤ h.count.toNat → h.count.toNat ≤ 32 → h.unit ≠ 15 → h.block.toNat + h.count.toNat - 1 ≤ 16777215 →
       data.length = h.count.toNat → blockTest s.bridge.router h.unit (blockRun h) = .claimed i →
       let w := s.bridge.router.windows[i]
       let refused := fun st =>
         ((s.bridge.cart.state = .empty ∨ s.bridge.cart.state = .settling ∨ s.bridge.cart.state = .spinup
             ∨ s.bridge.cart.state = .mounting) ∧ st = .notReady)
         ∨ ((s.bridge.cart.state = .quiescing ∨ s.bridge.cart.state = .ejecting) ∧ st = .mediaChanging)
         ∨ (s.bridge.cart.state = .unusable ∧ st = .mediaUnusable)
         ∨ (s.bridge.cart.state = .halted ∧ st = .mechFault)
         ∨ (s.bridge.cart.state = .ready ∧ st = .outOfMedia
             ∧ ∃ l, s.bridge.cart.layout = some l ∧ 4 * userCount l ≤ cbOf w h.block.toNat + h.count.toNat - 1)
       (∀ st, (w.readAllowed = false ∧ st = .readProhibited) ∨ (w.readAllowed = true ∧ refused st) →
         let b := finish (answeredAtOnce s.bridge h .read none st .none)
         exec (.read h) s = .next (s.withBridge b) ∧ IsAnswered b h.key st 0 .none)
       ∧ ∀ st, (w.writeAllowed = false ∧ st = .writeProhibited) ∨ (w.writeAllowed = true ∧ refused st) →
         let b := finish (answeredAtOnce s.bridge h .write none st .none)
         exec (.write h data) s = .next (s.withBridge b) ∧ IsAnswered b h.key st 0 .none)

/-- A READ or WRITE that no window claims, and a FLUSH or SENSE on a unit without windows, is forwarded where its unit is in
the pass-through unit set and the downstream link is UP: its entry is FORWARDED with its timer, and its frame joins the tail
of the forward FIFO (R24, R25, R56, R163, R168). -/
def Obligations.UnclaimedRequestIsForwarded : Prop :=
  ∀ (c : Instr) (op : Op) (h : Header) (data : List Block) (s : State),
    (c = .read h ∧ op = .read ∧ data = [] ∧ 1 ≤ h.count.toNat ∧ h.count.toNat ≤ 32)
      ∨ (c = .write h data ∧ op = .write ∧ data.length = h.count.toNat ∧ 1 ≤ h.count.toNat ∧ h.count.toNat ≤ 32)
      ∨ (c = .flush h ∧ op = .flush ∧ data = [] ∧ h.count = 0)
      ∨ (c = .sense h ∧ op = .sense ∧ data = [] ∧ h.count = 0) →
    Received s.bridge h → h.unit ≠ 15 →
    ((op = .read ∨ op = .write) → h.block.toNat + h.count.toNat - 1 ≤ 16777215
      ∧ blockTest s.bridge.router h.unit (blockRun h) = .unclaimed) →
    ((op = .flush ∨ op = .sense) → enabledCount s.bridge.router h.unit = 0) →
    s.bridge.mgmt.settings.passUnits.getLsbD h.unit = true → s.bridge.thru.line = .up →
    let e := { newEntry s.bridge h op (some .pass) with
      state := .forwarded
      passExpiry := some (s.bridge.clock + BitVec.ofNat 32 s.bridge.mgmt.settings.passTimeout) }
    let b := withEntry s.bridge h e
    let b := { b with thru := { b.thru with fifo := b.thru.fifo ++ [⟨h, op, data, s.bridge.table.nextSeq⟩] } }
    ∃ t, exec c s = .next t ∧ t.pending = s.pending ∧ (t.bridge = finish b ∨ t.bridge = pump b)
      ∧ t.bridge.entry h.key = some e

/-! ### READ and WRITE -/

/-- A READ that passes the Router gets its entry: its route, its sector list, its class and its deadline expiry. It waits in
RESERVING or FETCHING, or is answered in the same step. The sector list of a request, and the quarters that each sector gives
(R31, R42). -/
def Obligations.AdmittedReadGetsItsEntryAndSectors : Prop :=
  (∀ (h : Header) (s : State) (i : Fin 16), Received s.bridge h →
     1 ≤ h.count.toNat → h.count.toNat ≤ 32 → h.unit ≠ 15 → h.block.toNat + h.count.toNat - 1 ≤ 16777215 →
     blockTest s.bridge.router h.unit (blockRun h) = .claimed i →
     s.bridge.router.windows[i].readAllowed = true → s.bridge.cart.state = .ready →
     (∃ l, s.bridge.cart.layout = some l
       ∧ cbOf s.bridge.router.windows[i] h.block.toNat + h.count.toNat - 1 < 4 * userCount l) →
     let cb := cbOf s.bridge.router.windows[i] h.block.toNat
     let deadline := deadlineOf s.bridge.router h
     let e := { newEntry s.bridge h .read (some (.window i cb)) with
       state := .reserving
       sectors := sectorList cb h.count.toNat
       cls := some (if deadline = none then .normal else .stream)
       deadline := deadline.map (fun d => s.bridge.clock + BitVec.ofNat 32 d) }
     ∃ t, exec (.read h) s = .next t ∧ t.pending = s.pending
       ∧ t.bridge = finish (insertReservation (withEntry s.bridge h e) h.key)
       ∧ ∃ e', t.bridge.entry h.key = some e' ∧ SameRequest e e')
  ∧ ∀ cb n : Nat, 1 ≤ n →
      (∀ lsn, lsn ∈ sectorList cb n ↔ cb / 4 ≤ lsn ∧ lsn ≤ (cb + n - 1) / 4)
      ∧ (sectorList cb n).Pairwise (· < ·)
      ∧ (n ≤ 32 → 1 ≤ (sectorList cb n).length ∧ (sectorList cb n).length ≤ 9)
      ∧ ∀ lsn, ∀ q : Fin 4, hasQuarter (neededQuarters cb n lsn) q = true ↔
          cb ≤ 4 * lsn + q.val ∧ 4 * lsn + q.val < cb + n

/-- The reservation queue: a STREAM READ is placed by the distance of its deadline expiry, after those of equal distance, a
NORMAL READ last, and the queue stays in that order (R66). The head is granted when the buffers available to it number at
least its new-buffer count, and stays otherwise (R65, R66), where no test of eligibility is still to be made (the model's own
field; log entry 24). A grant takes the READ out of the queue; it is in FETCHING, or answered at once; in FETCHING it pins one
buffer for each sector, the current buffer where there was one, a LOADING buffer where there was none, none of them in the
eviction order; and it is a reader of the load of each that lacks a needed quarter (R67). -/
def Obligations.ReservationsAreQueuedAndGranted : Prop :=
  (∀ (b : Bridge) (k : Key) (e : Entry), b.entry k = some e →
     let q := b.pool.resQueue
     let q' := (insertReservation b k).pool.resQueue
     let dist := fun j => ((b.entry j).bind fun e => e.deadline).map (ahead b.clock)
     let before := fun i j => ∀ y, dist j = some y → ∃ x, dist i = some x ∧ x ≤ y
     (e.deadline = none → q' = q ++ [k])
     ∧ (∀ x, dist k = some x → ∃ front back, q = front ++ back ∧ q' = front ++ k :: back
         ∧ (∀ j ∈ front, ∃ y, dist j = some y ∧ y ≤ x)
         ∧ ∀ j rest, back = j :: rest → ∀ y, dist j = some y → x < y)
     ∧ (q.Pairwise before → q'.Pairwise before))
  ∧ (∀ (b : Bridge) (k : Key) (rest : List Key) (e : Entry), failDue b = none → b.pool.pressure = pressureNow b →
       b.pool.resQueue = k :: rest → b.entry k = some e → b.pool.testDue = [] →
       (newBufferCount b e.sectors ≤ availableFor b e.sectors → poolStep b = some (grant b k))
       ∧ (availableFor b e.sectors < newBufferCount b e.sectors → poolStep b = none))
  ∧ (∀ (b : Bridge) (k : Key) (e : Entry), b.entry k = some e → e.state = .reserving →
       let t := grant b k
       t.pool.resQueue = b.pool.resQueue.filter (· != k)
       ∧ (∃ e', t.entry k = some e' ∧ SameRequest e e' ∧ (e'.state = .fetching ∨ e'.state = .answered))
       ∧ (PoolOk b → e.sectors.Nodup → newBufferCount b e.sectors ≤ availableFor b e.sectors →
           ∀ e', t.entry k = some e' → e'.state = .fetching →
             e'.pins.length = e.sectors.length
             ∧ ∀ (n lsn : Nat) (i : BufIdx), e.sectors[n]? = some lsn → e'.pins[n]? = some i →
               (t.buf i).lsn = some lsn ∧ i ∉ t.pool.evict
               ∧ (∀ j, currentBuf b lsn = some j → i = j ∧ (t.buf i).state = (b.buf i).state)
               ∧ (currentBuf b lsn = none → (t.buf i).state = .loading
                   ∧ (t.buf i).valid = 0 ∧ (t.buf i).dirty = 0 ∧ (t.buf i).lost = 0)
               ∧ (neededQuarters e.cb e.count.toNat lsn &&& ~~~ ((t.buf i).valid ||| (t.buf i).lost) ≠ 0 →
                   ∃ l, (t.buf i).load = some l ∧ k ∈ l.readers)))

/-- A READ in FETCHING that finds every needed quarter valid and none lost is answered OK, blocks done its count, with the
quarters in block order as the buffers hold them (R43); one that needs a lost quarter is answered MEDIA_ERROR with its leading
good blocks, and so is every READ that pins a buffer without dirty quarters whose load ended unrecovered, or a buffer whose
data was discarded because 8 were STRANDED already, lost quarter or not (R44, R72, R79). The leading good blocks are then
those of the buffers as the end of the load or of the job leaves them for the count: the buffer without its load, and a
discarded one with no quarter valid. That they are not changed by the answers of other READs rests on the sets of a LOADING
buffer (R60), which `EveryStepKeepsThePoolInOrder` keeps. -/
def Obligations.FetchingReadsAreAnsweredFromTheirBuffers : Prop :=
  let leading := fun (c : Bridge) (e : Entry) =>
    ((blockPlaces e).takeWhile fun p => match p.1 with
      | some j => hasQuarter (c.buf j).valid p.2 && !hasQuarter (c.buf j).lost p.2
      | none => false).map fun p => match p.1 with | some j => (c.buf j).data[p.2] | none => 0
  (∀ (b : Bridge) (k : Key) (e : Entry), b.entry k = some e → e.state = .fetching →
     (∀ p ∈ blockPlaces e, ∃ i, p.1 = some i ∧ hasQuarter (b.buf i).valid p.2 = true
       ∧ hasQuarter (b.buf i).lost p.2 = false) →
     IsAnswered (testRead b k) k .ok e.count.toNat
       (.blocks ((blockPlaces e).map fun p => match p.1 with | some i => (b.buf i).data[p.2] | none => 0)))
  ∧ (∀ (b : Bridge) (k : Key) (e : Entry), b.entry k = some e → e.state = .fetching →
       let data := leading b e
       IsAnswered (answerMediaError b k) k .mediaError data.length (.blocks data)
       ∧ ∀ p i, p ∈ blockPlaces e → p.1 = some i → hasQuarter (b.buf i).lost p.2 = true →
         testRead b k = answerMediaError b k ∧ data.length < e.count.toNat)
  ∧ (∀ (b : Bridge) (i : BufIdx) (k : Key) (e : Entry), b.entry k = some e → e.state = .fetching → i ∈ e.pins →
       let unloaded := b.putBuf i { b.buf i with load := none }
       let discarded := b.putBuf i { b.buf i with valid := 0, load := none, flush := none }
       ((b.buf i).state = .loading → (b.buf i).dirty = 0 →
         ∃ data, IsAnswered (loadLost b i) k .mediaError data.length (.blocks data)
           ∧ (LoadingOk b → data = leading unloaded e))
       ∧ (8 ≤ strandedCount b → ∃ data, IsAnswered (strand b i) k .mediaError data.length (.blocks data)
           ∧ (LoadingOk b → data = leading discarded e)))

/-- A WRITE that the Router hands on is refused by the first admission check that fails: PROTECTED, WRITE_LOCKED, the
confirmed write limit, and the buffers it needs (R39, R74). That the refused entry holds no routing, although the Router had
handed the WRITE on, is log entry 17 (DEDUCED). -/
def Obligations.WriteAdmissionIsCheckedInOrder : Prop :=
  ∀ (h : Header) (data : List Block) (s : State) (i : Fin 16), Received s.bridge h →
    1 ≤ h.count.toNat → h.count.toNat ≤ 32 → h.unit ≠ 15 → h.block.toNat + h.count.toNat - 1 ≤ 16777215 →
    data.length = h.count.toNat → blockTest s.bridge.router h.unit (blockRun h) = .claimed i →
    s.bridge.router.windows[i].writeAllowed = true → s.bridge.cart.state = .ready →
    (∃ l, s.bridge.cart.layout = some l
      ∧ cbOf s.bridge.router.windows[i] h.block.toNat + h.count.toNat - 1 < 4 * userCount l) →
    let lsns := sectorList (cbOf s.bridge.router.windows[i] h.block.toNat) h.count.toNat
    let full := s.bridge.router.windows[i].writeMode = .confirmed
      ∧ s.bridge.mgmt.settings.confirmedLimit ≤ confirmedCount s.bridge
    ∀ st,
      (s.bridge.cart.writeState = some .isProtected ∧ st = .writeProtected)
      ∨ (s.bridge.cart.writeState = some .writeLocked ∧ st = .mediaLocked)
      ∨ (s.bridge.cart.writeState = some .writable ∧ full ∧ st = .retryLater)
      ∨ (s.bridge.cart.writeState = some .writable ∧ ¬ full ∧ st = .retryLater
          ∧ availableFor s.bridge lsns < (lsns.filter (needsBuffer s.bridge)).length) →
      let b := finish (answeredAtOnce s.bridge h .write none st .none)
      exec (.write h data) s = .next (s.withBridge b) ∧ IsAnswered b h.key st 0 .none

/-- A WRITE that passes its admission has its blocks merged and gets its entry. Through a POSTED window it is answered OK at
once, blocks done its count, in key order with the READs that the merge lets be answered (log entry 8). Through a CONFIRMED
window it awaits the merged buffer of each of its sectors; a sector whose merged buffer is STRANDED is failed for it at once,
which lowers blocks done to the blocks before the first such sector; and it is in AWAIT_COMMIT, or ANSWERED (R31, R46, R47,
R49). -/
def Obligations.AdmittedWriteIsAnsweredOrAwaitsItsBuffers : Prop :=
  ∀ (h : Header) (data : List Block) (s : State) (i : Fin 16), Received s.bridge h →
    1 ≤ h.count.toNat → h.count.toNat ≤ 32 → h.unit ≠ 15 → h.block.toNat + h.count.toNat - 1 ≤ 16777215 →
    data.length = h.count.toNat → blockTest s.bridge.router h.unit (blockRun h) = .claimed i →
    s.bridge.router.windows[i].writeAllowed = true → s.bridge.cart.state = .ready →
    (∃ l, s.bridge.cart.layout = some l
      ∧ cbOf s.bridge.router.windows[i] h.block.toNat + h.count.toNat - 1 < 4 * userCount l) →
    s.bridge.cart.writeState = some .writable →
    let w := s.bridge.router.windows[i]
    let cb := cbOf w h.block.toNat
    let lsns := sectorList cb h.count.toNat
    (w.writeMode = .confirmed → confirmedCount s.bridge < s.bridge.mgmt.settings.confirmedLimit) →
    (lsns.filter (needsBuffer s.bridge)).length ≤ availableFor s.bridge lsns →
    let e := { newEntry s.bridge h .write (some (.window i cb)) with
      writeMode := some w.writeMode, sectors := lsns, state := .awaitCommit }
    let merged := admitWrite { s.bridge with link := { s.bridge.link with partialRx := [] } } cb h.count.toNat data
    let entered := makeEntry merged h .write (writeEntry merged i cb w.writeMode)
    let isStranded := fun lsn => (currentBuf merged lsn).any fun j => (merged.buf j).state == .stranded
    let awaited := (lsns.filter fun lsn => !isStranded lsn).filterMap (currentBuf merged)
    let done := match lsns.findIdx? isStranded with
      | none => h.count.toNat
      | some 0 => 0
      | some (n + 1) => min (4 - cb % 4 + 4 * n) h.count.toNat
    ∃ t, exec (.write h data) s = .next t ∧ t.pending = s.pending
      ∧ t.bridge = finish (answerMerged h.key w.writeMode h.count.toNat entered)
      ∧ Steady (withEntry s.bridge h e) t.bridge
      ∧ (w.writeMode = .posted → IsAnswered t.bridge h.key .ok h.count.toNat .none)
      ∧ (w.writeMode = .confirmed →
          entered.entry h.key = some { e with awaited := some awaited, blocksDone := done }
          ∧ ∃ e', t.bridge.entry h.key = some e' ∧ SameRequest e e'
            ∧ (e'.state = .awaitCommit ∨ e'.state = .answered))

/-- A buffer is taken for a sector: the lowest-index FREE buffer, and with none FREE the oldest buffer of the eviction order
whose sector is not in the list, which is forgotten and set to the FREE values (R63, R67, R74; its data to zeros, log entry
6). A buffer joins the newest end of the eviction order when it is CLEAN and no entry pins it, once (R63). A WRITE takes an
OPEN buffer for a sector that has none, and for a COMMITTING sector a successor with a copy of its data and sets, which is the
sector's current buffer from then on (R74, R76); after the admission every sector of the WRITE has a current buffer that holds
its written blocks (R74, R75). -/
def Obligations.BuffersAreTakenForTheSectorsThatNeedThem : Prop :=
  (∀ (b : Bridge) (lsns : List Nat),
     (∀ i, (b.buf i).state = .free → (∀ j, j < i → (b.buf j).state ≠ .free) → takeBuffer b lsns = some (b, i))
     ∧ ((∀ i, (b.buf i).state ≠ .free) →
         (∀ front i back, b.pool.evict = front ++ i :: back →
           (∀ j ∈ front, ∃ n ∈ lsns, (b.buf j).lsn = some n) → (∀ n ∈ lsns, (b.buf i).lsn ≠ some n) →
           ∃ t, takeBuffer b lsns = some (t, i) ∧ t.buf i = Buffer.free
             ∧ t.pool.evict = b.pool.evict.filter (· != i)
             ∧ ∀ j, j ≠ i → t.buf j = { b.buf j with
                 successor := if (b.buf j).successor = some i then none else (b.buf j).successor })
         ∧ ((∀ i ∈ b.pool.evict, ∃ n ∈ lsns, (b.buf i).lsn = some n) → takeBuffer b lsns = none)))
  ∧ (∀ (b : Bridge) (i : BufIdx),
       let joins := (b.buf i).state = .clean ∧ (∀ k e, b.entry k = some e → i ∉ e.pinned) ∧ i ∉ b.pool.evict
       (joins → joinEvict b i = { b with pool := { b.pool with evict := b.pool.evict ++ [i] } })
       ∧ (¬ joins → joinEvict b i = b))
  ∧ (∀ (b : Bridge) (lsns : List Nat) (lsn : Nat), PoolOk b → lsn ∈ lsns → 1 ≤ availableFor b lsns →
       let t := takeForWrite lsns b lsn
       (currentBuf b lsn = none → ∃ j, currentBuf t lsn = some j
         ∧ t.buf j = { Buffer.free with state := .opened, lsn := some lsn })
       ∧ ∀ c, currentBuf b lsn = some c →
         ((b.buf c).state ≠ .committing → t = b)
         ∧ ((b.buf c).state = .committing → ∃ j, currentBuf t lsn = some j ∧ j ≠ c
           ∧ t.buf c = { b.buf c with successor := some j }
           ∧ t.buf j = { Buffer.free with
               state := .opened, lsn := some lsn, data := (b.buf c).data, valid := (b.buf c).valid,
               dirty := (b.buf c).dirty, lost := (b.buf c).lost }))
  ∧ (∀ (b : Bridge) (cb n : Nat) (data : List Block), PoolOk b → 1 ≤ n →
       ((sectorList cb n).filter (needsBuffer b)).length ≤ availableFor b (sectorList cb n) →
       let t := admitWrite b cb n data
       ∀ lsn ∈ sectorList cb n, ∃ i, currentBuf t lsn = some i ∧ (t.buf i).lastWrite = some b.clock
         ∧ ∀ q : Fin 4, cb ≤ 4 * lsn + q.val ∧ 4 * lsn + q.val < cb + n →
           (t.buf i).data[q] = data.getD (4 * lsn + q.val - cb) 0 ∧ hasQuarter (t.buf i).valid q = true
           ∧ hasQuarter (t.buf i).dirty q = true ∧ hasQuarter (t.buf i).lost q = false)

/-- The merge of one sector of a WRITE into its current buffer: each written quarter is valid, dirty and not lost and holds
the block of the request; every other quarter is as it was; the last write time is the clock; no other buffer changes; a
CLEAN buffer becomes OPEN; a LOADING buffer that is then all valid with its load PENDING becomes OPEN without a load, and
any other LOADING buffer goes on loading (R70, R75). That this holds too of a buffer that was all valid before the merge, with
its load PENDING again, is the model's choice (log entry 40). -/
def Obligations.MergeWritesItsQuartersOnly : Prop :=
  ∀ (b : Bridge) (cb n lsn : Nat) (data : List Block) (i : BufIdx), currentBuf b lsn = some i →
    let t := mergeSector cb n data b lsn
    let covered := (t.buf i).valid = allQuarters ∧ ∀ l, (b.buf i).load = some l → l.stage = .pending
    (∀ q : Fin 4, cb ≤ 4 * lsn + q.val ∧ 4 * lsn + q.val < cb + n →
        (t.buf i).data[q] = data.getD (4 * lsn + q.val - cb) 0 ∧ hasQuarter (t.buf i).valid q = true
        ∧ hasQuarter (t.buf i).dirty q = true ∧ hasQuarter (t.buf i).lost q = false)
    ∧ (∀ q : Fin 4, ¬ (cb ≤ 4 * lsn + q.val ∧ 4 * lsn + q.val < cb + n) →
        (t.buf i).data[q] = (b.buf i).data[q] ∧ hasQuarter (t.buf i).valid q = hasQuarter (b.buf i).valid q
        ∧ hasQuarter (t.buf i).dirty q = hasQuarter (b.buf i).dirty q
        ∧ hasQuarter (t.buf i).lost q = hasQuarter (b.buf i).lost q)
    ∧ (t.buf i).lastWrite = some b.clock ∧ (t.buf i).lsn = (b.buf i).lsn
    ∧ ((b.buf i).state = .clean → (t.buf i).state = .opened)
    ∧ ((b.buf i).state ≠ .clean → (b.buf i).state ≠ .loading → (t.buf i).state = (b.buf i).state)
    ∧ ((b.buf i).state = .loading → covered → (t.buf i).state = .opened ∧ (t.buf i).load = none)
    ∧ ((b.buf i).state = .loading → ¬ covered → (t.buf i).state = .loading ∧ (t.buf i).load = (b.buf i).load)
    ∧ i ∉ t.pool.evict ∧ ∀ j, j ≠ i → t.buf j = b.buf j

/-! ### FLUSH, SENSE, the notices and ABORT -/

/-- FLUSH on a unit that has an enabled window: it awaits every buffer with dirty data neither committed nor stranded. With
none it is answered OK at once, and in HALTED MECH_FAULT; otherwise its entry is in AWAIT_COMMIT with that awaited set, and
the consequences of the event follow (R50). SENSE on a unit that has an enabled window is answered OK at once with its
report: the cartridge state, the write state where it is reported, the enabled window count of the unit, the deferred-error
count and the dirty buffer count (R51), in the order of the item codes (log entry 32). -/
def Obligations.FlushAwaitsTheDirtyBuffersAndSenseReports : Prop :=
  (∀ (h : Header) (s : State), Received s.bridge h → h.count = 0 → h.unit ≠ 15 →
     0 < enabledCount s.bridge.router h.unit →
     let awaited := allBufs.filter fun i =>
       (s.bridge.buf i).state == .opened || (s.bridge.buf i).state == .committing
         || ((s.bridge.buf i).state == .loading && (s.bridge.buf i).dirty != 0)
     let answered := fun st => finish (answeredAtOnce s.bridge h .flush (some (.onBridge none)) st .none)
     let e := { newEntry s.bridge h .flush (some (.onBridge none)) with state := .awaitCommit, awaited := some awaited }
     (awaited = [] →
       exec (.flush h) s = .next (s.withBridge (answered .ok)) ∧ IsAnswered (answered .ok) h.key .ok 0 .none)
     ∧ (awaited ≠ [] → s.bridge.cart.state = .halted →
       exec (.flush h) s = .next (s.withBridge (answered .mechFault))
       ∧ IsAnswered (answered .mechFault) h.key .mechFault 0 .none)
     ∧ (awaited ≠ [] → s.bridge.cart.state ≠ .halted →
       exec (.flush h) s = .next (s.withBridge (finish (withEntry s.bridge h e)))
       ∧ (withEntry s.bridge h e).entry h.key = some e
       ∧ (∀ j, j ≠ h.key → (withEntry s.bridge h e).entry j = s.bridge.entry j)
       ∧ Steady (withEntry s.bridge h e) (finish (withEntry s.bridge h e))))
  ∧ (∀ (h : Header) (s : State), Received s.bridge h → h.count = 0 → h.unit ≠ 15 →
       0 < enabledCount s.bridge.router h.unit →
       let dirty := allBufs.filter fun i =>
         (s.bridge.buf i).state == .opened || (s.bridge.buf i).state == .committing
           || (s.bridge.buf i).state == .stranded
           || ((s.bridge.buf i).state == .loading && (s.bridge.buf i).dirty != 0)
       let shown := s.bridge.cart.state = .ready ∨ s.bridge.cart.state = .quiescing ∨ s.bridge.cart.state = .ejecting
         ∨ s.bridge.cart.state = .halted
       ∃ report b, exec (.sense h) s = .next (s.withBridge b)
         ∧ b = pump (answeredAtOnce s.bridge h .sense (some (.onBridge none)) .ok (.items report))
         ∧ IsAnswered b h.key .ok 0 (.items report)
         ∧ (∀ st, shown → s.bridge.cart.writeState = some st →
             report = [numItem 0x60 1 s.bridge.cart.state.code, numItem 0x61 1 st.code,
               numItem 0x62 1 (enabledCount s.bridge.router h.unit), numItem 0x63 1 s.bridge.cart.deferred,
               numItem 0x64 1 dirty.length])
         ∧ (¬ shown ∨ s.bridge.cart.writeState = none →
             report = [numItem 0x60 1 s.bridge.cart.state.code,
               numItem 0x62 1 (enabledCount s.bridge.router h.unit), numItem 0x63 1 s.bridge.cart.deferred,
               numItem 0x64 1 dirty.length]))

/-- The three notices to an entry in AWAIT_COMMIT that awaits the buffer (R48). COMMITTED: the buffer leaves the awaited set.
FAILED: it leaves too, and for a confirmed WRITE blocks done is lowered to the blocks before the failed sector (R49). MOVED:
its successor takes its place, once. An entry whose awaited set is then empty is answered: a FLUSH OK, a confirmed WRITE OK
with its count, or WRITE_FAILED with blocks done as lowered (R49, R50). No other entry changes. -/
def Obligations.NoticesReachTheEntriesThatAwaitTheBuffer : Prop :=
  ∀ (b : Bridge) (i : BufIdx) (k : Key) (e : Entry), b.entry k = some e →
    (∀ j, (e.state ≠ .awaitCommit ∨ ∀ l, e.awaited = some l → i ∉ l) →
      (noticeCommitted b i).entry k = some e ∧ (noticeFailed b i).entry k = some e ∧ (noticeMoved b i j).entry k = some e)
    ∧ ∀ l lsn, e.state = .awaitCommit → e.awaited = some l → i ∈ l → (b.buf i).lsn = some lsn →
      let rest := l.filter (· != i)
      let before := match e.sectors.idxOf lsn with
        | 0 => 0
        | n + 1 => min (4 - e.cb % 4 + 4 * n) e.count.toNat
      let lowered := if e.op = .write then min e.blocksDone before else e.blocksDone
      let ended := fun (t : Bridge) (done : Nat) =>
        (e.op = .write → done < e.count.toNat → IsAnswered t k .writeFailed done .none)
        ∧ (e.op = .write → e.count.toNat ≤ done → IsAnswered t k .ok e.count.toNat .none)
        ∧ (e.op ≠ .write → IsAnswered t k .ok 0 .none)
      (rest ≠ [] → (noticeCommitted b i).entry k = some { e with awaited := some rest }
        ∧ (noticeFailed b i).entry k = some { e with awaited := some rest, blocksDone := lowered })
      ∧ (rest = [] → ended (noticeCommitted b i) e.blocksDone ∧ ended (noticeFailed b i) lowered)
      ∧ ∀ j, j ≠ i →
        (j ∈ l → (noticeMoved b i j).entry k = some { e with awaited := some rest })
        ∧ (j ∉ l → (noticeMoved b i j).entry k = some { e with
            awaited := some (l.map fun a => if a = i then j else a) })

/-- ABORT of a target that is absent, ANSWERED or beyond an ABORT is answered NOT_FOUND or TOO_LATE and changes nothing
else; of a target that waits it is answered OK, and the target ABORTED, blocks done 0; where the target is the EJECT of a
quiesce the cartridge is READY again, its jobs lose QUIESCE, and no attention event is raised (R52, R150). Of a FORWARDED
target it is forwarded itself: the target is abort-pending, the ABORT's entry is FORWARDED with its timer, and its frame
joins the tail of the forward FIFO (R26, R56, R163, R168). -/
def Obligations.AbortAnswersItsTarget : Prop :=
  ∀ (h : Header) (s : State), Received s.bridge h → h.count = 0 → h.block.toNat ≤ 15 →
    let target : Key := ⟨h.orig, Fin.ofNat 16 h.block.toNat⟩
    let own := fun st => finish (answeredAtOnce s.bridge h .abort (some (.onBridge (some target.tag))) st .none)
    ((s.bridge.entry target = none ∨ ∃ e, s.bridge.entry target = some e ∧ e.state = .answered) →
      exec (.abort h) s = .next (s.withBridge (own .notFound)) ∧ IsAnswered (own .notFound) h.key .notFound 0 .none)
    ∧ (∀ e, s.bridge.entry target = some e →
        e.state = .awaitMech ∨ (e.state = .awaitEject ∧ s.bridge.cart.state ≠ .quiescing) →
      exec (.abort h) s = .next (s.withBridge (own .tooLate)) ∧ IsAnswered (own .tooLate) h.key .tooLate 0 .none)
    ∧ (∀ e, s.bridge.entry target = some e →
        e.state = .reserving ∨ e.state = .fetching ∨ e.state = .awaitCommit ∨ e.state = .awaitLock
          ∨ (e.state = .awaitEject ∧ s.bridge.cart.state = .quiescing) →
      ∃ t, exec (.abort h) s = .next t ∧ t.pending = s.pending
        ∧ IsAnswered t.bridge h.key .ok 0 .none ∧ IsAnswered t.bridge target .aborted 0 .none
        ∧ (e.state = .awaitLock → t.bridge.mgmt.waiting = s.bridge.mgmt.waiting.filter (· != target.orig))
        ∧ (e.state ≠ .awaitLock → t.bridge.mgmt.waiting = s.bridge.mgmt.waiting)
        ∧ t.bridge.mgmt.holder = s.bridge.mgmt.holder ∧ t.bridge.router = s.bridge.router
        ∧ (e.state = .awaitEject → t.bridge.cart.state = .ready ∧ t.bridge.cart.quiesce = none
            ∧ ∃ b, t.bridge = finish b ∧ b.mgmt.attnPending = s.bridge.mgmt.attnPending
              ∧ ∀ i f, (b.buf i).flush = some f → f.causes.quiesce = false ∧ f.causes ≠ Causes.none)
        ∧ ∀ j e', j ≠ h.key → j ≠ target → s.bridge.entry j = some e' → isActive e' = false →
            t.bridge.entry j = some e')
    ∧ (∀ e, s.bridge.entry target = some e → e.state = .forwarded →
      let e' := { newEntry s.bridge h .abort (some .pass) with
        state := .forwarded
        passExpiry := some (s.bridge.clock + BitVec.ofNat 32 s.bridge.mgmt.settings.passTimeout) }
      let b := withEntry (s.bridge.putEntry target (some { e with abortPending := true })) h e'
      let b := { b with thru := { b.thru with fifo := b.thru.fifo ++ [⟨h, .abort, [], s.bridge.table.nextSeq⟩] } }
      exec (.abort h) s = .next (s.withBridge (finish b))
      ∧ (finish b).entry target = some { e with abortPending := true } ∧ (finish b).entry h.key = some e'
      ∧ ∀ j x, j ≠ h.key → j ≠ target → s.bridge.entry j = some x → isActive x = false → (finish b).entry j = some x)

/-! ### Management -/

/-- A management request with an item that its operation does not take, of a wrong length or named twice is answered
BAD_REQUEST; one that needs the edit lock, from an originator that does not hold it, is answered LOCK_REQUIRED. Nothing else
changes (R176). -/
def Obligations.ManagementItemsAndLockAreCheckedFirst : Prop :=
  ∀ (c : Instr) (op : Op) (h : Header) (s : State), requestOf c = some (op, h) → op.isManagement = true →
    Received s.bridge h → h.unit = 15 → h.count = 0 →
    ∀ st, (itemsOk op (itemsOf c) = false ∧ st = .badRequest)
        ∨ (itemsOk op (itemsOf c) = true ∧ needsLock op = true ∧ s.bridge.mgmt.holder ≠ some h.orig
            ∧ st = .lockRequired) →
      let b := answeredAtOnce s.bridge h op (some .management) st .none
      ∃ t, exec c s = .next t ∧ t.pending = s.pending ∧ (t.bridge = finish b ∨ t.bridge = pump b)
        ∧ IsAnswered t.bridge h.key st 0 .none

/-- IDENTIFY, READ_CARTRIDGE, READ_ZONES, READ_LINK_COUNTS, LOCK_STATUS and READ_POOL are answered OK at once with their
report of the state as it stands, and change nothing else (R179, R184, R185). What each reports is written out, an absent
value leaving its item out; the order of the items of the last three is log entry 32, and the state that READ_POOL reports of
its own entry is a free value (log entry 27); the unmet quiesce conditions are the selected ones that are not met (log entry
33). -/
def Obligations.ReportsAreAnsweredAtOnceWithTheirItems : Prop :=
  (∀ (h : Header) (s : State),
     let replied := fun (op : Op) (report : List Item) =>
       pump (answeredAtOnce s.bridge h op (some .management) .ok (.items report))
     (Managed s.bridge h .identify [] →
       exec (.identify h []) s = .next (s.withBridge (replied .identify (identityItems s.bridge))))
     ∧ (Managed s.bridge h .readCartridge [] →
       exec (.readCartridge h []) s = .next (s.withBridge (replied .readCartridge (cartridgeItems s.bridge))))
     ∧ (Managed s.bridge h .readZones [] →
       exec (.readZones h []) s = .next (s.withBridge (replied .readZones (zoneItems s.bridge))))
     ∧ (Managed s.bridge h .readLinkCounts [] →
       exec (.readLinkCounts h []) s = .next (s.withBridge (replied .readLinkCounts (linkItems s.bridge))))
     ∧ (Managed s.bridge h .lockStatus [] →
       exec (.lockStatus h []) s = .next (s.withBridge (replied .lockStatus (lockStatusItems s.bridge))))
     ∧ (Managed s.bridge h .readPool [] →
       exec (.readPool h []) s = .next (s.withBridge (replied .readPool (poolItems h.key
         (withEntry s.bridge h (newEntry s.bridge h .readPool (some .management))))))))
  ∧ (∀ b : Bridge,
       identityItems b = [⟨0xD0, [0x4E, 0x45, 0x4C, 0x5A, 0x4F, 0x20, 0x34, 0x31, 0x32, 0x30]⟩,
         ⟨0xD1, [0x4E, 0x5A, 0x34, 0x31]⟩, ⟨0xD2, [32]⟩, ⟨0xD3, [16]⟩, ⟨0xD4, [8]⟩, ⟨0xD5, [64]⟩, ⟨0xD6, [0x04, 0x00]⟩,
         ⟨0xD7, [32]⟩, numItem 0xD8 4 b.clock.toNat]
       ∧ linkItems b = [numItem 0xC0 2 b.link.badCheck, numItem 0xC1 2 b.link.malformed, numItem 0xC2 2 b.link.attnSent,
         numItem 0xC3 2 b.thru.stray, ⟨0xC4, [if b.thru.line = .up then 0 else 1]⟩]
       ∧ lockStatusItems b = [⟨0xE0, [match b.mgmt.holder with | some o => BitVec.ofNat 8 o.val | none => 0xFF]⟩,
         ⟨0xE1, b.mgmt.waiting.map fun o => BitVec.ofNat 8 o.val⟩])
  ∧ (∀ b : Bridge,
       let c := b.cart
       let shown := c.state = .ready ∨ c.state = .quiescing ∨ c.state = .ejecting ∨ c.state = .halted
       let stateNumber := match c.state with
         | .empty => 0 | .settling => 1 | .spinup => 2 | .mounting => 3 | .ready => 4 | .quiescing => 5 | .ejecting => 6
         | .unusable => 7 | .halted => 8
       cartridgeItems b =
         [numItem 0x70 1 stateNumber]
         ++ (match (if shown then c.writeState else none) with
             | none => []
             | some .writable => [⟨0x71, [0]⟩]
             | some .isProtected => [⟨0x71, [1]⟩]
             | some .writeLocked => [⟨0x71, [2]⟩])
         ++ [⟨0x72, [if c.spindle = .spinning then 0 else 1]⟩]
         ++ (match c.reason with
             | none => []
             | some .noSpin => [⟨0x73, [0]⟩]
             | some .badLabel => [⟨0x73, [1]⟩]
             | some .badZones => [⟨0x73, [2]⟩]
             | some .mapUnreadable => [⟨0x73, [3]⟩]
             | some .badMap => [⟨0x73, [4]⟩])
         ++ (match c.layout with
             | none => []
             | some l => [numItem 0x74 4 l.serial.toNat, ⟨0x75, l.name⟩, numItem 0x76 1 l.controlCount,
                 numItem 0x77 1 l.zones.length, numItem 0x78 4 (userCount l)])
         ++ [numItem 0x79 2 c.soft, numItem 0x7A 2 c.hard, numItem 0x7B 2 c.remaps, numItem 0x7C 2 c.relocations,
             numItem 0x7D 1 c.deferred]
         ++ (match b.dm.map with
             | none => []
             | some m => [⟨0x7E, [match m.writeState with | .clean => 0 | .dirty => 1 | .saving => 2 | .unsavable => 3]⟩])
         ++ (if c.state = .quiescing then [numItem 0x7F 1 (conditionsUnmet b).toNat] else []))
  ∧ (∀ b : Bridge, (b.cart.layout = none → zoneItems b = [])
       ∧ ∀ l, b.cart.layout = some l → zoneItems b = numItem 0x80 1 l.zones.length
           :: l.zones.zipIdx.map fun p => compoundItem 0x81 [numItem 1 3 p.1.first, numItem 2 1 p.1.sectorsPerTrack,
             numItem 3 3 p.1.userTracks, numItem 4 1 p.1.spareTracks, numItem 5 3 (firstLsn l p.2)])
  ∧ (∀ (own : Key) (b : Bridge),
       let buffer := fun i : BufIdx =>
         let x := b.buf i
         compoundItem 0xB0 ([numItem 1 1 i, numItem 2 1 x.state.code]
           ++ (match x.lsn with | none => [] | some n => [numItem 3 3 n])
           ++ [numItem 4 1 x.valid.toNat, numItem 5 1 x.dirty.toNat, numItem 6 1 x.lost.toNat, numItem 7 1 (pinCount b i)]
           ++ (match x.lastWrite with | none => [] | some t => [numItem 8 4 t.toNat])
           ++ (if i ∈ b.pool.evict then [numItem 9 1 (b.pool.evict.idxOf i)] else [])
           ++ (match x.load with | none => [] | some l => [numItem 10 1 l.stage.code, numItem 11 1 l.retries])
           ++ (match x.successor with | none => [] | some j => [numItem 12 1 j])
           ++ [boolItem 13 x.relocate]
           ++ (match x.flush with
               | none => []
               | some f => [numItem 14 1 f.phase.code]
                 ++ (match (if f.phase = .fill then x.load.map Load.stage else f.stage) with
                     | none => [] | some st => [numItem 15 1 st.code])
                 ++ (match f.target with | none => [] | some p => [numItem 16 3 p])
                 ++ [boolItem 17 f.erased, numItem 18 1 f.attempts, numItem 19 1 f.causes.code]))
       let request := fun (k : Key) (e : Entry) =>
         compoundItem 0xB9 ([numItem 1 1 k.orig, numItem 2 1 k.tag, numItem 3 1 e.unit, ⟨4, [e.op.code]⟩,
             numItem 5 1 (if k = own then (Config.ownEntryState e.seq).val else e.state.code)]
           ++ (match e.routing with | none => [] | some r => [numItem 6 1 r.code])
           ++ (match e.cls with | none => [] | some c => [numItem 7 1 c.code]) ++ [boolItem 8 e.abortPending])
       poolItems own b =
         allBufs.map buffer
         ++ [⟨0xB1, b.pool.resQueue.map fun k => BitVec.ofNat 8 (k.orig.val * 16 + k.tag.val)⟩,
             ⟨0xB2, b.pool.evict.map fun i => BitVec.ofNat 8 i.val⟩, numItem 0xB3 1 (availableCount b),
             boolItem 0xB4 b.pool.pressure, numItem 0xB5 1 (strandedCount b)]
         ++ (match b.arb.order with
             | none => []
             | some o => [compoundItem 0xB6 ([numItem 1 1 o.number.toNat, numItem 2 1 (orderKindCode o.kind)]
                 ++ (match o.pieces with
                     | [] => []
                     | p :: _ => [numItem 3 3 p.psa, numItem 4 1 o.pieces.length])
                 ++ [numItem 5 4 o.issued.toNat])])
         ++ [numItem 0xB7 1 b.arb.streak, numItem 0xB8 1 b.arb.timeouts]
         ++ allKeys.filterMap fun k => (b.entry k).map (request k))

/-- READ_DEFECTS: a first index above 1023 is OUT_OF_RANGE; otherwise the report holds the first index, and while a map is
held its generations, write state, attempt and entry count and the entries from that index on, at most 256 (R139, R184).
READ_EXCEPTIONS removes the oldest records, up to 8, reports them oldest first with the overflow count and the number left,
and sets the overflow count to 0 (R183). -/
def Obligations.DefectsAndExceptionsAreReported : Prop :=
  (∀ (h : Header) (items : List Item) (s : State), Managed s.bridge h .readDefects items →
     let first := (itemNat items 0x90).getD 0
     let refused := pump (answeredAtOnce s.bridge h .readDefects (some .management) .outOfRange .none)
     let replied := pump (answeredAtOnce s.bridge h .readDefects (some .management) .ok (.items (defectItems s.bridge first)))
     (1023 < first → exec (.readDefects h items) s = .next (s.withBridge refused))
     ∧ (first ≤ 1023 → exec (.readDefects h items) s = .next (s.withBridge replied)))
  ∧ (∀ (b : Bridge) (first : Nat),
       (b.dm.map = none → defectItems b first = [numItem 0x90 2 first])
       ∧ ∀ m, b.dm.map = some m → defectItems b first =
           [numItem 0x90 2 first, numItem 0x91 4 m.generation.toNat, numItem 0x92 4 m.saved.toNat,
            ⟨0x93, [match m.writeState with | .clean => 0 | .dirty => 1 | .saving => 2 | .unsavable => 3]⟩]
           ++ (match m.attempt with | none => [] | some n => [numItem 0x94 1 n])
           ++ [numItem 0x95 2 m.entries.length]
           ++ ((m.entries.drop first).take 256).zipIdx.map fun p =>
               compoundItem 0x96 ([numItem 1 2 (first + p.2), numItem 2 3 p.1.defective]
                 ++ (match p.1.spare with | none => [] | some x => [numItem 3 3 x])
                 ++ [⟨4, [match p.1.origin with
                      | .factory => 0 | .verify => 1 | .relocate => 2 | .retired => 3 | .lost => 4]⟩]
                 ++ (match b.cart.layout.bind fun l => homeLsn l p.1.defective with
                     | none => [] | some n => [numItem 5 3 n])))
  ∧ (∀ (h : Header) (s : State), Managed s.bridge h .readExceptions [] →
       let report := [numItem 0xA0 1 s.bridge.mgmt.overflow, numItem 0xA1 1 (s.bridge.mgmt.exceptions.length - 8)]
         ++ (s.bridge.mgmt.exceptions.take 8).map exceptionItem
       let b := answeredAtOnce { s.bridge with mgmt :=
           { s.bridge.mgmt with exceptions := s.bridge.mgmt.exceptions.drop 8, overflow := 0 } }
         h .readExceptions (some .management) .ok (.items report)
       exec (.readExceptions h []) s = .next (s.withBridge (pump b)) ∧ IsAnswered (pump b) h.key .ok 0 (.items report))

/-- LOCK_REQUEST, by the lock as it stands: it is taken, already held, refused, or the request waits in AWAIT_LOCK (R177).
LOCK_RELEASE from the holder is answered OK and passes the lock to the head of the pending list, whose entry in AWAIT_LOCK is
answered OK, or leaves it without a holder; from any other originator it is answered NOT_HOLDER (R178). LOCK_CANCEL from a
pending originator removes it from the list: its entry in AWAIT_LOCK is answered CANCELLED, the LOCK_CANCEL OK; from any other
originator it is answered NOT_PENDING (R179). -/
def Obligations.LockRequestsReleasesAndCancelsActOnTheLock : Prop :=
  (∀ (h : Header) (s : State), Managed s.bridge h .lockRequest [] →
     let e := newEntry s.bridge h .lockRequest (some .management)
     let taken := withEntry s.bridge h e
     (s.bridge.mgmt.holder = none →
       let b := pump (closedWith { taken with mgmt := { taken.mgmt with holder := some h.orig } } h.key e .ok 0 .none)
       exec (.lockRequest h []) s = .next (s.withBridge b) ∧ IsAnswered b h.key .ok 0 .none
       ∧ b.mgmt.holder = some h.orig)
     ∧ (s.bridge.mgmt.holder = some h.orig →
       let b := pump (closedWith taken h.key e .alreadyHeld 0 .none)
       exec (.lockRequest h []) s = .next (s.withBridge b) ∧ IsAnswered b h.key .alreadyHeld 0 .none)
     ∧ (∀ o, s.bridge.mgmt.holder = some o → o ≠ h.orig → h.orig ∈ s.bridge.mgmt.waiting →
       let b := pump (closedWith taken h.key e .badRequest 0 .none)
       exec (.lockRequest h []) s = .next (s.withBridge b) ∧ IsAnswered b h.key .badRequest 0 .none)
     ∧ (∀ o, s.bridge.mgmt.holder = some o → o ≠ h.orig → h.orig ∉ s.bridge.mgmt.waiting →
       let b := withEntry s.bridge h { e with state := .awaitLock }
       let b := pump { b with mgmt := { b.mgmt with waiting := b.mgmt.waiting ++ [h.orig] } }
       exec (.lockRequest h []) s = .next (s.withBridge b) ∧ b.entry h.key = some { e with state := .awaitLock }
       ∧ b.mgmt.waiting = s.bridge.mgmt.waiting ++ [h.orig]))
  ∧ ((∀ (h : Header) (s : State), Managed s.bridge h .lockRelease [] →
        (s.bridge.mgmt.holder ≠ some h.orig →
          let b := pump (answeredAtOnce s.bridge h .lockRelease (some .management) .notHolder .none)
          exec (.lockRelease h []) s = .next (s.withBridge b) ∧ IsAnswered b h.key .notHolder 0 .none
          ∧ b.mgmt = s.bridge.mgmt)
        ∧ (s.bridge.mgmt.holder = some h.orig → s.bridge.mgmt.waiting = [] →
          let e := newEntry s.bridge h .lockRelease (some .management)
          let b := withEntry s.bridge h e
          let b := pump (closedWith { b with mgmt := { b.mgmt with holder := none } } h.key e .ok 0 .none)
          exec (.lockRelease h []) s = .next (s.withBridge b) ∧ IsAnswered b h.key .ok 0 .none ∧ b.mgmt.holder = none)
        ∧ ∀ o rest, s.bridge.mgmt.holder = some h.orig → s.bridge.mgmt.waiting = o :: rest →
          ∃ t, exec (.lockRelease h []) s = .next t ∧ t.pending = s.pending ∧ IsAnswered t.bridge h.key .ok 0 .none
            ∧ t.bridge.mgmt = { s.bridge.mgmt with holder := some o, waiting := rest }
            ∧ AnswersOnly s.bridge t.bridge h.key (fun k e => k.orig = o ∧ e.op = .lockRequest ∧ e.state = .awaitLock) .ok)
     ∧ (∀ (h : Header) (s : State), Managed s.bridge h .lockCancel [] →
          (h.orig ∉ s.bridge.mgmt.waiting →
            let b := pump (answeredAtOnce s.bridge h .lockCancel (some .management) .notPending .none)
            exec (.lockCancel h []) s = .next (s.withBridge b) ∧ IsAnswered b h.key .notPending 0 .none
            ∧ b.mgmt = s.bridge.mgmt)
          ∧ (h.orig ∈ s.bridge.mgmt.waiting →
            ∃ t, exec (.lockCancel h []) s = .next t ∧ t.pending = s.pending ∧ IsAnswered t.bridge h.key .ok 0 .none
              ∧ t.bridge.mgmt = { s.bridge.mgmt with waiting := s.bridge.mgmt.waiting.filter (· != h.orig) }
              ∧ AnswersOnly s.bridge t.bridge h.key
                  (fun k e => k.orig = h.orig ∧ e.op = .lockRequest ∧ e.state = .awaitLock) .cancelled)))

/-- WRITE_WINDOW from the holder: index, lock, ranges and consistency in that order, and then the resulting entry replaces
the old one whole; no other window changes (R27, R28). WRITE_CLASS from the holder: index, ranges and consistency in that
order, and then the resulting entry replaces the old one whole (R34). READ_WINDOW and READ_CLASS report every field of the
entry as it stands, locked or not, in code order (log entry 32) and without an index item (log entry 33); an index out of
range, or none, is OUT_OF_RANGE (R29, R34, R176). READ_SETTINGS with no items returns every setting; with items it returns
the settings they name (R181), in code order (log entry 32). A report changes nothing. A 2-byte set (class unit set,
pass-through unit set) has its members 0-7 in its second byte, the model's choice (log entry 39). -/
def Obligations.TablesAreWrittenInOrderAndReported : Prop :=
  ((∀ (h : Header) (items : List Item) (s : State), Managed s.bridge h .writeWindow items →
      let refused := fun st => pump (answeredAtOnce s.bridge h .writeWindow (some .management) st .none)
      (indexOf 16 items = none → exec (.writeWindow h items) s = .next (s.withBridge (refused .outOfRange)))
      ∧ ∀ i : Fin 16, itemNat items 0x01 = some i.val →
        let w := s.bridge.router.windows[i]
        let w' := applyWindowItems items w
        (w.locked = true → exec (.writeWindow h items) s = .next (s.withBridge (refused .lockedEntry)))
        ∧ (w.locked = false → windowRangesOk items = false →
          exec (.writeWindow h items) s = .next (s.withBridge (refused .outOfRange)))
        ∧ (w.locked = false → windowRangesOk items = true → windowConsistent w' = false →
          exec (.writeWindow h items) s = .next (s.withBridge (refused .inconsistent)))
        ∧ (w.locked = false → windowRangesOk items = true → windowConsistent w' = true →
          let e := newEntry s.bridge h .writeWindow (some .management)
          let b := withEntry s.bridge h e
          let b := pump (closedWith
            { b with router := { b.router with windows := b.router.windows.set i w' } } h.key e .ok 0 .none)
          exec (.writeWindow h items) s = .next (s.withBridge b) ∧ IsAnswered b h.key .ok 0 .none
            ∧ b.router.windows[i] = w' ∧ ∀ j : Fin 16, j ≠ i → b.router.windows[j] = s.bridge.router.windows[j]))
   ∧ (∀ (h : Header) (items : List Item) (s : State), Managed s.bridge h .writeClass items →
        let refused := fun st => pump (answeredAtOnce s.bridge h .writeClass (some .management) st .none)
        (indexOf 8 items = none → exec (.writeClass h items) s = .next (s.withBridge (refused .outOfRange)))
        ∧ ∀ i : Fin 8, itemNat items 0x01 = some i.val →
          let c' := applyClassItems items s.bridge.router.classes[i]
          (classRangesOk items = false → exec (.writeClass h items) s = .next (s.withBridge (refused .outOfRange)))
          ∧ (classRangesOk items = true → classConsistent c' = false →
            exec (.writeClass h items) s = .next (s.withBridge (refused .inconsistent)))
          ∧ (classRangesOk items = true → classConsistent c' = true →
            let e := newEntry s.bridge h .writeClass (some .management)
            let b := withEntry s.bridge h e
            let b := pump (closedWith
              { b with router := { b.router with classes := b.router.classes.set i c' } } h.key e .ok 0 .none)
            exec (.writeClass h items) s = .next (s.withBridge b) ∧ IsAnswered b h.key .ok 0 .none
              ∧ b.router.classes[i] = c' ∧ ∀ j : Fin 8, j ≠ i → b.router.classes[j] = s.bridge.router.classes[j])))
  ∧ ((∀ (h : Header) (items : List Item) (s : State),
        let done := fun op st report => pump (answeredAtOnce s.bridge h op (some .management) st report)
        (Managed s.bridge h .readWindow items →
          (∀ i : Fin 16, itemNat items 0x01 = some i.val → exec (.readWindow h items) s =
            .next (s.withBridge (done .readWindow .ok (.items (windowItems s.bridge.router.windows[i])))))
          ∧ ((∀ i : Fin 16, itemNat items 0x01 ≠ some i.val) →
            exec (.readWindow h items) s = .next (s.withBridge (done .readWindow .outOfRange .none))))
        ∧ (Managed s.bridge h .readClass items →
          (∀ i : Fin 8, itemNat items 0x01 = some i.val → exec (.readClass h items) s =
            .next (s.withBridge (done .readClass .ok (.items (classItems s.bridge.router.classes[i])))))
          ∧ ((∀ i : Fin 8, itemNat items 0x01 ≠ some i.val) →
            exec (.readClass h items) s = .next (s.withBridge (done .readClass .outOfRange .none)))))
     ∧ (∀ (h : Header) (items : List Item) (s : State), Managed s.bridge h .readSettings items →
          let all := settingItems s.bridge.mgmt.settings
          let report := if items = [] then all else all.filter (fun it => items.any (fun j => j.code == it.code))
          let b := pump (answeredAtOnce s.bridge h .readSettings (some .management) .ok (.items report))
          exec (.readSettings h items) s = .next (s.withBridge b) ∧ IsAnswered b h.key .ok 0 (.items report)))

/-- SET_SETTINGS from the holder: a value out of range is OUT_OF_RANGE, and a confirmed write limit below the confirmed
WRITEs in AWAIT_COMMIT is IN_USE, with no setting changed; otherwise it is answered OK and every setting it carries takes
its new value in one step, the others staying as they are (R180, R181). What the new values do at once (R181): the attention
pending set keeps the events of the new event set, none without an attention originator, and the attention frame is built
from it where none waits (R161); with the write-back delay every OPEN buffer is tested for its aging expiry (log entry 24),
and one whose expiry is reached gains a job with the cause AGED (R108); with the map write delay a DIRTY map whose delay has
passed begins its write-back (R133; its snapshot: log entry 35); with the spin-down delay a SPIN_DOWN is asked for when the
running timer has run out (R146). The rest is in the settings themselves, which each rule reads. The own answer comes before
what follows (log entry 37), and the map write-back before the SPIN_DOWN, whose timer its pending work stops, and both
before the jobs (log entry 7). The pass-through unit set, a set of 2 bytes, has its members 0-7 in its second byte, the
model's choice (log entry 39). -/
def Obligations.SetSettingsAppliesAllOrNothing : Prop :=
  (∀ (h : Header) (items : List Item) (s : State), Managed s.bridge h .setSettings items →
    let low := ∃ v, itemNat items 0x39 = some v ∧ v < confirmedCount s.bridge
    (∀ st, (settingRangesOk items = false ∧ st = .outOfRange) ∨ (settingRangesOk items = true ∧ low ∧ st = .inUse) →
      let b := finish (answeredAtOnce s.bridge h .setSettings (some .management) st .none)
      exec (.setSettings h items) s = .next (s.withBridge b) ∧ IsAnswered b h.key st 0 .none)
    ∧ (settingRangesOk items = true → ¬ low →
      ∃ t, exec (.setSettings h items) s = .next t ∧ t.pending = s.pending ∧ IsAnswered t.bridge h.key .ok 0 .none
        ∧ t.bridge.mgmt.settings = applySettingItems items s.bridge.mgmt.settings
        ∧ t.bridge.router = s.bridge.router ∧ t.bridge.mgmt.holder = s.bridge.mgmt.holder
        ∧ t.bridge.mgmt.waiting = s.bridge.mgmt.waiting
        ∧ (let answered := answeredAtOnce s.bridge h .setSettings (some .management) .ok .none
           let applied := { answered with mgmt := { answered.mgmt with
             settings := applySettingItems items s.bridge.mgmt.settings } }
           t.bridge = finish (settingsAct items (pruneAttention applied)))))
  ∧ (∀ b : Bridge,
       let kept := b.mgmt.attnPending &&& b.mgmt.settings.attnEvents
       let waits := ∃ f, (f ∈ b.link.queue ∨ b.link.tx = some f) ∧ ∃ o set n, f = .attention o set n
       (b.mgmt.settings.attnOrig = none → pruneAttention b = { b with mgmt := { b.mgmt with attnPending := 0 } })
       ∧ ∀ o, b.mgmt.settings.attnOrig = some o →
         (kept = 0 ∨ waits → pruneAttention b = { b with mgmt := { b.mgmt with attnPending := kept } })
         ∧ (kept ≠ 0 → ¬ waits → pruneAttention b = { b with
             link := { b.link with queue := b.link.queue ++ [.attention o kept b.mgmt.exceptions.length] }
             mgmt := { b.mgmt with attnPending := 0 } }))
  ∧ ∀ (items : List Item) (b : Bridge),
      let t := settingsAct items b
      let carries := fun code : Nat => ∃ it ∈ items, it.code.toNat = code
      let mapDue := fun m : HeldMap => m.writeState = .dirty ∧ (b.cart.state = .quiescing ∨ (b.cart.state = .ready
        ∧ ∀ x, m.lastChange = some x → b.mgmt.settings.mapWriteDelay ≤ elapsed b.clock x))
      let spinDue := b.mgmt.settings.spinDownDelay ≠ 0 ∧ ∃ x, b.cart.spinTimer = some x
        ∧ 1000 * b.mgmt.settings.spinDownDelay ≤ elapsed b.clock x
      let starts := carries 0x33 ∧ ∃ m, b.dm.map = some m ∧ mapDue m
      t = { b with pool := { b.pool with testDue := t.pool.testDue }, dm := t.dm, arb := t.arb, cart := t.cart }
      ∧ (∀ i, i ∈ t.pool.testDue ↔ i ∈ b.pool.testDue ∨ (carries 0x32 ∧ (b.buf i).state = .opened))
      ∧ (carries 0x32 → ∀ i x, (b.buf i).state = .opened → (b.buf i).lastWrite = some x →
          b.mgmt.settings.writeBackDelay ≤ elapsed b.clock x →
          ∃ f, ((syncJob t i).buf i).flush = some f ∧ f.causes.aged = true)
      ∧ (∀ m, carries 0x33 → b.dm.map = some m → mapDue m →
          t.dm.staging = snapshotSectors m.entries m.generation
          ∧ t.dm.map = some { m with
              writeState := .saving, attempt := some 1, step := some ⟨.erase, false, b.arb.stamps, m.generation⟩ })
      ∧ (¬ starts → t.dm = b.dm)
      ∧ (carries 0x36 → spinDue → ¬ starts →
          t.arb = { b.arb with life := some .spinDown, lifeStamp := b.arb.stamps, stamps := b.arb.stamps + 1 }
          ∧ t.cart = { b.cart with spinTimer := none })
      ∧ (¬ (carries 0x36 ∧ spinDue) → ¬ starts → t.arb = b.arb ∧ t.cart = b.cart)
      ∧ (starts → t.arb = { b.arb with stamps := b.arb.stamps + 1 } ∧ t.cart = { b.cart with spinTimer := none })

/-! ### Eject, RECOVER, DISCARD_STRANDED, presence and the timers -/

/-- The management EJECT and EJECT_BUTTON by the cartridge state (R147). In EMPTY, SETTLING, QUIESCING and EJECTING, with an
eject waiting, or while a RECOVER is under way, EJECT is answered WRONG_STATE and the button is ignored. In SPINUP and
MOUNTING the eject waits while an order is in flight, and with none EJECTING is entered at once. In READY a quiesce begins,
with what it brings (R148; the snapshot of a map write-back: log entry 35); it goes on while an order is in flight, it ends at
once where none is and every selected condition is met, and it never ends but so (R149). In UNUSABLE and HALTED EJECTING is
entered at once (R151). An EJECT that goes on waits in AWAIT_EJECT; a force value other than 00h and 01h is OUT_OF_RANGE (log
entry 16). -/
def Obligations.EjectRequestsAreTakenByTheCartridgeState : Prop :=
  let turnedAway := fun b : Bridge =>
    b.cart.state = .empty ∨ b.cart.state = .settling ∨ b.cart.state = .quiescing ∨ b.cart.state = .ejecting
    ∨ ((b.cart.state = .spinup ∨ b.cart.state = .mounting) ∧ b.cart.ejectWaiting ≠ none)
    ∨ (b.cart.state = .halted ∧ (b.arb.order.isSome = true ∨ b.arb.life = some .recoverSpinUp))
  let goesOn := fun (b t : Bridge) (source : EjectSource) (forced : Bool) =>
    (b.cart.state = .spinup ∨ b.cart.state = .mounting →
      t = finish { b with cart := { b.cart with ejectWaiting := some source } }
      ∧ (b.arb.order ≠ none → t.cart.state = b.cart.state ∧ t.cart.ejectWaiting = some source ∧ t.arb.order = b.arb.order)
      ∧ (b.arb.order = none → t.cart.state = .ejecting ∧ t.cart.ejectBegun = true))
    ∧ (b.cart.state = .ready → ∃ b1, QuiesceBegun b b1 source forced ∧ t = finish b1
      ∧ (b.arb.order ≠ none → t.cart.state = .quiescing ∧ t.cart.quiesce = b1.cart.quiesce ∧ t.arb.order = b.arb.order)
      ∧ (b.arb.order = none → conditionsUnmet (poolSettle b1) = 0 → t.cart.state = .ejecting)
      ∧ (t.cart.state ≠ .quiescing → t.cart.state = .ejecting ∧ ∃ b2, Steady b1 b2 ∧ b2.cart.state = .quiescing
          ∧ b2.arb.order = none ∧ conditionsUnmet b2 = 0 ∧ Steady b2 t))
    ∧ (b.cart.state = .unusable ∨ b.cart.state = .halted →
      t = finish (enterEjecting b) ∧ t.cart.state = .ejecting ∧ t.cart.ejectBegun = true)
  (∀ (h : Header) (items : List Item) (s : State), Managed s.bridge h .eject items →
     let force := (itemNat items 0x02).getD 0
     let e := { newEntry s.bridge h .eject (some .management) with state := .awaitEject }
     (∀ st, (2 ≤ force ∧ st = .outOfRange) ∨ (force < 2 ∧ turnedAway s.bridge ∧ st = .wrongState) →
       let b := finish (answeredAtOnce s.bridge h .eject (some .management) st .none)
       exec (.eject h items) s = .next (s.withBridge b) ∧ IsAnswered b h.key st 0 .none)
     ∧ (force < 2 → ¬ turnedAway s.bridge → ∃ t, exec (.eject h items) s = .next t ∧ t.pending = s.pending
         ∧ t.bridge.entry h.key = some e
         ∧ goesOn (withEntry s.bridge h e) t.bridge .management (force == 1)))
  ∧ ∀ s : State,
      (turnedAway s.bridge → exec .ejectButton s = .next s)
      ∧ (¬ turnedAway s.bridge → ∃ t, exec .ejectButton s = .next t ∧ t.pending = s.pending
          ∧ goesOn s.bridge t.bridge .button false)

/-- A quiesce ends in EJECTING exactly when no order is in flight and every selected condition is met, or its forced expiry
has passed; an eject that waits in SPINUP or MOUNTING is acted on when no order is in flight (R147, R149, R150). What the four
conditions mean (R149). Entering EJECTING answers every READ, WRITE and FLUSH that waits MEDIA_GONE, sets the dirty buffers to
the FREE values (data zeros, log entry 6) and records DATA_DISCARDED with their number and a deferred error when there were
any, records MAP_WRITE_FAILED for a DIRTY or SAVING map, and asks for the EJECT; with an eject begun already it only asks
(R54, R81, R137, R151). -/
def Obligations.EjectingIsEnteredWhenAnEjectMayGoOn : Prop :=
  (∀ b : Bridge,
     (b.cart.state = .quiescing → ∀ q, b.cart.quiesce = some q →
       (b.arb.order = none → q.ending = true ∨ conditionsUnmet b = 0 → headStep b = some (enterEjecting b))
       ∧ (¬ (b.arb.order = none ∧ (q.ending = true ∨ conditionsUnmet b = 0)) → headStep b = arbiterStep b))
     ∧ (b.cart.state = .spinup ∨ b.cart.state = .mounting → b.cart.ejectWaiting ≠ none →
       (b.arb.order = none → headStep b = some (enterEjecting b)) ∧ (b.arb.order ≠ none → headStep b = none))
     ∧ (conditionsUnmet b = 0 ↔
         (b.mgmt.settings.quiesceSet.getLsbD 0 = true → ∀ i, (b.buf i).state ≠ .opened ∧ (b.buf i).state ≠ .committing
           ∧ ((b.buf i).state = .loading → (b.buf i).dirty = 0))
         ∧ (b.mgmt.settings.quiesceSet.getLsbD 1 = true → ∀ m, b.dm.map = some m →
           m.writeState = .clean ∨ m.writeState = .unsavable)
         ∧ (b.mgmt.settings.quiesceSet.getLsbD 2 = true → ∀ k e, b.entry k = some e →
           e.state ≠ .reserving ∧ e.state ≠ .fetching ∧ e.state ≠ .awaitCommit)
         ∧ (b.mgmt.settings.quiesceSet.getLsbD 3 = true → ∀ i, (b.buf i).state ≠ .stranded)))
  ∧ ∀ b : Bridge,
      let t := enterEjecting b
      let dirty := fun x : Buffer => x.state = .opened ∨ x.state = .committing ∨ x.state = .stranded
        ∨ (x.state = .loading ∧ x.dirty ≠ 0)
      let n := dirtyCount b
      t.cart.state = .ejecting ∧ t.cart.quiesce = none ∧ t.cart.ejectWaiting = none ∧ t.cart.mountStep = none
      ∧ t.cart.ejectBegun = true ∧ t.cart.spinTimer = none ∧ t.arb.life = some .eject
      ∧ (b.cart.ejectBegun = true → t.table = b.table ∧ t.pool = b.pool ∧ t.dm = b.dm ∧ t.mgmt = b.mgmt
          ∧ t.cart.deferred = b.cart.deferred)
      ∧ (b.cart.ejectBegun = false →
          (∀ k e, b.entry k = some e →
            (e.state = .reserving ∨ e.state = .fetching ∨ e.state = .awaitCommit → IsAnswered t k .mediaGone 0 .none)
            ∧ (e.state ≠ .reserving → e.state ≠ .fetching → e.state ≠ .awaitCommit → t.entry k = some e))
          ∧ (∀ i, dirty (b.buf i) → t.buf i = Buffer.free)
          ∧ (∀ i, (b.buf i).state = .clean →
              (t.buf i).state = .clean ∧ (t.buf i).lsn = (b.buf i).lsn ∧ (t.buf i).data = (b.buf i).data)
          ∧ t.cart.deferred = (if 1 ≤ n then min (b.cart.deferred + 1) 255 else b.cart.deferred)
          ∧ (b.mgmt.exceptions.length < 31 → t.mgmt.exceptions = b.mgmt.exceptions
              ++ (if 1 ≤ n then [{ kind := .dataDiscarded, time := b.clock, sectorCount := some n }] else [])
              ++ match b.dm.map with
                | none => []
                | some m => if m.writeState = .dirty ∨ m.writeState = .saving then
                    [{ kind := .mapWriteFailed, time := b.clock, retries := some 0 }] else [])
          ∧ ∀ m, b.dm.map = some m → t.dm.map = some (if m.writeState = .dirty ∨ m.writeState = .saving then
              { m with step := none } else m))

/-- RECOVER: in HALTED, with none under way, its SPIN_UP is asked for and its entry waits in AWAIT_MECH; with one under way it
is answered IN_USE, and in any other state WRONG_STATE (R155). DISCARD_STRANDED from the holder: IN_USE, with nothing freed,
when a STRANDED buffer is pinned; otherwise answered OK with the number of STRANDED buffers. The discard sets each of them to
the FREE values (data zeros, log entry 6) and leaves every other buffer as it is, but for a successor link to one of them,
which is removed; the cartridge record, with its deferred-error count and its write state, the exception list and the rest of
the management state stay (R59, R81, R186). Its own answer is queued before those of a quiesce that ends with it (log entry
37). -/
def Obligations.RecoverAndDiscardStrandedAreTaken : Prop :=
  (∀ (h : Header) (s : State), Managed s.bridge h .recover [] →
     let recovering := s.bridge.arb.order.isSome = true ∨ s.bridge.arb.life = some .recoverSpinUp
     let e := { newEntry s.bridge h .recover (some .management) with state := .awaitMech }
     (∀ st, (s.bridge.cart.state ≠ .halted ∧ st = .wrongState)
         ∨ (s.bridge.cart.state = .halted ∧ recovering ∧ st = .inUse) →
       let b := finish (answeredAtOnce s.bridge h .recover (some .management) st .none)
       exec (.recover h []) s = .next (s.withBridge b) ∧ IsAnswered b h.key st 0 .none)
     ∧ (s.bridge.cart.state = .halted → ¬ recovering →
       ∃ t, exec (.recover h []) s = .next t ∧ t.pending = s.pending ∧ t.bridge.entry h.key = some e
         ∧ t.bridge = finish (askLife (withEntry s.bridge h e) .recoverSpinUp)
         ∧ Steady (withEntry s.bridge h e) t.bridge ∧ t.bridge.cart.state = .halted))
  ∧ (∀ (h : Header) (s : State), Managed s.bridge h .discardStranded [] →
       let pinned := ∃ i, (s.bridge.buf i).state = .stranded ∧ pinCount s.bridge i ≠ 0
       let report := [numItem 0xB0 1 (strandedCount s.bridge)]
       let discarded := discardWhere (withEntry s.bridge h (newEntry s.bridge h .discardStranded (some .management)))
         fun x => x.state == .stranded
       (pinned →
         let b := finish (answeredAtOnce s.bridge h .discardStranded (some .management) .inUse .none)
         exec (.discardStranded h []) s = .next (s.withBridge b) ∧ IsAnswered b h.key .inUse 0 .none)
       ∧ (¬ pinned →
         ∃ t, exec (.discardStranded h []) s = .next t ∧ t.pending = s.pending
           ∧ IsAnswered t.bridge h.key .ok 0 (.items report)
           ∧ Steady (withEntry s.bridge h { newEntry s.bridge h .discardStranded (some .management) with state := .awaitCommit })
               t.bridge
           ∧ t.bridge = finish (answerItems discarded h.key report) ∧ strandedCount discarded = 0
           ∧ (∀ i, (s.bridge.buf i).state = .stranded → discarded.buf i = Buffer.free)
           ∧ (∀ i, (s.bridge.buf i).state ≠ .stranded → discarded.buf i = { s.bridge.buf i with
               successor := (s.bridge.buf i).successor.filter fun j => (s.bridge.buf j).state != .stranded })
           ∧ discarded.cart = s.bridge.cart ∧ discarded.mgmt = s.bridge.mgmt))

/-- PRESENCE_ON in EMPTY or SETTLING starts the settle afresh, with the write state of the tab; in any other state it is
ignored. SETTLE_EXPIRY, when the settle expiry is reached, enters SPINUP and asks for the SPIN_UP of the insertion (R103,
R141). AGING_EXPIRY, MAP_WRITE_DELAY_EXPIRY and SPIN_DOWN_TIMER_EXPIRY act when their timer has run out: the buffer is noted
for the test (log entry 24) and gains a job with the cause AGED, the map write-back starts with the snapshot of the map as it
stands (log entry 35), SPIN_DOWN is asked for (R107, R108, R133, R146). When a timer does not run, or has not run out, nothing
happens (log entry 2). The spin-down timer itself runs at the end of a step in READY with the spindle SPINNING, no order in
flight, no work pending and a spin-down delay that is not 0, and else it does not run; its start is kept while it runs on, and
is the clock where it did not run before or where work became pending in between, which took a stamp (R86, R102, R146). -/
def Obligations.SettleAndTimersStartTheirWork : Prop :=
  (∀ s : State,
     let c := s.bridge.cart
     (∀ tab, c.state = .empty ∨ c.state = .settling →
       exec (.presenceOn tab) s = .next (s.withBridge { s.bridge with cart := { c with
         state := .settling, writeState := some (if tab then .isProtected else .writable), reason := none,
         settleExpiry := some (s.bridge.clock + BitVec.ofNat 32 s.bridge.mgmt.settings.settleTime) } }))
     ∧ (∀ tab, c.state ≠ .empty → c.state ≠ .settling → exec (.presenceOn tab) s = .next s)
     ∧ (∀ x, c.state = .settling → c.settleExpiry = some x → reached s.bridge.clock x = true →
       let spinup := { s.bridge with cart := { c with state := .spinup, settleExpiry := none } }
       exec .settleExpiry s = .next (s.withBridge (finish (askLife spinup .insertSpinUp)))
       ∧ (c.ejectWaiting = none → (finish (askLife spinup .insertSpinUp)).cart.state = .spinup))
     ∧ ((c.state ≠ .settling ∨ ∀ x, c.settleExpiry = some x → reached s.bridge.clock x = false) →
       exec .settleExpiry s = .next s))
  ∧ (∀ s : State,
       let b := s.bridge
       (∀ i, let due := (b.buf i).state = .opened ∧ ∃ x, (b.buf i).lastWrite = some x
               ∧ b.mgmt.settings.writeBackDelay ≤ elapsed b.clock x
         (due → exec (.agingExpiry i) s = .next (s.withBridge (finish (testLater b i)))
           ∧ ∃ f, ((syncJob (testLater b i) i).buf i).flush = some f ∧ f.causes.aged = true)
         ∧ (¬ due → exec (.agingExpiry i) s = .next s))
       ∧ (let due := ∃ m, b.dm.map = some m ∧ m.writeState = .dirty ∧ (b.cart.state = .quiescing ∨ (b.cart.state = .ready
               ∧ ∀ x, m.lastChange = some x → b.mgmt.settings.mapWriteDelay ≤ elapsed b.clock x))
         (due → exec .mapWriteDelayExpiry s = .next (s.withBridge (finish (tryMapWrite b)))
           ∧ ∃ m m', b.dm.map = some m ∧ (tryMapWrite b).dm.map = some m' ∧ m'.writeState = .saving ∧ m'.attempt = some 1
             ∧ m'.entries = m.entries ∧ (tryMapWrite b).dm.staging = snapshotSectors m.entries m.generation)
         ∧ (¬ due → exec .mapWriteDelayExpiry s = .next s))
       ∧ (let due := b.mgmt.settings.spinDownDelay ≠ 0 ∧ ∃ x, b.cart.spinTimer = some x
               ∧ 1000 * b.mgmt.settings.spinDownDelay ≤ elapsed b.clock x
         (due → exec .spinDownTimerExpiry s = .next (s.withBridge (finish (askLife b .spinDown))))
         ∧ (¬ due → exec .spinDownTimerExpiry s = .next s)))
  ∧ ∀ b : Bridge,
      let t := finish b
      let runs := t.cart.state = .ready ∧ t.cart.spindle = .spinning ∧ t.arb.order = none ∧ pendingWork t = []
        ∧ t.mgmt.settings.spinDownDelay ≠ 0
      (¬ runs → t.cart.spinTimer = none)
      ∧ (runs → t.arb.stamps = b.arb.stamps → t.cart.spinTimer = some (b.cart.spinTimer.getD b.clock))
      ∧ (runs → t.arb.stamps ≠ b.arb.stamps → t.cart.spinTimer = some b.clock)

/-- PRESENCE_OFF (R141, R152, R153). In EMPTY it is ignored; in SETTLING it ends the settle without attention; in EJECTING it
completes the eject, whose EJECT is answered OK, with nothing recorded. From SPINUP on, and in UNUSABLE and HALTED, it is a
removal: every READ, WRITE and FLUSH that waits, the EJECT and the RECOVER are answered MEDIA_GONE; the dirty buffers are
counted in DATA_DISCARDED and a deferred error, and a DIRTY or SAVING map is recorded as MAP_WRITE_FAILED, in HALTED after an
eject had begun too (log entry 26). The bridge is EMPTY then, with no order, no layout, no map and every buffer FREE (its data
zeros, log entry 6), and CARTRIDGE_GONE is raised. -/
def Obligations.PresenceOffTakesTheCartridgeAway : Prop :=
  ∀ s : State, ∃ t, exec .presenceOff s = .next t ∧ t.pending = s.pending
    ∧ t.bridge.cart.state = .empty ∧ t.bridge.mgmt.settings = s.bridge.mgmt.settings ∧ t.bridge.router = s.bridge.router
    ∧ (s.bridge.cart.state = .empty → t.bridge = finish s.bridge)
    ∧ (s.bridge.cart.state ≠ .empty → t.bridge.cart.layout = none ∧ t.bridge.dm.map = none
        ∧ t.bridge.cart.spindle = .parked ∧ t.bridge.cart.mountStep = none ∧ t.bridge.cart.quiesce = none
        ∧ t.bridge.cart.ejectWaiting = none ∧ t.bridge.arb.timeouts = 0)
    ∧ (s.bridge.cart.state = .settling → ∃ b, t.bridge = finish b ∧ b.mgmt = s.bridge.mgmt ∧ b.table = s.bridge.table
        ∧ b.pool = s.bridge.pool ∧ b.cart = { s.bridge.cart with
            state := .empty, writeState := none, spindle := .parked, layout := none, reason := none, mountStep := none
            ejectWaiting := none, ejectBegun := false, quiesce := none, settleExpiry := none, spinTimer := none })
    ∧ (s.bridge.cart.state ≠ .empty → s.bridge.cart.state ≠ .settling →
        ∃ b, t.bridge = finish (raiseEvent b .cartridgeGone) ∧ (∀ i, (b.buf i).state = .free)
          ∧ (PoolOk s.bridge → (∀ i, b.buf i = Buffer.free) ∧ b.pool.evict = [])
          ∧ b.arb.order = none ∧ b.arb.life = none ∧ b.arb.streak = 0 ∧ b.cart.state = .empty
          ∧ (s.bridge.cart.state = .ejecting → b.mgmt = s.bridge.mgmt ∧ b.cart.deferred = s.bridge.cart.deferred
            ∧ ∀ k e, s.bridge.entry k = some e → e.op = .eject → e.state = .awaitEject →
              IsAnswered b k .ok 0 .none ∧ IsAnswered t.bridge k .ok 0 .none)
          ∧ (s.bridge.cart.state ≠ .ejecting →
            let n := dirtyCount s.bridge
            b.cart.deferred = (if 1 ≤ n then min (s.bridge.cart.deferred + 1) 255 else s.bridge.cart.deferred)
            ∧ (s.bridge.mgmt.exceptions.length < 31 → b.mgmt.exceptions = s.bridge.mgmt.exceptions
                ++ (if 1 ≤ n then [{ kind := .dataDiscarded, time := s.bridge.clock, sectorCount := some n }] else [])
                ++ match s.bridge.dm.map with
                  | none => []
                  | some m => if m.writeState = .dirty ∨ m.writeState = .saving then
                      [{ kind := .mapWriteFailed, time := s.bridge.clock, retries := some 0 }] else [])
            ∧ ∀ k e, s.bridge.entry k = some e →
              e.state = .reserving ∨ e.state = .fetching ∨ e.state = .awaitCommit
                ∨ (e.op = .eject ∧ e.state = .awaitEject) ∨ (e.op = .recover ∧ e.state = .awaitMech) →
              IsAnswered b k .mediaGone 0 .none ∧ IsAnswered t.bridge k .mediaGone 0 .none))

/-- FAULT: the order in flight is abandoned, without a count and without an exception (R99). From SPINUP to EJECTING the
cartridge enters HALTED: every READ, WRITE and FLUSH that waits and the EJECT are answered MECH_FAULT, MECH_HALTED is raised,
and everything else is kept: every dirty buffer with its data and sets, every job with its phase and causes, its stage in
flight going back to PENDING, every CLEAN buffer, the map and the counters (R54, R81, R154). In HALTED the RECOVER that waits
is answered MECH_FAULT; in EMPTY, SETTLING and UNUSABLE the cartridge stays as it is. -/
def Obligations.FaultHaltsTheMechanism : Prop :=
  ∀ s : State, ∃ t, exec .fault s = .next t ∧ t.pending = s.pending
    ∧ t.bridge.arb.order = none
    ∧ t.bridge.arb.timeouts = s.bridge.arb.timeouts ∧ t.bridge.dm.map.isSome = s.bridge.dm.map.isSome
    ∧ t.bridge.mgmt.settings = s.bridge.mgmt.settings ∧ t.bridge.router = s.bridge.router
    ∧ ((s.bridge.cart.state = .empty ∨ s.bridge.cart.state = .settling ∨ s.bridge.cart.state = .unusable) →
        t.bridge.cart.state = s.bridge.cart.state)
    ∧ (s.bridge.cart.state = .halted → t.bridge.cart.state = .halted
        ∧ ∀ k e, s.bridge.entry k = some e → e.op = .recover → e.state = .awaitMech →
          IsAnswered t.bridge k .mechFault 0 .none)
    ∧ (s.bridge.cart.state = .spinup ∨ s.bridge.cart.state = .mounting ∨ s.bridge.cart.state = .ready
        ∨ s.bridge.cart.state = .quiescing ∨ s.bridge.cart.state = .ejecting →
        t.bridge.cart.state = .halted
        ∧ (∀ k e, s.bridge.entry k = some e →
            e.state = .reserving ∨ e.state = .fetching ∨ e.state = .awaitCommit
              ∨ (e.op = .eject ∧ e.state = .awaitEject) →
            IsAnswered t.bridge k .mechFault 0 .none)
        ∧ ∃ b, t.bridge = finish (raiseEvent b .mechHalted) ∧ b.mgmt = s.bridge.mgmt
          ∧ b.cart = { s.bridge.cart with
              state := .halted, quiesce := none, ejectWaiting := none, mountStep := none, spinTimer := none }
          ∧ b.arb.order = none ∧ b.arb.life = none ∧ b.arb.streak = 0
          ∧ (∀ m, s.bridge.dm.map = some m → ∃ step, b.dm = { s.bridge.dm with map := some { m with step } }
              ∧ (step = m.step ∨ ∃ st, m.step = some st ∧ step = some { st with inFlight := false }))
          ∧ (PoolOk s.bridge → ∀ i,
              let x := s.bridge.buf i
              (x.state = .opened ∨ x.state = .committing ∨ x.state = .stranded ∨ x.state = .clean →
                b.buf i = { x with
                  flush := (b.buf i).flush, load := (b.buf i).load, successor := (b.buf i).successor })
              ∧ (x.state = .loading → x.dirty ≠ 0 → b.buf i = { x with
                  state := (b.buf i).state, load := (b.buf i).load, successor := (b.buf i).successor }
                ∧ ((b.buf i).state = .loading ∨ (b.buf i).state = .opened))
              ∧ ∀ f, x.flush = some f → (b.buf i).flush = some f
                ∨ (f.stage = some .inFlight ∧ (b.buf i).flush = some { f with stage := some .pending })))

/-- QUIESCE_EXPIRY (R150). A forced eject no longer waits for its conditions: EJECTING is entered where no order is in flight,
and otherwise the quiesce goes on with no further grant until the order ends. One that is not forced is refused: the cartridge
is READY again, every job loses QUIESCE, a DIRTY map starts its write-back only where its delay has passed, the EJECT is
answered EJECT_REFUSED, and EJECT_REFUSED is raised. A quiesce whose expiry is not reached, or was taken before, has no expiry
(log entry 2). That the expiry acts too where the selected conditions are met and only an order in flight keeps the quiesce
from ending is the model's choice (log entry 41). -/
def Obligations.QuiesceExpiryForcesOrRefusesTheEject : Prop :=
  ∀ s : State,
    (∀ q, s.bridge.cart.state = .quiescing → s.bridge.cart.quiesce = some q → q.ending = false →
      reached s.bridge.clock q.expiry = true →
      let forced := (q.source = .management ∧ q.forced = true)
        ∨ (q.source = .button ∧ s.bridge.mgmt.settings.buttonForced = true)
      (forced →
        let b := { s.bridge with cart := { s.bridge.cart with quiesce := some { q with ending := true } } }
        exec .quiesceExpiry s = .next (s.withBridge (finish b))
        ∧ (s.bridge.arb.order = none → (finish b).cart.state = .ejecting)
        ∧ (s.bridge.arb.order ≠ none → (finish b).cart.state = .quiescing
            ∧ (finish b).cart.quiesce = some { q with ending := true } ∧ (finish b).arb.order = s.bridge.arb.order))
      ∧ (¬ forced → ∃ t b, exec .quiesceExpiry s = .next t ∧ t.pending = s.pending
        ∧ t.bridge = finish (raiseEvent b .ejectRefused)
        ∧ t.bridge.cart.state = .ready ∧ t.bridge.cart.quiesce = none
        ∧ b.cart = { s.bridge.cart with state := .ready, quiesce := none, spinTimer := b.cart.spinTimer }
        ∧ b.mgmt = s.bridge.mgmt
        ∧ (∀ i f, (s.bridge.buf i).flush = some f →
            let c := { f.causes with quiesce := false }
            (b.buf i).flush = some { f with causes := if c = Causes.none then { c with aged := true } else c })
        ∧ (∀ m, s.bridge.dm.map = some m →
            let due := m.writeState = .dirty
              ∧ ∀ x, m.lastChange = some x → s.bridge.mgmt.settings.mapWriteDelay ≤ elapsed s.bridge.clock x
            (¬ due → b.dm = s.bridge.dm)
            ∧ (due → ∃ stamp, b.dm.map = some { m with
                writeState := .saving, attempt := some 1, step := some ⟨.erase, false, stamp, m.generation⟩ }))
        ∧ ∀ k e, s.bridge.entry k = some e → e.op = .eject → e.state = .awaitEject →
          IsAnswered t.bridge k .ejectRefused 0 .none))
    ∧ ((s.bridge.cart.state ≠ .quiescing ∨ ∀ q, s.bridge.cart.quiesce = some q →
          q.ending = true ∨ reached s.bridge.clock q.expiry = false) →
      exec .quiesceExpiry s = .next s)

/-! ### The head: grants, orders, completions and timeouts -/

/-- What the arbiter grants with no order in flight (R88); with one it grants nothing. In EMPTY, SETTLING and UNUSABLE
nothing; in MOUNTING the mount read, in EJECTING the EJECT, in SPINUP and HALTED the SPIN_UP asked for (R103). In READY, and
in QUIESCING before a forced expiry: with no work pending an asked SPIN_DOWN, and a SPIN_UP is due no longer; with work
pending and the spindle PARKED a SPIN_UP, which has its stamp from the time it became due (R86, R101; log entry 15); with work
pending and the spindle SPINNING an asked SPIN_DOWN is dropped (R102) and the chosen piece is granted, a READ after every load
that translates to LOST has ended, in ascending buffer index (R72, R91; log entry 14). A life-cycle order and a mount read set
the streak count to 0 (R90). The end of a step makes the grant (R88, R92): unless an eject waits in SPINUP or MOUNTING, or a
quiesce may end, what follows at the head is the arbiter's grant; the order that it issues is in flight at the end of the
step, and so is an order in flight before; where nothing follows at the head, the step ends with the pool's consequences. -/
def Obligations.GrantsFollowTheCartridgeState : Prop :=
  ∀ b : Bridge,
    let issued := fun (c : Bridge) (kind : OrderKind) (pieces : List Piece) => some { c with arb :=
      { c.arb with
        order := some { number := c.arb.nextNumber, kind, pieces, data := [], issued := c.clock,
                        expiry := c.clock + BitVec.ofNat 32 c.mgmt.settings.orderTimeout }
        nextNumber := c.arb.nextNumber + 1, streak := 0, life := none } }
    let serving := b.cart.state = .ready
      ∨ (b.cart.state = .quiescing ∧ ∀ q, b.cart.quiesce = some q → q.ending = false)
    (b.arb.order.isSome = true → arbiterStep b = none)
    ∧ (b.arb.order = none →
      ((b.cart.state = .empty ∨ b.cart.state = .settling ∨ b.cart.state = .unusable) → arbiterStep b = none)
      ∧ (b.cart.state = .spinup → arbiterStep b = if b.arb.life = some .insertSpinUp then issued b .spinUp [] else none)
      ∧ (b.cart.state = .halted → arbiterStep b = if b.arb.life = some .recoverSpinUp then issued b .spinUp [] else none)
      ∧ (b.cart.state = .ejecting → arbiterStep b = if b.arb.life = some .eject then issued b .eject [] else none)
      ∧ (b.cart.state = .mounting → b.cart.mountStep = none → arbiterStep b = none)
      ∧ (b.cart.state = .mounting → ∀ st, b.cart.mountStep = some st → arbiterStep b = issued b .read
          (match st.read with
            | .label => [.mount 0]
            | .map => [.mount 1, .mount 2, .mount 3, .mount 4]))
      ∧ (b.cart.state = .quiescing → ¬ serving → arbiterStep b = none)
      ∧ (serving → pendingWork b = [] →
          (b.arb.life = some .spinDown → arbiterStep b = issued b .spinDown [])
          ∧ (b.arb.life = some .demandSpinUp → arbiterStep b = some { b with arb := { b.arb with life := none } })
          ∧ (b.arb.life ≠ some .spinDown → b.arb.life ≠ some .demandSpinUp → arbiterStep b = none))
      ∧ (serving → pendingWork b ≠ [] → b.cart.spindle = .parked →
          (b.arb.life = some .demandSpinUp → arbiterStep b = issued b .spinUp [])
          ∧ (b.arb.life ≠ some .demandSpinUp → arbiterStep b = issued { b with
              arb := { b.arb with stamps := b.arb.stamps + 1, lifeStamp := b.arb.stamps }
              cart := { b.cart with spinTimer := none } } .spinUp []))
      ∧ (serving → pendingWork b ≠ [] → b.cart.spindle = .spinning →
          let c := { b with arb := { b.arb with life := none } }
          let works := pendingWork b
          let d := c.forBufs endLostLoad
          ∃ w, chooseWork c works = some w ∧ w ∈ works
            ∧ ((∀ i, w ≠ .load i) → ∃ kind psa, workOrder c w = some (kind, psa)
                ∧ arbiterStep b = some (issueWork c w kind psa (nextStreak c works w)))
            ∧ ∀ i, w = .load i →
              (∀ kind psa, workOrder d w = some (kind, psa) →
                arbiterStep b = some (issueWork d w kind psa (nextStreak c works w)))
              ∧ (workOrder d w = none → arbiterStep b = some d)
              ∧ (∀ j lsn, (b.buf j).lsn = some lsn → translate b lsn = some .lost →
                  (∃ l, (b.buf j).load = some l ∧ l.stage = .pending) → (d.buf j).load = none)
              ∧ d.cart.hard = b.cart.hard
              ∧ ∃ l, d.mgmt.exceptions = b.mgmt.exceptions ++ l ∧ ∀ r ∈ l, r.kind = .fillLoss))
    ∧ ((b.cart.state = .spinup ∨ b.cart.state = .mounting → b.cart.ejectWaiting = none) → b.cart.state ≠ .quiescing →
      headStep b = arbiterStep b)
    ∧ (b.cart.state = .quiescing → (∀ q, b.cart.quiesce = some q → q.ending = false) → conditionsUnmet b ≠ 0 →
      headStep b = arbiterStep b)
    ∧ (∀ c o, headStep (poolSettle b) = some c → c.arb.order = some o → (finish b).arb.order = some o)
    ∧ (∀ o, b.arb.order = some o → (finish b).arb.order = some o)
    ∧ (headStep (poolSettle b) = none → finish b = pump (refreshTimer (poolSettle b)))

/-- The class of a piece of pending work (R87), what is pending (R86), and the choice (R89, R90): from the lowest class that
holds any; in class 1 by the deciding reader's deadline expiry, then by its admission, then by the stamp; in any other class
by the stamp. When the streak count is 8 and class 2 or 3 holds work, the oldest stamp of those two classes is chosen. A
class 1 grant made while class 2 or 3 holds work adds 1 to the streak count, up to 8, and any other sets it to 0. Of the
STREAM readers of one load with equal deadline expiries the one admitted first is its deciding reader, the model's choice
(log entry 38). -/
def Obligations.TheArbiterChoosesByClassAndStamp : Prop :=
  (∀ (b : Bridge) (i : BufIdx),
     let urgent := ∃ f, (b.buf i).flush = some f ∧ (f.causes.confirmed = true ∨ f.causes.flushWait = true
       ∨ f.causes.pressure = true ∨ f.causes.quiesce = true)
     (∀ l, (b.buf i).load = some l →
       let stream := ∃ k ∈ l.readers, ∃ e, b.entry k = some e ∧ e.cls = some .stream
       (stream → workClass b (.load i) = 1)
       ∧ (¬ stream → l.fillNeed = true → urgent → workClass b (.load i) = 2)
       ∧ (¬ stream → ¬ (l.fillNeed = true ∧ urgent) → workClass b (.load i) = 3))
     ∧ (urgent → workClass b (.phase i) = 2) ∧ (¬ urgent → workClass b (.phase i) = 4)
     ∧ workClass b .map = (if b.cart.state = .quiescing then 2 else 5)
     ∧ (Work.load i ∈ pendingWork b ↔ ∃ l lsn r, (b.buf i).load = some l ∧ l.stage = .pending ∧ (b.buf i).lsn = some lsn
         ∧ translate b lsn = some r)
     ∧ (Work.phase i ∈ pendingWork b ↔ ∃ f p, (b.buf i).flush = some f ∧ f.stage = some .pending ∧ f.target = some p
         ∧ (f.phase = .erase ∨ f.phase = .write ∨ f.phase = .verify))
     ∧ (Work.map ∈ pendingWork b ↔ ∃ m st, b.dm.map = some m ∧ m.step = some st ∧ st.inFlight = false))
  ∧ (∀ (b : Bridge) (i : BufIdx) (l : Load), (b.buf i).load = some l → workClass b (.load i) = 1 →
       ∃ k ∈ l.readers, ∃ e, b.entry k = some e ∧ e.cls = some .stream
         ∧ decidingRank b (.load i) = (ahead b.clock (e.deadline.getD 0), e.seq)
         ∧ ∀ k' ∈ l.readers, ∀ e', b.entry k' = some e' → e'.cls = some .stream →
           ahead b.clock (e.deadline.getD 0) < ahead b.clock (e'.deadline.getD 0)
           ∨ (ahead b.clock (e.deadline.getD 0) = ahead b.clock (e'.deadline.getD 0) ∧ e.seq ≤ e'.seq))
  ∧ ∀ (b : Bridge) (works : List Work),
      let ordinary := fun v : Work => workClass b v = 2 ∨ workClass b v = 3
      let some23 := ∃ v ∈ works, ordinary v
      let r := decidingRank b
      (works ≠ [] → ∃ w, chooseWork b works = some w)
      ∧ ∀ w, chooseWork b works = some w → w ∈ works
        ∧ (b.arb.streak = 8 → some23 → ordinary w ∧ ∀ v ∈ works, ordinary v → workStamp b w ≤ workStamp b v)
        ∧ (¬ (b.arb.streak = 8 ∧ some23) → ∀ v ∈ works, workClass b w ≤ workClass b v
            ∧ (workClass b v = workClass b w → workClass b w ≠ 1 → workStamp b w ≤ workStamp b v)
            ∧ (workClass b v = workClass b w → workClass b w = 1 →
                (r w).1 < (r v).1 ∨ ((r w).1 = (r v).1 ∧ ((r w).2 < (r v).2
                  ∨ ((r w).2 = (r v).2 ∧ workStamp b w ≤ workStamp b v)))))
        ∧ (workClass b w = 1 → some23 → nextStreak b works w = min (b.arb.streak + 1) 8)
        ∧ (¬ (workClass b w = 1 ∧ some23) → nextStreak b works w = 0)

/-- The order of a chosen piece of work: a run of 1 to 16 consecutive PSAs of one track that holds the chosen piece's, each
for a pending piece of the same kind at its PSA; it has grown upward as far as it may, and then downward. A map step is a run
of PSAs 1-4 by itself (R91). The order takes the next number and its timeout, its pieces are in flight, and no other buffer
changes (R83, R92). A WRITE order carries the data as it stands, lost quarters as zeros, the staging area for the map; a
buffer whose first WRITE this is becomes COMMITTING and holds no load from then on (R60, R113, R134; log entry 10). -/
def Obligations.OrdersAreRunsOfPendingWork : Prop :=
  ∀ (b : Bridge) (w : Work) (kind : OrderKind) (psa streak : Nat), w ∈ pendingWork b →
    workOrder b w = some (kind, psa) →
    let t := issueWork b w kind psa streak
    let pieces := orderPieces b kind psa w
    let pieceOf := fun (v : Work) (p : Nat) (x : Piece) => match v with
      | .load i => x = .load i ((b.buf i).lsn.getD 0) p
      | .phase i => x = .phase i ((b.buf i).lsn.getD 0) p
      | .map => False
    let given := fun x : Piece => match x with
      | .load i _ _ => SectorData.user (b.buf i).data
      | .phase i _ _ => .user (Vector.ofFn fun q : Fin 4 =>
          if hasQuarter (b.buf i).lost q then 0 else (b.buf i).data[q])
      | .map p => b.dm.staging.toList.getD (p - 1) Config.absentData
      | .mount _ => Config.absentData
    t.arb = { b.arb with
      order := some { number := b.arb.nextNumber, kind, pieces, data := if kind = .write then pieces.map given else []
                      issued := b.clock, expiry := b.clock + BitVec.ofNat 32 b.mgmt.settings.orderTimeout }
      nextNumber := b.arb.nextNumber + 1, streak }
    ∧ (w = .map → pieces = [.map 1, .map 2, .map 3, .map 4]
        ∧ ∀ m st, b.dm.map = some m → m.step = some st → t.dm.map = some { m with step := some { st with inFlight := true } })
    ∧ (w ≠ .map → (∃ x ∈ pieces, pieceOf w psa x)
        ∧ (∀ x ∈ pieces, ∃ v ∈ pendingWork b, workOrder b v = some (kind, x.psa) ∧ pieceOf v x.psa x)
        ∧ ∀ l, b.cart.layout = some l →
          let joins := fun p => sameTrack l psa p = true ∧ ∃ v ∈ pendingWork b, v ≠ .map ∧ workOrder b v = some (kind, p)
          ∃ low n up, pieces.map Piece.psa = List.range' low n ∧ low ≤ psa ∧ psa + up + 1 = low + n ∧ n ≤ 16
            ∧ (up = 15 ∨ ¬ joins (psa + up + 1)) ∧ (n = 16 ∨ low = 0 ∨ ¬ joins (low - 1))
            ∧ ∀ p, low ≤ p → p < low + n → p = psa ∨ joins p)
    ∧ (∀ i, (∀ lsn p, .load i lsn p ∉ pieces ∧ .phase i lsn p ∉ pieces) → t.buf i = b.buf i)
    ∧ (∀ i lsn p l, .load i lsn p ∈ pieces → (b.buf i).load = some l →
        t.buf i = { b.buf i with load := some { l with stage := .inFlight, orderedAt := some p } })
    ∧ (∀ i lsn p f, .phase i lsn p ∈ pieces → (b.buf i).flush = some f →
        let first := kind = .write ∧ (b.buf i).state = .opened
        t.buf i = { b.buf i with
          flush := some { f with stage := some .inFlight }
          state := if first then .committing else (b.buf i).state
          load := if first then none else (b.buf i).load })
    ∧ t.table = b.table ∧ t.mgmt = b.mgmt ∧ t.cart = b.cart

/-- COMPLETION: with no order in flight, or with another order number, it is ignored; with the number of the order in flight
but another kind or sector count it is taken as a FAULT; otherwise it is taken: no order is in flight, the consecutive timeout
count is 0, and its outcomes are handed on (R84, R98). A mount read's go to the mount, unless an eject waits (R143, R147); a
map step's to the map write-back (R96); any other run's, one by one in PSA order, to the load or the flush job of each piece,
what each brings about in the pool being carried out before the next (R93, R96; log entry 7); a life-cycle order's to the
cartridge. -/
def Obligations.CompletionIsMatchedToTheOrderInFlight : Prop :=
  ∀ (number : BitVec 8) (kind : OrderKind) (result : CompletionResult) (s : State),
    (s.bridge.arb.order = none → exec (.completion number kind result) s = .next s)
    ∧ ∀ o, s.bridge.arb.order = some o →
      let life := kind = .spinUp ∨ kind = .spinDown ∨ kind = .eject
      let fits := o.kind = kind ∧ ((life ∧ ∃ good, result = .life good)
        ∨ (¬ life ∧ ∃ l, result = .run l ∧ l.length = o.pieces.length))
      let b := { s.bridge with arb := { s.bridge.arb with order := none, timeouts := 0 } }
      let waits := (b.cart.state = .spinup ∨ b.cart.state = .mounting) ∧ b.cart.ejectWaiting ≠ none
      (o.number ≠ number → exec (.completion number kind result) s = .next s)
      ∧ (o.number = number → ¬ fits → exec (.completion number kind result) s = exec .fault s)
      ∧ (o.number = number → fits → ∃ t, exec (.completion number kind result) s = .next t ∧ t.pending = s.pending
        ∧ t.bridge = finish (completionTaken s.bridge o result) ∧ t.bridge.arb.timeouts = 0
        ∧ t.bridge.mgmt.settings = s.bridge.mgmt.settings ∧ t.bridge.router = s.bridge.router
        ∧ (∀ good, result = .life good → completionTaken s.bridge o result = lifeEnded b kind good)
        ∧ ∀ sectors, result = .run sectors →
          (∀ p rest, o.pieces = .mount p :: rest →
            (waits → completionTaken s.bridge o result = b)
            ∧ (¬ waits → completionTaken s.bridge o result = mountReadEnded b sectors))
          ∧ (∀ p rest, o.pieces = .map p :: rest → completionTaken s.bridge o result = mapStepEnded b sectors)
          ∧ ((∀ p rest, o.pieces ≠ .mount p :: rest ∧ o.pieces ≠ .map p :: rest) →
            completionTaken s.bridge o result = (o.pieces.zip sectors).foldl (fun c x => poolSettle (match x.1 with
              | .load i lsn psa => loadEnded c i lsn psa x.2
              | .phase i _ psa => phaseEnded c i psa kind x.2
              | .map _ | .mount _ => c)) b))

/-- What a life-cycle order that completes does to the cartridge; the timeout count is 0 then (R98). The SPIN_UP of an
insertion starts the mount, or makes the cartridge UNUSABLE and raises CARTRIDGE_UNUSABLE (R142, R156). A demand SPIN_UP, in
READY and in QUIESCING, turns the spindle, or the cartridge enters HALTED and MECH_HALTED is raised, every job staying
(R101, R154, R156); SPIN_DOWN parks the spindle, or does nothing (R102). A quiesce goes on then, or ends in EJECTING (R149).
EJECT frees every buffer, forgets layout and map, answers the EJECT OK and raises CARTRIDGE_GONE, or halts (R152). Where an
eject waits in SPINUP or MOUNTING, the SPIN_UP or the mount read that ends is not applied to the mount: EJECTING is entered
(R147), the spindle SPINNING after a GOOD SPIN_UP all the same (log entry 13). The SPIN_UP of a RECOVER (R155): GOOD, it is
answered OK, and the cartridge is EJECTING where an eject had begun, without attention; READY where a map is held, with the
counters kept, every job without QUIESCE, a DIRTY map waiting its delay, or SAVING where it has passed (R133), and
CARTRIDGE_READY raised; and MOUNTING where none is held, without attention. FAILED, it is answered MECH_FAULT and the
cartridge stays HALTED. -/
def Obligations.LifeOrdersEndByTheCartridgeState : Prop :=
  let taken := fun s : State => { s.bridge with arb := { s.bridge.arb with order := none, timeouts := 0 } }
  let turned := fun (s : State) (spindle : Spindle) => { taken s with cart := { s.bridge.cart with spindle } }
  let halts := fun s t : State => t.bridge.cart.state = .halted
    ∧ (∃ c, Halted (taken s) c ∧ t.bridge = finish (raiseEvent c .mechHalted))
    ∧ ∀ k e, s.bridge.entry k = some e → awaitsMechanism e → IsAnswered t.bridge k .mechFault 0 .none
  let goesOn := fun s t : State => t.bridge.cart.state = s.bridge.cart.state
    ∨ (s.bridge.cart.state = .quiescing ∧ t.bridge.cart.state = .ejecting)
  let ejectWaiting := fun s : State =>
    (s.bridge.cart.state = .spinup ∨ s.bridge.cart.state = .mounting) ∧ s.bridge.cart.ejectWaiting ≠ none
  let ejects := fun s t : State => t.bridge.cart.state = .ejecting ∧ t.bridge.cart.ejectBegun = true
    ∧ t.bridge.cart.ejectWaiting = none ∧ t.bridge.cart.mountStep = none ∧ t.bridge.cart.layout = s.bridge.cart.layout
    ∧ t.bridge.cart.reason = s.bridge.cart.reason ∧ t.bridge.dm.map.isSome = s.bridge.dm.map.isSome
  (∀ (s : State) (o : Order) (kind : OrderKind) (good : Bool), s.bridge.arb.order = some o → o.kind = kind →
     kind = .spinUp ∨ kind = .spinDown ∨ kind = .eject →
     let b := taken s
     ∃ t, exec (.completion o.number kind (.life good)) s = .next t ∧ t.pending = s.pending
       ∧ (kind = .spinUp → s.bridge.cart.state = .spinup → s.bridge.cart.ejectWaiting = none →
           (good = true → t.bridge.cart.state = .mounting ∧ t.bridge.cart.spindle = .spinning
             ∧ t.bridge.cart.mountStep = some ⟨.label, 1⟩
             ∧ t.bridge = finish { b with
                 arb := { b.arb with mountStamp := b.arb.stamps, stamps := b.arb.stamps + 1 }
                 cart := { b.cart with
                   state := .mounting, spindle := .spinning, mountStep := some ⟨.label, 1⟩, spinTimer := none } })
           ∧ (good = false → t.bridge.cart.state = .unusable ∧ t.bridge.cart.reason = some .noSpin
             ∧ t.bridge = finish (raiseEvent { b with
                 arb := { b.arb with life := none }
                 cart := { b.cart with state := .unusable, reason := some .noSpin, mountStep := none } }
                 .cartridgeUnusable)))
       ∧ (kind = .spinUp → s.bridge.cart.state = .ready ∨ s.bridge.cart.state = .quiescing →
           (good = true → t.bridge = finish (turned s .spinning) ∧ t.bridge.cart.spindle = .spinning ∧ goesOn s t)
           ∧ (good = false → halts s t ∧ t.bridge.cart.spindle = s.bridge.cart.spindle))
       ∧ (kind = .spinDown → s.bridge.cart.state = .ready ∨ s.bridge.cart.state = .quiescing →
           let spindle := if good then .parked else s.bridge.cart.spindle
           t.bridge = finish (turned s spindle) ∧ t.bridge.cart.spindle = spindle ∧ goesOn s t)
       ∧ (kind = .eject → s.bridge.cart.state = .ejecting →
           (good = true → t.bridge.cart.state = .empty ∧ t.bridge.dm.map = none ∧ t.bridge.cart.layout = none
             ∧ (∃ c, t.bridge = finish (raiseEvent c .cartridgeGone) ∧ c.mgmt = s.bridge.mgmt
                 ∧ (∀ i, (c.buf i).state = .free) ∧ c.arb = { b.arb with life := none, streak := 0 }
                 ∧ c.cart = { s.bridge.cart with
                     state := .empty, writeState := none, spindle := .parked, layout := none, reason := none
                     mountStep := none, ejectWaiting := none, ejectBegun := false, quiesce := none
                     settleExpiry := none, spinTimer := none })
             ∧ ∀ k e, s.bridge.entry k = some e → e.op = .eject → e.state = .awaitEject →
                 IsAnswered t.bridge k .ok 0 .none)
           ∧ (good = false → halts s t))
       ∧ (kind = .spinUp → ejectWaiting s →
           let spindle := if good then .spinning else s.bridge.cart.spindle
           t.bridge = finish (turned s spindle) ∧ t.bridge.cart.spindle = spindle ∧ ejects s t))
  ∧ (∀ (s : State) (o : Order) (psa : Nat) (rest : List Piece) (sectors : List SectorOutcome),
       s.bridge.arb.order = some o → o.kind = .read → o.pieces = .mount psa :: rest →
       sectors.length = o.pieces.length → ejectWaiting s →
       ∃ t, exec (.completion o.number .read (.run sectors)) s = .next t ∧ t.pending = s.pending
         ∧ t.bridge = finish (taken s) ∧ t.bridge.cart.spindle = s.bridge.cart.spindle ∧ ejects s t)
  ∧ (∀ (s : State) (o : Order) (good : Bool), s.bridge.arb.order = some o → o.kind = .spinUp →
       s.bridge.cart.state = .halted →
       ∃ t, exec (.completion o.number .spinUp (.life good)) s = .next t ∧ t.pending = s.pending
         ∧ (good = false → t.bridge.cart.state = .halted
             ∧ (∃ c, t.bridge = finish c ∧ c.mgmt = s.bridge.mgmt ∧ c.cart = s.bridge.cart)
             ∧ ∀ k e, s.bridge.entry k = some e → e.op = .recover → e.state = .awaitMech →
               IsAnswered t.bridge k .mechFault 0 .none)
         ∧ (good = true → t.bridge.cart.spindle = .spinning
             ∧ (s.bridge.cart.ejectBegun = true → t.bridge.cart.state = .ejecting
                 ∧ ∃ c, t.bridge = finish c ∧ c.mgmt = s.bridge.mgmt)
             ∧ (s.bridge.cart.ejectBegun = false → s.bridge.dm.map.isSome = true → t.bridge.cart.state = .ready
                 ∧ ∃ c, t.bridge = finish (raiseEvent c .cartridgeReady) ∧ c.mgmt = s.bridge.mgmt
                   ∧ c.cart = { s.bridge.cart with
                       state := .ready, spindle := .spinning, spinTimer := c.cart.spinTimer }
                   ∧ (∀ i f, (s.bridge.buf i).flush = some f →
                       let causes := { f.causes with quiesce := false }
                       (c.buf i).flush = some { f with
                         causes := if causes = Causes.none then { causes with aged := true } else causes })
                   ∧ ∀ m, s.bridge.dm.map = some m →
                       let due := m.writeState = .dirty ∧ ∀ x, m.lastChange = some x →
                         s.bridge.mgmt.settings.mapWriteDelay ≤ elapsed s.bridge.clock x
                       (¬ due → c.dm = s.bridge.dm)
                       ∧ (due → ∃ stamp, c.dm.map = some { m with
                           writeState := .saving, attempt := some 1, step := some ⟨.erase, false, stamp, m.generation⟩ }))
             ∧ (s.bridge.cart.ejectBegun = false → s.bridge.dm.map = none → s.bridge.cart.ejectWaiting = none →
                 t.bridge.cart.state = .mounting ∧ t.bridge.cart.mountStep
                   = some ⟨if s.bridge.cart.layout.isSome then .map else .label, 1⟩
                 ∧ ∃ c, t.bridge = finish c ∧ c.mgmt = s.bridge.mgmt)
             ∧ ∀ k e, s.bridge.entry k = some e → e.op = .recover → e.state = .awaitMech →
               IsAnswered t.bridge k .ok 0 .none))

/-- The end of a mount read (R143). Its GOOD data goes to the staging area, the k-th sector to the k-th place, a sector that
failed leaving its place as it was (R3, R93; log entry 28). An attempt that fails is made again up to the fourth, which
makes the cartridge UNUSABLE with its reason and raises CARTRIDGE_UNUSABLE, as every refusal does (R156). What was read is
judged in the staging area (a map sector with too few slots: log entry 35): a label that fails its checks, a zone table that
fails and a map that fails are BAD_LABEL, BAD_ZONES and BAD_MAP; a good label is held, and the map is read next; an accepted
map is held, makes the cartridge READY with its counters at 0, and raises CARTRIDGE_READY (R5, R7, R14, R126, R142 to R144,
R156). A read that is made again, or followed by the next, raises nothing. -/
def Obligations.MountReadsAreJudged : Prop :=
  ∀ (b : Bridge) (st : MountStep) (outcomes : List SectorOutcome), b.cart.mountStep = some st →
    let t := mountReadEnded b outcomes
    let refused := fun r => t.cart.state = .unusable ∧ t.cart.reason = some r ∧ t.cart.mountStep = none
      ∧ t.dm.map = b.dm.map ∧ t = raiseEvent { b with
          dm := t.dm, arb := { b.arb with life := none }
          cart := { b.cart with state := .unusable, reason := some r, mountStep := none } } .cartridgeUnusable
    let silent := t.link = b.link ∧ t.mgmt = b.mgmt
    let good := ∀ o ∈ outcomes, ∃ d, o = .good d
    (∀ k : Fin 4,
      (∀ d, outcomes[k.val]? = some (.good (some d)) → t.dm.staging[k] = d)
      ∧ ((∀ d, outcomes[k.val]? ≠ some (.good d)) → t.dm.staging[k] = b.dm.staging[k]))
    ∧ (¬ good →
      (st.attempt < 4 → t.cart.mountStep = some ⟨st.read, st.attempt + 1⟩ ∧ t.cart.state = b.cart.state ∧ silent)
      ∧ (4 ≤ st.attempt → refused (match st.read with | .label => .badLabel | .map => .mapUnreadable)))
    ∧ (∀ l, st.read = .label → outcomes = [.good (some (.label l))] →
      (labelOk l = false → refused .badLabel)
      ∧ (labelOk l = true → zonesOk l = false → refused .badZones)
      ∧ (labelOk l = true → zonesOk l = true → t.cart.layout = some l ∧ t.cart.mountStep = some ⟨.map, 1⟩
          ∧ t.cart.state = b.cart.state ∧ silent))
    ∧ ∀ l (m : Fin 4 → MapSector), st.read = .map → b.cart.layout = some l →
      outcomes = [.good (some (.map (m 0))), .good (some (.map (m 1))), .good (some (.map (m 2))), .good (some (.map (m 3)))] →
      let judged := judgeMap l [m 0, m 1, m 2, m 3]
      (judged = none → refused .badMap)
      ∧ ∀ entries, judged = some entries → t.cart.state = .ready ∧ t.cart.mountStep = none
          ∧ (t.cart.soft, t.cart.hard, t.cart.remaps, t.cart.relocations, t.cart.deferred) = (0, 0, 0, 0, 0)
          ∧ t.dm.map = some { entries, generation := (m 0).generation, saved := (m 0).generation, lastChange := none,
                              writeState := .clean, attempt := none, step := none }
          ∧ t = raiseEvent { b with
              dm := t.dm
              cart := { b.cart with
                state := .ready, soft := 0, hard := 0, remaps := 0, relocations := 0, deferred := 0, mountStep := none } }
              .cartridgeReady

/-- The GOOD outcome of a load: each quarter that was neither valid nor lost takes the data read, every other quarter keeps
its own, and no quarter of the sector is left to load; after a retry it is a soft read error (R71, R95). At the relocation
threshold, with the write state WRITABLE, a LOADING or OPEN buffer becomes OPEN with every quarter dirty, the relocate mark
and the clock as its last write time (no other state is marked: log entry 10). Otherwise no mark is set, and a LOADING buffer
becomes CLEAN, or OPEN where it has dirty quarters. -/
def Obligations.GoodLoadFillsTheSector : Prop :=
  ∀ (b : Bridge) (i : BufIdx) (lsn psa : Nat) (l : Load) (read : Quad), (b.buf i).load = some l →
    (b.buf i).lsn = some lsn → l.stage = .inFlight →
    let t := loadEnded b i lsn psa (.good (some (.user read)))
    let relocated := b.mgmt.settings.relocThreshold ≤ l.retries ∧ b.cart.writeState = some .writable
      ∧ ((b.buf i).state = .loading ∨ (b.buf i).state = .opened)
    (∀ q : Fin 4, (t.buf i).data[q] = if hasQuarter (b.buf i).valid q || hasQuarter (b.buf i).lost q
        then (b.buf i).data[q] else read[q])
    ∧ (∀ q : Fin 4, hasQuarter (t.buf i).valid q = !hasQuarter (b.buf i).lost q || hasQuarter (b.buf i).valid q)
    ∧ (t.buf i).lost = (b.buf i).lost ∧ (t.buf i).load = none ∧ (t.buf i).lsn = (b.buf i).lsn
    ∧ (t.buf i).flush = (b.buf i).flush
    ∧ (relocated → (t.buf i).state = .opened ∧ (t.buf i).dirty = allQuarters ∧ (t.buf i).relocate = true
        ∧ (t.buf i).lastWrite = some b.clock)
    ∧ (¬ relocated → (t.buf i).dirty = (b.buf i).dirty ∧ (t.buf i).relocate = (b.buf i).relocate
        ∧ (t.buf i).lastWrite = (b.buf i).lastWrite
        ∧ ((b.buf i).state = .loading → (t.buf i).state = if (b.buf i).dirty = 0 then .clean else .opened)
        ∧ ((b.buf i).state ≠ .loading → (t.buf i).state = (b.buf i).state))
    ∧ t.cart.soft = (if 1 ≤ l.retries then min (b.cart.soft + 1) 65535 else b.cart.soft)
    ∧ t.cart.hard = b.cart.hard ∧ t.mgmt = b.mgmt

/-- The outcome of a load's sector that failed (R72, R94). Below the retry limit the load is pending again with one retry more
and its stamp, or is withdrawn where nothing needs it. At the limit it ends unrecovered: a hard read error and
READ_UNRECOVERED with the reader admitted first; a LOADING buffer without dirty quarters is FREE, and any other loses the
quarters neither valid nor lost, with FILL_LOSS, which is recorded first (log entry 11), a loss of no quarter too (log entry
20). The data of a buffer that becomes FREE is zeros (log entry 6). An outcome for a load that is not in flight for the sector
is dropped (R73, R93). A reader that leaves its loads leaves them without need where it was the last, and such a PENDING load
is withdrawn (R70, R100). -/
def Obligations.FailedLoadsAreRetriedWithdrawnOrLost : Prop :=
  (∀ (b : Bridge) (i : BufIdx) (lsn psa : Nat) (o : SectorOutcome) (l : Load), (b.buf i).load = some l →
     (b.buf i).lsn = some lsn → l.stage = .inFlight → o = .noId ∨ o = .dataError ∨ o = .writeFault →
     let t := loadEnded b i lsn psa o
     let x := b.buf i
     let needed := l.readers ≠ [] ∨ l.fillNeed = true
     let limit := b.mgmt.settings.retryLimit
     let alone := x.state = .loading ∧ x.dirty = 0
     let gone := ~~~ (x.valid ||| x.lost)
     (l.retries < limit → needed → t = b.putBuf i { x with
         load := some { l with stage := .pending, retries := l.retries + 1, orderedAt := none } })
     ∧ (l.retries < limit → ¬ needed →
         (alone → t.buf i = Buffer.free)
         ∧ (¬ alone → t.buf i = { x with state := if x.state = .loading then .opened else x.state, load := none })
         ∧ t.mgmt = b.mgmt ∧ t.cart = b.cart)
     ∧ (limit ≤ l.retries →
         t.cart.hard = min (b.cart.hard + 1) 65535
         ∧ (alone → t.buf i = Buffer.free)
         ∧ (¬ alone → t.buf i = { x with
             state := if x.state = .loading then .opened else x.state, lost := x.lost ||| gone, load := none
             successor := (t.buf i).successor })
         ∧ (b.mgmt.exceptions.length < 31 → ∃ r, t.mgmt.exceptions = b.mgmt.exceptions
               ++ (if alone then [] else
                 [{ kind := .fillLoss, time := b.clock, lsn := some lsn, sectorCount := some (quarterCount gone) }]) ++ [r]
             ∧ r = { kind := .readUnrecovered, time := b.clock, lsn := some lsn, psa := some psa, retries := some l.retries,
                     orig := r.orig, tag := r.tag }
             ∧ (l.readers = [] → r.orig = none ∧ r.tag = none)
             ∧ (l.readers ≠ [] → ∃ k ∈ l.readers, r.orig = some k.orig ∧ r.tag = some k.tag
                 ∧ ∀ e k' e', b.entry k = some e → k' ∈ l.readers → b.entry k' = some e' → e.seq ≤ e'.seq))))
  ∧ (∀ (b : Bridge) (i : BufIdx) (lsn psa : Nat) (o : SectorOutcome),
       (∀ l, (b.buf i).load = some l → l.stage ≠ .inFlight ∨ (b.buf i).lsn ≠ some lsn) → loadEnded b i lsn psa o = b)
  ∧ ∀ (b : Bridge) (k : Key) (i : BufIdx) (l : Load), (b.buf i).load = some l →
      let t := dropReader b k
      let x := b.buf i
      let readers := l.readers.filter (· != k)
      (readers ≠ [] ∨ l.fillNeed = true ∨ l.stage ≠ .pending → (t.buf i).load = some { l with readers })
      ∧ (readers = [] → l.fillNeed = false → l.stage = .pending →
          (x.state = .loading → x.dirty = 0 → t.buf i = Buffer.free)
          ∧ (¬ (x.state = .loading ∧ x.dirty = 0) → t.buf i = { x with
              state := if x.state = .loading then .opened else x.state, load := none, successor := (t.buf i).successor }))

/-- ORDER_TIMEOUT, when the order's expiry is reached: the order is no longer in flight, the pieces of its run are pending
again with their stamps and retries, MECH_TIMEOUT is recorded with the run, and the consecutive timeout count rises to at most
2 (R97, R98). The cartridge follows: in SPINUP it becomes UNUSABLE, in EJECTING HALTED, and in MOUNTING, READY and QUIESCING
HALTED at the second timeout; a mount read's first timeout is a failed attempt (R143); in HALTED the RECOVER is answered
MECH_FAULT (R142, R152, R155). UNUSABLE raises CARTRIDGE_UNUSABLE, and HALTED answers what waits MECH_FAULT and raises
MECH_HALTED (R154, R156). Where an eject waits in SPINUP, or in MOUNTING at the first timeout, EJECTING is entered and nothing
is applied to the mount (R147). A SPIN_UP or SPIN_DOWN of a READY cartridge is pending again (R86; log entry 12). With no
order in flight, or its expiry not reached, nothing happens (log entry 2). -/
def Obligations.OrderTimeoutCountsAndHalts : Prop :=
  ∀ s : State,
    (∀ o, s.bridge.arb.order = some o → reached s.bridge.clock o.expiry = true →
      let b := timeOutOrder s.bridge o
      let waiting := s.bridge.cart.ejectWaiting ≠ none
      let refused := fun r => timeoutFollows b o = raiseEvent { b with
        arb := { b.arb with life := none }
        cart := { b.cart with state := .unusable, reason := some r, mountStep := none } } .cartridgeUnusable
      let halts := ∃ c, Halted b c ∧ timeoutFollows b o = raiseEvent c .mechHalted
      ∃ t, exec .orderTimeout s = .next t ∧ t.pending = s.pending ∧ t.bridge = finish (timeoutFollows b o)
        ∧ t.bridge.arb.timeouts = min (s.bridge.arb.timeouts + 1) 2
        ∧ (s.bridge.mgmt.exceptions.length < 32 → ∃ l, t.bridge.mgmt.exceptions = s.bridge.mgmt.exceptions
            ++ { kind := .mechTimeout, time := s.bridge.clock, psa := o.firstPsa, sectorCount := o.sectorCount } :: l)
        ∧ b.arb.order = none ∧ b.cart = s.bridge.cart ∧ b.table = s.bridge.table
        ∧ (PoolOk s.bridge →
            (∀ i lsn psa l, .load i lsn psa ∈ o.pieces → (s.bridge.buf i).load = some l → l.stage = .inFlight →
              (l.readers ≠ [] ∨ l.fillNeed = true →
                (b.buf i).load = some { l with stage := .pending, orderedAt := none })
              ∧ (l.readers = [] → l.fillNeed = false → (b.buf i).load = none))
            ∧ (∀ i lsn psa f, .phase i lsn psa ∈ o.pieces → (s.bridge.buf i).flush = some f → f.stage = some .inFlight →
              (b.buf i).flush = some { f with stage := some .pending } ∧ (b.buf i).state = (s.bridge.buf i).state)
            ∧ ∀ psa m st, .map psa ∈ o.pieces → s.bridge.dm.map = some m → m.step = some st →
              b.dm.map = some { m with step := some { st with inFlight := false } })
        ∧ (s.bridge.cart.state = .spinup → ¬ waiting →
            t.bridge.cart.state = .unusable ∧ t.bridge.cart.reason = some .noSpin ∧ refused .noSpin)
        ∧ (s.bridge.cart.state = .spinup ∨ (s.bridge.cart.state = .mounting ∧ s.bridge.arb.timeouts = 0) → waiting →
            timeoutFollows b o = b ∧ t.bridge.cart.state = .ejecting ∧ t.bridge.cart.ejectBegun = true
            ∧ t.bridge.cart.ejectWaiting = none ∧ t.bridge.cart.mountStep = none)
        ∧ (s.bridge.cart.state = .ejecting → t.bridge.cart.state = .halted ∧ halts)
        ∧ (s.bridge.cart.state = .mounting ∨ s.bridge.cart.state = .ready ∨ s.bridge.cart.state = .quiescing →
            1 ≤ s.bridge.arb.timeouts → t.bridge.cart.state = .halted ∧ halts)
        ∧ (s.bridge.cart.state = .mounting → s.bridge.arb.timeouts = 0 → ¬ waiting → ∀ st, s.bridge.cart.mountStep = some st →
            (st.attempt < 4 → t.bridge.cart.state = .mounting
              ∧ t.bridge.cart.mountStep = some ⟨st.read, st.attempt + 1⟩ ∧ t.bridge.arb.mountStamp = s.bridge.arb.mountStamp)
            ∧ (4 ≤ st.attempt →
              let reason := match st.read with | .label => .badLabel | .map => .mapUnreadable
              t.bridge.cart.state = .unusable ∧ t.bridge.cart.mountStep = none ∧ t.bridge.cart.reason = some reason
              ∧ refused reason))
        ∧ (s.bridge.cart.state = .ready → s.bridge.arb.timeouts = 0 → t.bridge.cart.state = .ready
            ∧ (o.kind = .spinUp → timeoutFollows b o = { b with arb := { b.arb with life := some .demandSpinUp } })
            ∧ (o.kind = .spinDown → timeoutFollows b o = { b with arb := { b.arb with life := some .spinDown } })
            ∧ (o.kind ≠ .spinUp → o.kind ≠ .spinDown → timeoutFollows b o = b))
        ∧ (s.bridge.cart.state = .halted → t.bridge.cart.state = .halted
            ∧ ∀ k e, s.bridge.entry k = some e → e.op = .recover → e.state = .awaitMech →
              IsAnswered t.bridge k .mechFault 0 .none))
    ∧ ((∀ o, s.bridge.arb.order = some o → reached s.bridge.clock o.expiry = false) →
      exec .orderTimeout s = .next s)

/-! ### The flush jobs -/

/-- The flush jobs follow their conditions (R64, R106, R107, R109, R110). Pool pressure is as the available count gives it.
A job gains and loses its causes with their conditions, keeps AGED and QUIESCE, and is never without a cause. A FILL with
nothing left to fill ends, and the job takes its target. An OPEN buffer without a job gains one when a condition holds, with
every cause whose condition holds, AGED where it is tested (log entry 24): in FILL with the fill need where a quarter is
neither valid nor lost, in ERASE HELD where it is a successor, and otherwise with its target taken. The stamps of the jobs
made ascend with the buffer index (R107). A job in REMAP without a request has come to its permanent failure (R110). The
rest of the order is the model's choice (log entry 7, a DESIGN CHOICE): pressure is set before the jobs are brought up to
date, the jobs whose FILL has ended are stamped in one ascending order with those made, and a permanent failure that is due,
the lowest buffer first, comes before every other consequence in the pool. -/
def Obligations.JobsFollowTheirConditions : Prop :=
  (∀ b : Bridge, PoolOk b →
     let t := syncJobs b
     let awaited := fun (op : Op) (i : BufIdx) =>
       ∃ k e l, b.entry k = some e ∧ e.op = op ∧ e.state = .awaitCommit ∧ e.awaited = some l ∧ i ∈ l
     let holds := fun (i : BufIdx) (c : Causes) =>
       (c.pressure = true ↔ availableCount b < 10) ∧ (c.confirmed = true ↔ awaited .write i)
       ∧ (c.flushWait = true ↔ awaited .flush i) ∧ c.relocate = (b.buf i).relocate
     let aged := fun i : BufIdx => (b.buf i).state = .opened ∧ i ∈ b.pool.testDue
       ∧ ∃ x, (b.buf i).lastWrite = some x ∧ b.mgmt.settings.writeBackDelay ≤ elapsed b.clock x
     let full := fun i : BufIdx => (b.buf i).valid ||| (b.buf i).lost = allQuarters
     let filled := fun i : BufIdx => full i ∧ ∃ f, (b.buf i).flush = some f ∧ f.phase = .fill
     let stamped := fun (i : BufIdx) (x : Nat) => ∃ f', (t.buf i).flush = some f'
       ∧ ((f'.stage = some .pending ∧ x = f'.stamp)
         ∨ (f'.phase = .fill ∧ (b.buf i).load = none ∧ ∃ l, (t.buf i).load = some l ∧ x = l.stamp))
     (t.pool.pressure = true ↔ availableCount b < 10)
     ∧ (∀ i f, (b.buf i).flush = some f → ∃ f' c, (t.buf i).flush = some f' ∧ holds i c
         ∧ c.quiesce = f.causes.quiesce ∧ (c.aged = true ↔ f.causes.aged = true ∨ aged i)
         ∧ f'.causes = (if c = Causes.none then { c with aged := true } else c)
         ∧ (¬ (f.phase = .fill ∧ full i) → f' = { f with causes := f'.causes })
         ∧ (f.phase = .fill → full i → (∀ l, (t.buf i).load = some l → l.fillNeed = false)
             ∧ TargetTaken b i { f with phase := .erase, stage := some .held, causes := f'.causes } f'))
     ∧ (∀ i c, (b.buf i).flush = none → (b.buf i).state = .opened → holds i c →
         (c.quiesce = true ↔ b.cart.state = .quiescing) → (c.aged = true ↔ aged i) →
         (c = Causes.none → (t.buf i).flush = none)
         ∧ (c ≠ Causes.none → ∃ f', (t.buf i).flush = some f' ∧ f'.causes = c ∧ f'.attempts = 0 ∧ f'.erased = false
           ∧ (¬ full i → f'.phase = .fill ∧ f'.stage = none ∧ f'.target = none ∧ f'.request = none
             ∧ ∃ l, (t.buf i).load = some l ∧ l.fillNeed = true
               ∧ ((b.buf i).load = none → l.readers = [] ∧ l.stage = .pending ∧ l.retries = 0)
               ∧ ∀ l0, (b.buf i).load = some l0 → l = { l0 with fillNeed := true })
           ∧ (full i → (∃ j, (b.buf j).state = .committing ∧ (b.buf j).successor = some i) →
             f'.phase = .erase ∧ f'.stage = some .held ∧ f'.target = none ∧ f'.request = none)
           ∧ (full i → (∀ j, (b.buf j).state = .committing → (b.buf j).successor ≠ some i) →
             TargetTaken b i (newFlush c) f')))
     ∧ (∀ i, (b.buf i).flush = none → (b.buf i).state ≠ .opened → (t.buf i).flush = none)
     ∧ (∀ i j x y, i < j → (b.buf i).flush = none ∨ filled i → (b.buf j).flush = none ∨ filled j →
         stamped i x → stamped j y → b.arb.stamps ≤ x ∧ x < y)
     ∧ (∀ i, (b.buf i).state = .opened → t.buf i = { b.buf i with
         flush := (t.buf i).flush, load := (t.buf i).load, successor := (t.buf i).successor })
     ∧ t.table = b.table ∧ t.mgmt = b.mgmt ∧ t.dm = b.dm ∧ t.arb.order = b.arb.order)
  ∧ ∀ (b : Bridge) (i : BufIdx) (f : Flush), (b.buf i).flush = some f → f.phase = .remap → f.request = none →
      (∀ j f', j < i → (b.buf j).flush = some f' → f'.phase = .remap → f'.request ≠ none) →
      poolStep b = some (permanentFailure b i none)

/-- The outcome of a sector for a flush job: ERASE goes on to WRITE and WRITE to VERIFY on the same target; a failure asks for
a REPLACE spare while fewer than 3 attempts were made and the write state is WRITABLE; an outcome for a phase that is not in
flight on that PSA is dropped (R96, R112 to R115). -/
def Obligations.FlushPhasesFollowTheirOutcomes : Prop :=
  ∀ (b : Bridge) (i : BufIdx) (psa : Nat) (f : Flush) (data : Option SectorData), (b.buf i).flush = some f →
    (f.stage = some .inFlight → f.target = some psa →
      (f.phase = .erase → ((phaseEnded b i psa .erase (.good data)).buf i).flush = some
        { f with phase := .write, stage := some .pending, erased := true, stamp := b.arb.stamps })
      ∧ (f.phase = .write → ((phaseEnded b i psa .write (.good data)).buf i).flush = some
        { f with phase := .verify, stage := some .pending, erased := true, stamp := b.arb.stamps })
      ∧ (∀ kind o, (o = .noId ∨ o = .dataError ∨ o = .writeFault) → f.attempts < 3 →
          b.cart.writeState = some .writable →
          ((phaseEnded b i psa kind o).buf i).flush = some
            { f with phase := .remap, stage := none, request := some (.replace psa) }))
    ∧ (f.stage ≠ some .inFlight ∨ f.target ≠ some psa → ∀ kind o, phaseEnded b i psa kind o = b)

/-- The end of a job's VERIFY and of its failures (R114, R115). Where the four quarters read back equal the data written, lost
quarters as zeros, the job commits; where one differs the target has failed. A failed target asks for a REPLACE spare while
fewer than 3 attempts were made and the write state is WRITABLE, and fails the job for good otherwise. A commit sends the
COMMITTED notice; without a successor the buffer is CLEAN with its lost quarters zeros, and joins the eviction order where no
entry pins it; with one it is FREE (data zeros, log entry 6) and left to the successor (R77, R78, R118, R119). It records no
exception and does not change the map. -/
def Obligations.VerifyCommitsTheJobOrFailsItsTarget : Prop :=
  (∀ (b : Bridge) (i : BufIdx) (psa : Nat) (f : Flush), (b.buf i).flush = some f → f.stage = some .inFlight →
     f.target = some psa →
     let written : Quad := Vector.ofFn fun q : Fin 4 => if hasQuarter (b.buf i).lost q then 0 else (b.buf i).data[q]
     let failed := fun t : Bridge =>
       (f.attempts < 3 → b.cart.writeState = some .writable →
         t = b.putBuf i { b.buf i with flush := some { f with
           phase := .remap, stage := none, request := some (.replace psa) } })
       ∧ (¬ (f.attempts < 3 ∧ b.cart.writeState = some .writable) → t = permanentFailure b i (some psa))
     (f.phase = .verify → ∀ read : Quad,
       ((∀ q : Fin 4, read[q] = written[q]) → phaseEnded b i psa .verify (.good (some (.user read))) = commitJob b i)
       ∧ (∀ q : Fin 4, read[q] ≠ written[q] → failed (phaseEnded b i psa .verify (.good (some (.user read))))))
     ∧ ∀ kind o, o = .noId ∨ o = .dataError ∨ o = .writeFault → failed (phaseEnded b i psa kind o))
  ∧ ∀ (b : Bridge) (i : BufIdx), PoolOk b → (b.buf i).flush.isSome = true →
      let t := commitJob b i
      let x := b.buf i
      (∀ k e, b.entry k = some e → e.state = .awaitCommit → t.entry k = (noticeCommitted b i).entry k)
      ∧ (x.successor = none →
          t.buf i = { x with
            state := .clean, lost := 0, dirty := 0, valid := x.valid ||| x.lost, relocate := false, lastWrite := none
            load := none, flush := none
            data := Vector.ofFn fun q : Fin 4 => if hasQuarter x.lost q then 0 else x.data[q] }
          ∧ ((∀ k e, b.entry k = some e → i ∉ e.pins ∧ ∀ l, e.awaited = some l → i ∈ l → e.state = .awaitCommit) →
            i ∈ t.pool.evict))
      ∧ (∀ j, x.successor = some j → j ≠ i → LeftToSuccessor b t i j)
      ∧ t.mgmt = b.mgmt ∧ t.dm = b.dm

/-- A job that fails for good (R117): its user PSA is marked LOST, in one map change where the map changes by that, a CLEAN
map being DIRTY then, or SAVING where the write-back starts at once (R130 to R133; its snapshot: log entry 35),
SPARE_EXHAUSTED is recorded with the failed PSA, or the home PSA where no target failed, and the attempts, and the entries
that await the buffer get their notice. Without a successor the buffer is STRANDED with its data and sets and without a load
(log entry 10), and the eighth makes a WRITABLE cartridge WRITE_LOCKED; where 8 are STRANDED already the data is discarded,
its buffer FREE (data zeros, log entry 6), with DATA_DISCARDED and a deferred error. With one it is left to the successor,
and the number of STRANDED buffers stays (R79, R80, R119, R130, R145). -/
def Obligations.PermanentFailureStrandsDiscardsOrLeavesToTheSuccessor : Prop :=
  ∀ (b : Bridge) (i : BufIdx) (failed : Option Nat) (f : Flush) (l : Label) (m : HeldMap) (lsn u : Nat), PoolOk b →
    (b.buf i).flush = some f → (b.buf i).lsn = some lsn → b.cart.layout = some l → homePsa l lsn = some u →
    b.dm.map = some m →
    let t := permanentFailure b i failed
    let x := b.buf i
    let discards := x.successor = none ∧ 8 ≤ strandedCount b
    (lostEntries m.entries u = none → t.dm = b.dm)
    ∧ (∀ entries, lostEntries m.entries u = some entries → MapChanged b t m entries)
    ∧ (b.mgmt.exceptions.length < 31 → t.mgmt.exceptions = b.mgmt.exceptions
        ++ [{ kind := .spareExhausted, time := b.clock, lsn := some lsn, retries := some f.attempts
              psa := some (match failed with | some p => p | none => u) }]
        ++ if discards then [{ kind := .dataDiscarded, time := b.clock, lsn := some lsn, sectorCount := some 1 }] else [])
    ∧ t.cart.deferred = (if discards then min (b.cart.deferred + 1) 255 else b.cart.deferred)
    ∧ (x.successor = none →
        (∀ k e, b.entry k = some e → e.state = .awaitCommit → t.entry k = (noticeFailed b i).entry k)
        ∧ (strandedCount b < 8 →
            t.buf i = { x with state := .stranded, load := none, flush := none, relocate := false }
            ∧ strandedCount t = strandedCount b + 1
            ∧ t.cart.writeState = if strandedCount b = 7 ∧ b.cart.writeState = some .writable then some .writeLocked
                else b.cart.writeState)
        ∧ (8 ≤ strandedCount b → t.buf i = Buffer.free ∧ t.cart.writeState = b.cart.writeState))
    ∧ ∀ j, x.successor = some j → j ≠ i →
        LeftToSuccessor b t i j ∧ strandedCount t = strandedCount b ∧ t.cart.writeState = b.cart.writeState
        ∧ ∀ k e, b.entry k = some e → e.state = .awaitCommit → t.entry k = (noticeMoved b i j).entry k

/-! ### Spares, the map, exceptions and attention -/

/-- The search for a spare: what is found is a spare of the cartridge that no entry names, the zone of the user PSA first,
then by distance with the lower-numbered first, the lowest free one of its zone; nothing is found only when every zone's
spares are all named (R127). -/
def Obligations.SpareSearchFollowsTheZones : Prop :=
  ∀ (l : Label) (m : List MapEntry) (u z : Nat), zoneOf l u = some z →
    let free := fun (k p : Nat) => ∃ e, l.zones[k]? = some e ∧ e.first + zoneUser e ≤ p ∧ p < e.first + zoneSize e
      ∧ ∀ x ∈ m, x.defective ≠ p ∧ x.spare ≠ some p
    let dist := fun k : Nat => (k - z) + (z - k)
    (∀ s, findSpare l m u = some s → ∃ k, free k s ∧ (∀ p, free k p → s ≤ p)
      ∧ ∀ k' p, free k' p → dist k < dist k' ∨ (dist k = dist k' ∧ k ≤ k'))
    ∧ (findSpare l m u = none ↔ ∀ k p, ¬ free k p)

/-- A grant makes the spare that of its user PSA, and a mark as LOST takes it away; a spare that the PSA had is RETIRED (where
a mark finds room), every other entry stays, and both keep the laws of the map (R12, R129, R130). -/
def Obligations.GrantsAndMarksChangeOneTranslation : Prop :=
  ∀ (m : List MapEntry) (u : Nat), mapLaws m = true → (∀ e ∈ m, e.spare ≠ some u) →
    let had := fun s0 : Nat => ∃ x ∈ m, x.defective = u ∧ x.spare = some s0
    (∀ s o, appears m s = false → s ≠ u → o = .verify ∨ o = .relocate → m.length < 1024 →
      mapLaws (grantEntries m u s o) = true ∧ translatePsa (grantEntries m u s o) u = .spare s
      ∧ (∀ e, e ∈ grantEntries m u s o ↔ e = ⟨u, some s, o⟩ ∨ (e ∈ m ∧ e.defective ≠ u)
          ∨ ∃ s0, had s0 ∧ e = ⟨s0, none, .retired⟩)
      ∧ ∀ p, p ≠ u → (∀ e ∈ m, e.spare ≠ some p) → translatePsa (grantEntries m u s o) p = translatePsa m p)
    ∧ (∀ m', lostEntries m u = some m' → mapLaws m' = true ∧ translatePsa m' u = .lost
      ∧ (∀ e, e ∈ m' ↔ e = ⟨u, none, .lost⟩ ∨ (e ∈ m ∧ e.defective ≠ u)
          ∨ (m.length < 1024 ∧ ∃ s0, had s0 ∧ e = ⟨s0, none, .retired⟩))
      ∧ ∀ p, p ≠ u → (∀ e ∈ m, e.spare ≠ some p) → translatePsa m' p = translatePsa m p)
    ∧ (lostEntries m u = none ↔
        translatePsa m u = .lost ∨ (translatePsa m u = .home u ∧ 1024 ≤ m.length))

/-- SPARE_REQUEST_TAKEN: with no request nothing is granted or refused. A request is refused when the write state is not
WRITABLE, the map holds 1024 entries, or no spare is free; otherwise the spare found is granted in one map change, counted
as a remap or a relocation, and the job goes on with ERASE of the spare under a new stamp (R111, R116, R128, R129, R131,
R138). The map change sets the last change time and makes a CLEAN map DIRTY, or SAVING where the write-back starts at once
(R131 to R133; its snapshot: log entry 35). The grant of a relocation records RELOCATED and that of a REPLACE request
REMAPPED, with the sector and the spare, REMAPPED with the attempts after the rise; the FIRST spare of a LOST sector records
nothing (R111, R116, R120). A refusal by itself records nothing: a relocation loses its mark and RELOCATE, AGED taking the
place of the last cause, and takes its target by the translation, in place; any other job fails permanently, a REPLACE
request with the PSA that failed (R106, R110, R111, R117, R120). -/
def Obligations.SpareRequestIsGrantedOrRefused : Prop :=
  ∀ (s : State) (i : BufIdx),
    let b := s.bridge
    exec (.spareRequestTaken i) s = .next (s.withBridge (finish (takeSpareRequest b i)))
    ∧ ((∀ f, (b.buf i).flush = some f → f.request = none) → takeSpareRequest b i = b)
    ∧ ∀ f r lsn u l m, (b.buf i).flush = some f → f.request = some r → (b.buf i).lsn = some lsn →
        b.cart.layout = some l → homePsa l lsn = some u → b.dm.map = some m →
        ((b.cart.writeState ≠ some .writable ∨ 1024 ≤ m.entries.length ∨ findSpare l m.entries u = none) →
          let t := takeSpareRequest b i
          (∀ psa, r = .replace psa → t = permanentFailure b i (some psa))
          ∧ (r = .first → f.causes.relocate = false → t = permanentFailure b i none)
          ∧ (r = .first → f.causes.relocate = true →
              let others := f.causes.pressure ∨ f.causes.confirmed ∨ f.causes.flushWait ∨ f.causes.quiesce
              let f1 := { f with request := none, causes := { f.causes with
                relocate := false, aged := f.causes.aged || !decide others } }
              (∃ f', t.buf i = { b.buf i with relocate := false, flush := some f' } ∧ TargetTaken b i f1 f')
              ∧ (∀ j, j ≠ i → t.buf j = b.buf j) ∧ t.dm = b.dm ∧ t.mgmt = b.mgmt ∧ t.table = b.table))
        ∧ ∀ p, b.cart.writeState = some .writable → m.entries.length < 1024 → findSpare l m.entries u = some p →
          let t := takeSpareRequest b i
          let moved := r = .first ∧ f.causes.relocate = true
          MapChanged b t m (grantEntries m.entries u p (if moved then .relocate else .verify))
          ∧ (moved → t.cart.relocations = min (b.cart.relocations + 1) 65535 ∧ t.cart.remaps = b.cart.remaps)
          ∧ (¬ moved → t.cart.remaps = min (b.cart.remaps + 1) 65535 ∧ t.cart.relocations = b.cart.relocations)
          ∧ (let recorded : List ExceptionRecord :=
               match r with
               | .first => if f.causes.relocate then
                   [{ kind := .relocated, time := b.clock, lsn := some lsn, psa := some p }] else []
               | .replace _ =>
                   [{ kind := .remapped, time := b.clock, lsn := some lsn, psa := some p, retries := some (f.attempts + 1) }]
             (recorded = [] → t.mgmt = b.mgmt)
             ∧ (b.mgmt.exceptions.length < 32 → t.mgmt.exceptions = b.mgmt.exceptions ++ recorded
                 ∧ t.mgmt.overflow = b.mgmt.overflow)
             ∧ (32 ≤ b.mgmt.exceptions.length → recorded ≠ [] →
                 t.mgmt = { b.mgmt with overflow := min (b.mgmt.overflow + 1) 255 }))
          ∧ (∃ f', t.buf i = { b.buf i with flush := some f' }
              ∧ f' = { f with phase := .erase, stage := some .pending, target := some p, erased := false, request := none,
                              attempts := (if r = .first then f.attempts else f.attempts + 1), stamp := f'.stamp }
              ∧ b.arb.stamps ≤ f'.stamp ∧ f'.stamp < t.arb.stamps)
          ∧ (∀ j, j ≠ i → t.buf j = b.buf j)

/-- The end of a map write-back step (R134 to R136). It ends good when its four outcomes are GOOD, and for a VERIFY the data
read back equals the staging area, sector by sector (log entry 35); a GOOD sector without data brings a free value (log entry
21). ERASE goes on to WRITE and WRITE to VERIFY. A good VERIFY makes the snapshot's generation the saved one: the map is
CLEAN, or DIRTY where it changed since, and then the next write-back starts where R133 lets it. A failure starts attempt 2 at
once with a new snapshot; the failure of attempt 2 makes the map UNSAVABLE, a WRITABLE cartridge WRITE_LOCKED, and records
MAP_WRITE_FAILED with the first PSA that failed and 2 retries (R145). -/
def Obligations.MapWriteBackGoesByItsSteps : Prop :=
  ∀ (b : Bridge) (m : HeldMap) (st : MapStep) (o : Fin 4 → SectorOutcome), b.dm.map = some m → m.step = some st →
    let t := mapStepEnded b [o 0, o 1, o 2, o 3]
    let good := fun k : Fin 4 => ∃ d, o k = .good d
      ∧ (st.pass = .verify → asMapSector (d.getD Config.absentData) = asMapSector b.dm.staging[k])
    let next := fun pass => t.dm = { b.dm with map := some { m with
        step := some { st with pass, inFlight := false, stamp := b.arb.stamps } } } ∧ t.mgmt = b.mgmt
    let started := fun (m0 : HeldMap) (n : Nat) => t.dm.staging = snapshotSectors m.entries m.generation
      ∧ t.dm.map = some { m0 with
          writeState := .saving, attempt := some n, step := some ⟨.erase, false, b.arb.stamps, m.generation⟩ }
    let saved := { m with saved := st.generation, attempt := none, step := none }
    let due := b.cart.state = .quiescing ∨ (b.cart.state = .ready
      ∧ ∀ x, m.lastChange = some x → b.mgmt.settings.mapWriteDelay ≤ elapsed b.clock x)
    ((∀ k, good k) →
      (st.pass = .erase → next .write) ∧ (st.pass = .write → next .verify)
      ∧ (st.pass = .verify →
          (m.generation = st.generation → t.dm = { b.dm with map := some { saved with writeState := .clean } })
          ∧ (m.generation ≠ st.generation → ¬ due →
              t.dm = { b.dm with map := some { saved with writeState := .dirty } })
          ∧ (m.generation ≠ st.generation → due → started saved 1)
          ∧ t.mgmt = b.mgmt))
    ∧ ∀ k, ¬ good k → (∀ j, j < k → good j) →
      (m.attempt = some 1 → started m 2 ∧ t.mgmt = b.mgmt)
      ∧ (m.attempt = some 2 →
          t.dm = { b.dm with map := some { m with writeState := .unsavable, attempt := none, step := none } }
          ∧ t.cart = { b.cart with writeState :=
              if b.cart.writeState = some .writable then some .writeLocked else b.cart.writeState }
          ∧ (b.mgmt.exceptions.length < 32 → t.mgmt.exceptions = b.mgmt.exceptions
              ++ [{ kind := .mapWriteFailed, time := b.clock, psa := some (k.val + 1), retries := some 2 }]))

/-- An exception record joins the list while it holds fewer than 32, and EXCEPTION_ADDED is raised; with 32 it is dropped and
the overflow count rises to at most 255 (R182). An event that is not selected, or with no attention originator, is not kept. A
selected one joins the pending set, and where no attention frame waits or is in transmission the frame is built: the attention
originator, the whole pending set and the number of exception records; the set is then empty (R161, R182). -/
def Obligations.ExceptionsAndAttentionEventsAreKept : Prop :=
  (∀ (b : Bridge) (r : ExceptionRecord),
     (b.mgmt.exceptions.length < 32 → record b r
       = raiseEvent { b with mgmt := { b.mgmt with exceptions := b.mgmt.exceptions ++ [r] } } .exceptionAdded
       ∧ (record b r).mgmt.exceptions = b.mgmt.exceptions ++ [r] ∧ (record b r).mgmt.overflow = b.mgmt.overflow)
     ∧ (32 ≤ b.mgmt.exceptions.length →
       record b r = { b with mgmt := { b.mgmt with overflow := min (b.mgmt.overflow + 1) 255 } }))
  ∧ (∀ (b : Bridge) (ev : AttnEvent),
       let waits := ∃ f, (f ∈ b.link.queue ∨ b.link.tx = some f) ∧ ∃ o set n, f = .attention o set n
       (b.mgmt.settings.attnOrig = none ∨ b.mgmt.settings.attnEvents.getLsbD ev.bit = false → raiseEvent b ev = b)
       ∧ ∀ o, b.mgmt.settings.attnOrig = some o → b.mgmt.settings.attnEvents.getLsbD ev.bit = true →
         ∃ set : BitVec 6, (∀ x : AttnEvent, set.getLsbD x.bit = (x == ev || b.mgmt.attnPending.getLsbD x.bit))
           ∧ (waits → raiseEvent b ev = { b with mgmt := { b.mgmt with attnPending := set } })
           ∧ (¬ waits → raiseEvent b ev = { b with
               link := { b.link with queue := b.link.queue ++ [.attention o set b.mgmt.exceptions.length] }
               mgmt := { b.mgmt with attnPending := 0 } }))
  ∧ ∀ b : Bridge,
      let waits := ∃ f, (f ∈ b.link.queue ∨ b.link.tx = some f) ∧ ∃ o set n, f = .attention o set n
      (b.mgmt.settings.attnOrig = none ∨ b.mgmt.attnPending = 0 ∨ waits → attnTest b = b)
      ∧ ∀ o, b.mgmt.settings.attnOrig = some o → b.mgmt.attnPending ≠ 0 → ¬ waits → attnTest b = { b with
          link := { b.link with queue :=
            b.link.queue ++ [.attention o b.mgmt.attnPending b.mgmt.exceptions.length] }
          mgmt := { b.mgmt with attnPending := 0 } }

/-! ### Invariants -/

/-- The laws of the state hold right after power-on reset. Those of the pool say that every FREE buffer holds the FREE values,
its data zeros (log entry 6, a DESIGN CHOICE). -/
def Obligations.ResetObeysTheLawsOfTheState : Prop :=
  TablesOk State.reset.bridge ∧ LockOk State.reset.bridge ∧ CountsOk State.reset.bridge ∧ MapOk State.reset.bridge
    ∧ StrandedOk State.reset.bridge ∧ PoolOk State.reset.bridge ∧ LoadingOk State.reset.bridge

/-- Every step keeps both tables and every setting within their ranges and consistent (R17, R33, R180), and the laws of the
edit lock (R177 to R179): the pending list holds each originator at most once and never the holder, it is empty while there is
no holder, and each pending originator has exactly one entry in AWAIT_LOCK, a LOCK_REQUEST, and no other originator has
any. -/
def Obligations.EveryStepKeepsTheTablesAndTheLock : Prop :=
  (∀ s t : State, step s = .next t → TablesOk s.bridge → TablesOk t.bridge)
  ∧ (∀ s t : State, step s = .next t → LockOk s.bridge → LockOk t.bridge)

/-- Every step keeps every counter within its width, the exception list within 32 records and the STRANDED buffers within 8
(R79, R90, R98, R140, R162, R167, R182). -/
def Obligations.EveryStepKeepsTheCountsBounded : Prop :=
  ∀ s t : State, step s = .next t → CountsOk s.bridge ∧ StrandedOk s.bridge → CountsOk t.bridge ∧ StrandedOk t.bridge

/-- Every step keeps the held layout judged good and the held map lawful: its entries ascend, no spare is named twice or is
itself defective, and every PSA is of its class (R7, R12, R14, R126, R129, R130). -/
def Obligations.EveryStepKeepsTheMapLawful : Prop :=
  ∀ s t : State, step s = .next t → MapOk s.bridge → MapOk t.bridge

/-- Every step keeps the buffer records and the eviction order in agreement: a FREE buffer holds the FREE values (data zeros,
log entry 6), a flush job belongs to an OPEN or COMMITTING buffer, and the eviction order holds CLEAN buffers, each once (R59,
R60, R63, R105). With that, every step keeps the sets of the LOADING buffers: valid equals dirty, and none is lost (R60). -/
def Obligations.EveryStepKeepsThePoolInOrder : Prop :=
  (∀ s t : State, step s = .next t → PoolOk s.bridge → PoolOk t.bridge)
  ∧ ∀ s t : State, step s = .next t → PoolOk s.bridge → LoadingOk s.bridge → LoadingOk t.bridge

end Statements
end

