-- ==== Sys2Proof/Laws/State.lean ====
section
/-! SUPPORT. One lemma for each part of the bridge under each update of Access.lean and Ops.lean. -/

namespace Sys2Proof.Machine

/-! ### Keys and indices -/

theorem keyIdx_injective {j k : Key} (h : keyIdx j = keyIdx k) : j = k := by
  obtain ⟨⟨jo, hjo⟩, ⟨jt, hjt⟩⟩ := j
  obtain ⟨⟨ko, hko⟩, ⟨kt, hkt⟩⟩ := k
  simp only [keyIdx, Fin.mk.injEq] at h
  have h1 : jo = ko := by omega
  have h2 : jt = kt := by omega
  subst h1 h2
  rfl

theorem keyIdx_eq {j k : Key} : keyIdx j = keyIdx k ↔ j = k := ⟨keyIdx_injective, fun h => h ▸ rfl⟩

theorem mem_allKeys (k : Key) : k ∈ allKeys := by
  simp only [allKeys, List.mem_flatMap, List.mem_map, List.mem_finRange, true_and]
  exact ⟨k.orig, k.tag, rfl⟩

theorem mem_allBufs (i : BufIdx) : i ∈ allBufs := List.mem_finRange i

/-! ### The queue and the bridge -/

@[simp] theorem withBridge_pending (s : State) (b : Bridge) : (s.withBridge b).pending = s.pending := by
  unfold State.withBridge
  rfl

@[simp] theorem withBridge_bridge (s : State) (b : Bridge) : (s.withBridge b).bridge = b := by
  unfold State.withBridge
  rfl

/-! ### Entries -/

theorem entry_putEntry (b : Bridge) (k j : Key) (x : Option Entry) :
    (b.putEntry k x).entry j = if j = k then x else b.entry j := by
  by_cases h : j = k
  · subst h
    simp [Bridge.entry, Bridge.putEntry]
  · have : (keyIdx k).val ≠ (keyIdx j).val := fun hv => h (keyIdx_injective (Fin.ext hv)).symm
    simp [Bridge.entry, Bridge.putEntry, h, this]

@[simp] theorem entry_putEntry_self (b : Bridge) (k : Key) (x : Option Entry) : (b.putEntry k x).entry k = x := by
  simp [entry_putEntry]

theorem entry_putEntry_ne (b : Bridge) {k j : Key} (x : Option Entry) (h : j ≠ k) :
    (b.putEntry k x).entry j = b.entry j := by
  simp [entry_putEntry, h]

@[simp] theorem putEntry_clock (b : Bridge) (k x) : (b.putEntry k x).clock = b.clock := rfl
@[simp] theorem putEntry_link (b : Bridge) (k x) : (b.putEntry k x).link = b.link := rfl
@[simp] theorem putEntry_thru (b : Bridge) (k x) : (b.putEntry k x).thru = b.thru := rfl
@[simp] theorem putEntry_router (b : Bridge) (k x) : (b.putEntry k x).router = b.router := rfl
@[simp] theorem putEntry_nextSeq (b : Bridge) (k x) : (b.putEntry k x).table.nextSeq = b.table.nextSeq := rfl
@[simp] theorem putEntry_pool (b : Bridge) (k x) : (b.putEntry k x).pool = b.pool := rfl
@[simp] theorem putEntry_buf (b : Bridge) (k x i) : (b.putEntry k x).buf i = b.buf i := rfl
@[simp] theorem putEntry_arb (b : Bridge) (k x) : (b.putEntry k x).arb = b.arb := rfl
@[simp] theorem putEntry_dm (b : Bridge) (k x) : (b.putEntry k x).dm = b.dm := rfl
@[simp] theorem putEntry_cart (b : Bridge) (k x) : (b.putEntry k x).cart = b.cart := rfl
@[simp] theorem putEntry_mgmt (b : Bridge) (k x) : (b.putEntry k x).mgmt = b.mgmt := rfl

/-! ### Buffers -/

theorem buf_putBuf (b : Bridge) (i j : BufIdx) (x : Buffer) :
    (b.putBuf i x).buf j = if j = i then x else b.buf j := by
  by_cases h : j = i
  · subst h
    simp [Bridge.buf, Bridge.putBuf]
  · have : i.val ≠ j.val := fun hv => h (Fin.ext hv).symm
    simp [Bridge.buf, Bridge.putBuf, h, this]

@[simp] theorem buf_putBuf_self (b : Bridge) (i : BufIdx) (x : Buffer) : (b.putBuf i x).buf i = x := by
  simp [buf_putBuf]

theorem buf_putBuf_ne (b : Bridge) {i j : BufIdx} (x : Buffer) (h : j ≠ i) : (b.putBuf i x).buf j = b.buf j := by
  simp [buf_putBuf, h]

@[simp] theorem putBuf_clock (b : Bridge) (i x) : (b.putBuf i x).clock = b.clock := rfl
@[simp] theorem putBuf_link (b : Bridge) (i x) : (b.putBuf i x).link = b.link := rfl
@[simp] theorem putBuf_thru (b : Bridge) (i x) : (b.putBuf i x).thru = b.thru := rfl
@[simp] theorem putBuf_router (b : Bridge) (i x) : (b.putBuf i x).router = b.router := rfl
@[simp] theorem putBuf_table (b : Bridge) (i x) : (b.putBuf i x).table = b.table := rfl
@[simp] theorem putBuf_entry (b : Bridge) (i x k) : (b.putBuf i x).entry k = b.entry k := rfl
@[simp] theorem putBuf_resQueue (b : Bridge) (i x) : (b.putBuf i x).pool.resQueue = b.pool.resQueue := rfl
@[simp] theorem putBuf_evict (b : Bridge) (i x) : (b.putBuf i x).pool.evict = b.pool.evict := rfl
@[simp] theorem putBuf_pressure (b : Bridge) (i x) : (b.putBuf i x).pool.pressure = b.pool.pressure := rfl
@[simp] theorem putBuf_testDue (b : Bridge) (i x) : (b.putBuf i x).pool.testDue = b.pool.testDue := rfl
@[simp] theorem putBuf_arb (b : Bridge) (i x) : (b.putBuf i x).arb = b.arb := rfl
@[simp] theorem putBuf_dm (b : Bridge) (i x) : (b.putBuf i x).dm = b.dm := rfl
@[simp] theorem putBuf_cart (b : Bridge) (i x) : (b.putBuf i x).cart = b.cart := rfl
@[simp] theorem putBuf_mgmt (b : Bridge) (i x) : (b.putBuf i x).mgmt = b.mgmt := rfl

/-! ### Stamps -/

@[simp] theorem takeStamp_clock (b : Bridge) : (takeStamp b).clock = b.clock := rfl
@[simp] theorem takeStamp_link (b : Bridge) : (takeStamp b).link = b.link := rfl
@[simp] theorem takeStamp_thru (b : Bridge) : (takeStamp b).thru = b.thru := rfl
@[simp] theorem takeStamp_router (b : Bridge) : (takeStamp b).router = b.router := rfl
@[simp] theorem takeStamp_table (b : Bridge) : (takeStamp b).table = b.table := rfl
@[simp] theorem takeStamp_entry (b : Bridge) (k) : (takeStamp b).entry k = b.entry k := rfl
@[simp] theorem takeStamp_pool (b : Bridge) : (takeStamp b).pool = b.pool := rfl
@[simp] theorem takeStamp_buf (b : Bridge) (i) : (takeStamp b).buf i = b.buf i := rfl
@[simp] theorem takeStamp_dm (b : Bridge) : (takeStamp b).dm = b.dm := rfl
@[simp] theorem takeStamp_mgmt (b : Bridge) : (takeStamp b).mgmt = b.mgmt := rfl
@[simp] theorem takeStamp_stamps (b : Bridge) : (takeStamp b).arb.stamps = b.arb.stamps + 1 := rfl

/-! ### The head and the map -/

@[simp] theorem askLife_order (b : Bridge) (o) : (askLife b o).arb.order = b.arb.order := rfl
@[simp] theorem askLife_life (b : Bridge) (o) : (askLife b o).arb.life = some o := rfl
@[simp] theorem askLife_lifeStamp (b : Bridge) (o) : (askLife b o).arb.lifeStamp = b.arb.stamps := rfl
@[simp] theorem askLife_pool (b : Bridge) (o) : (askLife b o).pool = b.pool := rfl
@[simp] theorem askLife_dm (b : Bridge) (o) : (askLife b o).dm = b.dm := rfl
@[simp] theorem dropLife_life (b : Bridge) : (dropLife b).arb.life = none := rfl
@[simp] theorem dropLife_pool (b : Bridge) : (dropLife b).pool = b.pool := rfl
@[simp] theorem dropLife_dm (b : Bridge) : (dropLife b).dm = b.dm := rfl
@[simp] theorem dropLife_cart (b : Bridge) : (dropLife b).cart = b.cart := rfl
@[simp] theorem putMap_map (b : Bridge) (m) : (putMap b m).dm.map = some m := rfl
@[simp] theorem putMap_staging (b : Bridge) (m) : (putMap b m).dm.staging = b.dm.staging := rfl
@[simp] theorem putMap_cart (b : Bridge) (m) : (putMap b m).cart = b.cart := rfl
@[simp] theorem putMap_pool (b : Bridge) (m) : (putMap b m).pool = b.pool := rfl
@[simp] theorem stageRead_map (b : Bridge) (l) : (stageRead b l).dm.map = b.dm.map := rfl
@[simp] theorem stageRead_cart (b : Bridge) (l) : (stageRead b l).cart = b.cart := rfl
@[simp] theorem stageRead_pool (b : Bridge) (l) : (stageRead b l).pool = b.pool := rfl
@[simp] theorem stageRead_arb (b : Bridge) (l) : (stageRead b l).arb = b.arb := rfl
@[simp] theorem notePressure_pressure (b : Bridge) : (notePressure b).pool.pressure = pressureNow b := rfl
@[simp] theorem notePressure_buf (b : Bridge) (i) : (notePressure b).buf i = b.buf i := rfl
@[simp] theorem notePressure_entry (b : Bridge) (k) : (notePressure b).entry k = b.entry k := rfl
@[simp] theorem notePressure_cart (b : Bridge) : (notePressure b).cart = b.cart := rfl

/-! ### Folds -/

/-- A relation that holds of one operation holds of its fold over a list. -/
theorem foldl_rel {α : Type} {R : Bridge → Bridge → Prop} (refl : ∀ b, R b b)
    (trans : ∀ {a b c}, R a b → R b c → R a c) {f : Bridge → α → Bridge} (h : ∀ b x, R b (f b x)) :
    ∀ (l : List α) (b : Bridge), R b (l.foldl f b)
  | [], b => refl b
  | x :: l, b => trans (h b x) (foldl_rel refl trans h l (f b x))

/-- An operation that leaves the bridge as it is for every element leaves it so over a list. -/
theorem foldl_id {α : Type} {f : Bridge → α → Bridge} {b : Bridge} :
    ∀ (l : List α), (∀ x ∈ l, f b x = b) → l.foldl f b = b
  | [], _ => rfl
  | x :: l, h => by
    rw [List.foldl_cons, h x List.mem_cons_self]
    exact foldl_id l (fun y hy => h y (List.mem_cons_of_mem _ hy))

/-! ### Transmissions -/

@[simp] theorem outFrames_pumpUp (b : Bridge) : outFrames (pumpUp b) = outFrames b := by
  unfold pumpUp
  split
  · rename_i h1 h2
    split <;> simp [outFrames, h1, h2]
  · rfl

@[simp] theorem outFrames_pumpDown (b : Bridge) : outFrames (pumpDown b) = outFrames b := by
  unfold pumpDown
  split
  · split <;> rfl
  · rfl

@[simp] theorem outFrames_pump (b : Bridge) : outFrames (pump b) = outFrames b := by
  simp [pump]

end Sys2Proof.Machine
end

