-- ==== Sys2Proof/Laws/Moves.lean ====
section
/-! SUPPORT. What an operation of the pool, the flush jobs and the map can do, said once as a relation `Moves`, and the
lemma of each operation of Ops.lean and Pool.lean. -/

namespace Sys2Proof.Machine

/-- The bridge with every part that an operation of the pool, the flush jobs or the map may change set to one value. -/
def Bridge.fixed (b : Bridge) : Bridge :=
  { b with
    link := { b.link with queue := [] }
    thru := { b.thru with fifo := [] }
    table := { b.table with entries := Vector.replicate 64 none }
    pool := Bridge.powerOn.pool
    arb := { b.arb with stamps := 0 }
    dm := { map := none, staging := unusedStaging }
    cart := { b.cart with writeState := none, soft := 0, hard := 0, remaps := 0, relocations := 0, deferred := 0,
                          spinTimer := none }
    mgmt := { b.mgmt with exceptions := [], overflow := 0, attnPending := 0 } }

/-- The spin-down timer runs on with its start where no pending stamp was taken, and is stopped where one was (R102, R146). -/
def Timed (b t : Bridge) : Prop :=
  (t.arb.stamps = b.arb.stamps ∧ t.cart.spinTimer = b.cart.spinTimer)
  ∨ (b.arb.stamps < t.arb.stamps ∧ t.cart.spinTimer = none)

theorem Timed.refl (b : Bridge) : Timed b b := .inl ⟨rfl, rfl⟩

theorem Timed.trans {a b c : Bridge} (h : Timed a b) (h' : Timed b c) : Timed a c := by
  rcases h with ⟨e, f⟩ | ⟨e, f⟩ <;> rcases h' with ⟨e', f'⟩ | ⟨e', f'⟩
  · exact .inl ⟨e'.trans e, f'.trans f⟩
  · exact .inr ⟨e ▸ e', f'⟩
  · exact .inr ⟨e' ▸ e, f'.trans f⟩
  · exact .inr ⟨Nat.lt_trans e e', f'⟩

theorem Timed.le {b t : Bridge} (h : Timed b t) : b.arb.stamps ≤ t.arb.stamps := by
  rcases h with ⟨e, -⟩ | ⟨e, -⟩
  · exact e.ge
  · exact e.le

/-- What an operation of the pool, the flush jobs or the map can do. -/
structure Moves (b t : Bridge) : Prop where
  fixed      : t.fixed = b.fixed
  requests   : RequestsKept b t
  replies    : ∀ f ∈ b.link.queue, f.isTagInUse = false → f ∈ t.link.queue
  exceptions : ∃ l, t.mgmt.exceptions = b.mgmt.exceptions ++ l
  mapHeld    : t.dm.map.isSome = b.dm.map.isSome
  counts     : CountsOk b → CountsOk t
  mapOk      : MapOk b → MapOk t
  stranded   : StrandedOk b → StrandedOk t
  timer      : Timed b t

/-! ### Requests -/

theorem SameRequest.refl (e : Entry) : SameRequest e e := ⟨rfl, .inl rfl⟩

theorem SameRequest.trans {e e' e'' : Entry} (h : SameRequest e e') (h' : SameRequest e' e'') : SameRequest e e'' := by
  obtain ⟨h1, h2⟩ := h
  obtain ⟨h1', h2'⟩ := h'
  refine ⟨by rw [h1', h1], ?_⟩
  rcases h2' with e1 | e1 | ⟨e1, e2⟩
  · rw [e1]; exact h2
  · exact .inr (.inl e1)
  · rcases h2 with e3 | e3 | ⟨-, e3⟩
    · exact .inr (.inr ⟨e3 ▸ e1, e2⟩)
    · rw [e3] at e1; cases e1
    · rw [e3] at e1; cases e1

theorem RequestsKept.refl (b : Bridge) : RequestsKept b b :=
  ⟨fun _ h => h, fun _ e h => ⟨e, h, .refl e, fun _ => rfl⟩⟩

theorem RequestsKept.of_table {b t : Bridge} (h : t.table = b.table) : RequestsKept b t := by
  have he : ∀ k, t.entry k = b.entry k := fun k => by simp [Bridge.entry, h]
  exact ⟨fun k hk => (he k).trans hk, fun k e hk => ⟨e, (he k).trans hk, .refl e, fun _ => rfl⟩⟩

theorem RequestsKept.trans {a b c : Bridge} (h : RequestsKept a b) (h' : RequestsKept b c) : RequestsKept a c := by
  refine ⟨fun k hk => h'.1 k (h.1 k hk), fun k e hk => ?_⟩
  obtain ⟨e1, h1, s1, i1⟩ := h.2 k e hk
  obtain ⟨e2, h2, s2, i2⟩ := h'.2 k e1 h1
  refine ⟨e2, h2, s1.trans s2, fun hi => ?_⟩
  have := i1 hi
  subst this
  exact i2 hi

/-- A change of an active entry keeps the requests. -/
theorem RequestsKept.putEntry {b : Bridge} {k : Key} {e e' : Entry} (hk : b.entry k = some e) (act : isActive e = true)
    (same : SameRequest e e') : RequestsKept b (b.putEntry k (some e')) := by
  refine ⟨fun j hj => ?_, fun j e1 hj => ?_⟩
  · by_cases h : j = k
    · subst h; rw [hk] at hj; cases hj
    · rw [entry_putEntry_ne b _ h]; exact hj
  · by_cases h : j = k
    · subst h
      rw [hk] at hj
      cases hj
      exact ⟨e', entry_putEntry_self .., same, fun hn => by rw [act] at hn; cases hn⟩
    · exact ⟨e1, by rw [entry_putEntry_ne b _ h]; exact hj, .refl e1, fun _ => rfl⟩

/-! ### The relation -/

theorem Moves.refl (b : Bridge) : Moves b b :=
  ⟨rfl, .refl b, fun _ h _ => h, ⟨[], by simp⟩, rfl, id, id, id, .refl b⟩

theorem Moves.trans {a b c : Bridge} (h : Moves a b) (h' : Moves b c) : Moves a c := by
  refine ⟨h'.fixed.trans h.fixed, h.requests.trans h'.requests, fun f hf ht => h'.replies f (h.replies f hf ht) ht, ?_,
    h'.mapHeld.trans h.mapHeld, h'.counts ∘ h.counts, h'.mapOk ∘ h.mapOk, h'.stranded ∘ h.stranded,
    h.timer.trans h'.timer⟩
  obtain ⟨l, hl⟩ := h.exceptions
  obtain ⟨l', hl'⟩ := h'.exceptions
  exact ⟨l ++ l', by rw [hl', hl, List.append_assoc]⟩

theorem Moves.foldl {α : Type} {f : Bridge → α → Bridge} (h : ∀ b x, Moves b (f b x)) (l : List α) (b : Bridge) :
    Moves b (l.foldl f b) := foldl_rel .refl .trans h l b

theorem Moves.forKeys {f : Bridge → Key → Bridge} (h : ∀ b k, Moves b (f b k)) (b : Bridge) : Moves b (b.forKeys f) :=
  .foldl h allKeys b

theorem Moves.forBufs {f : Bridge → BufIdx → Bridge} (h : ∀ b i, Moves b (f b i)) (b : Bridge) :
    Moves b (b.forBufs f) := .foldl h allBufs b

/-- The number of STRANDED buffers does not grow when no buffer becomes STRANDED. -/
theorem strandedCount_mono {b t : Bridge}
    (h : ∀ i, (t.buf i).state = .stranded → (b.buf i).state = .stranded) : strandedCount t ≤ strandedCount b := by
  unfold strandedCount
  refine (List.monotone_filter_right _ (fun i hi => ?_)).length_le
  simp only [beq_iff_eq] at hi ⊢
  exact h i hi

theorem fixed_cartState {b t : Bridge} (h : t.fixed = b.fixed) : t.cart.state = b.cart.state := by
  have h' : t.fixed.cart.state = b.fixed.cart.state := by rw [h]
  exact h'

theorem fixed_mountStep {b t : Bridge} (h : t.fixed = b.fixed) : t.cart.mountStep = b.cart.mountStep := by
  have h' : t.fixed.cart.mountStep = b.fixed.cart.mountStep := by rw [h]
  exact h'

/-- An operation that changes only the buffers, their queues and the stamps, and strands no buffer. -/
theorem Moves.of_parts {b t : Bridge} (fixed : t.fixed = b.fixed) (table : t.table = b.table) (link : t.link = b.link)
    (mgmt : t.mgmt = b.mgmt) (dm : t.dm = b.dm) (thru : t.thru.stray = b.thru.stray)
    (arb : t.arb.streak = b.arb.streak ∧ t.arb.timeouts = b.arb.timeouts)
    (cart : t.cart.layout = b.cart.layout ∧ t.cart.soft = b.cart.soft ∧ t.cart.hard = b.cart.hard
      ∧ t.cart.remaps = b.cart.remaps ∧ t.cart.relocations = b.cart.relocations ∧ t.cart.deferred = b.cart.deferred)
    (stranded : ∀ i, (t.buf i).state = .stranded → (b.buf i).state = .stranded)
    (timer : Timed b t := by exact .inl ⟨rfl, rfl⟩) : Moves b t := by
  obtain ⟨c1, c2, c3, c4, c5, c6⟩ := cart
  refine ⟨fixed, .of_table table, fun f hf _ => link ▸ hf, ⟨[], by rw [mgmt, List.append_nil]⟩, by rw [dm], ?_, ?_,
    fun h => Nat.le_trans (strandedCount_mono stranded) h, timer⟩
  · unfold CountsOk
    rw [link, mgmt, thru, arb.1, arb.2, c2, c3, c4, c5, c6]
    exact id
  · unfold MapOk
    rw [dm, c1, fixed_cartState fixed, fixed_mountStep fixed]
    exact id

/-! ### Primitive updates -/

/-- A buffer record is put that is STRANDED only where it was. -/
theorem putBuf_moves (b : Bridge) (i : BufIdx) (x : Buffer) (h : x.state = .stranded → (b.buf i).state = .stranded) :
    Moves b (b.putBuf i x) := by
  refine .of_parts rfl rfl rfl rfl rfl rfl ⟨rfl, rfl⟩ ⟨rfl, rfl, rfl, rfl, rfl, rfl⟩ fun j hj => ?_
  rw [buf_putBuf] at hj
  split at hj
  · rename_i hji; subst hji; exact h hj
  · exact hj

/-- The queues of the pool and its pressure change. -/
theorem pool_moves (b : Bridge) (p : Pool) (h : p.buffers = b.pool.buffers) : Moves b { b with pool := p } := by
  refine .of_parts rfl rfl rfl rfl rfl rfl ⟨rfl, rfl⟩ ⟨rfl, rfl, rfl, rfl, rfl, rfl⟩ fun j hj => ?_
  simpa [Bridge.buf, h] using hj

theorem takeStamp_moves (b : Bridge) : Moves b (takeStamp b) :=
  .of_parts rfl rfl rfl rfl rfl rfl ⟨rfl, rfl⟩ ⟨rfl, rfl, rfl, rfl, rfl, rfl⟩ (fun _ h => h)
    (.inr ⟨Nat.lt_succ_self _, rfl⟩)

/-- A change of an active entry. -/
theorem putEntry_moves {b : Bridge} {k : Key} {e e' : Entry} (hk : b.entry k = some e) (act : isActive e = true)
    (same : SameRequest e e') : Moves b (b.putEntry k (some e')) :=
  ⟨rfl, .putEntry hk act same, fun _ h _ => h, ⟨[], by simp⟩, rfl, id, id, id, .inl ⟨rfl, rfl⟩⟩

theorem attnTest_moves (b : Bridge) : Moves b (attnTest b) := by
  unfold attnTest
  split
  · exact .refl b
  · split
    · exact ⟨rfl, .of_table rfl, fun f h _ => List.mem_append_left _ h, ⟨[], by simp⟩, rfl, id, id, id, .inl ⟨rfl, rfl⟩⟩
    · exact .refl b

theorem raiseEvent_moves (b : Bridge) (ev : AttnEvent) : Moves b (raiseEvent b ev) := by
  unfold raiseEvent
  split
  · refine Moves.trans ?_ (attnTest_moves _)
    exact ⟨rfl, .of_table rfl, fun f h _ => h, ⟨[], by simp⟩, rfl, id, id, id, .inl ⟨rfl, rfl⟩⟩
  · exact .refl b

theorem record_moves (b : Bridge) (r : ExceptionRecord) : Moves b (record b r) := by
  unfold record
  split
  · rename_i hlen
    refine Moves.trans ?_ (raiseEvent_moves _ _)
    refine ⟨rfl, .of_table rfl, fun f h _ => h, ⟨[r], rfl⟩, rfl, ?_, id, id, .inl ⟨rfl, rfl⟩⟩
    rintro ⟨h1, h2, h3, h4, h5, h6, h7, h8, h9, h10, h11, h12, h13⟩
    refine ⟨h1, h2, h3, h4, h5, h6, h7, h8, h9, h10, ?_, h12, h13⟩
    simpa using hlen
  · refine ⟨rfl, .of_table rfl, fun f h _ => h, ⟨[], by simp⟩, rfl, ?_, id, id, .inl ⟨rfl, rfl⟩⟩
    rintro ⟨h1, h2, h3, h4, h5, h6, h7, h8, h9, h10, h11, h12, h13⟩
    exact ⟨h1, h2, h3, h4, h5, h6, h7, h8, h9, Nat.min_le_right _ _, h11, h12, h13⟩

/-! ### Buffers (Ops.lean) -/

theorem joinEvict_moves (b : Bridge) (i : BufIdx) : Moves b (joinEvict b i) := by
  unfold joinEvict
  split
  · exact pool_moves b _ rfl
  · exact .refl b

theorem leaveEvict_moves (b : Bridge) (i : BufIdx) : Moves b (leaveEvict b i) := pool_moves b _ rfl

theorem testLater_moves (b : Bridge) (i : BufIdx) : Moves b (testLater b i) := pool_moves b _ rfl

theorem unlink_moves (i : BufIdx) (b : Bridge) (j : BufIdx) : Moves b (unlink i b j) := by
  unfold unlink
  split
  · exact putBuf_moves b j _ id
  · exact .refl b

theorem freeBuf_moves (b : Bridge) (i : BufIdx) : Moves b (freeBuf b i) :=
  ((Moves.forBufs (unlink_moves i) b).trans (putBuf_moves _ i _ fun h => by cases h)).trans (leaveEvict_moves _ i)

theorem withdrawLoad_moves (b : Bridge) (i : BufIdx) : Moves b (withdrawLoad b i) := by
  unfold withdrawLoad
  dsimp only
  split
  · split
    · exact freeBuf_moves b i
    · exact (putBuf_moves b i _ fun h => by cases h).trans (testLater_moves _ i)
  · exact putBuf_moves b i _ id

theorem withdrawUnneeded_moves (b : Bridge) (i : BufIdx) : Moves b (withdrawUnneeded b i) := by
  unfold withdrawUnneeded
  split
  · exact .refl b
  · split
    · exact withdrawLoad_moves b i
    · exact .refl b

theorem sweepLoads_moves (b : Bridge) : Moves b (sweepLoads b) := .forBufs withdrawUnneeded_moves b

theorem dropReaderAt_moves (k : Key) (b : Bridge) (i : BufIdx) : Moves b (dropReaderAt k b i) := by
  unfold dropReaderAt
  split
  · exact .refl b
  · exact putBuf_moves b i _ id

theorem dropReader_moves (b : Bridge) (k : Key) : Moves b (dropReader b k) :=
  (Moves.forBufs (dropReaderAt_moves k) b).trans (sweepLoads_moves _)

/-! ### Answers (Ops.lean) -/

theorem mem_queueReply {q : List OutFrame} {k : Key} {f g : OutFrame} (h : f ∈ q) (ht : f.isTagInUse = false) :
    f ∈ queueReply q k g := by
  unfold queueReply
  split
  · refine List.mem_map.2 ⟨f, h, ?_⟩
    have : isTagInUseFor k f = false := by cases f <;> simp_all [isTagInUseFor, OutFrame.isTagInUse]
    simp [this]
  · exact List.mem_append_left _ h

theorem self_mem_queueReply (q : List OutFrame) (k : Key) (g : OutFrame) : g ∈ queueReply q k g := by
  unfold queueReply
  split
  · rename_i h
    obtain ⟨f, hf, hk⟩ := List.any_eq_true.1 h
    exact List.mem_map.2 ⟨f, hf, by simp [hk]⟩
  · exact List.mem_append_right _ (by simp)

theorem Entry.close_same (e : Entry) (st : Status) (done : Nat) : SameRequest e (e.close st done) := ⟨rfl, .inr (.inl rfl)⟩

/-- An answer to an active entry. -/
theorem answerFrame_moves {b : Bridge} {k : Key} (f : OutFrame) (st : Status) (done : Nat)
    (act : ∀ e, b.entry k = some e → e.state ≠ .answered → isActive e = true) : Moves b (answerFrame b k f st done) := by
  unfold answerFrame
  split
  · exact .refl b
  · rename_i e he
    split
    · exact .refl b
    · rename_i hs
      dsimp only
      have h1 := putEntry_moves he (act e he hs) (e.close_same st done)
      have h2 : Moves (b.putEntry k (some (e.close st done)))
          { b.putEntry k (some (e.close st done)) with
            link := { b.link with queue := queueReply b.link.queue k f }
            thru := { b.thru with fifo := b.thru.fifo.filter (fun g => g.seq != e.seq) }
            pool := { b.pool with resQueue := b.pool.resQueue.filter (· != k) } } :=
        ⟨rfl, .of_table rfl, fun g hg ht => mem_queueReply hg ht, ⟨[], by simp⟩, rfl, id, id, id, .inl ⟨rfl, rfl⟩⟩
      have h3 := Moves.foldl joinEvict_moves e.pinned { b.putEntry k (some (e.close st done)) with
            link := { b.link with queue := queueReply b.link.queue k f }
            thru := { b.thru with fifo := b.thru.fifo.filter (fun g => g.seq != e.seq) }
            pool := { b.pool with resQueue := b.pool.resQueue.filter (· != k) } }
      split
      · exact ((h1.trans h2).trans h3).trans (dropReader_moves _ k)
      · exact (h1.trans h2).trans h3

theorem answer_moves {b : Bridge} {k : Key} (st : Status) (done : Nat) (p : Payload)
    (act : ∀ e, b.entry k = some e → e.state ≠ .answered → isActive e = true) : Moves b (answer b k st done p) := by
  unfold answer
  split
  · exact .refl b
  · exact answerFrame_moves _ _ _ act

theorem answerStatus_moves {b : Bridge} {k : Key} (st : Status)
    (act : ∀ e, b.entry k = some e → e.state ≠ .answered → isActive e = true) : Moves b (answerStatus b k st) :=
  answer_moves _ _ _ act

/-- Answers to every active entry of some kind. -/
theorem answerAll_moves (b : Bridge) (p : Entry → Bool) (st : Status) (hp : ∀ e, p e = true → isActive e = true) :
    Moves b (answerAll b p st) := by
  refine .forKeys (fun b k => ?_) b
  split
  · rename_i h
    refine answerStatus_moves st fun e he _ => hp e ?_
    simpa [he] using h
  · exact .refl b

/-! ### READs (Pool.lean) -/

theorem answerMediaError_moves {b : Bridge} {k : Key}
    (act : ∀ e, b.entry k = some e → e.state ≠ .answered → isActive e = true) : Moves b (answerMediaError b k) := by
  unfold answerMediaError
  split
  · exact .refl b
  · exact answer_moves _ _ _ act

theorem isActive_of_fetching {e : Entry} (h : e.state = .fetching) : isActive e = true := by simp [isActive, h]

theorem testRead_moves (b : Bridge) (k : Key) : Moves b (testRead b k) := by
  unfold testRead
  split
  · exact .refl b
  · rename_i e he
    split
    · rename_i hs
      have act : ∀ e', b.entry k = some e' → e'.state ≠ .answered → isActive e' = true := fun e' h' _ => by
        rw [he] at h'; cases h'; exact isActive_of_fetching hs
      dsimp only
      split
      · exact answerMediaError_moves act
      · split
        · exact answer_moves _ _ _ act
        · exact .refl b
    · exact .refl b

theorem testReads_moves (b : Bridge) : Moves b (testReads b) := .forKeys testRead_moves b

theorem failReaders_moves (b : Bridge) (i : BufIdx) : Moves b (failReaders b i) := by
  refine .forKeys (fun b k => ?_) b
  split
  · rename_i h
    refine answerMediaError_moves fun e he _ => ?_
    rw [he] at h
    simp only [Option.any_some, Bool.and_eq_true, beq_iff_eq] at h
    exact isActive_of_fetching h.1
  · exact .refl b

/-! ### Buffers taken, loads and grants (Pool.lean) -/

theorem takeBuffer_moves {b t : Bridge} {lsns : List Nat} {i : BufIdx} (h : takeBuffer b lsns = some (t, i)) :
    Moves b t := by
  unfold takeBuffer at h
  split at h
  · cases h; exact .refl b
  · split at h
    · simp only [Option.some.injEq, Prod.mk.injEq] at h
      obtain ⟨rfl, rfl⟩ := h
      exact freeBuf_moves b _
    · cases h

theorem addReader_moves (b : Bridge) (i : BufIdx) (k : Key) : Moves b (addReader b i k) := by
  unfold addReader
  split
  · exact putBuf_moves b i _ (by simp)
  · exact .trans (putBuf_moves b i _ (by simp)) (takeStamp_moves _)

theorem addFillNeed_moves (b : Bridge) (i : BufIdx) : Moves b (addFillNeed b i) := by
  unfold addFillNeed
  split
  · exact putBuf_moves b i _ (by simp)
  · exact .trans (putBuf_moves b i _ (by simp)) (takeStamp_moves _)

theorem insertReservation_moves (b : Bridge) (k : Key) : Moves b (insertReservation b k) := pool_moves b _ rfl

theorem leaveQueue_moves (b : Bridge) (k : Key) : Moves b (leaveQueue b k) := pool_moves b _ rfl

theorem grantExisting_moves (b : Bridge) (lsn : Nat) : Moves b (grantExisting b lsn) := by
  unfold grantExisting
  split
  · exact leaveEvict_moves b _
  · exact .refl b

theorem grantNew_moves (lsns : List Nat) (b : Bridge) (lsn : Nat) : Moves b (grantNew lsns b lsn) := by
  unfold grantNew
  split
  · exact .refl b
  · split
    · exact .refl b
    · rename_i h
      exact (takeBuffer_moves h).trans (putBuf_moves _ _ _ fun h => by cases h)

theorem grantLoad_moves (k : Key) (e : Entry) (b : Bridge) (lsn : Nat) : Moves b (grantLoad k e b lsn) := by
  unfold grantLoad
  split
  · exact .refl b
  · split
    · exact addReader_moves b _ k
    · exact .refl b

theorem unlink_table (i : BufIdx) (b : Bridge) (j : BufIdx) : (unlink i b j).table = b.table := by
  unfold unlink; split <;> simp

theorem foldl_table {α : Type} {f : Bridge → α → Bridge} (h : ∀ b x, (f b x).table = b.table) (l : List α)
    (b : Bridge) : (l.foldl f b).table = b.table :=
  foldl_rel (R := fun b t => t.table = b.table) (fun _ => rfl) (fun h h' => h'.trans h) h l b

theorem freeBuf_table (b : Bridge) (i : BufIdx) : (freeBuf b i).table = b.table := by
  unfold freeBuf leaveEvict
  simp only [putBuf_table]
  exact foldl_table (unlink_table i) allBufs b

theorem takeBuffer_table {b t : Bridge} {lsns : List Nat} {i : BufIdx} (h : takeBuffer b lsns = some (t, i)) :
    t.table = b.table := by
  unfold takeBuffer at h
  split at h
  · cases h; rfl
  · split at h
    · simp only [Option.some.injEq, Prod.mk.injEq] at h
      obtain ⟨rfl, rfl⟩ := h
      exact freeBuf_table b _
    · cases h

theorem grantExisting_table (b : Bridge) (lsn : Nat) : (grantExisting b lsn).table = b.table := by
  unfold grantExisting leaveEvict; split <;> simp

theorem grantNew_table (lsns : List Nat) (b : Bridge) (lsn : Nat) : (grantNew lsns b lsn).table = b.table := by
  unfold grantNew
  split
  · rfl
  · split
    · rfl
    · rename_i h; exact (putBuf_table ..).trans (takeBuffer_table h)

theorem addReader_table (b : Bridge) (i : BufIdx) (k : Key) : (addReader b i k).table = b.table := by
  unfold addReader; split <;> simp

theorem grantLoad_table (k : Key) (e : Entry) (b : Bridge) (lsn : Nat) : (grantLoad k e b lsn).table = b.table := by
  unfold grantLoad
  split
  · rfl
  · split
    · exact addReader_table b _ k
    · rfl

theorem entry_of_table {b t : Bridge} (h : t.table = b.table) (k : Key) : t.entry k = b.entry k := by
  simp [Bridge.entry, h]

theorem grant_moves (b : Bridge) (k : Key) : Moves b (grant b k) := by
  unfold grant
  split
  · exact leaveQueue_moves b k
  · rename_i e he
    split
    · rename_i hs
      dsimp only
      have ht : ((e.sectors.foldl (grantLoad k e) (e.sectors.foldl (grantNew e.sectors)
          (e.sectors.foldl grantExisting b)))).entry k = some e := by
        rw [entry_of_table (foldl_table (grantLoad_table k e) _ _), entry_of_table (foldl_table (grantNew_table _) _ _),
          entry_of_table (foldl_table grantExisting_table _ _), he]
      exact (((Moves.foldl grantExisting_moves e.sectors b).trans
        (Moves.foldl (grantNew_moves e.sectors) e.sectors _)).trans
        (Moves.foldl (grantLoad_moves k e) e.sectors _)).trans
        (((putEntry_moves (e' := { e with state := .fetching, pins := _ }) ht (by simp [isActive, hs])
          ⟨rfl, .inr (.inr ⟨hs, rfl⟩)⟩).trans (leaveQueue_moves _ k)).trans (testRead_moves _ k))
    · exact leaveQueue_moves b k

/-! ### Merges (Pool.lean) -/

theorem takeForWrite_moves (lsns : List Nat) (b : Bridge) (lsn : Nat) : Moves b (takeForWrite lsns b lsn) := by
  unfold takeForWrite
  split
  · split
    · exact .refl b
    · rename_i h
      have h1 := takeBuffer_moves h
      split
      · exact h1.trans (putBuf_moves _ _ _ fun h => by cases h)
      · exact h1.trans (.trans (putBuf_moves _ _ _ (by simp)) (putBuf_moves _ _ _ (by simp)))
  · exact .refl b

theorem mergedBuffer_stranded (now : Clock) (cb lsn : Nat) (data : List Block) (q : QSet) (x : Buffer)
    (h : (mergedBuffer now cb lsn data q x).state = .stranded) : x.state = .stranded := by
  revert h
  unfold mergedBuffer
  cases hx : x.state <;> dsimp only
  all_goals first
    | (split <;> simp)
    | simp

theorem mergeSector_moves (cb n : Nat) (data : List Block) (b : Bridge) (lsn : Nat) :
    Moves b (mergeSector cb n data b lsn) := by
  unfold mergeSector
  split
  · exact .refl b
  · dsimp only
    have h1 := fun i => (putBuf_moves b i _ (mergedBuffer_stranded b.clock cb lsn data (neededQuarters cb n lsn) (b.buf i))).trans
      (leaveEvict_moves _ i)
    split
    · exact (h1 _).trans (testLater_moves _ _)
    · exact h1 _

theorem admitWrite_moves (b : Bridge) (cb n : Nat) (data : List Block) : Moves b (admitWrite b cb n data) :=
  (Moves.foldl (takeForWrite_moves _) _ b).trans (Moves.foldl (mergeSector_moves cb n data) _ _)

/-! ### Results of loads (Pool.lean) -/

theorem loadGood_moves (b : Bridge) (i : BufIdx) (q : Quad) (r : Bool) : Moves b (loadGood b i q r) := by
  unfold loadGood
  dsimp only
  split
  · refine .trans (.trans ?_ (testLater_moves _ i)) (testReads_moves _)
    exact putBuf_moves b i _ (by simp)
  · split
    · split
      · refine .trans (.trans ?_ (joinEvict_moves _ i)) (testReads_moves _)
        exact putBuf_moves b i _ (by simp)
      · refine .trans (.trans ?_ (testLater_moves _ i)) (testReads_moves _)
        exact putBuf_moves b i _ (by simp)
    · refine .trans ?_ (testReads_moves _)
      exact putBuf_moves b i _ (by simp)

theorem loadLost_moves (b : Bridge) (i : BufIdx) : Moves b (loadLost b i) := by
  unfold loadLost
  dsimp only
  split
  · refine .trans (.trans ?_ (failReaders_moves _ i)) (freeBuf_moves _ i)
    exact putBuf_moves b i _ (by simp)
  · refine .trans (.trans ?_ (record_moves _ _)) (testReads_moves _)
    split
    · refine .trans ?_ (testLater_moves _ i)
      exact putBuf_moves b i _ (by simp)
    · exact putBuf_moves b i _ (by simp)

end Sys2Proof.Machine
end

