-- ==== Sys2Proof/Laws/Answers.lean ====
section
/-! SUPPORT. What an answer can do to the bridge, whatever the state of the entry (Ops.lean): it changes the entry, the
outgoing queue, the forward FIFO and the pool, and nothing else. `Closes` says it once, and the lemmas of the loops that
answer several entries in ascending order of key say what becomes of each. -/

namespace Sys2Proof.Machine

/-! ### The pool alone -/

/-- The pool changes alone, and no buffer becomes STRANDED. -/
def PoolOnly (b t : Bridge) : Prop :=
  t = { b with pool := t.pool } ∧ ∀ i, (t.buf i).state = .stranded → (b.buf i).state = .stranded

theorem PoolOnly.refl (b : Bridge) : PoolOnly b b := ⟨rfl, fun _ h => h⟩

theorem PoolOnly.trans {a b c : Bridge} (h : PoolOnly a b) (h' : PoolOnly b c) : PoolOnly a c := by
  obtain ⟨e, s⟩ := h
  obtain ⟨e', s'⟩ := h'
  exact ⟨by rw [e', e], fun i hi => s i (s' i hi)⟩

theorem PoolOnly.forBufs {f : Bridge → BufIdx → Bridge} (h : ∀ b i, PoolOnly b (f b i)) (b : Bridge) :
    PoolOnly b (b.forBufs f) := foldl_rel .refl .trans h allBufs b

theorem putBuf_poolOnly (b : Bridge) (i : BufIdx) (x : Buffer) (h : x.state = .stranded → (b.buf i).state = .stranded) :
    PoolOnly b (b.putBuf i x) := by
  refine ⟨rfl, fun j hj => ?_⟩
  rw [buf_putBuf] at hj
  split at hj
  · rename_i hji; subst hji; exact h hj
  · exact hj

theorem joinEvict_poolOnly (b : Bridge) (i : BufIdx) : PoolOnly b (joinEvict b i) := by
  unfold joinEvict
  split
  · exact ⟨rfl, fun _ h => h⟩
  · exact .refl b

theorem unlink_poolOnly (i : BufIdx) (b : Bridge) (j : BufIdx) : PoolOnly b (unlink i b j) := by
  unfold unlink
  split
  · exact putBuf_poolOnly b j _ id
  · exact .refl b

theorem leaveEvict_poolOnly (b : Bridge) (i : BufIdx) : PoolOnly b (leaveEvict b i) := ⟨rfl, fun _ h => h⟩

theorem freeBuf_poolOnly (b : Bridge) (i : BufIdx) : PoolOnly b (freeBuf b i) :=
  ((PoolOnly.forBufs (unlink_poolOnly i) b).trans (putBuf_poolOnly _ i _ (by simp [Buffer.free]))).trans
    (leaveEvict_poolOnly _ i)

theorem withdrawLoad_poolOnly (b : Bridge) (i : BufIdx) : PoolOnly b (withdrawLoad b i) := by
  unfold withdrawLoad
  dsimp only
  split
  · split
    · exact freeBuf_poolOnly b i
    · exact (putBuf_poolOnly b i _ (by simp)).trans ⟨rfl, fun _ h => h⟩
  · exact putBuf_poolOnly b i _ id

theorem sweepLoads_poolOnly (b : Bridge) : PoolOnly b (sweepLoads b) := by
  refine .forBufs (fun b i => ?_) b
  unfold withdrawUnneeded
  split
  · exact .refl b
  · split
    · exact withdrawLoad_poolOnly b i
    · exact .refl b

theorem dropReader_poolOnly (b : Bridge) (k : Key) : PoolOnly b (dropReader b k) := by
  refine (PoolOnly.forBufs (fun b i => ?_) b).trans (sweepLoads_poolOnly _)
  unfold dropReaderAt
  split
  · exact .refl b
  · exact putBuf_poolOnly b i _ id

theorem foldl_joinEvict_poolOnly (l : List BufIdx) (b : Bridge) : PoolOnly b (l.foldl joinEvict b) :=
  foldl_rel .refl .trans joinEvict_poolOnly l b

theorem PoolOnly.entry {b t : Bridge} (h : PoolOnly b t) (k : Key) : t.entry k = b.entry k :=
  entry_of_table (by rw [h.1]) k

/-! ### What answers can do -/

/-- What answers can do: the entries, the outgoing queue, the forward FIFO and the pool change, no waiting reply is lost and
no buffer becomes STRANDED. -/
structure Closes (b t : Bridge) : Prop where
  rest     : t = { b with link := { b.link with queue := t.link.queue }, thru := { b.thru with fifo := t.thru.fifo },
                          table := { b.table with entries := t.table.entries }, pool := t.pool }
  replies  : ∀ f ∈ b.link.queue, f.isTagInUse = false → f ∈ t.link.queue
  frames   : ∀ f ∈ t.thru.fifo, f ∈ b.thru.fifo
  stranded : ∀ i, (t.buf i).state = .stranded → (b.buf i).state = .stranded

theorem Closes.refl (b : Bridge) : Closes b b := ⟨rfl, fun _ h _ => h, fun _ h => h, fun _ h => h⟩

theorem Closes.trans {a b c : Bridge} (h : Closes a b) (h' : Closes b c) : Closes a c :=
  ⟨by rw [h'.rest, h.rest], fun f hf ht => h'.replies f (h.replies f hf ht) ht, fun f hf => h.frames f (h'.frames f hf),
    fun i hi => h.stranded i (h'.stranded i hi)⟩

theorem Closes.foldl {α : Type} {f : Bridge → α → Bridge} (h : ∀ b x, Closes b (f b x)) (l : List α) (b : Bridge) :
    Closes b (l.foldl f b) := foldl_rel .refl .trans h l b

theorem PoolOnly.closes {b t : Bridge} (h : PoolOnly b t) : Closes b t :=
  ⟨by rw [h.1], fun f hf _ => by rw [h.1]; exact hf, fun f hf => by rw [h.1] at hf; exact hf, h.2⟩

theorem Closes.clock {b t : Bridge} (h : Closes b t) : t.clock = b.clock := by rw [h.rest]
theorem Closes.router {b t : Bridge} (h : Closes b t) : t.router = b.router := by rw [h.rest]
theorem Closes.arb {b t : Bridge} (h : Closes b t) : t.arb = b.arb := by rw [h.rest]
theorem Closes.dm {b t : Bridge} (h : Closes b t) : t.dm = b.dm := by rw [h.rest]
theorem Closes.cart {b t : Bridge} (h : Closes b t) : t.cart = b.cart := by rw [h.rest]
theorem Closes.mgmt {b t : Bridge} (h : Closes b t) : t.mgmt = b.mgmt := by rw [h.rest]
theorem Closes.link {b t : Bridge} (h : Closes b t) : t.link = { b.link with queue := t.link.queue } := by rw [h.rest]
theorem Closes.thru {b t : Bridge} (h : Closes b t) : t.thru = { b.thru with fifo := t.thru.fifo } := by rw [h.rest]
theorem Closes.nextSeq {b t : Bridge} (h : Closes b t) : t.table.nextSeq = b.table.nextSeq := by rw [h.rest]

theorem Closes.outFrames {b t : Bridge} (h : Closes b t) {f : OutFrame} (hf : f ∈ outFrames b)
    (ht : f.isTagInUse = false) : f ∈ Machine.outFrames t := by
  have hl := h.link
  unfold Machine.outFrames at hf ⊢
  rcases List.mem_append.1 hf with h1 | h1
  · exact List.mem_append_left _ (by rw [hl]; exact h1)
  · exact List.mem_append_right _ (h.replies f h1 ht)

theorem Closes.strandedCount {b t : Bridge} (h : Closes b t) : Machine.strandedCount t ≤ Machine.strandedCount b :=
  strandedCount_mono h.stranded

/-! ### One answer -/

/-- The bridge with the entry closed, its reply queued, its frame out of the forward FIFO and its key out of the reservation
queue. -/
def closedBase (b : Bridge) (k : Key) (e : Entry) (f : OutFrame) (st : Status) (done : Nat) : Bridge :=
  { b with
    link := { b.link with queue := queueReply b.link.queue k f }
    thru := { b.thru with fifo := b.thru.fifo.filter (fun g => g.seq != e.seq) }
    table := { b.table with entries := b.table.entries.set (keyIdx k) (some (e.close st done)) }
    pool := { b.pool with resQueue := b.pool.resQueue.filter (· != k) } }

/-- The pool after the entry's pins and loads are let go. -/
def letGo (b : Bridge) (k : Key) (e : Entry) : Bridge :=
  if e.state = .fetching then dropReader (e.pinned.foldl joinEvict b) k else e.pinned.foldl joinEvict b

theorem letGo_poolOnly (b : Bridge) (k : Key) (e : Entry) : PoolOnly b (letGo b k e) := by
  unfold letGo
  split
  · exact (foldl_joinEvict_poolOnly _ b).trans (dropReader_poolOnly _ k)
  · exact foldl_joinEvict_poolOnly _ b

theorem answerFrame_given {b : Bridge} {k : Key} {e : Entry} (f : OutFrame) (st : Status) (done : Nat)
    (he : b.entry k = some e) (hs : e.state ≠ .answered) :
    answerFrame b k f st done = letGo (closedBase b k e f st done) k e := by
  unfold answerFrame
  rw [he]
  dsimp only
  rw [if_neg hs]
  rfl

theorem answerFrame_not {b : Bridge} {k : Key} (f : OutFrame) (st : Status) (done : Nat)
    (h : ∀ e, b.entry k = some e → e.state = .answered) : answerFrame b k f st done = b := by
  unfold answerFrame
  split
  · rfl
  · rename_i e he
    rw [if_pos (h e he)]

theorem closedBase_closes (b : Bridge) (k : Key) (e : Entry) (f : OutFrame) (st : Status) (done : Nat) :
    Closes b (closedBase b k e f st done) :=
  ⟨rfl, fun _ hg ht => mem_queueReply hg ht, fun _ hg => (List.mem_filter.1 hg).1, fun _ h => h⟩

theorem closedBase_entry (b : Bridge) (k : Key) (e : Entry) (f : OutFrame) (st : Status) (done : Nat) (j : Key) :
    (closedBase b k e f st done).entry j = if j = k then some (e.close st done) else b.entry j :=
  entry_putEntry b k j (some (e.close st done))

theorem answerFrame_closes (b : Bridge) (k : Key) (f : OutFrame) (st : Status) (done : Nat) :
    Closes b (answerFrame b k f st done) := by
  by_cases h : ∀ e, b.entry k = some e → e.state = .answered
  · rw [answerFrame_not f st done h]; exact .refl b
  · push Not at h
    obtain ⟨e, he, hs⟩ := h
    rw [answerFrame_given f st done he hs]
    exact (closedBase_closes ..).trans (letGo_poolOnly ..).closes

/-- An answer closes its entry, unless it is ANSWERED already, and leaves every other entry as it is. -/
theorem answerFrame_entry (b : Bridge) (k : Key) (f : OutFrame) (st : Status) (done : Nat) (j : Key) :
    (answerFrame b k f st done).entry j
      = if j = k then (b.entry k).map (fun e => if e.state = .answered then e else e.close st done) else b.entry j := by
  by_cases h : ∀ e, b.entry k = some e → e.state = .answered
  · rw [answerFrame_not f st done h]
    by_cases hj : j = k
    · subst hj
      cases he : b.entry j with
      | none => simp
      | some e => simp [h e he]
    · rw [if_neg hj]
  · push Not at h
    obtain ⟨e, he, hs⟩ := h
    rw [answerFrame_given f st done he hs, (letGo_poolOnly ..).entry, closedBase_entry, he]
    simp [hs]

/-- An answer given puts its reply in the outgoing queue, and takes the frame of the entry from the forward FIFO. -/
theorem answerFrame_reply {b : Bridge} {k : Key} {e : Entry} (f : OutFrame) (st : Status) (done : Nat)
    (he : b.entry k = some e) (hs : e.state ≠ .answered) :
    f ∈ (answerFrame b k f st done).link.queue
      ∧ (answerFrame b k f st done).thru.fifo = b.thru.fifo.filter (fun g => g.seq != e.seq) := by
  rw [answerFrame_given f st done he hs, (letGo_poolOnly ..).1]
  exact ⟨self_mem_queueReply .., rfl⟩

theorem answer_entry (b : Bridge) (k : Key) (st : Status) (done : Nat) (p : Payload) (j : Key) :
    (answer b k st done p).entry j
      = if j = k then (b.entry k).map (fun e => if e.state = .answered then e else e.close st done) else b.entry j := by
  unfold answer
  cases he : b.entry k with
  | none => by_cases hj : j = k <;> simp [hj, he]
  | some e => simp only [answerFrame_entry, he]

theorem answer_closes (b : Bridge) (k : Key) (st : Status) (done : Nat) (p : Payload) : Closes b (answer b k st done p) := by
  unfold answer
  split
  · exact .refl b
  · exact answerFrame_closes ..

theorem answerStatus_closes (b : Bridge) (k : Key) (st : Status) : Closes b (answerStatus b k st) := answer_closes ..

/-- An answer that is given. -/
theorem answer_isAnswered {b : Bridge} {k : Key} {e : Entry} (st : Status) (done : Nat) (p : Payload)
    (he : b.entry k = some e) (hs : e.state ≠ .answered) : IsAnswered (answer b k st done p) k st done p := by
  refine ⟨e.close st done, by rw [answer_entry, if_pos rfl, he]; simp [hs], rfl, rfl, rfl, rfl, rfl, ?_⟩
  refine List.mem_append_right _ ?_
  unfold answer
  rw [he]
  exact (answerFrame_reply _ st done he hs).1

/-- An answer stays what it is while other entries are answered. -/
theorem IsAnswered.closes {b t : Bridge} {k : Key} {st : Status} {done : Nat} {p : Payload} (h : IsAnswered b k st done p)
    (c : Closes b t) (hk : t.entry k = b.entry k) : IsAnswered t k st done p := by
  obtain ⟨e, he, h1, h2, h3, h4, h5, h6⟩ := h
  exact ⟨e, hk.trans he, h1, h2, h3, h4, h5, c.outFrames h6 rfl⟩

/-! ### Answers in ascending order of key -/

theorem allKeys_nodup : allKeys.Nodup := by decide +kernel

/-- Each key is answered with its own status where its entry satisfies a test. -/
def answerEach (p : Key → Entry → Bool) (st : Key → Status) (b : Bridge) (k : Key) : Bridge :=
  if (b.entry k).any (p k) then answerStatus b k (st k) else b

theorem answerEach_closes (p : Key → Entry → Bool) (st : Key → Status) (b : Bridge) (k : Key) :
    Closes b (answerEach p st b k) := by
  unfold answerEach
  split
  · exact answerStatus_closes ..
  · exact .refl b

theorem answerEach_entry_ne (p : Key → Entry → Bool) (st : Key → Status) (b : Bridge) {k j : Key} (h : j ≠ k) :
    (answerEach p st b k).entry j = b.entry j := by
  unfold answerEach
  split
  · exact (answer_entry ..).trans (if_neg h)
  · rfl

theorem foldl_answerEach_entry_ne (p : Key → Entry → Bool) (st : Key → Status) {j : Key} :
    ∀ (l : List Key) (b : Bridge), j ∉ l → (l.foldl (answerEach p st) b).entry j = b.entry j
  | [], _, _ => rfl
  | k :: l, b, h => by
    rw [List.foldl_cons, foldl_answerEach_entry_ne p st l _ (fun hm => h (List.mem_cons_of_mem _ hm)),
      answerEach_entry_ne p st b (fun (e : j = k) => h (by rw [e]; exact List.mem_cons_self))]

theorem foldl_answerEach_closes (p : Key → Entry → Bool) (st : Key → Status) (l : List Key) (b : Bridge) :
    Closes b (l.foldl (answerEach p st) b) := .foldl (answerEach_closes p st) l b

/-- What becomes of an entry that satisfies the test and is not ANSWERED. -/
theorem foldl_answerEach_isAnswered (p : Key → Entry → Bool) (st : Key → Status) {j : Key} {e : Entry} :
    ∀ (l : List Key) (b : Bridge), l.Nodup → j ∈ l → b.entry j = some e → p j e = true → e.state ≠ .answered →
      IsAnswered (l.foldl (answerEach p st) b) j (st j) 0 .none
  | [], _, _, h, _, _, _ => by cases h
  | k :: l, b, hn, hj, he, hp, hs => by
    rw [List.foldl_cons]
    rw [List.nodup_cons] at hn
    by_cases hk : j = k
    · subst hk
      have h1 : answerEach p st b j = answerStatus b j (st j) := if_pos (by simp [he, hp])
      rw [h1]
      exact (answer_isAnswered (st j) 0 .none he hs).closes (foldl_answerEach_closes p st l _)
        (foldl_answerEach_entry_ne p st l _ hn.1)
    · refine foldl_answerEach_isAnswered p st l _ hn.2 ((List.mem_cons.1 hj).resolve_left hk) ?_ hp hs
      rw [answerEach_entry_ne p st b hk, he]

/-- What becomes of an entry that does not satisfy the test. -/
theorem foldl_answerEach_entry (p : Key → Entry → Bool) (st : Key → Status) {j : Key} :
    ∀ (l : List Key) (b : Bridge), (∀ e, b.entry j = some e → p j e = true → e.state = .answered) →
      (l.foldl (answerEach p st) b).entry j = b.entry j
  | [], _, _ => rfl
  | k :: l, b, h => by
    rw [List.foldl_cons]
    have h1 : (answerEach p st b k).entry j = b.entry j := by
      by_cases hk : j = k
      · subst hk
        unfold answerEach
        split
        · rename_i ht
          refine (answer_entry ..).trans ?_
          rw [if_pos rfl]
          cases he : b.entry j with
          | none => rfl
          | some e => simp [h e he (by simpa [he] using ht)]
        · rfl
      · exact answerEach_entry_ne p st b hk
    rw [foldl_answerEach_entry p st l _ (fun e he => h e (h1 ▸ he)), h1]

theorem answerAll_eq (b : Bridge) (p : Entry → Bool) (st : Status) :
    answerAll b p st = allKeys.foldl (answerEach (fun _ => p) (fun _ => st)) b := rfl

theorem answerAll_closes (b : Bridge) (p : Entry → Bool) (st : Status) : Closes b (answerAll b p st) :=
  foldl_answerEach_closes (fun _ => p) (fun _ => st) allKeys b

theorem answerAll_isAnswered {b : Bridge} {p : Entry → Bool} {k : Key} {e : Entry} (st : Status)
    (he : b.entry k = some e) (hp : p e = true) (hs : e.state ≠ .answered) :
    IsAnswered (answerAll b p st) k st 0 .none :=
  foldl_answerEach_isAnswered (fun _ => p) (fun _ => st) allKeys b allKeys_nodup (mem_allKeys k) he hp hs

theorem answerAll_entry {b : Bridge} {p : Entry → Bool} {k : Key} (st : Status)
    (h : ∀ e, b.entry k = some e → p e = true → e.state = .answered) :
    (answerAll b p st).entry k = b.entry k := foldl_answerEach_entry (fun _ => p) (fun _ => st) allKeys b h

end Sys2Proof.Machine
end

