-- ==== Sys2Proof/Laws/Map.lean ====
section
/-! SUPPORT. The laws of the defect map (R12) as propositions, and that each change of an entry keeps them. -/

namespace Sys2Proof.Machine

/-! ### The laws as propositions -/

theorem ascending_iff : ∀ l : List Nat, ascending l = true ↔ l.Pairwise (· < ·)
  | [] => by simp [ascending]
  | [a] => by simp [ascending]
  | a :: b :: l => by
    have ih := ascending_iff (b :: l)
    rw [ascending, Bool.and_eq_true, ih, decide_eq_true_iff, List.pairwise_cons (a := a)]
    refine ⟨fun ⟨h, hp⟩ => ⟨fun x hx => ?_, hp⟩, fun ⟨h, hp⟩ => ⟨h b List.mem_cons_self, hp⟩⟩
    rcases List.mem_cons.1 hx with rfl | hx
    · exact h
    · exact Nat.lt_trans h ((List.pairwise_cons.1 hp).1 x hx)

/-- The laws of R12 that do not depend on the order of the entries. -/
structure UnorderedLaws (m : List MapEntry) : Prop where
  defectives : (m.map MapEntry.defective).Nodup
  spares     : (m.filterMap MapEntry.spare).Nodup
  apart      : ∀ e ∈ m, ∀ s, e.spare = some s → ∀ e' ∈ m, e'.defective ≠ s
  shapes     : ∀ e ∈ m, entryShapeOk e = true

theorem mapLaws_iff (m : List MapEntry) :
    mapLaws m = true ↔ (m.map MapEntry.defective).Pairwise (· < ·) ∧ UnorderedLaws m ∧ m.length ≤ 1024 := by
  have hall : (m.all (fun e => e.spare.all (fun s => m.all (fun e' => e'.defective != s))) = true) ↔
      ∀ e ∈ m, ∀ s, e.spare = some s → ∀ e' ∈ m, e'.defective ≠ s := by
    simp only [List.all_eq_true, Option.all_eq_true, bne_iff_ne]
  unfold mapLaws
  simp only [Bool.and_eq_true, decide_eq_true_eq, ascending_iff, hall]
  constructor
  · rintro ⟨⟨⟨⟨h1, h2⟩, h3⟩, h4⟩, h5⟩
    exact ⟨h1, ⟨h1.imp (fun h => Nat.ne_of_lt h), h2, h3, List.all_eq_true.1 h4⟩, h5⟩
  · rintro ⟨h1, ⟨_, h2, h3, h4⟩, h5⟩
    exact ⟨⟨⟨⟨h1, h2⟩, h3⟩, List.all_eq_true.2 h4⟩, h5⟩

theorem UnorderedLaws.perm {m m' : List MapEntry} (p : m.Perm m') (h : UnorderedLaws m) : UnorderedLaws m' :=
  ⟨(p.map _).nodup_iff.1 h.defectives, (p.filterMap _).nodup_iff.1 h.spares,
    fun e he s hs e' he' => h.apart e (p.mem_iff.2 he) s hs e' (p.mem_iff.2 he'),
    fun e he => h.shapes e (p.mem_iff.2 he)⟩

theorem UnorderedLaws.tail {e : MapEntry} {r : List MapEntry} (h : UnorderedLaws (e :: r)) : UnorderedLaws r := by
  refine ⟨(List.nodup_cons.1 h.defectives).2, ?_, fun a ha s hs a' ha' =>
    h.apart a (List.mem_cons_of_mem _ ha) s hs a' (List.mem_cons_of_mem _ ha'),
    fun a ha => h.shapes a (List.mem_cons_of_mem _ ha)⟩
  have := h.spares
  cases hs : e.spare with
  | none => simpa [List.filterMap_cons, hs] using this
  | some s =>
    rw [List.filterMap_cons_some hs] at this
    exact (List.nodup_cons.1 this).2

/-- A PSA that the map does not hold, neither as a defective PSA nor as a spare. -/
def Fresh (m : List MapEntry) (p : Nat) : Prop := ∀ e ∈ m, e.defective ≠ p ∧ e.spare ≠ some p

theorem fresh_of_appears {m : List MapEntry} {p : Nat} (h : appears m p = false) : Fresh m p := by
  intro e he
  unfold appears at h
  rw [List.any_eq_false] at h
  have := h e he
  simp only [Bool.or_eq_true, beq_iff_eq, not_or] at this
  exact this

/-- An entry joins: its defective PSA is the spare of no entry and defective in none, and its spare is fresh. -/
theorem UnorderedLaws.cons {e : MapEntry} {r : List MapEntry} (h : UnorderedLaws r) (hd : Fresh r e.defective)
    (hs : ∀ s, e.spare = some s → Fresh r s ∧ s ≠ e.defective) (shape : entryShapeOk e = true) :
    UnorderedLaws (e :: r) := by
  refine ⟨?_, ?_, ?_, ?_⟩
  · rw [List.map_cons, List.nodup_cons]
    refine ⟨fun hm => ?_, h.defectives⟩
    obtain ⟨a, ha, he⟩ := List.mem_map.1 hm
    exact (hd a ha).1 he
  · cases hsp : e.spare with
    | none => simpa [List.filterMap_cons, hsp] using h.spares
    | some s =>
      rw [List.filterMap_cons_some hsp, List.nodup_cons]
      refine ⟨fun hm => ?_, h.spares⟩
      obtain ⟨a, ha, he⟩ := List.mem_filterMap.1 hm
      exact ((hs s hsp).1 a ha).2 he
  · intro a ha s has a' ha'
    rcases List.mem_cons.1 ha with h1 | h1 <;> rcases List.mem_cons.1 ha' with h2 | h2
    · subst h1 h2; exact fun h => (hs s has).2 h.symm
    · subst h1; exact ((hs s has).1 a' h2).1
    · subst h2
      intro hd'
      exact (hd a h1).2 (by rw [hd']; exact has)
    · exact h.apart a h1 s has a' h2
  · intro a ha
    rcases List.mem_cons.1 ha with rfl | ha
    · exact shape
    · exact h.shapes a ha

/-! ### Insertion and replacement -/

theorem insertEntry_perm (e : MapEntry) : ∀ m : List MapEntry, (insertEntry e m).Perm (e :: m)
  | [] => .refl _
  | x :: xs => by
    rw [insertEntry]
    split
    · exact .refl _
    · exact ((insertEntry_perm e xs).cons x).trans (.swap e x xs)

theorem insertEntry_length (e : MapEntry) (m : List MapEntry) : (insertEntry e m).length = m.length + 1 :=
  (insertEntry_perm e m).length_eq

theorem insertEntry_ascending {e : MapEntry} : ∀ {m : List MapEntry},
    (m.map MapEntry.defective).Pairwise (· < ·) → (∀ x ∈ m, x.defective ≠ e.defective) →
    ((insertEntry e m).map MapEntry.defective).Pairwise (· < ·)
  | [], _, _ => by simp [insertEntry]
  | x :: xs, h, hn => by
    have hx := hn x List.mem_cons_self
    rw [List.map_cons, List.pairwise_cons] at h
    rw [insertEntry]
    split
    · rename_i hlt
      rw [List.map_cons, List.map_cons, List.pairwise_cons, List.pairwise_cons]
      refine ⟨fun a ha => ?_, h⟩
      rcases List.mem_cons.1 ha with rfl | ha
      · exact hlt
      · exact Nat.lt_trans hlt (h.1 a ha)
    · rw [List.map_cons, List.pairwise_cons]
      refine ⟨fun a ha => ?_, insertEntry_ascending h.2 fun y hy => hn y (List.mem_cons_of_mem _ hy)⟩
      have ha' := (((insertEntry_perm e xs).map MapEntry.defective).mem_iff).1 ha
      rcases List.mem_cons.1 ha' with rfl | ha'
      · omega
      · exact h.1 a ha'

/-- The entry of a defective PSA splits the map. -/
theorem entryOf_split {m : List MapEntry} {u : Nat} {e : MapEntry} (h : entryOf m u = some e)
    (hn : (m.map MapEntry.defective).Nodup) :
    ∃ l1 l2, m = l1 ++ e :: l2 ∧ e.defective = u ∧ (∀ x ∈ l1, x.defective ≠ u) ∧ ∀ x ∈ l2, x.defective ≠ u := by
  unfold entryOf at h
  obtain ⟨he, l1, l2, rfl, h1⟩ := List.find?_eq_some_iff_append.1 h
  have hu : e.defective = u := by simpa using he
  refine ⟨l1, l2, rfl, hu, fun x hx => by simpa using h1 x hx, fun x hx hxu => ?_⟩
  rw [List.map_append, List.map_cons, List.nodup_append] at hn
  refine (List.nodup_cons.1 hn.2.1).1 ?_
  rw [hu, ← hxu]
  exact List.mem_map.2 ⟨x, hx, rfl⟩

theorem replaceEntry_id {n : MapEntry} {l : List MapEntry} (h : ∀ x ∈ l, x.defective ≠ n.defective) :
    replaceEntry n l = l := by
  unfold replaceEntry
  conv_rhs => rw [← List.map_id l]
  refine List.map_congr_left fun x hx => ?_
  simp [h x hx]

theorem replaceEntry_split {n e : MapEntry} {l1 l2 : List MapEntry} (hn : n.defective = e.defective)
    (h1 : ∀ x ∈ l1, x.defective ≠ e.defective) (h2 : ∀ x ∈ l2, x.defective ≠ e.defective) :
    replaceEntry n (l1 ++ e :: l2) = l1 ++ n :: l2 := by
  have e1 := replaceEntry_id (n := n) (fun x hx => by rw [hn]; exact h1 x hx)
  have e2 := replaceEntry_id (n := n) (fun x hx => by rw [hn]; exact h2 x hx)
  unfold replaceEntry at *
  rw [List.map_append, List.map_cons, e1, e2]
  simp [hn]

/-! ### Changes of the map (R129, R130) -/

/-- What one change does to a lawful map: it stays lawful, and each of its entries stood in it or is one of those
given. -/
def LawfulChange (m m' : List MapEntry) (new : MapEntry → Prop) : Prop :=
  mapLaws m' = true ∧ ∀ x ∈ m', x ∈ m ∨ new x

/-- A new entry is inserted. -/
theorem insert_lawful {m : List MapEntry} {e : MapEntry} (h : mapLaws m = true) (hd : Fresh m e.defective)
    (hs : ∀ s, e.spare = some s → Fresh m s ∧ s ≠ e.defective) (shape : entryShapeOk e = true)
    (room : m.length < 1024) : LawfulChange m (insertEntry e m) (· = e) := by
  obtain ⟨h1, h2, _⟩ := (mapLaws_iff m).1 h
  refine ⟨(mapLaws_iff _).2 ⟨insertEntry_ascending h1 fun x hx => (hd x hx).1,
    (h2.cons hd hs shape).perm (insertEntry_perm e m).symm, by rw [insertEntry_length]; omega⟩, fun x hx => ?_⟩
  rcases List.mem_cons.1 ((insertEntry_perm e m).mem_iff.1 hx) with rfl | hx
  · exact .inr rfl
  · exact .inl hx

/-- An entry is replaced by one with the same defective PSA. -/
theorem replace_lawful {m : List MapEntry} {e n : MapEntry} (h : mapLaws m = true) (he : entryOf m e.defective = some e)
    (hn : n.defective = e.defective) (hs : ∀ s, n.spare = some s → Fresh m s) (shape : entryShapeOk n = true) :
    LawfulChange m (replaceEntry n m) (· = n)
    ∧ (replaceEntry n m).length = m.length
    ∧ ∀ s0, e.spare = some s0 → n.spare ≠ some s0 → Fresh (replaceEntry n m) s0 := by
  obtain ⟨h1, h2, h3⟩ := (mapLaws_iff m).1 h
  obtain ⟨l1, l2, rfl, -, hl1, hl2⟩ := entryOf_split he h2.defectives
  rw [replaceEntry_split hn hl1 hl2]
  have hp : (l1 ++ e :: l2).Perm (e :: (l1 ++ l2)) := List.perm_middle
  have hp' : (l1 ++ n :: l2).Perm (n :: (l1 ++ l2)) := List.perm_middle
  have hu := h2.perm hp
  have sub : ∀ x ∈ l1 ++ l2, x ∈ l1 ++ e :: l2 := fun x hx => hp.mem_iff.2 (List.mem_cons_of_mem _ hx)
  have hself : e ∈ l1 ++ e :: l2 := hp.mem_iff.2 List.mem_cons_self
  have hne : ∀ x ∈ l1 ++ l2, x.defective ≠ e.defective := by
    intro x hx
    rcases List.mem_append.1 hx with hx | hx
    · exact hl1 x hx
    · exact hl2 x hx
  have hfr : Fresh (l1 ++ l2) n.defective := by
    intro x hx
    rw [hn]
    exact ⟨hne x hx, fun hsx => h2.apart x (sub x hx) _ hsx e hself rfl⟩
  have hu' : UnorderedLaws (n :: (l1 ++ l2)) := by
    refine hu.tail.cons hfr (fun s hsn => ⟨fun x hx => hs s hsn x (sub x hx), fun hd => ?_⟩) shape
    exact (hs s hsn e hself).1 (by rw [hd, hn])
  refine ⟨⟨(mapLaws_iff _).2 ⟨?_, hu'.perm hp'.symm, by simpa using h3⟩, fun x hx => ?_⟩, by simp, ?_⟩
  · simpa [hn] using h1
  · rcases List.mem_cons.1 (hp'.mem_iff.1 hx) with rfl | hx
    · exact .inr rfl
    · exact .inl (sub x hx)
  · intro s0 hs0 hns x hx
    rcases List.mem_cons.1 (hp'.mem_iff.1 hx) with rfl | hx
    · exact ⟨by rw [hn]; exact h2.apart e hself s0 hs0 e hself, hns⟩
    · refine ⟨h2.apart e hself s0 hs0 x (sub x hx), fun hsx => ?_⟩
      have := hu.spares
      rw [List.filterMap_cons_some hs0] at this
      exact (List.nodup_cons.1 this).1 (List.mem_filterMap.2 ⟨x, hx, hsx⟩)

theorem entryOf_defective {m : List MapEntry} {u : Nat} {e : MapEntry} (h : entryOf m u = some e) :
    e.defective = u ∧ e ∈ m :=
  ⟨by simpa using List.find?_some h, List.mem_of_find?_eq_some h⟩

theorem entryOf_none {m : List MapEntry} {u : Nat} (h : entryOf m u = none) : ∀ e ∈ m, e.defective ≠ u := by
  intro e he
  simpa using List.find?_eq_none.1 h e he

/-- A grant keeps the laws: the entries it brings are `u` with the spare `s`, and a RETIRED entry of the spare that `u`
had (R129). -/
theorem grantEntries_lawful {m : List MapEntry} {u s : Nat} {o : Origin} (h : mapLaws m = true)
    (ho : o = .verify ∨ o = .relocate) (hs : Fresh m s) (hu : ∀ e ∈ m, e.spare ≠ some u) (hsu : s ≠ u)
    (room : m.length < 1024) :
    LawfulChange m (grantEntries m u s o) fun x =>
      x = ⟨u, some s, o⟩ ∨ ∃ s0, (∃ e ∈ m, e.spare = some s0) ∧ x = ⟨s0, none, .retired⟩ := by
  have shape : entryShapeOk ⟨u, some s, o⟩ = true := by rcases ho with rfl | rfl <;> rfl
  unfold grantEntries
  split
  · rename_i he
    obtain ⟨l1, l2⟩ := insert_lawful (e := ⟨u, some s, o⟩) h (fun x hx => ⟨entryOf_none he x hx, hu x hx⟩)
      (fun s' hs' => by cases hs'; exact ⟨hs, hsu⟩) shape room
    exact ⟨l1, fun x hx => (l2 x hx).imp_right .inl⟩
  · rename_i e he
    obtain ⟨rfl, hem⟩ := entryOf_defective he
    obtain ⟨⟨l1, l2⟩, hlen, hfr⟩ := replace_lawful (n := ⟨e.defective, some s, o⟩) h he rfl
      (fun s' hs' => by cases hs'; exact hs) shape
    dsimp only
    split
    · exact ⟨l1, fun x hx => (l2 x hx).imp_right .inl⟩
    · rename_i s0 hs0
      have hss : s ≠ s0 := fun hss => (hs e hem).2 (by rw [hss]; exact hs0)
      obtain ⟨k1, k2⟩ := insert_lawful (e := ⟨s0, none, .retired⟩) l1 (hfr s0 hs0 (by simpa using hss))
        (fun s' hs' => by cases hs') rfl (by omega)
      refine ⟨k1, fun x hx => ?_⟩
      rcases k2 x hx with hx | rfl
      · exact (l2 x hx).imp_right .inl
      · exact .inr (.inr ⟨s0, ⟨e, hem, hs0⟩, rfl⟩)

/-- A mark keeps the laws: the entries it brings are `u` without a spare, and a RETIRED entry of the spare that `u` had
(R130). -/
theorem lostEntries_lawful {m m' : List MapEntry} {u : Nat} (h : mapLaws m = true) (hu : ∀ e ∈ m, e.spare ≠ some u)
    (hm : lostEntries m u = some m') :
    LawfulChange m m' fun x =>
      x = ⟨u, none, .lost⟩ ∨ ∃ s0, (∃ e ∈ m, e.spare = some s0) ∧ x = ⟨s0, none, .retired⟩ := by
  unfold lostEntries at hm
  dsimp only at hm
  split at hm
  · rename_i he
    split at hm
    · rename_i room
      cases hm
      obtain ⟨l1, l2⟩ := insert_lawful (e := ⟨u, none, .lost⟩) h (fun x hx => ⟨entryOf_none he x hx, hu x hx⟩)
        (fun s' hs' => by cases hs') rfl (by simpa using room)
      exact ⟨l1, fun x hx => (l2 x hx).imp_right .inl⟩
    · cases hm
  · rename_i e he
    obtain ⟨rfl, hem⟩ := entryOf_defective he
    split at hm
    · cases hm
    · rename_i s0 hs0
      cases hm
      obtain ⟨⟨l1, l2⟩, hlen, hfr⟩ := replace_lawful (n := ⟨e.defective, none, .lost⟩) h he rfl
        (fun s' hs' => by cases hs') rfl
      split
      · rename_i room
        obtain ⟨k1, k2⟩ := insert_lawful (e := ⟨s0, none, .retired⟩) l1 (hfr s0 hs0 (by simp))
          (fun s' hs' => by cases hs') rfl (by rw [hlen]; simpa using room)
        refine ⟨k1, fun x hx => ?_⟩
        rcases k2 x hx with hx | rfl
        · exact (l2 x hx).imp_right .inl
        · exact .inr (.inr ⟨s0, ⟨e, hem, hs0⟩, rfl⟩)
      · exact ⟨l1, fun x hx => (l2 x hx).imp_right .inl⟩

/-! ### Classes of PSAs (R6, R7) -/

theorem homePsaIn_user : ∀ {zs : List ZoneEntry} {n p : Nat}, homePsaIn zs n = some p →
    zs.any (fun z => isUserOf z p) = true
  | [], _, _, h => by cases h
  | z :: zs, n, p, h => by
    rw [homePsaIn] at h
    rw [List.any_cons, Bool.or_eq_true]
    split at h
    · rename_i hn
      cases h
      refine .inl ?_
      simp only [isUserOf, Bool.and_eq_true, decide_eq_true_eq]
      omega
    · exact .inr (homePsaIn_user h)

/-- The home PSA of a logical sector is of the user class (R8). -/
theorem homePsa_user {l : Label} {n p : Nat} (h : homePsa l n = some p) : isUser l p = true := homePsaIn_user h

theorem zoneUser_le (z : ZoneEntry) : zoneUser z ≤ zoneSize z :=
  Nat.mul_le_mul_right _ (Nat.le_add_right _ _)

/-- A zone of contiguous zones from PSA `p` starts at or after `p`. -/
theorem zonesFrom_le : ∀ {zs : List ZoneEntry} {p : Nat}, zonesFrom zs p = true → ∀ z ∈ zs, p ≤ z.first
  | [], _, _, z, hz => by cases hz
  | z0 :: zs, p, h, z, hz => by
    simp only [zonesFrom, Bool.and_eq_true, beq_iff_eq, decide_eq_true_eq] at h
    rcases List.mem_cons.1 hz with rfl | hz
    · omega
    · have := zonesFrom_le h.2 z hz
      omega

/-- No PSA of contiguous zones is of both classes. -/
theorem zonesFrom_apart : ∀ {zs : List ZoneEntry} {p q : Nat}, zonesFrom zs p = true →
    zs.any (fun z => isUserOf z q) = true → zs.any (fun z => isSpareOf z q) = true → False
  | [], _, _, _, hu, _ => by cases hu
  | z :: zs, p, q, h, hu, hs => by
    have h' := h
    simp only [zonesFrom, Bool.and_eq_true, beq_iff_eq, decide_eq_true_eq] at h
    rw [List.any_cons, Bool.or_eq_true] at hu hs
    have hle := zonesFrom_le h.2
    have hz := zoneUser_le z
    have later : ∀ {f : ZoneEntry → Nat → Bool}, (∀ z q, f z q = true → z.first ≤ q) →
        zs.any (fun z => f z q) = true → p + zoneSize z ≤ q := by
      intro f hf ha
      obtain ⟨w, hw, hwq⟩ := List.any_eq_true.1 ha
      exact Nat.le_trans (hle w hw) (hf w q hwq)
    have hlu : ∀ z q, isUserOf z q = true → z.first ≤ q := fun z q h => by
      simp only [isUserOf, Bool.and_eq_true, decide_eq_true_eq] at h; exact h.1
    have hls : ∀ z q, isSpareOf z q = true → z.first ≤ q := fun z q h => by
      simp only [isSpareOf, Bool.and_eq_true, decide_eq_true_eq] at h; omega
    rcases hu with hu | hu <;> rcases hs with hs | hs
    · simp only [isUserOf, isSpareOf, Bool.and_eq_true, decide_eq_true_eq] at hu hs
      omega
    · have := later hls hs
      simp only [isUserOf, Bool.and_eq_true, decide_eq_true_eq] at hu
      omega
    · have := later hlu hu
      simp only [isSpareOf, Bool.and_eq_true, decide_eq_true_eq] at hs
      omega
    · exact zonesFrom_apart h.2 hu hs

/-- No PSA is both a user PSA and a spare PSA (R1). -/
theorem classes_apart {l : Label} (h : zonesOk l = true) {p : Nat} (hu : isUser l p = true) (hs : isSpare l p = true) :
    False := by
  simp only [zonesOk, Bool.and_eq_true] at h
  exact zonesFrom_apart h.1.1.2 hu hs

/-! ### The spare found (R127) -/

theorem firstFree_spec {m : List MapEntry} : ∀ {k p s : Nat}, firstFree m k p = some s →
    p ≤ s ∧ s < p + k ∧ appears m s = false
  | 0, _, _, h => by cases h
  | k + 1, p, s, h => by
    rw [firstFree] at h
    split at h
    · obtain ⟨h1, h2, h3⟩ := firstFree_spec h
      exact ⟨by omega, by omega, h3⟩
    · rename_i hn
      cases h
      exact ⟨Nat.le_refl _, by omega, by simpa using hn⟩

theorem findSpare_spec {l : Label} {m : List MapEntry} {u s : Nat} (h : findSpare l m u = some s) :
    isSpare l s = true ∧ appears m s = false := by
  unfold findSpare at h
  split at h
  · cases h
  · obtain ⟨k, -, hk⟩ := List.exists_of_findSome?_eq_some h
    obtain ⟨z, hz, hf⟩ := Option.bind_eq_some_iff.1 hk
    obtain ⟨h1, h2, h3⟩ := firstFree_spec hf
    refine ⟨List.any_eq_true.2 ⟨z, List.mem_of_getElem? hz, ?_⟩, h3⟩
    have := zoneUser_le z
    simp only [isSpareOf, Bool.and_eq_true, decide_eq_true_eq]
    omega

end Sys2Proof.Machine
end

