-- ==== Sys2Proof/Laws/Jobs.lean ====
section
/-! SUPPORT. What the operations of Defects.lean and WriteBack.lean can do: each is a `Moves`. -/

namespace Sys2Proof.Machine

/-! ### The map (Defects.lean) -/

/-- The entries that a held map may be given: lawful, of the classes that the held layout asks for, and held in a state
that may hold a map. -/
def EntriesOk (b : Bridge) (entries : List MapEntry) : Prop :=
  mapLaws entries = true ∧ ∀ l, b.cart.layout = some l → entries.all (entryClassesOk l) = true

theorem EntriesOk.held {b : Bridge} {m : HeldMap} (hm : b.dm.map = some m) (h : MapOk b) : EntriesOk b m.entries :=
  h.2.1 m hm

/-- A held map is put in the place of a held map, with any staging area. -/
theorem dm_moves {b : Bridge} {m : HeldMap} (hm : b.dm.map = some m) (m' : HeldMap) (st : Vector SectorData 4)
    (ok : MapOk b → EntriesOk b m'.entries) : Moves b { b with dm := { map := some m', staging := st } } := by
  refine ⟨rfl, .of_table rfl, fun f h _ => h, ⟨[], by simp⟩, by simp [hm], id, fun h => ?_, id,
    .inl ⟨rfl, rfl⟩⟩
  refine ⟨h.1, fun m1 h1 => ?_, fun _ => h.2.2 (by simp [hm])⟩
  cases h1
  exact ok h

theorem putMap_moves {b : Bridge} {m : HeldMap} (hm : b.dm.map = some m) (m' : HeldMap)
    (ok : MapOk b → EntriesOk b m'.entries) : Moves b (putMap b m') := dm_moves hm m' _ ok

theorem startMapWrite_moves {b : Bridge} {m m0 : HeldMap} (hm : b.dm.map = some m0) (attempt : Nat)
    (ok : MapOk b → EntriesOk b m.entries) : Moves b (startMapWrite b m attempt) := by
  unfold startMapWrite
  refine .trans ?_ (takeStamp_moves _)
  exact dm_moves hm _ _ ok

theorem tryMapWrite_moves (b : Bridge) : Moves b (tryMapWrite b) := by
  unfold tryMapWrite
  split
  · exact .refl b
  · rename_i m hm
    split
    · exact startMapWrite_moves hm 1 (EntriesOk.held (m := m) hm)
    · exact .refl b

theorem changeMap_moves {b : Bridge} {m : HeldMap} {entries : List MapEntry} (hm : b.dm.map = some m)
    (ok : MapOk b → EntriesOk b entries) : Moves b (changeMap b m entries) := by
  unfold changeMap
  refine .trans ?_ (tryMapWrite_moves _)
  exact putMap_moves hm _ ok

/-- Under the laws of the map, no spare of the map is a user PSA. -/
theorem spare_ne_user {b : Bridge} {m : HeldMap} {l : Label} (h : MapOk b) (hm : b.dm.map = some m)
    (hl : b.cart.layout = some l) {u : Nat} (hu : isUser l u = true) : ∀ e ∈ m.entries, e.spare ≠ some u := by
  intro e he hs
  have hc := List.all_eq_true.1 ((h.2.1 m hm).2 l hl) e he
  unfold entryClassesOk at hc
  rw [Bool.and_eq_true, hs] at hc
  exact classes_apart (h.1 l hl).2 hu (by simpa using hc.2)

/-- A change of the entries keeps the classes when each new entry is of them. -/
theorem entriesOk_of_change {b : Bridge} {m : HeldMap} {m' : List MapEntry} {new : MapEntry → Prop} (h : MapOk b)
    (hm : b.dm.map = some m) (hc : LawfulChange m.entries m' new)
    (hn : ∀ l, b.cart.layout = some l → ∀ x, new x → entryClassesOk l x = true) : EntriesOk b m' := by
  refine ⟨hc.1, fun l hl => List.all_eq_true.2 fun x hx => ?_⟩
  rcases hc.2 x hx with hx | hx
  · exact List.all_eq_true.1 ((h.2.1 m hm).2 l hl) x hx
  · exact hn l hl x hx

/-- A RETIRED entry of a spare of the map is of its class. -/
theorem retired_class {b : Bridge} {m : HeldMap} {l : Label} (h : MapOk b) (hm : b.dm.map = some m)
    (hl : b.cart.layout = some l) {s0 : Nat} (hs : ∃ e ∈ m.entries, e.spare = some s0) :
    entryClassesOk l ⟨s0, none, .retired⟩ = true := by
  obtain ⟨e, he, hes⟩ := hs
  have hc := List.all_eq_true.1 ((h.2.1 m hm).2 l hl) e he
  unfold entryClassesOk at hc
  rw [Bool.and_eq_true, hes] at hc
  simpa [entryClassesOk] using hc.2

theorem homeOf_user {b : Bridge} {l : Label} {n u : Nat} (hl : b.cart.layout = some l) (h : homeOf b n = some u) :
    isUser l u = true := by
  unfold homeOf at h
  rw [hl] at h
  exact homePsa_user h

/-- The spare chosen for a request: of the spare class, in no entry, with room in the map (R127, R128). -/
theorem chooseSpare_spec {b : Bridge} {u s : Nat} (h : chooseSpare b u = some s) :
    ∃ l m, b.cart.layout = some l ∧ b.dm.map = some m ∧ isWritable b = true ∧ m.entries.length < 1024
      ∧ findSpare l m.entries u = some s := by
  unfold chooseSpare at h
  split at h
  · rename_i l m hl hm
    split at h
    · rename_i hc
      simp only [Bool.and_eq_true, decide_eq_true_eq] at hc
      exact ⟨l, m, hl, hm, hc.1, hc.2, h⟩
    · cases h
  · cases h

/-- The cartridge's remap and relocation counts change. -/
theorem cartCounts_moves (b : Bridge) (c : CartRecord) (fixed : { b with cart := c }.fixed = b.fixed)
    (state : c.state = b.cart.state) (layout : c.layout = b.cart.layout)
    (soft : b.cart.soft ≤ 65535 → c.soft ≤ 65535) (hard : b.cart.hard ≤ 65535 → c.hard ≤ 65535)
    (remaps : b.cart.remaps ≤ 65535 → c.remaps ≤ 65535)
    (relocs : b.cart.relocations ≤ 65535 → c.relocations ≤ 65535)
    (deferred : b.cart.deferred ≤ 255 → c.deferred ≤ 255) (spin : c.spinTimer = b.cart.spinTimer := by rfl) :
    Moves b { b with cart := c } := by
  refine ⟨fixed, .of_table rfl, fun f h _ => h, ⟨[], by simp⟩, rfl, ?_, ?_, id, .inl ⟨rfl, spin⟩⟩
  · rintro ⟨h1, h2, h3, h4, h5, h6, h7, h8, h9, h10⟩
    exact ⟨h1, h2, h3, h4, soft h5, hard h6, remaps h7, relocs h8, deferred h9, h10⟩
  · rintro ⟨h1, h2, h3⟩
    refine ⟨fun l hl => h1 l (layout ▸ hl), fun m hm => ⟨(h2 m hm).1, fun l hl => (h2 m hm).2 l (layout ▸ hl)⟩,
      fun hs => ?_⟩
    have step : c.mountStep = b.cart.mountStep := fixed_mountStep fixed
    show mayHoldMap c.state = true ∧ c.mountStep = none
    rw [state, step]
    exact h3 hs

theorem satInc_le (top n : Nat) : satInc top n ≤ top := Nat.min_le_right _ _

/-- A deferred error is counted. -/
theorem Moves.andDeferred {b t : Bridge} (h : Moves b t) :
    Moves b { t with cart := { t.cart with deferred := satInc 255 t.cart.deferred } } :=
  h.trans (cartCounts_moves t _ rfl rfl rfl id id id id (fun _ => satInc_le ..))

theorem grantSpare_moves {b : Bridge} {n u s : Nat} (hu : homeOf b n = some u) (hs : chooseSpare b u = some s)
    (r : Bool) : Moves b (grantSpare b u s r) := by
  obtain ⟨l, m, hl, hm, -, room, hf⟩ := chooseSpare_spec hs
  obtain ⟨hsp, hfr⟩ := findSpare_spec hf
  have huser := homeOf_user hl hu
  unfold grantSpare
  rw [hm]
  dsimp only
  refine .trans (b := changeMap b m (grantEntries m.entries u s (if r then .relocate else .verify)))
    (changeMap_moves hm fun ok => ?_) ?_
  · refine entriesOk_of_change ok hm (grantEntries_lawful (EntriesOk.held hm ok).1 (by cases r <;> simp)
      (fresh_of_appears hfr) (spare_ne_user ok hm hl huser)
      (fun h => classes_apart (ok.1 l hl).2 huser (h ▸ hsp)) room) ?_
    intro l' hl' x hx
    rw [hl] at hl'
    cases hl'
    rcases hx with rfl | ⟨s0, hs0, rfl⟩
    · cases r <;> simp [entryClassesOk, huser, hsp]
    · exact retired_class ok hm hl hs0
  · cases r
    · exact cartCounts_moves _ _ rfl rfl rfl id id (fun _ => satInc_le ..) id id
    · exact cartCounts_moves _ _ rfl rfl rfl id id id (fun _ => satInc_le ..) id

theorem markLost_moves {b : Bridge} {n u : Nat} (hu : homeOf b n = some u) : Moves b (markLost b u) := by
  unfold markLost
  split
  · exact .refl b
  · rename_i m hm
    split
    · exact .refl b
    · rename_i entries he
      refine changeMap_moves hm fun ok => ?_
      have hl : ∃ l, b.cart.layout = some l := by
        unfold homeOf at hu
        cases hl : b.cart.layout with
        | none => rw [hl] at hu; cases hu
        | some l => exact ⟨l, rfl⟩
      obtain ⟨l, hl⟩ := hl
      have huser := homeOf_user hl hu
      refine entriesOk_of_change ok hm (lostEntries_lawful (EntriesOk.held hm ok).1 (spare_ne_user ok hm hl huser) he) ?_
      intro l' hl' x hx
      rw [hl] at hl'
      cases hl'
      rcases hx with rfl | ⟨s0, hs0, rfl⟩
      · simp [entryClassesOk, huser]
      · exact retired_class ok hm hl hs0

theorem lockWrites_moves (b : Bridge) : Moves b (lockWrites b) := by
  unfold lockWrites
  split
  · exact cartCounts_moves b _ rfl rfl rfl id id id id id
  · exact .refl b

theorem mapSaved_moves {b : Bridge} {m : HeldMap} (hm : b.dm.map = some m) (st : MapStep) :
    Moves b (mapSaved b m st) := by
  unfold mapSaved
  refine .trans ?_ (tryMapWrite_moves _)
  exact putMap_moves hm _ (EntriesOk.held (m := m) hm)

theorem mapAttemptFailed_moves {b : Bridge} {m : HeldMap} (hm : b.dm.map = some m) (psa : Nat) :
    Moves b (mapAttemptFailed b m psa) := by
  unfold mapAttemptFailed
  split
  · exact startMapWrite_moves hm 2 (EntriesOk.held (m := m) hm)
  · refine .trans (.trans ?_ (lockWrites_moves _)) (record_moves _ _)
    exact putMap_moves hm _ (EntriesOk.held (m := m) hm)

theorem mapStepEnded_moves (b : Bridge) (outcomes : List SectorOutcome) : Moves b (mapStepEnded b outcomes) := by
  unfold mapStepEnded
  split
  · exact .refl b
  · rename_i m hm
    split
    · exact .refl b
    · split
      · exact mapAttemptFailed_moves hm _
      · split
        · refine .trans ?_ (takeStamp_moves _)
          exact putMap_moves hm _ (EntriesOk.held (m := m) hm)
        · refine .trans ?_ (takeStamp_moves _)
          exact putMap_moves hm _ (EntriesOk.held (m := m) hm)
        · exact mapSaved_moves hm _

theorem mapStepReturned_moves (b : Bridge) : Moves b (mapStepReturned b) := by
  unfold mapStepReturned
  split
  · exact .refl b
  · rename_i m hm
    exact putMap_moves hm _ (EntriesOk.held (m := m) hm)

theorem abandonMapWrite_moves (b : Bridge) : Moves b (abandonMapWrite b) := by
  unfold abandonMapWrite
  split
  · exact .refl b
  · rename_i m hm
    split
    · refine .trans ?_ (record_moves _ _)
      exact putMap_moves hm _ (EntriesOk.held (m := m) hm)
    · exact .refl b

/-! ### Targets and jobs (WriteBack.lean) -/

theorem putFlush_moves (b : Bridge) (i : BufIdx) (f : Flush) : Moves b (putFlush b i f) :=
  putBuf_moves b i _ (by simp)

theorem eraseAt_moves (b : Bridge) (i : BufIdx) (f : Flush) (psa : Nat) : Moves b (eraseAt b i f psa) := by
  unfold eraseAt
  exact .trans (putFlush_moves b i _) (takeStamp_moves _)

theorem remapAt_moves (b : Bridge) (i : BufIdx) (f : Flush) (r : Option SpareRequest) : Moves b (remapAt b i f r) :=
  putFlush_moves b i _

theorem takeTarget_moves (b : Bridge) (i : BufIdx) : Moves b (takeTarget b i) := by
  unfold takeTarget
  split
  · exact .refl b
  · split
    · exact remapAt_moves b i _ _
    · split
      · exact .refl b
      · exact eraseAt_moves b i _ _
      · exact eraseAt_moves b i _ _
      · exact remapAt_moves b i _ _

theorem releaseHold_moves (b : Bridge) (i : BufIdx) : Moves b (releaseHold b i) := by
  unfold releaseHold
  split
  · exact takeTarget_moves b i
  · exact .refl b

theorem makeJob_moves (b : Bridge) (i : BufIdx) (c : Causes) : Moves b (makeJob b i c) := by
  unfold makeJob
  dsimp only
  split
  · exact (putFlush_moves b i _).trans (addFillNeed_moves _ i)
  · split
    · exact putFlush_moves b i _
    · exact (putFlush_moves b i _).trans (takeTarget_moves _ i)

theorem endFill_moves (b : Bridge) (i : BufIdx) (f : Flush) : Moves b (endFill b i f) := by
  unfold endFill
  dsimp only
  refine .trans ?_ (takeTarget_moves _ i)
  exact putBuf_moves b i _ (by simp)

theorem syncJob_moves (b : Bridge) (i : BufIdx) : Moves b (syncJob b i) := by
  unfold syncJob
  dsimp only
  split
  · split
    · exact endFill_moves b i _
    · split
      · exact .refl b
      · exact putFlush_moves b i _
  · split
    · split
      · exact .refl b
      · exact makeJob_moves b i _
    · exact .refl b

theorem notePressure_moves (b : Bridge) : Moves b (notePressure b) := pool_moves b _ rfl

theorem syncJobs_moves (b : Bridge) : Moves b (syncJobs b) := by
  unfold syncJobs
  dsimp only
  have h := (notePressure_moves b).trans (Moves.forBufs syncJob_moves (notePressure b))
  generalize (notePressure b).forBufs syncJob = c at h ⊢
  refine .trans ?_ (sweepLoads_moves _)
  exact h.trans (pool_moves c { c.pool with testDue := [] } rfl)

theorem dropQuiesceAt_moves (b : Bridge) (i : BufIdx) : Moves b (dropQuiesceAt b i) := by
  unfold dropQuiesceAt
  split
  · exact .refl b
  · exact putFlush_moves b i _

theorem dropQuiesce_moves (b : Bridge) : Moves b (dropQuiesce b) := .forBufs dropQuiesceAt_moves b

theorem addQuiesceAt_moves (b : Bridge) (i : BufIdx) : Moves b (addQuiesceAt b i) := by
  unfold addQuiesceAt
  split
  · exact .refl b
  · exact putFlush_moves b i _

theorem addQuiesce_moves (b : Bridge) : Moves b (addQuiesce b) := .forBufs addQuiesceAt_moves b

/-! ### Notices (WriteBack.lean) -/

theorem isActive_of_awaitCommit {e : Entry} (h : e.state = .awaitCommit) : isActive e = true := by simp [isActive, h]

theorem finishAwait_moves (b : Bridge) (k : Key) : Moves b (finishAwait b k) := by
  unfold finishAwait
  split
  · exact .refl b
  · rename_i e he
    split
    · rename_i hs
      have act : ∀ e', b.entry k = some e' → e'.state ≠ .answered → isActive e' = true := fun e' h' _ => by
        rw [he] at h'; cases h'; exact isActive_of_awaitCommit hs.1
      split
      · split
        · exact answer_moves _ _ _ act
        · exact answer_moves _ _ _ act
      · exact answer_moves _ _ _ act
    · exact .refl b

theorem awaits_state {e : Entry} {i : BufIdx} (h : awaits e i = true) : e.state = .awaitCommit := by
  unfold awaits at h
  exact beq_iff_eq.1 (Bool.and_eq_true_iff.1 h).1

theorem notice_moves (b : Bridge) (i : BufIdx) (f : Entry → Entry) (hf : ∀ e, SameRequest e (f e)) :
    Moves b (notice b i f) := by
  refine .forKeys (fun b k => ?_) b
  split
  · exact .refl b
  · rename_i e he
    split
    · rename_i ha
      exact (putEntry_moves he (isActive_of_awaitCommit (awaits_state ha)) (hf e)).trans (finishAwait_moves _ k)
    · exact .refl b

theorem unawait_same (i : BufIdx) (e : Entry) : SameRequest e (Entry.unawait i e) := ⟨rfl, .inl rfl⟩

theorem awaitInstead_same (i j : BufIdx) (e : Entry) : SameRequest e (Entry.awaitInstead i j e) := ⟨rfl, .inl rfl⟩

theorem failSector_same (e : Entry) (lsn : Nat) : SameRequest e (e.failSector lsn) := by
  unfold Entry.failSector
  split <;> exact ⟨rfl, .inl rfl⟩

theorem noticeCommitted_moves (b : Bridge) (i : BufIdx) : Moves b (noticeCommitted b i) :=
  notice_moves b i _ (unawait_same i)

theorem noticeMoved_moves (b : Bridge) (i j : BufIdx) : Moves b (noticeMoved b i j) :=
  notice_moves b i _ (awaitInstead_same i j)

theorem noticeFailed_moves (b : Bridge) (i : BufIdx) : Moves b (noticeFailed b i) :=
  notice_moves b i _ fun e => (unawait_same i e).trans (failSector_same _ _)

/-! ### The ends of a job (WriteBack.lean) -/

theorem movePins_moves (b : Bridge) (i j : BufIdx) : Moves b (movePins b i j) := by
  refine .forKeys (fun b k => ?_) b
  split
  · exact .refl b
  · rename_i e he
    split
    · rename_i hs
      exact putEntry_moves he (isActive_of_fetching hs.1) ⟨rfl, .inl rfl⟩
    · exact .refl b

theorem endToSuccessor_moves (b : Bridge) (i j : BufIdx) : Moves b (endToSuccessor b i j) :=
  (((movePins_moves b i j).trans (freeBuf_moves _ i)).trans (testReads_moves _)).trans (releaseHold_moves _ j)

theorem commitJob_moves (b : Bridge) (i : BufIdx) : Moves b (commitJob b i) := by
  unfold commitJob
  dsimp only
  split
  · exact (noticeCommitted_moves b i).trans (endToSuccessor_moves _ i _)
  · refine .trans (.trans (.trans (noticeCommitted_moves b i) ?_) (joinEvict_moves _ i)) (testReads_moves _)
    exact putBuf_moves _ i _ (by intro h; unfold committedBuffer at h; cases h)

theorem strandedCount_putBuf (b : Bridge) (i : BufIdx) (x : Buffer) :
    strandedCount (b.putBuf i x) ≤ strandedCount b + 1 := by
  unfold strandedCount
  rw [← List.length_cons (a := i)]
  refine List.Subperm.length_le (List.subperm_of_subset ((List.nodup_finRange 32).filter _) fun j hj => ?_)
  rw [List.mem_filter, buf_putBuf] at hj
  by_cases hji : j = i
  · rw [hji]; exact List.mem_cons_self
  · rw [if_neg hji] at hj
    exact List.mem_cons_of_mem _ (List.mem_filter.2 hj)

theorem strand_moves (b : Bridge) (i : BufIdx) : Moves b (strand b i) := by
  unfold strand
  dsimp only
  split
  · rename_i hlt
    have h1 : ∀ x, Moves b (b.putBuf i x) := fun x =>
      ⟨rfl, .of_table rfl, fun f h _ => h, ⟨[], by simp⟩, rfl, id, id,
        fun _ => Nat.le_trans (strandedCount_putBuf b i x) hlt, .inl ⟨rfl, rfl⟩⟩
    split
    · exact .trans (h1 _) (lockWrites_moves _)
    · exact h1 _
  · refine .trans (.andDeferred (.trans (.trans ?_ (failReaders_moves _ i)) (record_moves _ _))) (freeBuf_moves _ i)
    exact putBuf_moves b i _ (by simp)

theorem permanentFailure_moves (b : Bridge) (i : BufIdx) (failed : Option Nat) :
    Moves b (permanentFailure b i failed) := by
  unfold permanentFailure
  dsimp only
  have h1 : Moves b (match (b.buf i).lsn.bind (homeOf b) with
      | some u => markLost b u
      | none => b) := by
    split
    · rename_i u hu
      obtain ⟨n, -, hn⟩ := Option.bind_eq_some_iff.1 hu
      exact markLost_moves hn
    · exact .refl b
  split
  · exact ((h1.trans (record_moves _ _)).trans (noticeMoved_moves _ i _)).trans (endToSuccessor_moves _ i _)
  · exact ((h1.trans (record_moves _ _)).trans (noticeFailed_moves _ i)).trans (strand_moves _ i)

theorem discardBuf_moves (b : Bridge) (i : BufIdx) : Moves b (discardBuf b i) :=
  (noticeFailed_moves b i).trans (freeBuf_moves _ i)

theorem discardWhere_moves (b : Bridge) (p : Buffer → Bool) : Moves b (discardWhere b p) := by
  refine .forBufs (fun b i => ?_) b
  split
  · exact discardBuf_moves b i
  · exact .refl b

/-! ### Outcomes (WriteBack.lean) -/

theorem targetFailed_moves (b : Bridge) (i : BufIdx) (f : Flush) (psa : Nat) : Moves b (targetFailed b i f psa) := by
  unfold targetFailed
  split
  · exact remapAt_moves b i f _
  · exact permanentFailure_moves b i _

theorem nextPhase_moves (b : Bridge) (i : BufIdx) (f : Flush) (p : Phase) : Moves b (nextPhase b i f p) := by
  unfold nextPhase
  exact .trans (putFlush_moves b i _) (takeStamp_moves _)

theorem phaseEnded_moves (b : Bridge) (i : BufIdx) (psa : Nat) (kind : OrderKind) (o : SectorOutcome) :
    Moves b (phaseEnded b i psa kind o) := by
  unfold phaseEnded
  split
  · exact .refl b
  · split
    · split
      · exact nextPhase_moves b i _ _
      · exact nextPhase_moves b i _ _
      · split
        · exact commitJob_moves b i
        · exact targetFailed_moves b i _ _
      · exact .refl b
      all_goals exact targetFailed_moves b i _ _
    · exact .refl b

theorem spareGranted_moves {b : Bridge} {n u s : Nat} (hu : homeOf b n = some u) (hs : chooseSpare b u = some s)
    (i : BufIdx) (f : Flush) (r : SpareRequest) : Moves b (spareGranted b i f r u s) := by
  unfold spareGranted
  dsimp only
  split
  · have h1 := (grantSpare_moves hu hs f.causes.relocate).trans (eraseAt_moves _ i f s)
    split
    · exact h1.trans (record_moves _ _)
    · exact h1
  · exact ((grantSpare_moves hu hs false).trans (eraseAt_moves _ i _ s)).trans (record_moves _ _)

theorem spareRefused_moves (b : Bridge) (i : BufIdx) (f : Flush) (r : SpareRequest) :
    Moves b (spareRefused b i f r) := by
  unfold spareRefused
  split
  · exact permanentFailure_moves b i _
  · split
    · dsimp only
      refine .trans ?_ (takeTarget_moves _ i)
      exact putBuf_moves b i _ (by simp)
    · exact permanentFailure_moves b i _

theorem takeSpareRequest_moves (b : Bridge) (i : BufIdx) : Moves b (takeSpareRequest b i) := by
  unfold takeSpareRequest
  split
  · exact .refl b
  · split
    · exact .refl b
    · split
      · exact spareRefused_moves b i _ _
      · rename_i u hu
        obtain ⟨n, -, hn⟩ := Option.bind_eq_some_iff.1 hu
        split
        · rename_i s hs
          exact spareGranted_moves hn hs i _ _
        · exact spareRefused_moves b i _ _

/-! ### Causes (R106, R108) -/

/-- A job that takes its target keeps its causes. -/
theorem takeTarget_causes {b : Bridge} {i : BufIdx} {f : Flush} (h : (b.buf i).flush = some f) :
    ∃ f', ((takeTarget b i).buf i).flush = some f' ∧ f'.causes = f.causes := by
  have erase : ∀ p, ∃ f', ((eraseAt b i f p).buf i).flush = some f' ∧ f'.causes = f.causes := fun p =>
    ⟨{ f with phase := .erase, stage := some .pending, target := some p, erased := false, request := none,
              stamp := b.arb.stamps },
      by unfold eraseAt putFlush; rw [takeStamp_buf, buf_putBuf_self], rfl⟩
  have remap : ∀ r, ∃ f', ((remapAt b i f r).buf i).flush = some f' ∧ f'.causes = f.causes := fun r =>
    ⟨{ f with phase := .remap, stage := none, request := r }, by unfold remapAt putFlush; rw [buf_putBuf_self], rfl⟩
  unfold takeTarget
  rw [h]
  dsimp only
  split
  · exact remap _
  · split
    · exact ⟨f, h, rfl⟩
    · exact erase _
    · exact erase _
    · exact remap _

theorem orAged_aged {c : Causes} (h : c.aged = true) : c.orAged.aged = true := by
  unfold Causes.orAged
  split
  · rfl
  · exact h

/-- An OPEN buffer that is tested when its aging expiry is reached has a job with the cause AGED (R108). -/
theorem syncJob_aged {b : Bridge} {i : BufIdx} (ho : (b.buf i).state = .opened) (hd : i ∈ b.pool.testDue)
    (ha : agingDue b (b.buf i) = true) :
    ∃ f, ((syncJob b i).buf i).flush = some f ∧ f.causes.aged = true := by
  have hc : b.pool.testDue.contains i = true := by simpa using hd
  unfold syncJob
  dsimp only
  split
  · rename_i f hf
    have h1 : (jobCauses b i f).orAged.aged = true := orAged_aged (by unfold jobCauses; simp [ho, hd, ha])
    split
    · unfold endFill
      dsimp only
      obtain ⟨f', h', e⟩ := takeTarget_causes (i := i)
        (b := b.putBuf i { b.buf i with
          load := (b.buf i).load.map (fun l => { l with fillNeed := false })
          flush := some { f with causes := (jobCauses b i f).orAged, phase := .erase, stage := some .held } })
        (by rw [buf_putBuf_self])
      exact ⟨f', h', by rw [e]; exact h1⟩
    · split
      · rename_i he
        exact ⟨f, hf, by rw [← he]; exact h1⟩
      · exact ⟨_, by unfold putFlush; rw [buf_putBuf_self], h1⟩
  · rw [if_pos ho, if_neg (by intro h; simpa [hd, ha, Causes.none] using congrArg Causes.aged h)]
    unfold makeJob
    dsimp only
    split
    · unfold addFillNeed
      split
      · exact ⟨_, by rw [buf_putBuf_self]; unfold putFlush; rw [buf_putBuf_self], by simp [newFlush, hd, ha]⟩
      · exact ⟨_, by rw [takeStamp_buf, buf_putBuf_self]; unfold putFlush; rw [buf_putBuf_self],
          by simp [newFlush, hd, ha]⟩
    · split
      · exact ⟨_, by unfold putFlush; rw [buf_putBuf_self], by simp [newFlush, hd, ha]⟩
      · obtain ⟨f', h', e⟩ := takeTarget_causes (i := i)
          (b := putFlush b i (newFlush { causesNow b i with
            aged := b.pool.testDue.contains i && agingDue b (b.buf i) }))
          (by unfold putFlush; rw [buf_putBuf_self])
        exact ⟨f', h', by rw [e]; simp [newFlush, hd, ha]⟩

/-! ### Map changes (R131 to R133) -/

theorem tryMapWrite_dm (b : Bridge) {m : HeldMap} (hm : b.dm.map = some m) :
    tryMapWrite b = if mapWriteDue b m then startMapWrite b m 1 else b := by
  unfold tryMapWrite
  rw [hm]

/-- What one map change does. -/
theorem changeMap_changed (b : Bridge) (m : HeldMap) (entries : List MapEntry) :
    MapChanged b (changeMap b m entries) m entries := by
  have e0 : elapsed b.clock b.clock = 0 := by simp [elapsed]
  have hd : ∀ m' : HeldMap, m'.lastChange = some b.clock →
      (mapWriteDue b m' = true ↔ m'.writeState = .dirty
        ∧ (b.cart.state = .quiescing ∨ (b.cart.state = .ready ∧ b.mgmt.settings.mapWriteDelay = 0))) := by
    intro m' h'
    simp [mapWriteDue, h', e0]
  have hw : ∀ w : MapWriteState, (if w = .clean then MapWriteState.dirty else w) = .dirty ↔ w = .clean ∨ w = .dirty := by
    intro w; cases w <;> simp
  unfold changeMap
  rw [tryMapWrite_dm _ rfl]
  refine ⟨fun hn => ?_, fun hy => ?_⟩
  · rw [if_neg (by exact fun h => hn ⟨(hw _).1 ((hd _ rfl).1 h).1, ((hd _ rfl).1 h).2⟩)]
    rfl
  · rw [if_pos (by exact (hd _ rfl).2 ⟨(hw _).2 hy.1, hy.2⟩)]
    exact ⟨rfl, b.arb.stamps, Nat.le_refl _, Nat.lt_succ_self _, rfl⟩

/-- A map change stays what it is while stamps are taken and the map stays. -/
theorem MapChanged.after {b t t' : Bridge} {m : HeldMap} {entries : List MapEntry} (h : MapChanged b t m entries)
    (hd : t'.dm = t.dm) (hs : t.arb.stamps ≤ t'.arb.stamps) : MapChanged b t' m entries := by
  refine ⟨fun hn => hd.trans (h.1 hn), fun hy => ?_⟩
  obtain ⟨h1, st, h2, h3, h4⟩ := h.2 hy
  exact ⟨by rw [hd]; exact h1, st, h2, Nat.lt_of_lt_of_le h3 hs, by rw [hd]; exact h4⟩

end Sys2Proof.Machine
end

