-- ==== Sys2Proof/Laws/Settle.lean ====
section
/-! SUPPORT. What the consequences of an event can do (Arbiter.lean, Cartridge.lean, Settle.lean), said once as a relation
`Course`: `finish` leaves alone what `Steady` names, and keeps the counts, the map and the STRANDED buffers in their laws. -/

namespace Sys2Proof.Machine

/-- What the consequences of an event can do. -/
structure Course (b t : Bridge) : Prop where
  steady   : Steady b t
  counts   : CountsOk b → CountsOk t
  mapOk    : MapOk b → MapOk t
  stranded : StrandedOk b → StrandedOk t

/-! ### The relation -/

theorem Steady.refl (b : Bridge) : Steady b b :=
  ⟨rfl, rfl, rfl, rfl, rfl, rfl, .refl b, fun _ h _ => h, ⟨[], by simp⟩, rfl, ⟨rfl, rfl, rfl, rfl⟩, rfl,
    .inl ⟨rfl, rfl, rfl, rfl, rfl⟩⟩

theorem ejectWaits_congr {b t : Bridge} (hs : t.cart.state = b.cart.state)
    (hw : t.cart.ejectWaiting = b.cart.ejectWaiting) : ejectWaits t = ejectWaits b := by
  unfold ejectWaits
  rw [hs, hw]

theorem Steady.trans {a b c : Bridge} (h : Steady a b) (h' : Steady b c) : Steady a c := by
  refine ⟨h'.clock.trans h.clock, h'.router.trans h.router, ?_, ?_, ?_, h'.nextSeq.trans h.nextSeq,
    h.requests.trans h'.requests, fun f hf ht => h'.replies f (h.replies f hf ht) ht, ?_,
    h'.timeouts.trans h.timeouts, ?_, h'.mapHeld.trans h.mapHeld, ?_⟩
  · rw [h'.mgmt, h.mgmt]
  · rw [h'.link, h.link]
  · rw [h'.thru, h.thru]
  · obtain ⟨l, hl⟩ := h.exceptions
    obtain ⟨l', hl'⟩ := h'.exceptions
    exact ⟨l ++ l', by rw [hl', hl, List.append_assoc]⟩
  · obtain ⟨c1, c2, c3, c4⟩ := h.cart
    obtain ⟨d1, d2, d3, d4⟩ := h'.cart
    exact ⟨d1.trans c1, d2.trans c2, d3.trans c3, d4.trans c4⟩
  · rcases h.life with ⟨e1, e2, e3, e4, e5⟩ | ⟨e1, e2⟩ <;> rcases h'.life with ⟨f1, f2, f3, f4, f5⟩ | ⟨f1, f2⟩
    · exact .inl ⟨f1.trans e1, f2.trans e2, f3.trans e3, f4.trans e4, f5.trans e5⟩
    · rw [ejectWaits_congr e1 e2, e1] at f2
      exact .inr ⟨f1, f2⟩
    · exact .inr ⟨f1.trans e1, e2⟩
    · exact .inr ⟨f1, e2⟩

theorem Course.refl (b : Bridge) : Course b b := ⟨.refl b, id, id, id⟩

theorem Course.trans {a b c : Bridge} (h : Course a b) (h' : Course b c) : Course a c :=
  ⟨h.steady.trans h'.steady, h'.counts ∘ h.counts, h'.mapOk ∘ h.mapOk, h'.stranded ∘ h.stranded⟩

theorem Course.foldl {α : Type} {f : Bridge → α → Bridge} (h : ∀ b x, Course b (f b x)) (l : List α) (b : Bridge) :
    Course b (l.foldl f b) := foldl_rel .refl .trans h l b

theorem Moves.steady {b t : Bridge} (h : Moves b t) : Steady b t := by
  have fx := h.fixed
  have hmgmt : t.fixed.mgmt = b.fixed.mgmt := by rw [fx]
  have hlink : t.fixed.link = b.fixed.link := by rw [fx]
  have hthru : t.fixed.thru = b.fixed.thru := by rw [fx]
  have hcart : t.fixed.cart = b.fixed.cart := by rw [fx]
  have htable : t.fixed.table = b.fixed.table := by rw [fx]
  have hclock : t.fixed.clock = b.fixed.clock := by rw [fx]
  have hrouter : t.fixed.router = b.fixed.router := by rw [fx]
  have harb : t.fixed.arb.timeouts = b.fixed.arb.timeouts := by rw [fx]
  simp only [Bridge.fixed, Management.mk.injEq, and_true] at hmgmt
  simp only [Bridge.fixed, LinkPort.mk.injEq, true_and] at hlink
  simp only [Bridge.fixed, ThroughPort.mk.injEq, true_and] at hthru
  simp only [Bridge.fixed, CartRecord.mk.injEq, true_and, and_true] at hcart
  simp only [Bridge.fixed, RequestTable.mk.injEq, true_and] at htable
  refine ⟨hclock, hrouter, ?_, ?_, ?_, htable, h.requests, ?_, h.exceptions, harb, ?_, h.mapHeld, ?_⟩
  · dsimp only
    rw [← hmgmt.1, ← hmgmt.2.1, ← hmgmt.2.2]
  · dsimp only
    rw [← hlink.1, ← hlink.2.1, ← hlink.2.2.2.1, ← hlink.2.2.2.2.1, ← hlink.2.2.2.2.2]
  · dsimp only
    rw [← hthru.1, ← hthru.2.1, ← hthru.2.2.1, ← hthru.2.2.2.1, ← hthru.2.2.2.2.2]
  · intro f hf ht
    unfold outFrames at hf ⊢
    rw [hlink.2.2.1]
    rcases List.mem_append.1 hf with hf | hf
    · exact List.mem_append_left _ hf
    · exact List.mem_append_right _ (h.replies f hf ht)
  · obtain ⟨-, c2, c3, c4, -, -, -, -, c9⟩ := hcart
    exact ⟨c3, c2, c4, c9⟩
  · obtain ⟨c1, -, -, -, c5, c6, c7, c8, -⟩ := hcart
    exact .inl ⟨c1, c6, c8, c5, c7⟩

theorem Moves.course {b t : Bridge} (h : Moves b t) : Course b t := ⟨h.steady, h.counts, h.mapOk, h.stranded⟩

/-! ### The head -/

/-- What the Head Arbiter owns changes, but for the timeout count. -/
theorem arb_course (b : Bridge) (a : Arbiter) (streak : b.arb.streak ≤ 8 → a.streak ≤ 8)
    (timeouts : a.timeouts = b.arb.timeouts) : Course b { b with arb := a } := by
  refine ⟨⟨rfl, rfl, rfl, rfl, rfl, rfl, .of_table rfl, fun _ h _ => h, ⟨[], by simp⟩, timeouts, ⟨rfl, rfl, rfl, rfl⟩,
    rfl, .inl ⟨rfl, rfl, rfl, rfl, rfl⟩⟩, ?_, id, id⟩
  rintro ⟨h1, h2, h3, h4, h5, h6, h7, h8, h9, h10, h11, h12, h13⟩
  exact ⟨h1, h2, h3, h4, h5, h6, h7, h8, h9, h10, h11, streak h12, timeouts ▸ h13⟩

/-- The cartridge record changes as the consequences of an event may change it. -/
theorem cart_course (b : Bridge) (c : CartRecord)
    (counts : c.soft = b.cart.soft ∧ c.hard = b.cart.hard ∧ c.remaps = b.cart.remaps
      ∧ c.relocations = b.cart.relocations ∧ c.deferred = b.cart.deferred)
    (cart : c.layout = b.cart.layout ∧ c.spindle = b.cart.spindle ∧ c.reason = b.cart.reason
      ∧ c.settleExpiry = b.cart.settleExpiry)
    (step : c.mountStep = b.cart.mountStep ∨ c.mountStep = none)
    (life : (c.state = b.cart.state ∧ c.ejectWaiting = b.cart.ejectWaiting ∧ c.quiesce = b.cart.quiesce
        ∧ c.mountStep = b.cart.mountStep ∧ c.ejectBegun = b.cart.ejectBegun)
      ∨ (c.state = .ejecting ∧ (ejectWaits b = true ∨ b.cart.state = .quiescing))) :
    Course b { b with cart := c } := by
  obtain ⟨c1, c2, c3, c4, c5⟩ := counts
  refine ⟨⟨rfl, rfl, rfl, rfl, rfl, rfl, .of_table rfl, fun _ h _ => h, ⟨[], by simp⟩, rfl, cart, rfl, life⟩, ?_, ?_, id⟩
  · rintro ⟨h1, h2, h3, h4, h5, h6, h7, h8, h9, h10⟩
    refine ⟨h1, h2, h3, h4, ?_, ?_, ?_, ?_, ?_, h10⟩
    · exact c1 ▸ h5
    · exact c2 ▸ h6
    · exact c3 ▸ h7
    · exact c4 ▸ h8
    · exact c5 ▸ h9
  · rintro ⟨h1, h2, h3⟩
    refine ⟨fun l hl => h1 l (cart.1 ▸ hl), fun m hm => ⟨(h2 m hm).1, fun l hl => (h2 m hm).2 l (cart.1 ▸ hl)⟩,
      fun hs => ⟨?_, step.elim (fun e => e.trans (h3 hs).2) id⟩⟩
    show mayHoldMap c.state = true
    rcases life with ⟨e, -⟩ | ⟨e, -⟩
    · rw [e]; exact (h3 hs).1
    · rw [e]; rfl

theorem issueOrder_course (b : Bridge) (kind : OrderKind) (ps : List Piece) (d : List SectorData) :
    Course b (issueOrder b kind ps d) := arb_course b _ id rfl

theorem issueLife_course (b : Bridge) (kind : OrderKind) (ps : List Piece) : Course b (issueLife b kind ps) :=
  (issueOrder_course b kind ps []).trans (arb_course _ _ (fun _ => Nat.zero_le _) rfl)

theorem startPhase_stranded {kind : OrderKind} {x : Buffer} (h : (startPhase kind x).state = .stranded) :
    x.state = .stranded := by
  unfold startPhase at h
  dsimp only at h
  split at h
  · cases h
  · exact h

theorem startPiece_moves (kind : OrderKind) (b : Bridge) (p : Piece) : Moves b (startPiece kind b p) := by
  unfold startPiece
  split
  · exact putBuf_moves b _ _ (by simp)
  · exact putBuf_moves b _ _ startPhase_stranded
  · split
    · exact .refl b
    · rename_i m hm
      exact putMap_moves hm _ (EntriesOk.held (m := m) hm)
  · exact .refl b

theorem issueWork_course (b : Bridge) (w : Work) (kind : OrderKind) (psa streak : Nat) (hs : streak ≤ 8) :
    Course b (issueWork b w kind psa streak) := by
  unfold issueWork
  dsimp only
  refine .trans ?_ (.foldl (fun b p => (startPiece_moves kind b p).course) _ _)
  exact (issueOrder_course b kind _ _).trans (arb_course _ _ (fun _ => hs) rfl)

theorem nextStreak_le (b : Bridge) (works : List Work) (w : Work) : nextStreak b works w ≤ 8 := by
  unfold nextStreak
  split
  · exact Nat.min_le_right _ _
  · exact Nat.zero_le _

theorem endLostLoad_moves (b : Bridge) (i : BufIdx) : Moves b (endLostLoad b i) := by
  unfold endLostLoad
  split
  · exact loadLost_moves b i
  · exact .refl b

theorem grantWork_course {b t : Bridge} (h : grantWork b = some t) : Course b t := by
  have h1 := (Moves.forBufs endLostLoad_moves b).course
  unfold grantWork at h
  dsimp only at h
  obtain ⟨w, -, h2⟩ := Option.map_eq_some_iff.1 h
  generalize b.forBufs endLostLoad = c at h1 h2
  have done : ∀ {a : Bridge}, Course b a →
      (match workOrder a w with
        | some (kind, psa) => issueWork a w kind psa (nextStreak b (pendingWork b) w)
        | none => a) = t → Course b t := by
    intro a ha hat
    split at hat
    · exact hat ▸ ha.trans (issueWork_course _ w _ _ _ (nextStreak_le ..))
    · exact hat ▸ ha
  cases w
  · exact done h1 h2
  · exact done (.refl b) h2
  · exact done (.refl b) h2

theorem askLife_course (b : Bridge) (o : LifeOrder) : Course b (askLife b o) := by
  unfold askLife
  refine .trans ?_ (takeStamp_moves _).course
  exact arb_course b _ id rfl

theorem dueSpinUp_course (b : Bridge) : Course b (dueSpinUp b) := by
  unfold dueSpinUp
  split
  · exact .refl b
  · exact askLife_course b _

theorem dropLife_course (b : Bridge) : Course b (dropLife b) := arb_course b _ id rfl

theorem grantServing_course {b t : Bridge} (h : grantServing b = some t) : Course b t := by
  unfold grantServing at h
  split at h
  · split at h
    · obtain rfl := Option.some.inj h; exact issueLife_course b _ _
    · obtain rfl := Option.some.inj h; exact dropLife_course b
    all_goals cases h
  · split at h
    · obtain rfl := Option.some.inj h; exact (dueSpinUp_course b).trans (issueLife_course _ _ _)
    · exact (dropLife_course b).trans (grantWork_course h)

theorem arbiterStep_course {b t : Bridge} (h : arbiterStep b = some t) : Course b t := by
  unfold arbiterStep at h
  split at h
  · cases h
  · split at h
    · cases h
    · cases h
    · cases h
    · split at h
      · obtain rfl := Option.some.inj h; exact issueLife_course b _ _
      · cases h
    · obtain ⟨st, -, rfl⟩ := Option.map_eq_some_iff.1 h
      exact issueLife_course b _ _
    · split at h
      · exact grantServing_course h
      · cases h
    · split at h
      · exact grantServing_course h
      · cases h
    · split at h
      · obtain rfl := Option.some.inj h; exact issueLife_course b _ _
      · cases h
    · split at h
      · obtain rfl := Option.some.inj h; exact issueLife_course b _ _
      · cases h

/-! ### Entering EJECTING -/

theorem reportDiscard_moves (b : Bridge) (n : Nat) : Moves b (reportDiscard b n) := by
  unfold reportDiscard
  split
  · exact (Moves.andDeferred (.refl b)).trans (record_moves _ _)
  · exact .refl b

theorem beginEject_moves (b : Bridge) : Moves b (beginEject b) := by
  unfold beginEject
  dsimp only
  exact (((answerAll_moves b _ .mediaGone fun _ h => h).trans (discardWhere_moves _ _)).trans
    (reportDiscard_moves _ _)).trans (abandonMapWrite_moves _)

theorem enterEjecting_course (b : Bridge) (h : ejectWaits b = true ∨ b.cart.state = .quiescing) :
    Course b (enterEjecting b) := by
  have step : ∀ t : Bridge, Steady b t → (CountsOk b → CountsOk t) → (MapOk b → MapOk t) →
      (StrandedOk b → StrandedOk t) → t.cart.state = .ejecting →
      Course b (withCart t fun c => { c with quiesce := none, ejectWaiting := none, mountStep := none, ejectBegun := true }) := by
    intro t hs hc hm hst hej
    exact ⟨⟨hs.clock, hs.router, hs.mgmt, hs.link, hs.thru, hs.nextSeq, hs.requests, hs.replies, hs.exceptions,
      hs.timeouts, hs.cart, hs.mapHeld, .inr ⟨hej, h⟩⟩, hc,
      fun ok => ⟨(hm ok).1, (hm ok).2.1, fun held => ⟨((hm ok).2.2 held).1, rfl⟩⟩, hst⟩
  have h1 : Course b (withCart b fun c => { c with state := .ejecting, spinTimer := none }) :=
    cart_course b _ ⟨rfl, rfl, rfl, rfl, rfl⟩ ⟨rfl, rfl, rfl, rfl⟩ (.inl rfl) (.inr ⟨rfl, h⟩)
  unfold enterEjecting
  dsimp only
  refine .trans ?_ (askLife_course _ _)
  split
  · exact step _ h1.steady h1.counts h1.mapOk h1.stranded rfl
  · have h2 := beginEject_moves (withCart b fun c => { c with state := .ejecting, spinTimer := none })
    have h3 := h1.trans h2.course
    exact step _ h3.steady h3.counts h3.mapOk h3.stranded (fixed_cartState h2.fixed)

/-! ### The consequences of an event (Settle.lean) -/

theorem poolStep_moves {b t : Bridge} (h : poolStep b = some t) : Moves b t := by
  unfold poolStep at h
  split at h
  · obtain rfl := Option.some.inj h; exact permanentFailure_moves b _ _
  · split at h
    · obtain rfl := Option.some.inj h; exact pool_moves b _ rfl
    · split at h
      · split at h
        · obtain rfl := Option.some.inj h; exact grant_moves b _
        · split at h
          · cases h
          · obtain rfl := Option.some.inj h; exact .refl b
      · split at h
        · cases h
        · obtain rfl := Option.some.inj h; exact .refl b

theorem poolOnce_moves {rest : Bridge → Bridge} (h : ∀ b, Moves b (rest b)) (b : Bridge) :
    Moves b (poolOnce rest b) := by
  have h1 := syncJobs_moves b
  unfold poolOnce
  dsimp only
  generalize syncJobs b = c at h1
  split
  · exact h1
  · rename_i h2
    exact (h1.trans (poolStep_moves h2)).trans (h _)

theorem poolSettleFor_moves (n : Nat) : ∀ b : Bridge, Moves b (poolSettleFor n b) := by
  induction n with
  | zero => exact .refl
  | succ n ih => exact poolOnce_moves ih

theorem poolSettle_moves (b : Bridge) : Moves b (poolSettle b) := poolSettleFor_moves _ b

theorem headStep_course {b t : Bridge} (h : headStep b = some t) : Course b t := by
  unfold headStep at h
  split at h
  · rename_i hc
    obtain rfl := Option.some.inj h
    refine enterEjecting_course b ?_
    simp only [quiesceEnds, Bool.or_eq_true, Bool.and_eq_true, beq_iff_eq] at hc
    rcases hc with hc | hc
    · exact .inl hc.1
    · exact .inr hc.1.1
  · exact arbiterStep_course h

theorem settleOnce_course {rest : Bridge → Bridge} (h : ∀ b, Course b (rest b)) (b : Bridge) :
    Course b (settleOnce rest b) := by
  have h1 := (poolSettle_moves b).course
  unfold settleOnce
  dsimp only
  generalize poolSettle b = c at h1
  split
  · exact h1
  · rename_i h2
    exact (h1.trans (headStep_course h2)).trans (h _)

theorem settleFor_course (n : Nat) : ∀ b : Bridge, Course b (settleFor n b) := by
  induction n with
  | zero => exact .refl
  | succ n ih => exact settleOnce_course ih

theorem settle_course (b : Bridge) : Course b (settle b) := settleFor_course _ b

theorem refreshTimer_course (b : Bridge) : Course b (refreshTimer b) :=
  cart_course b _ ⟨rfl, rfl, rfl, rfl, rfl⟩ ⟨rfl, rfl, rfl, rfl⟩ (.inl rfl) (.inl ⟨rfl, rfl, rfl, rfl, rfl⟩)

/-- The queues and the transmissions of the ports change, no frame being lost. -/
theorem ports_course (b : Bridge) (q : List OutFrame) (x : Option OutFrame) (g : List FwdFrame) (y : Option FwdFrame)
    (h : x.toList ++ q = outFrames b) :
    Course b { b with link := { b.link with queue := q, tx := x }, thru := { b.thru with fifo := g, tx := y } } :=
  ⟨⟨rfl, rfl, rfl, rfl, rfl, rfl, .of_table rfl, fun f hf _ => by rw [← h] at hf; exact hf, ⟨[], by simp⟩, rfl,
    ⟨rfl, rfl, rfl, rfl⟩, rfl, .inl ⟨rfl, rfl, rfl, rfl, rfl⟩⟩, id, id, id⟩

theorem pump_course (b : Bridge) : Course b (pump b) := by
  have up : Course b (pumpUp b) := by
    have h := outFrames_pumpUp b
    revert h
    unfold pumpUp
    split
    · split
      · exact fun _ => .refl b
      · exact fun h => ports_course b _ _ b.thru.fifo b.thru.tx h
    · exact fun _ => .refl b
  unfold pump
  refine up.trans ?_
  generalize pumpUp b = c
  unfold pumpDown
  split
  · split
    · exact ports_course c c.link.queue c.link.tx _ _ rfl
    · exact .refl c
  · exact .refl c

/-! ### The spin-down timer (R102, R146) -/

theorem askLife_timed (b : Bridge) (o : LifeOrder) : Timed b (askLife b o) := .inr ⟨Nat.lt_succ_self _, rfl⟩

theorem issueLife_timed (b : Bridge) (kind : OrderKind) (ps : List Piece) : Timed b (issueLife b kind ps) :=
  .inl ⟨rfl, rfl⟩

theorem issueWork_timed (b : Bridge) (w : Work) (kind : OrderKind) (psa streak : Nat) :
    Timed b (issueWork b w kind psa streak) := by
  unfold issueWork
  dsimp only
  refine .trans ?_ (foldl_rel .refl .trans (fun b p => (startPiece_moves kind b p).timer) _ _)
  exact .inl ⟨rfl, rfl⟩

theorem grantWork_timed {b t : Bridge} (h : grantWork b = some t) : Timed b t := by
  have h1 := (Moves.forBufs endLostLoad_moves b).timer
  unfold grantWork at h
  dsimp only at h
  obtain ⟨w, -, h2⟩ := Option.map_eq_some_iff.1 h
  generalize b.forBufs endLostLoad = c at h1 h2
  have done : ∀ {a : Bridge}, Timed b a →
      (match workOrder a w with
        | some (kind, psa) => issueWork a w kind psa (nextStreak b (pendingWork b) w)
        | none => a) = t → Timed b t := by
    intro a ha hat
    split at hat
    · exact hat ▸ ha.trans (issueWork_timed _ w _ _ _)
    · exact hat ▸ ha
  cases w
  · exact done h1 h2
  · exact done (.refl b) h2
  · exact done (.refl b) h2

theorem grantServing_timed {b t : Bridge} (h : grantServing b = some t) : Timed b t := by
  unfold grantServing at h
  split at h
  · split at h
    · obtain rfl := Option.some.inj h; exact issueLife_timed b _ _
    · obtain rfl := Option.some.inj h; exact .inl ⟨rfl, rfl⟩
    all_goals cases h
  · split at h
    · obtain rfl := Option.some.inj h
      refine .trans (b := dueSpinUp b) ?_ (issueLife_timed _ _ _)
      unfold dueSpinUp
      split
      · exact .refl b
      · exact askLife_timed b _
    · exact .trans (b := dropLife b) (.inl ⟨rfl, rfl⟩) (grantWork_timed h)

theorem arbiterStep_timed {b t : Bridge} (h : arbiterStep b = some t) : Timed b t := by
  unfold arbiterStep at h
  split at h
  · cases h
  · split at h
    · cases h
    · cases h
    · cases h
    · split at h
      · obtain rfl := Option.some.inj h; exact issueLife_timed b _ _
      · cases h
    · obtain ⟨st, -, rfl⟩ := Option.map_eq_some_iff.1 h
      exact issueLife_timed b _ _
    · split at h
      · exact grantServing_timed h
      · cases h
    · split at h
      · exact grantServing_timed h
      · cases h
    · split at h
      · obtain rfl := Option.some.inj h; exact issueLife_timed b _ _
      · cases h
    · split at h
      · obtain rfl := Option.some.inj h; exact issueLife_timed b _ _
      · cases h

/-- Entering EJECTING asks for the EJECT, which takes a stamp. -/
theorem enterEjecting_timed (b : Bridge) : Timed b (enterEjecting b) := by
  unfold enterEjecting
  dsimp only
  have asked : ∀ (t : Bridge) (f : CartRecord → CartRecord), b.arb.stamps ≤ t.arb.stamps →
      Timed b (askLife (withCart t f) .eject) := fun t f h => .inr ⟨Nat.lt_succ_of_le h, rfl⟩
  split
  · exact asked _ _ (Nat.le_refl _)
  · exact asked _ _ (beginEject_moves (withCart b fun c => { c with state := .ejecting, spinTimer := none })).timer.le

theorem headStep_timed {b t : Bridge} (h : headStep b = some t) : Timed b t := by
  unfold headStep at h
  split at h
  · obtain rfl := Option.some.inj h
    exact enterEjecting_timed b
  · exact arbiterStep_timed h

theorem settleOnce_timed {rest : Bridge → Bridge} (h : ∀ b, Timed b (rest b)) (b : Bridge) :
    Timed b (settleOnce rest b) := by
  have h1 := (poolSettle_moves b).timer
  unfold settleOnce
  dsimp only
  generalize poolSettle b = c at h1
  split
  · exact h1
  · rename_i h2
    exact (h1.trans (headStep_timed h2)).trans (h _)

theorem settleFor_timed (n : Nat) : ∀ b : Bridge, Timed b (settleFor n b) := by
  induction n with
  | zero => exact .refl
  | succ n ih => exact settleOnce_timed ih

/-- The consequences of an event stop the spin-down timer where they take a stamp, and leave it alone where they take none. -/
theorem settle_timed (b : Bridge) : Timed b (settle b) := settleFor_timed _ b

/-- What the end of a step can do. -/
theorem finish_course (b : Bridge) : Course b (finish b) :=
  ((settle_course b).trans (refreshTimer_course _)).trans (pump_course _)

/-! ### A waiting eject (R147) -/

theorem fixed_cart {b t : Bridge} (h : t.fixed = b.fixed) :
    t.cart.ejectWaiting = b.cart.ejectWaiting ∧ t.cart.ejectBegun = b.cart.ejectBegun ∧ t.arb.order = b.arb.order := by
  have hcart : t.fixed.cart = b.fixed.cart := by rw [h]
  have harb : t.fixed.arb = b.fixed.arb := by rw [h]
  simp only [Bridge.fixed, CartRecord.mk.injEq, Arbiter.mk.injEq, true_and, and_true] at hcart harb
  exact ⟨by tauto, by tauto, by tauto⟩

theorem enterEjecting_cart (b : Bridge) :
    let t := enterEjecting b
    t.cart.state = .ejecting ∧ t.cart.ejectBegun = true ∧ t.cart.ejectWaiting = none ∧ t.cart.mountStep = none := by
  unfold enterEjecting
  dsimp only
  split
  · exact ⟨rfl, rfl, rfl, rfl⟩
  · have h := fixed_cartState (beginEject_moves (withCart b fun c => { c with state := .ejecting, spinTimer := none })).fixed
    generalize beginEject _ = d at h
    exact ⟨h, rfl, rfl, rfl⟩

/-- An eject that waits is acted on in the step in which no order is in flight (R147). -/
theorem finish_ejects {b : Bridge} (hw : ejectWaits b = true) (ho : b.arb.order = none) :
    let t := finish b
    t.cart.state = .ejecting ∧ t.cart.ejectBegun = true ∧ t.cart.ejectWaiting = none ∧ t.cart.mountStep = none := by
  have hm := (poolSettle_moves b).fixed
  obtain ⟨m1, -, m3⟩ := fixed_cart hm
  have hw' : ejectWaits (poolSettle b) = true := (ejectWaits_congr (fixed_cartState hm) m1).trans hw
  have hs : settle b = settleFor 99 (enterEjecting (poolSettle b)) := by
    have hh : headStep (poolSettle b) = some (enterEjecting (poolSettle b)) := by
      unfold headStep
      rw [if_pos (by rw [hw', m3, ho]; rfl)]
    have h1 : settle b = settleOnce (settleFor 99) b := rfl
    rw [h1]
    unfold settleOnce
    dsimp only
    rw [hh]
  have he := enterEjecting_cart (poolSettle b)
  dsimp only at he
  generalize enterEjecting (poolSettle b) = d at hs he
  obtain ⟨e1, e2, e3, e4⟩ := he
  have hc : Course d (finish b) := by
    unfold finish
    rw [hs]
    exact ((settleFor_course 99 d).trans (refreshTimer_course _)).trans (pump_course _)
  dsimp only
  generalize finish b = t at hc ⊢
  rcases hc.steady.life with ⟨l1, l2, -, l4, l5⟩ | ⟨-, h⟩
  · exact ⟨l1.trans e1, l5.trans e2, l2.trans e3, l4.trans e4⟩
  · unfold ejectWaits at h
    rw [e1] at h
    rcases h with h | h <;> cases h

/-! ### What follows at the head (R88, R92) -/

theorem settle_eq (b : Bridge) : settle b = settleOnce (settleFor 99) b := rfl

/-- Where nothing follows at the head, the pool's consequences are all there are. -/
theorem settle_of_none {b : Bridge} (h : headStep (poolSettle b) = none) : settle b = poolSettle b := by
  rw [settle_eq]
  unfold settleOnce
  dsimp only
  rw [h]

/-- Where something follows at the head, the consequences go on from there. -/
theorem settle_of_some {b c : Bridge} (h : headStep (poolSettle b) = some c) : settle b = settleFor 99 c := by
  rw [settle_eq]
  unfold settleOnce
  dsimp only
  rw [h]

/-- With an order in flight nothing follows at the head. -/
theorem headStep_of_order {b : Bridge} {o : Order} (h : b.arb.order = some o) : headStep b = none := by
  unfold headStep
  rw [if_neg (by simp [quiesceEnds, h])]
  unfold arbiterStep
  simp [h]

/-- An order in flight stays in flight. -/
theorem settleFor_order {b : Bridge} {o : Order} (n : Nat) (h : b.arb.order = some o) :
    (settleFor n b).arb.order = some o := by
  cases n with
  | zero => exact h
  | succ n =>
    have hp : (poolSettle b).arb.order = some o := (fixed_cart (poolSettle_moves b).fixed).2.2.trans h
    have hn := headStep_of_order hp
    have e : settleFor (n + 1) b = poolSettle b := by
      unfold settleFor settleOnce
      dsimp only
      rw [hn]
    rw [e, hp]

theorem finish_order_of_settle {b : Bridge} {o : Order} (h : (settle b).arb.order = some o) :
    (finish b).arb.order = some o := by
  have p : ∀ c : Bridge, (pump c).arb = c.arb := fun c => by
    unfold pump pumpDown pumpUp
    repeat' split
    all_goals rfl
  unfold finish
  rw [p]
  generalize settle b = c at h
  exact h

/-- An order that is in flight, or that what follows at the head issues, is in flight at the end of the step. -/
theorem finish_order {b : Bridge} {o : Order} (h : b.arb.order = some o) : (finish b).arb.order = some o :=
  finish_order_of_settle (by unfold settle; exact settleFor_order headFuel h)

theorem finish_granted {b c : Bridge} {o : Order} (h : headStep (poolSettle b) = some c) (ho : c.arb.order = some o) :
    (finish b).arb.order = some o :=
  finish_order_of_settle (by rw [settle_of_some h]; exact settleFor_order 99 ho)

end Sys2Proof.Machine
end

