-- ==== Sys2Proof/Laws/Requests.lean ====
section
/-! SUPPORT. How a request is taken in, refused and answered (Ops.lean, Management.lean), in the terms of Safety.lean. -/

namespace Sys2Proof.Machine

/-! ### Taking in -/

theorem takeRequest_received {b : Bridge} {h : Header} {op : Op} (route : Bridge → Bridge) (r : Received b h)
    (c : contentOk op h = true) :
    takeRequest b h op route = route { b with link := { b.link with partialRx := [] } } := by
  have hk : Bridge.entry { b with link := { b.link with partialRx := [] } } h.key = none := r.2
  unfold takeRequest
  rw [if_neg (by simp [r.1])]
  dsimp only
  rw [hk, if_neg (by simp), if_pos c]

theorem takeRequest_badContent {b : Bridge} {h : Header} {op : Op} (route : Bridge → Bridge) (r : Received b h)
    (c : contentOk op h = false) :
    takeRequest b h op route = refuse { b with link := { b.link with partialRx := [] } } h op .badRequest := by
  have hk : Bridge.entry { b with link := { b.link with partialRx := [] } } h.key = none := r.2
  unfold takeRequest
  rw [if_neg (by simp [r.1])]
  dsimp only
  rw [hk, if_neg (by simp), if_neg (by simp [c])]

theorem takeRequest_held {b : Bridge} {h : Header} {op : Op} {e : Entry} (route : Bridge → Bridge)
    (r : b.link.resetHeld = false) (hk : b.entry h.key = some e) :
    takeRequest b h op route = keyHeld { b with link := { b.link with partialRx := [] } } h := by
  have hk' : Bridge.entry { b with link := { b.link with partialRx := [] } } h.key = some e := hk
  unfold takeRequest
  rw [if_neg (by simp [r])]
  dsimp only
  rw [hk', if_pos (by simp)]

theorem takeRequest_resetHeld {b : Bridge} {h : Header} {op : Op} (route : Bridge → Bridge)
    (r : b.link.resetHeld = true) : takeRequest b h op route = b := by
  unfold takeRequest
  rw [if_pos r]

theorem makeEntry_eq (b : Bridge) (h : Header) (op : Op) (f : Entry → Entry) :
    makeEntry { b with link := { b.link with partialRx := [] } } h op f
      = withEntry b h (f (freshEntry h op b.table.nextSeq)) := rfl

theorem withEntry_entry_self (b : Bridge) (h : Header) (e : Entry) : (withEntry b h e).entry h.key = some e := by
  simp [withEntry, Bridge.entry]

theorem withEntry_entry_ne (b : Bridge) {h : Header} {k : Key} (e : Entry) (hk : k ≠ h.key) :
    (withEntry b h e).entry k = b.entry k := by
  have := entry_putEntry_ne b (some e) hk
  exact this

@[simp] theorem withEntry_clock (b : Bridge) (h e) : (withEntry b h e).clock = b.clock := rfl
@[simp] theorem withEntry_queue (b : Bridge) (h e) : (withEntry b h e).link.queue = b.link.queue := rfl
@[simp] theorem withEntry_thru (b : Bridge) (h e) : (withEntry b h e).thru = b.thru := rfl
@[simp] theorem withEntry_router (b : Bridge) (h e) : (withEntry b h e).router = b.router := rfl
@[simp] theorem withEntry_pool (b : Bridge) (h e) : (withEntry b h e).pool = b.pool := rfl
@[simp] theorem withEntry_buf (b : Bridge) (h e i) : (withEntry b h e).buf i = b.buf i := rfl
@[simp] theorem withEntry_arb (b : Bridge) (h e) : (withEntry b h e).arb = b.arb := rfl
@[simp] theorem withEntry_dm (b : Bridge) (h e) : (withEntry b h e).dm = b.dm := rfl
@[simp] theorem withEntry_cart (b : Bridge) (h e) : (withEntry b h e).cart = b.cart := rfl
@[simp] theorem withEntry_mgmt (b : Bridge) (h e) : (withEntry b h e).mgmt = b.mgmt := rfl

/-- An entry that a test does not count, at a key that was free, changes no list of keys. -/
theorem keysWhere_withEntry {b : Bridge} {h : Header} {e : Entry} {p : Entry → Bool} (hk : b.entry h.key = none)
    (hp : p e = false) : keysWhere (withEntry b h e) p = keysWhere b p := by
  unfold keysWhere
  refine List.filter_congr fun k _ => ?_
  by_cases hkk : k = h.key
  · rw [hkk, withEntry_entry_self, hk]; simp [hp]
  · rw [withEntry_entry_ne _ _ hkk]

theorem pump_entry (b : Bridge) (k : Key) : (pump b).entry k = b.entry k := by
  unfold pump pumpDown pumpUp
  repeat' split
  all_goals rfl

theorem pump_mgmt (b : Bridge) : (pump b).mgmt = b.mgmt := by
  unfold pump pumpDown pumpUp
  repeat' split
  all_goals rfl

theorem pump_cart (b : Bridge) : (pump b).cart = b.cart := by
  unfold pump pumpDown pumpUp
  repeat' split
  all_goals rfl

theorem pump_router (b : Bridge) : (pump b).router = b.router := (pump_course b).steady.router

theorem pump_arb (b : Bridge) : (pump b).arb = b.arb := by
  unfold pump pumpDown pumpUp
  repeat' split
  all_goals rfl

theorem pump_dm (b : Bridge) : (pump b).dm = b.dm := by
  unfold pump pumpDown pumpUp
  repeat' split
  all_goals rfl

/-! ### Answering -/

/-- An entry that pins nothing and reads nothing is answered. -/
theorem answer_eq {b : Bridge} {k : Key} {e : Entry} (st : Status) (done : Nat) (p : Payload) (he : b.entry k = some e)
    (hs : e.state ≠ .answered) (hf : e.state ≠ .fetching) (hp : e.pinned = []) :
    answer b k st done p = closedWith b k e st done p := by
  unfold answer
  rw [he]
  dsimp only
  unfold answerFrame
  rw [he]
  dsimp only
  rw [if_neg hs, hp, if_neg hf]
  rfl

theorem newEntry_pinned (b : Bridge) (h : Header) (op : Op) (r : Option Routing) : (newEntry b h op r).pinned = [] := by
  by_cases h : op = .write <;> simp [newEntry, freshEntry, Entry.pinned, h]

/-- A request that was just taken in is answered. -/
theorem answer_new {b c : Bridge} {h : Header} {op : Op} {r : Option Routing} (st : Status) (done : Nat) (p : Payload)
    (he : c.entry h.key = some (newEntry b h op r)) :
    answer c h.key st done p = closedWith c h.key (newEntry b h op r) st done p :=
  answer_eq st done p he (by simp [newEntry, freshEntry]) (by simp [newEntry, freshEntry]) (newEntry_pinned ..)

theorem refuse_eq (b : Bridge) (h : Header) (op : Op) (st : Status) :
    refuse { b with link := { b.link with partialRx := [] } } h op st = answeredAtOnce b h op none st .none := by
  unfold refuse answerStatus
  rw [makeEntry_eq]
  exact answer_new (b := b) (r := none) st 0 .none (withEntry_entry_self ..)

theorem closedWith_entry_self (b : Bridge) (k : Key) (e : Entry) (st : Status) (done : Nat) (p : Payload) :
    (closedWith b k e st done p).entry k
      = some { e with state := .answered, status := some st, blocksDone := done, pins := [], awaited := none } := by
  simp [closedWith, Bridge.entry]

theorem closedWith_isAnswered (b : Bridge) (k : Key) (e : Entry) (st : Status) (done : Nat) (p : Payload) :
    IsAnswered (closedWith b k e st done p) k st done p :=
  ⟨_, closedWith_entry_self .., rfl, rfl, rfl, rfl, rfl, List.mem_append_right _ (self_mem_queueReply ..)⟩

theorem answeredAtOnce_isAnswered (b : Bridge) (h : Header) (op : Op) (r : Option Routing) (st : Status) (p : Payload) :
    IsAnswered (answeredAtOnce b h op r st p) h.key st 0 p := closedWith_isAnswered ..

/-- An answer stays what it is. -/
theorem IsAnswered.steady {b t : Bridge} {k : Key} {st : Status} {done : Nat} {p : Payload} (h : IsAnswered b k st done p)
    (s : Steady b t) : IsAnswered t k st done p := by
  obtain ⟨e, he, h1, h2, h3, h4, h5, h6⟩ := h
  obtain ⟨e', he', -, hsame⟩ := s.requests.2 k e he
  have := hsame (by simp [isActive, h1])
  subst this
  exact ⟨e', he', h1, h2, h3, h4, h5, s.replies _ h6 rfl⟩

theorem IsAnswered.finish {b : Bridge} {k : Key} {st : Status} {done : Nat} {p : Payload} (h : IsAnswered b k st done p) :
    IsAnswered (finish b) k st done p := h.steady (finish_course b).steady

theorem IsAnswered.pump {b : Bridge} {k : Key} {st : Status} {done : Nat} {p : Payload} (h : IsAnswered b k st done p) :
    IsAnswered (pump b) k st done p := h.steady (pump_course b).steady

/-! ### The command of a request -/

theorem become_eq (s : State) (f : Bridge → Bridge) : s.become f = .next (s.withBridge (f s.bridge)) := rfl

/-- What ends a command's step. -/
def EndsStep (f : Bridge → Bridge) : Prop := f = finish ∨ f = pump

theorem EndsStep.apply {f : Bridge → Bridge} (h : EndsStep f) (b : Bridge) : f b = finish b ∨ f b = pump b := by
  rcases h with rfl | rfl
  · exact .inl rfl
  · exact .inr rfl

theorem IsAnswered.endStep {b : Bridge} {k : Key} {st : Status} {done : Nat} {p : Payload} (h : IsAnswered b k st done p)
    {f : Bridge → Bridge} (hf : EndsStep f) : IsAnswered (f b) k st done p := by
  rcases hf with rfl | rfl
  · exact h.finish
  · exact h.pump

theorem writeFormOk_of_wellFormed {h : Header} {data : List Block} (w : wellFormed (.write h data) = true) :
    writeFormOk h data = true := by
  simp only [wellFormed] at w
  unfold writeFormOk
  split at w
  · rw [w, Bool.or_true]
  · rename_i hc
    rw [Bool.not_eq_true] at hc
    rw [hc]; rfl

/-- A WRITE whose payload fits its count. -/
theorem exec_write {h : Header} {data : List Block} (s : State) (w : writeFormOk h data = true) :
    exec (.write h data) s = .next (s.withBridge
      (finish (takeRequest s.bridge h .write (routeBlocks h .write data (admitWriteRequest h data))))) := by
  simp only [exec, execWrite, State.become, w, if_true]
  rfl

/-- Every request frame is taken in by `takeRequest`, and its step ends with `finish` or `pump`. -/
theorem exec_request {c : Instr} {op : Op} {h : Header} (s : State) (hc : requestOf c = some (op, h))
    (hw : wellFormed c = true) :
    ∃ ending route, EndsStep ending
      ∧ exec c s = .next (s.withBridge (ending (takeRequest s.bridge h op route))) := by
  cases c <;> simp only [requestOf, Option.some.injEq, Prod.mk.injEq, reduceCtorEq] at hc
  all_goals obtain ⟨rfl, rfl⟩ := hc
  case write h data => exact ⟨_, _, .inl rfl, exec_write s (writeFormOk_of_wellFormed hw)⟩
  case read | flush | abort | setSettings | eject | recover | discardStranded => exact ⟨finish, _, .inl rfl, rfl⟩
  all_goals exact ⟨pump, _, .inr rfl, rfl⟩

/-- The answer of a request that was just taken in. -/
theorem answer_withEntry (b : Bridge) (h : Header) (op : Op) (r : Option Routing) (st : Status) (p : Payload) :
    answer (withEntry b h (newEntry b h op r)) h.key st 0 p = answeredAtOnce b h op r st p :=
  answer_new (b := b) st 0 p (withEntry_entry_self ..)

theorem answerStatus_withEntry (b : Bridge) (h : Header) (op : Op) (r : Option Routing) (st : Status) :
    answerStatus (withEntry b h (newEntry b h op r)) h.key st = answeredAtOnce b h op r st .none := answer_withEntry ..

theorem answerItems_withEntry (b : Bridge) (h : Header) (op : Op) (r : Option Routing) (l : List Item) :
    answerItems (withEntry b h (newEntry b h op r)) h.key l = answeredAtOnce b h op r .ok (.items l) := answer_withEntry ..

/-! ### Management requests (R176) -/

theorem contentOk_management {op : Op} {h : Header} (ho : op.isManagement = true) (hc : h.count = 0) :
    contentOk op h = true := by
  cases op <;> simp [Op.isManagement] at ho <;> simp [contentOk, countOk, hc]

/-- A management request whose operation acts. -/
theorem manage_acts {b : Bridge} {h : Header} {op : Op} {items : List Item} (act : Bridge → Bridge)
    (ho : op.isManagement = true) (m : Managed b h op items) :
    manage h op items act b = act (withEntry b h (newEntry b h op (some .management))) := by
  obtain ⟨hr, hu, hc, hi, hl⟩ := m
  unfold manage
  rw [takeRequest_received _ hr (contentOk_management ho hc)]
  dsimp only
  rw [if_neg (by simp [hu]), makeEntry_eq, if_neg (by simp [hi])]
  rw [if_neg]
  · rfl
  · simp only [Bool.and_eq_true, bne_iff_ne, not_and, ne_eq, Decidable.not_not]
    exact hl

/-- The step of a management request whose operation acts. -/
theorem exec_managed {s : State} {h : Header} {op : Op} {items : List Item} (act ending : Bridge → Bridge)
    (ho : op.isManagement = true) (m : Managed s.bridge h op items) :
    s.become (fun b => ending (manage h op items act b))
      = .next (s.withBridge (ending (act (withEntry s.bridge h (newEntry s.bridge h op (some .management)))))) := by
  rw [become_eq, manage_acts act ho m]

end Sys2Proof.Machine
end

