-- ==== Sys2Proof/Laws/Lawful.lean ====
section
/-! SUPPORT. The laws of the state that Safety.lean names, kept by the operations that requests and the events of the links,
the mechanism and the cartridge are made of. -/

namespace Sys2Proof.Machine

/-- Every law of the state that holds before holds after. -/
structure Lawful (b t : Bridge) : Prop where
  tables   : TablesOk b → TablesOk t
  lock     : LockListOk b → LockListOk t
  counts   : CountsOk b → CountsOk t
  stranded : StrandedOk b → StrandedOk t
  mapOk    : MapOk b → MapOk t

theorem Lawful.refl (b : Bridge) : Lawful b b := ⟨id, id, id, id, id⟩

theorem Lawful.trans {a b c : Bridge} (h : Lawful a b) (h' : Lawful b c) : Lawful a c :=
  ⟨h'.tables ∘ h.tables, h'.lock ∘ h.lock, h'.counts ∘ h.counts, h'.stranded ∘ h.stranded, h'.mapOk ∘ h.mapOk⟩

theorem Lawful.foldl {α : Type} {f : Bridge → α → Bridge} (h : ∀ b x, Lawful b (f b x)) (l : List α) (b : Bridge) :
    Lawful b (l.foldl f b) := foldl_rel .refl .trans h l b

theorem TablesOk.congr {b t : Bridge} (router : t.router = b.router) (settings : t.mgmt.settings = b.mgmt.settings)
    (h : TablesOk b) : TablesOk t := by
  unfold TablesOk
  rw [router, settings]
  exact h

theorem LockListOk.congr {b t : Bridge} (holder : t.mgmt.holder = b.mgmt.holder) (waiting : t.mgmt.waiting = b.mgmt.waiting)
    (h : LockListOk b) : LockListOk t := by
  unfold LockListOk
  rw [holder, waiting]
  exact h

theorem Course.lawful {b t : Bridge} (h : Course b t) : Lawful b t := by
  have hm := h.steady.mgmt
  exact ⟨.congr h.steady.router (by rw [hm]), .congr (by rw [hm]) (by rw [hm]), h.counts, h.stranded, h.mapOk⟩

theorem Moves.lawful {b t : Bridge} (h : Moves b t) : Lawful b t := h.course.lawful

theorem finish_lawful (b : Bridge) : Lawful b (finish b) := (finish_course b).lawful

theorem pump_lawful (b : Bridge) : Lawful b (pump b) := (pump_course b).lawful

/-- A change of the clock, the entries, the queues, the transmissions and what else no law speaks of. -/
theorem Lawful.of_parts {b t : Bridge} (router : t.router = b.router) (settings : t.mgmt.settings = b.mgmt.settings)
    (holder : t.mgmt.holder = b.mgmt.holder) (waiting : t.mgmt.waiting = b.mgmt.waiting)
    (exceptions : t.mgmt.exceptions = b.mgmt.exceptions) (overflow : t.mgmt.overflow = b.mgmt.overflow)
    (link : t.link.badCheck = b.link.badCheck ∧ t.link.malformed = b.link.malformed ∧ t.link.attnSent = b.link.attnSent)
    (stray : t.thru.stray = b.thru.stray) (arb : t.arb.streak = b.arb.streak ∧ t.arb.timeouts = b.arb.timeouts)
    (cart : t.cart.layout = b.cart.layout ∧ t.cart.soft = b.cart.soft ∧ t.cart.hard = b.cart.hard
      ∧ t.cart.remaps = b.cart.remaps ∧ t.cart.relocations = b.cart.relocations ∧ t.cart.deferred = b.cart.deferred)
    (map : t.dm.map = b.dm.map) (life : t.cart.state = b.cart.state ∧ t.cart.mountStep = b.cart.mountStep)
    (stranded : ∀ i, (t.buf i).state = .stranded → (b.buf i).state = .stranded) : Lawful b t := by
  obtain ⟨c1, c2, c3, c4, c5, c6⟩ := cart
  refine ⟨.congr router settings, .congr holder waiting, ?_, fun h => Nat.le_trans (strandedCount_mono stranded) h, ?_⟩
  · unfold CountsOk
    rw [link.1, link.2.1, link.2.2, stray, arb.1, arb.2, c2, c3, c4, c5, c6, exceptions, overflow]
    exact id
  · unfold MapOk
    rw [map, c1, life.1, life.2]
    exact id

theorem Closes.lawful {b t : Bridge} (h : Closes b t) : Lawful b t := by
  have hl := h.link
  have ht := h.thru
  refine .of_parts h.router (by rw [h.mgmt]) (by rw [h.mgmt]) (by rw [h.mgmt]) (by rw [h.mgmt]) (by rw [h.mgmt]) ?_
    (by rw [ht]) (by rw [h.arb]; exact ⟨rfl, rfl⟩) (by rw [h.cart]; exact ⟨rfl, rfl, rfl, rfl, rfl, rfl⟩) (by rw [h.dm])
    (by rw [h.cart]; exact ⟨rfl, rfl⟩) h.stranded
  rw [hl]
  exact ⟨rfl, rfl, rfl⟩

/-- The table of requests and the ports change, but for the counters. -/
theorem table_lawful (b : Bridge) (t : RequestTable) (l : LinkPort) (p : ThroughPort)
    (hl : l.badCheck = b.link.badCheck ∧ l.malformed = b.link.malformed ∧ l.attnSent = b.link.attnSent)
    (hp : p.stray = b.thru.stray) : Lawful b { b with table := t, link := l, thru := p } :=
  .of_parts rfl rfl rfl rfl rfl rfl hl hp ⟨rfl, rfl⟩ ⟨rfl, rfl, rfl, rfl, rfl, rfl⟩ rfl ⟨rfl, rfl⟩ fun _ h => h

theorem putEntry_lawful (b : Bridge) (k : Key) (e : Option Entry) : Lawful b (b.putEntry k e) :=
  table_lawful b _ b.link b.thru ⟨rfl, rfl, rfl⟩ rfl

theorem answer_lawful (b : Bridge) (k : Key) (st : Status) (done : Nat) (p : Payload) : Lawful b (answer b k st done p) :=
  (answer_closes ..).lawful

theorem answerStatus_lawful (b : Bridge) (k : Key) (st : Status) : Lawful b (answerStatus b k st) := answer_lawful ..

theorem answerAll_lawful (b : Bridge) (p : Entry → Bool) (st : Status) : Lawful b (answerAll b p st) :=
  (answerAll_closes ..).lawful

/-! ### Requests (Ops.lean, Router.lean, Requests.lean) -/

theorem makeEntry_lawful (b : Bridge) (h : Header) (op : Op) (f : Entry → Entry) : Lawful b (makeEntry b h op f) :=
  table_lawful b _ b.link b.thru ⟨rfl, rfl, rfl⟩ rfl

theorem refuse_lawful (b : Bridge) (h : Header) (op : Op) (st : Status) : Lawful b (refuse b h op st) :=
  (makeEntry_lawful ..).trans (answerStatus_lawful ..)

theorem editEntry_lawful (b : Bridge) (k : Key) (f : Entry → Entry) : Lawful b (editEntry b k f) := by
  unfold editEntry
  split
  · exact .refl b
  · exact putEntry_lawful ..

theorem takeRequest_lawful (b : Bridge) (h : Header) (op : Op) {route : Bridge → Bridge} (hr : ∀ b, Lawful b (route b)) :
    Lawful b (takeRequest b h op route) := by
  unfold takeRequest
  split
  · exact .refl b
  · dsimp only
    have h1 : Lawful b { b with link := { b.link with partialRx := [] } } :=
      table_lawful b b.table _ b.thru ⟨rfl, rfl, rfl⟩ rfl
    refine h1.trans ?_
    generalize ({ b with link := { b.link with partialRx := [] } } : Bridge) = c
    split
    · unfold keyHeld
      split
      · exact .refl c
      · exact table_lawful c c.table _ c.thru ⟨rfl, rfl, rfl⟩ rfl
    · split
      · exact hr c
      · exact refuse_lawful ..

theorem forward_lawful (b : Bridge) (h : Header) (op : Op) (data : List Block) : Lawful b (forward b h op data) := by
  unfold forward
  exact .of_parts rfl rfl rfl rfl rfl rfl ⟨rfl, rfl, rfl⟩ rfl ⟨rfl, rfl⟩ ⟨rfl, rfl, rfl, rfl, rfl, rfl⟩ rfl ⟨rfl, rfl⟩
    fun _ h => h

theorem passOrRefuse_lawful (b : Bridge) (h : Header) (op : Op) (data : List Block) :
    Lawful b (passOrRefuse b h op data) := by
  unfold passOrRefuse
  split
  · exact forward_lawful ..
  · exact refuse_lawful ..

theorem routeBlocks_lawful (h : Header) (op : Op) (data : List Block) {accept : Fin 16 → Nat → Bridge → Bridge}
    (ha : ∀ i cb b, Lawful b (accept i cb b)) (b : Bridge) : Lawful b (routeBlocks h op data accept b) := by
  unfold routeBlocks
  split
  · exact refuse_lawful ..
  · split
    · exact refuse_lawful ..
    · exact passOrRefuse_lawful ..
    · dsimp only
      split
      · exact refuse_lawful ..
      · exact ha ..

theorem routeLocal_lawful (h : Header) (op : Op) {act : Bridge → Bridge} (ha : ∀ b, Lawful b (act b)) (b : Bridge) :
    Lawful b (routeLocal h op act b) := by
  unfold routeLocal
  split
  · exact refuse_lawful ..
  · split
    · exact ha b
    · exact passOrRefuse_lawful ..

theorem admitRead_lawful (h : Header) (i : Fin 16) (cb : Nat) (b : Bridge) : Lawful b (admitRead h i cb b) :=
  (makeEntry_lawful ..).trans (insertReservation_moves ..).lawful

theorem answerMerged_lawful (k : Key) (mode : WriteMode) (n : Nat) (b : Bridge) : Lawful b (answerMerged k mode n b) := by
  unfold answerMerged
  refine .foldl (fun b j => ?_) _ _
  split
  · split
    · exact answer_lawful ..
    · exact (finishAwait_moves ..).lawful
  · exact (testRead_moves ..).lawful

theorem admitWriteRequest_lawful (h : Header) (data : List Block) (i : Fin 16) (cb : Nat) (b : Bridge) :
    Lawful b (admitWriteRequest h data i cb b) := by
  unfold admitWriteRequest
  dsimp only
  split
  · exact refuse_lawful ..
  · exact ((admitWrite_moves ..).lawful.trans (makeEntry_lawful ..)).trans (answerMerged_lawful ..)

theorem satInc_keeps {top n : Nat} (_ : n ≤ top) : satInc top n ≤ top := satInc_le top n

theorem linkCounts_lawful (b : Bridge) (l : LinkPort) (h1 : b.link.badCheck ≤ 65535 → l.badCheck ≤ 65535)
    (h2 : b.link.malformed ≤ 65535 → l.malformed ≤ 65535) (h3 : b.link.attnSent ≤ 65535 → l.attnSent ≤ 65535) :
    Lawful b { b with link := l } :=
  ⟨id, id, fun ⟨c1, c2, c3, c⟩ => ⟨h1 c1, h2 c2, h3 c3, c⟩, id, id⟩

theorem countMalformed_lawful (b : Bridge) : Lawful b (countMalformed b) := by
  unfold countMalformed
  split
  · exact .refl b
  · exact linkCounts_lawful b _ id satInc_keeps id

theorem flushLocal_lawful (h : Header) (b : Bridge) : Lawful b (flushLocal h b) := by
  unfold flushLocal
  dsimp only
  split
  · exact (makeEntry_lawful ..).trans (answerStatus_lawful ..)
  · split
    · exact (makeEntry_lawful ..).trans (answerStatus_lawful ..)
    · exact (makeEntry_lawful ..).trans (editEntry_lawful ..)

theorem senseLocal_lawful (h : Header) (b : Bridge) : Lawful b (senseLocal h b) :=
  (makeEntry_lawful ..).trans (answer_lawful ..)

/-- The edit lock changes. -/
theorem lock_lawful (b : Bridge) (holder : Option Originator) (waiting : List Originator)
    (h : LockListOk b → waiting.Nodup ∧ (∀ o, holder = some o → o ∉ waiting) ∧ (holder = none → waiting = [])) :
    Lawful b { b with mgmt := { b.mgmt with holder, waiting } } := ⟨id, h, id, id, id⟩

theorem leavePending_lawful (b : Bridge) (o : Originator) : Lawful b (leavePending b o) := by
  refine lock_lawful b b.mgmt.holder _ fun ⟨h1, h2, h3⟩ => ⟨h1.filter _, fun p hp hm => h2 p hp (List.mem_filter.1 hm).1, ?_⟩
  intro hn
  rw [h3 hn]; rfl

/-- The cartridge record changes, with a state in which a held map may stay. -/
theorem cartState_lawful (b : Bridge) (c : CartRecord)
    (counts : c.soft = b.cart.soft ∧ c.hard = b.cart.hard ∧ c.remaps = b.cart.remaps
      ∧ c.relocations = b.cart.relocations ∧ c.deferred = b.cart.deferred)
    (layout : c.layout = b.cart.layout)
    (life : b.dm.map.isSome = true → mayHoldMap b.cart.state = true ∧ b.cart.mountStep = none →
      mayHoldMap c.state = true ∧ c.mountStep = none) :
    Lawful b { b with cart := c } := by
  obtain ⟨c1, c2, c3, c4, c5⟩ := counts
  refine ⟨id, id, fun ⟨h1, h2, h3, h4, h5, h6, h7, h8, h9, h⟩ => ?_, id, fun ⟨h1, h2, h3⟩ => ?_⟩
  · exact ⟨h1, h2, h3, h4, c1 ▸ h5, c2 ▸ h6, c3 ▸ h7, c4 ▸ h8, c5 ▸ h9, h⟩
  · exact ⟨fun l hl => h1 l (layout ▸ hl), fun m hm => ⟨(h2 m hm).1, fun l hl => (h2 m hm).2 l (layout ▸ hl)⟩,
      fun hs => life hs (h3 hs)⟩

theorem leaveQuiesce_lawful (b : Bridge) : Lawful b (leaveQuiesce b) :=
  ((cartState_lawful b { b.cart with state := .ready, quiesce := none } ⟨rfl, rfl, rfl, rfl, rfl⟩ rfl
    fun _ h => ⟨rfl, h.2⟩).trans (dropQuiesce_moves _).lawful).trans (tryMapWrite_moves _).lawful

theorem abortEffect_lawful (t : Key) (b : Bridge) : Lawful b (abortEffect t b) := by
  unfold abortEffect
  split
  · exact .refl b
  · split
    · exact .refl b
    · exact .refl b
    · exact .refl b
    · exact answerStatus_lawful ..
    · exact answerStatus_lawful ..
    · exact answerStatus_lawful ..
    · exact (leavePending_lawful ..).trans (answerStatus_lawful ..)
    · split
      · exact (leaveQuiesce_lawful _).trans (answerStatus_lawful ..)
      · exact .refl b

theorem inKeyOrder_lawful (own other : Key) {f g : Bridge → Bridge} (hf : ∀ b, Lawful b (f b)) (hg : ∀ b, Lawful b (g b))
    (b : Bridge) : Lawful b (inKeyOrder own other f g b) := by
  unfold inKeyOrder
  split
  · exact (hf b).trans (hg _)
  · exact (hg b).trans (hf _)

theorem routeAbort_lawful (h : Header) (b : Bridge) : Lawful b (routeAbort h b) := by
  unfold routeAbort
  split
  · exact (editEntry_lawful ..).trans (forward_lawful ..)
  · unfold abortLocal
    dsimp only
    split
    · exact (makeEntry_lawful ..).trans
        (inKeyOrder_lawful _ _ (fun b => answerStatus_lawful b h.key .ok) (abortEffect_lawful _) _)
    · exact (makeEntry_lawful ..).trans (answerStatus_lawful ..)

/-! ### Management requests (Management.lean, Reports.lean) -/

theorem manage_lawful (h : Header) (op : Op) (items : List Item) {act : Bridge → Bridge} (ha : ∀ b, Lawful b (act b))
    (b : Bridge) : Lawful b (manage h op items act b) := by
  refine takeRequest_lawful b h op fun b => ?_
  split
  · exact refuse_lawful ..
  · dsimp only
    refine (makeEntry_lawful b h op fun e => { e with routing := some .management }).trans ?_
    generalize makeEntry b h op (fun e => { e with routing := some .management }) = c
    split
    · exact answerStatus_lawful ..
    · split
      · exact answerStatus_lawful ..
      · exact ha c

theorem answerLock_lawful (b : Bridge) (own : Key) (o : Originator) (st : Status) : Lawful b (answerLock b own o st) := by
  refine .foldl (fun b k => ?_) _ b
  split
  · exact answerStatus_lawful ..
  · split
    · exact answerStatus_lawful ..
    · exact .refl b

theorem lockRequest_lawful (h : Header) (b : Bridge) : Lawful b (lockRequest h b) := by
  unfold lockRequest
  split
  · rename_i hn
    refine Lawful.trans (lock_lawful b (some h.orig) b.mgmt.waiting fun ⟨h1, _, h3⟩ => ⟨h1, fun o _ => ?_, by simp⟩)
      (answerStatus_lawful ..)
    rw [h3 hn]
    exact List.not_mem_nil
  · rename_i o ho
    split
    · exact answerStatus_lawful ..
    · split
      · exact answerStatus_lawful ..
      · rename_i hne hw
        refine Lawful.trans (lock_lawful b b.mgmt.holder (b.mgmt.waiting ++ [h.orig]) fun ⟨h1, h2, _⟩ =>
          ⟨?_, fun p hp hm => ?_, fun hn => ?_⟩) (editEntry_lawful ..)
        · refine List.nodup_append.2 ⟨h1, by simp, fun a ha c hc => ?_⟩
          rw [List.mem_singleton] at hc
          intro e
          exact hw (hc ▸ e ▸ ha)
        · rcases List.mem_append.1 hm with hm | hm
          · exact h2 p hp hm
          · rw [List.mem_singleton] at hm
            rw [ho] at hp
            exact hne ((Option.some.inj hp).trans hm)
        · rw [ho] at hn
          cases hn

theorem lockRelease_lawful (h : Header) (b : Bridge) : Lawful b (lockRelease h b) := by
  unfold lockRelease
  split
  · split
    · rename_i hw
      exact Lawful.trans (lock_lawful b none b.mgmt.waiting fun ⟨h1, _, _⟩ => ⟨h1, by simp, fun _ => hw⟩)
        (answerStatus_lawful ..)
    · rename_i o rest hw
      refine Lawful.trans (lock_lawful b (some o) rest fun ⟨h1, _, _⟩ => ?_) (answerLock_lawful ..)
      rw [hw, List.nodup_cons] at h1
      refine ⟨h1.2, fun p hp => ?_, by simp⟩
      rw [← Option.some.inj hp]
      exact h1.1
  · exact answerStatus_lawful ..

theorem lockCancel_lawful (h : Header) (b : Bridge) : Lawful b (lockCancel h b) := by
  unfold lockCancel
  split
  · exact (leavePending_lawful ..).trans (answerLock_lawful ..)
  · exact answerStatus_lawful ..

theorem readExceptions_lawful (h : Header) (b : Bridge) : Lawful b (readExceptions h b) := by
  unfold readExceptions
  refine Lawful.trans (b := { b with mgmt := { b.mgmt with exceptions := b.mgmt.exceptions.drop 8, overflow := 0 } })
    ⟨id, id, fun ⟨h1, h2, h3, h4, h5, h6, h7, h8, h9, _, h11, h⟩ => ?_, id, id⟩ (answer_lawful ..)
  refine ⟨h1, h2, h3, h4, h5, h6, h7, h8, h9, Nat.zero_le _, ?_, h⟩
  rw [List.length_drop]
  omega

theorem readDefects_lawful (h : Header) (items : List Item) (b : Bridge) : Lawful b (readDefects h items b) := by
  unfold readDefects
  dsimp only
  split
  · exact answerStatus_lawful ..
  · exact answer_lawful ..

theorem readWindow_lawful (h : Header) (items : List Item) (b : Bridge) : Lawful b (readWindow h items b) := by
  unfold readWindow
  split
  · exact answerStatus_lawful ..
  · exact answer_lawful ..

theorem readClass_lawful (h : Header) (items : List Item) (b : Bridge) : Lawful b (readClass h items b) := by
  unfold readClass
  split
  · exact answerStatus_lawful ..
  · exact answer_lawful ..

theorem getD_atMost {items : List Item} {code top v : Nat} (h : atMost items code top = true) (hv : v ≤ top) :
    (itemNat items code).getD v ≤ top := by
  unfold atMost at h
  cases hx : itemNat items code with
  | none => exact hv
  | some x => simpa [hx] using h

theorem getD_within {items : List Item} {code low top v : Nat} (h : within items code low top = true)
    (hv : low ≤ v ∧ v ≤ top) : low ≤ (itemNat items code).getD v ∧ (itemNat items code).getD v ≤ top := by
  unfold within at h
  cases hx : itemNat items code with
  | none => exact hv
  | some x => simpa [hx] using h

theorem applyWindowItems_inRange {items : List Item} {w : Window} (h : windowRangesOk items = true)
    (hw : windowInRange w = true) : windowInRange (applyWindowItems items w) = true := by
  simp only [windowRangesOk, Bool.and_eq_true] at h
  obtain ⟨⟨⟨⟨⟨⟨⟨⟨⟨-, r1⟩, r2⟩, r3⟩, r4⟩, r5⟩, -⟩, -⟩, -⟩, -⟩ := h
  simp only [windowInRange, Bool.and_eq_true, decide_eq_true_eq] at hw
  obtain ⟨⟨⟨⟨u1, u2⟩, u3⟩, u4⟩, u5⟩ := hw
  simp only [windowInRange, applyWindowItems, Bool.and_eq_true]
  refine ⟨⟨⟨⟨decide_eq_true (getD_atMost r1 u1), decide_eq_true (getD_atMost r2 u2)⟩,
    decide_eq_true (getD_atMost r3 u3)⟩, decide_eq_true (getD_atMost r4 u4)⟩, ?_⟩
  cases hx : itemPair items 0x15 with
  | none => exact u5
  | some p =>
    cases p with
    | none => rfl
    | some g => simpa [hx] using r5

theorem applyClassItems_inRange {items : List Item} {c : ClassEntry} (h : classRangesOk items = true)
    (hc : classInRange c = true) : classInRange (applyClassItems items c) = true := by
  simp only [classRangesOk, Bool.and_eq_true] at h
  obtain ⟨⟨-, r1⟩, r2⟩ := h
  simp only [classInRange, Bool.and_eq_true, decide_eq_true_eq] at hc
  obtain ⟨hd, u⟩ := hc
  have hd' := getD_within r2 hd
  simp only [classInRange, applyClassItems, Bool.and_eq_true]
  refine ⟨⟨decide_eq_true hd'.1, decide_eq_true hd'.2⟩, ?_⟩
  cases hx : itemPair items 0x23 with
  | none => exact u
  | some p =>
    cases p with
    | none => rfl
    | some g => simpa [hx] using r1

theorem applySettingItems_inRange {items : List Item} {s : Settings} (h : settingRangesOk items = true)
    (hs : settingsInRange s = true) : settingsInRange (applySettingItems items s) = true := by
  simp only [settingRangesOk, Bool.and_eq_true] at h
  obtain ⟨⟨⟨⟨⟨⟨⟨⟨⟨⟨⟨⟨⟨⟨r1, r2⟩, r3⟩, r4⟩, r5⟩, r6⟩, r7⟩, r8⟩, r9⟩, r10⟩, -⟩, -⟩, -⟩, -⟩, -⟩ := h
  simp only [settingsInRange, Bool.and_eq_true, decide_eq_true_eq] at hs
  obtain ⟨⟨⟨⟨⟨⟨⟨⟨⟨⟨⟨⟨⟨⟨⟨u1, u1'⟩, u2⟩, u2'⟩, u3⟩, u4⟩, u5⟩, u5'⟩, u6⟩, u6'⟩, u7⟩, u8⟩, u9⟩, u9'⟩, u10⟩, u10'⟩ := hs
  have h1 := getD_within r1 ⟨u1, u1'⟩
  have h2 := getD_within r2 ⟨u2, u2'⟩
  have h5 := getD_within r5 ⟨u5, u5'⟩
  have h6 := getD_within r6 ⟨u6, u6'⟩
  have h9 := getD_within r9 ⟨u9, u9'⟩
  have h10 := getD_within r10 ⟨u10, u10'⟩
  have h7 : ∀ v : Nat, (itemNat items 0x36).getD s.spinDownDelay = v → (v = 0 ∨ (10 ≤ v ∧ v ≤ 3600)) := by
    intro v hv
    cases hx : itemNat items 0x36 with
    | none =>
      rw [hx] at hv
      simp only [Option.getD_none] at hv
      subst hv
      simpa using u7
    | some x =>
      rw [hx] at hv r7
      simp only [Option.getD_some] at hv
      subst hv
      simpa using r7
  have h3 := getD_atMost r3 u3
  have h4 := getD_atMost r4 u4
  have h8 := getD_atMost r8 u8
  have h7' := h7 _ rfl
  simp only [settingsInRange, applySettingItems]
  simp only [h1, h2, h3, h4, h5, h6, h8, h9, h10, decide_true, Bool.true_and, Bool.and_true, Bool.or_eq_true,
    Bool.and_eq_true, beq_iff_eq]
  exact h7'.imp id fun h => ⟨decide_eq_true h.1, decide_eq_true h.2⟩

theorem writeWindow_lawful (h : Header) (items : List Item) (b : Bridge) : Lawful b (writeWindow h items b) := by
  unfold writeWindow
  split
  · exact answerStatus_lawful ..
  · rename_i i hi
    dsimp only
    split
    · exact answerStatus_lawful ..
    · split
      · exact answerStatus_lawful ..
      · split
        · exact answerStatus_lawful ..
        · rename_i hr hc
          refine Lawful.trans (b := putWindow b i (applyWindowItems items b.router.windows[i]))
            ⟨fun ⟨h1, h2⟩ => ⟨fun j => ?_, h2⟩, id, id, id, id⟩ (answerStatus_lawful ..)
          simp only [Bool.not_eq_true', Bool.not_eq_false] at hr hc
          by_cases hj : i = j
          · subst hj
            simp only [putWindow, Fin.getElem_fin, Vector.getElem_set_self]
            exact ⟨applyWindowItems_inRange hr (h1 i).1, hc⟩
          · have : i.val ≠ j.val := fun e => hj (Fin.ext e)
            simp only [putWindow, Fin.getElem_fin, ne_eq, this, not_false_eq_true, Vector.getElem_set_ne]
            exact h1 j

theorem writeClass_lawful (h : Header) (items : List Item) (b : Bridge) : Lawful b (writeClass h items b) := by
  unfold writeClass
  split
  · exact answerStatus_lawful ..
  · rename_i i hi
    dsimp only
    split
    · exact answerStatus_lawful ..
    · split
      · exact answerStatus_lawful ..
      · rename_i hr hc
        refine Lawful.trans (b := putClass b i (applyClassItems items b.router.classes[i]))
          ⟨fun ⟨h1, h2, h3⟩ => ⟨h1, fun j => ?_, h3⟩, id, id, id, id⟩ (answerStatus_lawful ..)
        simp only [Bool.not_eq_true', Bool.not_eq_false] at hr hc
        by_cases hj : i = j
        · subst hj
          simp only [putClass, Fin.getElem_fin, Vector.getElem_set_self]
          exact ⟨applyClassItems_inRange hr (h2 i).1, hc⟩
        · have : i.val ≠ j.val := fun e => hj (Fin.ext e)
          simp only [putClass, Fin.getElem_fin, ne_eq, this, not_false_eq_true, Vector.getElem_set_ne]
          exact h2 j

theorem testAllOpen_moves (b : Bridge) : Moves b (testAllOpen b) := by
  refine .forBufs (fun b i => ?_) b
  split
  · exact testLater_moves b i
  · exact .refl b

theorem settingsAct_lawful (items : List Item) (b : Bridge) : Lawful b (settingsAct items b) := by
  have h1 : Lawful b (if (findItem items 0x32).isSome then testAllOpen b else b) := by
    split
    · exact (testAllOpen_moves b).lawful
    · exact .refl b
  have h2 : ∀ c : Bridge, Lawful c (if (findItem items 0x33).isSome then tryMapWrite c else c) := fun c => by
    split
    · exact (tryMapWrite_moves c).lawful
    · exact .refl c
  unfold settingsAct
  dsimp only
  revert h1
  generalize (if (findItem items 0x32).isSome then testAllOpen b else b) = c
  intro h1
  have h3 := h2 c
  revert h3
  generalize (if (findItem items 0x33).isSome then tryMapWrite c else c) = d
  intro h3
  split
  · exact (h1.trans h3).trans (askLife_course d .spinDown).lawful
  · exact h1.trans h3

theorem pruneAttention_lawful (b : Bridge) : Lawful b (pruneAttention b) := by
  unfold pruneAttention
  dsimp only
  refine Lawful.trans ?_ (attnTest_moves _).lawful
  exact ⟨id, id, id, id, id⟩

theorem setSettings_lawful (h : Header) (items : List Item) (b : Bridge) : Lawful b (setSettings h items b) := by
  unfold setSettings
  split
  · exact answerStatus_lawful ..
  · rename_i hr
    have hok : settingRangesOk items = true := by
      unfold settingsRefusal at hr
      split at hr
      · cases hr
      · rename_i hn
        simpa using hn
    dsimp only
    refine ((Lawful.trans (answerStatus_lawful b h.key .ok) ?_).trans (pruneAttention_lawful _)).trans
      (settingsAct_lawful ..)
    exact ⟨fun ⟨h1, h2, h3⟩ => ⟨h1, h2, applySettingItems_inRange hok h3⟩, id, id, id, id⟩

theorem discardStranded_lawful (h : Header) (b : Bridge) : Lawful b (discardStranded h b) := by
  unfold discardStranded
  split
  · exact answerStatus_lawful ..
  · exact (discardWhere_moves ..).lawful.trans (answer_lawful ..)

theorem recover_lawful (h : Header) (b : Bridge) : Lawful b (recover h b) := by
  unfold recover
  split
  · split
    · exact answerStatus_lawful ..
    · exact (askLife_course ..).lawful.trans (editEntry_lawful ..)
  · exact answerStatus_lawful ..

/-! ### The life of a cartridge (Cartridge.lean) -/

theorem beginQuiesce_lawful (b : Bridge) (source : EjectSource) (forced : Bool) :
    Lawful b (beginQuiesce b source forced) := by
  unfold beginQuiesce
  dsimp only
  refine Lawful.trans ?_ (((addQuiesce_moves _).trans (syncJobs_moves _)).trans (tryMapWrite_moves _)).lawful
  exact cartState_lawful b _ ⟨rfl, rfl, rfl, rfl, rfl⟩ rfl fun _ h => ⟨rfl, h.2⟩

theorem enterEjecting_lawful (b : Bridge) : Lawful b (enterEjecting b) := by
  unfold enterEjecting
  dsimp only
  refine Lawful.trans ?_ (askLife_course ..).lawful
  have h1 : Lawful b (withCart b fun c => { c with state := .ejecting, spinTimer := none }) :=
    cartState_lawful b _ ⟨rfl, rfl, rfl, rfl, rfl⟩ rfl fun _ h => ⟨rfl, h.2⟩
  have h2 : ∀ c : Bridge, Lawful c (withCart c fun c =>
      { c with quiesce := none, ejectWaiting := none, mountStep := none, ejectBegun := true }) := fun c =>
    cartState_lawful c _ ⟨rfl, rfl, rfl, rfl, rfl⟩ rfl fun _ h => ⟨h.1, rfl⟩
  split
  · exact h1.trans (h2 _)
  · exact (h1.trans (beginEject_moves _).lawful).trans (h2 _)

theorem requestEject_lawful {b t : Bridge} {source : EjectSource} {forced : Bool}
    (h : requestEject b source forced = some t) : Lawful b t := by
  unfold requestEject at h
  have hw : Lawful b (withCart b fun c => { c with ejectWaiting := some source }) :=
    cartState_lawful b _ ⟨rfl, rfl, rfl, rfl, rfl⟩ rfl fun _ h => h
  split at h
  · cases h
  · cases h
  · cases h
  · cases h
  · split at h
    · cases h
    · rw [← Option.some.inj h]; exact hw
  · split at h
    · cases h
    · rw [← Option.some.inj h]; exact hw
  · rw [← Option.some.inj h]; exact beginQuiesce_lawful b source forced
  · rw [← Option.some.inj h]; exact enterEjecting_lawful b
  · split at h
    · cases h
    · rw [← Option.some.inj h]; exact enterEjecting_lawful b

theorem eject_lawful (h : Header) (items : List Item) (b : Bridge) : Lawful b (eject h items b) := by
  unfold eject
  dsimp only
  split
  · exact answerStatus_lawful ..
  · split
    · rename_i b' hb
      exact (editEntry_lawful ..).trans (requestEject_lawful hb)
    · exact answerStatus_lawful ..

theorem presenceArrives_lawful (b : Bridge) (tab : Bool) : Lawful b (presenceArrives b tab) := by
  have h : mayHoldMap b.cart.state = false → Lawful b (startSettle b tab) := fun hs =>
    cartState_lawful b _ ⟨rfl, rfl, rfl, rfl, rfl⟩ rfl fun _ hh => by rw [hs] at hh; cases hh.1
  unfold presenceArrives
  split
  · rename_i hs; exact h (by rw [hs]; rfl)
  · rename_i hs; exact h (by rw [hs]; rfl)
  all_goals exact .refl b

theorem endSettle_lawful (b : Bridge) (hs : b.cart.state = .settling) : Lawful b (endSettle b) := by
  unfold endSettle
  refine Lawful.trans ?_ (askLife_course ..).lawful
  exact cartState_lawful b _ ⟨rfl, rfl, rfl, rfl, rfl⟩ rfl fun _ h => by rw [hs] at h; cases h.1

theorem raiseEvent_lawful (b : Bridge) (ev : AttnEvent) : Lawful b (raiseEvent b ev) := (raiseEvent_moves b ev).lawful

theorem enterUnusable_lawful (b : Bridge) (r : Reason) (hs : MapOk b → b.dm.map = none) :
    Lawful b (enterUnusable b r) := by
  unfold enterUnusable
  refine Lawful.trans ?_ (raiseEvent_lawful _ _)
  refine ⟨id, id, id, id, fun ok => ⟨ok.1, ok.2.1, fun h => ?_⟩⟩
  have h' : b.dm.map.isSome = true := h
  rw [hs ok] at h'
  cases h'

/-- What HALTED puts an end to. -/
theorem halt_lawful (b : Bridge) : Lawful b { b with
    cart := { b.cart with quiesce := none, ejectWaiting := none, mountStep := none, spinTimer := none }
    arb := { b.arb with life := none, streak := 0 } } :=
  ⟨id, id, fun ⟨h1, h2, h3, h4, h5, h6, h7, h8, h9, h10, h11, _, h13⟩ =>
    ⟨h1, h2, h3, h4, h5, h6, h7, h8, h9, h10, h11, Nat.zero_le _, h13⟩, id,
    fun ok => ⟨ok.1, ok.2.1, fun h => ⟨(ok.2.2 h).1, rfl⟩⟩⟩

theorem enterHalted_lawful (b : Bridge) : Lawful b (enterHalted b) := by
  have h1 : Lawful b (withCart b fun c => { c with state := .halted }) :=
    cartState_lawful b { b.cart with state := .halted } ⟨rfl, rfl, rfl, rfl, rfl⟩ rfl fun _ h => ⟨rfl, h.2⟩
  exact ((h1.trans (answerAll_lawful _ (fun e => isActive e || isEjectWait e) .mechFault)).trans (halt_lawful _)).trans
    (raiseEvent_lawful _ _)

theorem askMount_lawful (b : Bridge) (st : MountStep) (hs : MapOk b → b.dm.map = none) : Lawful b (askMount b st) := by
  unfold askMount
  refine Lawful.trans ?_ (takeStamp_moves _).lawful
  refine ⟨id, id, id, id, fun ok => ⟨ok.1, ok.2.1, fun h => ?_⟩⟩
  have h' : b.dm.map.isSome = true := h
  rw [hs ok] at h'
  cases h'

/-- No map is held in a state that holds none, nor while a mount read is to come. -/
theorem MapOk.noMap {b : Bridge} (ok : MapOk b) (h : mayHoldMap b.cart.state = false ∨ b.cart.mountStep ≠ none) :
    b.dm.map = none := by
  cases hm : b.dm.map with
  | none => rfl
  | some m =>
    have := ok.2.2 (by rw [hm]; rfl)
    rcases h with h | h
    · rw [this.1] at h; cases h
    · exact absurd this.2 h

theorem startMount_lawful (b : Bridge) (hs : b.cart.state = .spinup) : Lawful b (startMount b) := by
  unfold startMount
  have h1 : Lawful b (withCart b fun c => { c with state := .mounting }) :=
    cartState_lawful b _ ⟨rfl, rfl, rfl, rfl, rfl⟩ rfl fun _ h => by rw [hs] at h; cases h.1
  exact h1.trans (askMount_lawful _ _ fun ok => ok.noMap (.inl rfl))

theorem mountFailed_lawful (b : Bridge) (st : MountStep) (hs : b.cart.mountStep ≠ none) : Lawful b (mountFailed b st) := by
  unfold mountFailed
  split
  · exact askMount_lawful _ _ fun ok => ok.noMap (.inr hs)
  · exact enterUnusable_lawful _ _ fun ok => ok.noMap (.inr hs)

theorem mountTimedOut_lawful (b : Bridge) (st : MountStep) (hs : b.cart.mountStep ≠ none) :
    Lawful b (mountTimedOut b st) := by
  unfold mountTimedOut
  split
  · exact cartState_lawful b _ ⟨rfl, rfl, rfl, rfl, rfl⟩ rfl fun _ h => absurd h.2 hs
  · exact enterUnusable_lawful _ _ fun ok => ok.noMap (.inr hs)

theorem judgeLabel_lawful (b : Bridge) (hs : b.cart.mountStep ≠ none) : Lawful b (judgeLabel b) := by
  unfold judgeLabel
  dsimp only
  generalize asLabel b.dm.staging[0] = l
  split
  · exact enterUnusable_lawful _ _ fun ok => ok.noMap (.inr hs)
  · split
    · exact enterUnusable_lawful _ _ fun ok => ok.noMap (.inr hs)
    · rename_i h1 h2
      simp only [Bool.not_eq_true', Bool.not_eq_false] at h1 h2
      have hl : Lawful b (withCart b fun c => { c with layout := some l }) := by
        refine ⟨id, id, id, id, fun ok => ⟨fun l' hl' => ?_, fun m hm => ?_, ok.2.2⟩⟩
        · rw [← Option.some.inj hl']; exact ⟨h1, h2⟩
        · have hm' : b.dm.map = some m := hm
          rw [ok.noMap (.inr hs)] at hm'
          cases hm'
      exact hl.trans (askMount_lawful _ _ fun ok => ok.noMap (.inr hs))

theorem judgeMap_spec {l : Label} {sectors : List MapSector} {entries : List MapEntry}
    (h : judgeMap l sectors = some entries) : mapLaws entries = true ∧ entries.all (entryClassesOk l) = true := by
  unfold judgeMap at h
  dsimp only at h
  split at h
  · rename_i hc
    simp only [Bool.and_eq_true] at hc
    rw [← Option.some.inj h]
    exact ⟨hc.2, hc.1.2⟩
  · cases h

theorem acceptMount_lawful (b : Bridge) (l : Label) (entries : List MapEntry) (g : BitVec 32) (hl : b.cart.layout = some l)
    (hm : mapLaws entries = true ∧ entries.all (entryClassesOk l) = true) : Lawful b (acceptMount b entries g) := by
  unfold acceptMount
  refine Lawful.trans ?_ (raiseEvent_lawful _ _)
  refine ⟨id, id, fun ⟨h1, h2, h3, h4, _, _, _, _, _, h⟩ => ?_, id, fun ok => ⟨ok.1, fun m hm' => ?_, fun _ => ⟨rfl, rfl⟩⟩⟩
  · exact ⟨h1, h2, h3, h4, Nat.zero_le _, Nat.zero_le _, Nat.zero_le _, Nat.zero_le _, Nat.zero_le _, h⟩
  · rw [← Option.some.inj hm']
    refine ⟨hm.1, fun l' hl' => ?_⟩
    have hl'' : b.cart.layout = some l' := hl'
    rw [hl] at hl''
    rw [← Option.some.inj hl'']
    exact hm.2

theorem judgeMapRead_lawful (b : Bridge) (hs : b.cart.mountStep ≠ none) : Lawful b (judgeMapRead b) := by
  unfold judgeMapRead
  split
  · exact enterUnusable_lawful _ _ fun ok => ok.noMap (.inr hs)
  · rename_i l hl
    split
    · exact enterUnusable_lawful _ _ fun ok => ok.noMap (.inr hs)
    · rename_i entries he
      exact acceptMount_lawful _ l entries _ hl (judgeMap_spec he)

theorem stageRead_lawful (b : Bridge) (outcomes : List SectorOutcome) : Lawful b (stageRead b outcomes) :=
  ⟨id, id, id, id, id⟩

theorem mountReadEnded_lawful (b : Bridge) (outcomes : List SectorOutcome) : Lawful b (mountReadEnded b outcomes) := by
  unfold mountReadEnded
  split
  · exact .refl b
  · rename_i st hst
    have hs : (stageRead b outcomes).cart.mountStep ≠ none := by rw [stageRead_cart, hst]; simp
    dsimp only
    refine (stageRead_lawful b outcomes).trans ?_
    generalize stageRead b outcomes = c at hs
    split
    · split
      · exact judgeLabel_lawful c hs
      · exact judgeMapRead_lawful c hs
    · exact mountFailed_lawful c st hs

theorem answerEject_lawful (b : Bridge) (st : Status) : Lawful b (answerEject b st) := answerAll_lawful ..
theorem answerRecover_lawful (b : Bridge) (st : Status) : Lawful b (answerRecover b st) := answerAll_lawful ..

theorem becomeEmpty_lawful (b : Bridge) : Lawful b (becomeEmpty b) := by
  unfold becomeEmpty forgetMap
  dsimp only
  refine ⟨id, id, fun ⟨h1, h2, h3, h4, h5, h6, h7, h8, h9, h10, h11, _, _⟩ => ?_, id, fun _ => ⟨?_, ?_, ?_⟩⟩
  · exact ⟨h1, h2, h3, h4, h5, h6, h7, h8, h9, h10, h11, Nat.zero_le _, Nat.zero_le _⟩
  · intro l hl; cases hl
  · intro m hm; cases hm
  · intro h; cases h

theorem ejectComplete_lawful (b : Bridge) : Lawful b (ejectComplete b) :=
  (((discardWhere_moves b _).lawful.trans (becomeEmpty_lawful _)).trans (answerEject_lawful _ _)).trans
    (raiseEvent_lawful _ _)

theorem removeCartridge_lawful (b : Bridge) : Lawful b (removeCartridge b) := by
  unfold removeCartridge
  dsimp only
  refine Lawful.trans ?_ (raiseEvent_lawful _ _)
  refine Lawful.trans ?_ (becomeEmpty_lawful _)
  refine Lawful.trans ?_ (abandonMapWrite_moves _).lawful
  refine Lawful.trans ?_ (reportDiscard_moves _ _).lawful
  refine Lawful.trans ?_ (discardWhere_moves _ _).lawful
  refine Lawful.trans ?_ (answerAll_lawful _ _ _)
  exact (arb_course b { b.arb with order := none, life := none } id rfl).lawful

theorem refuseEject_lawful (b : Bridge) : Lawful b (refuseEject b) :=
  ((leaveQuiesce_lawful b).trans (answerEject_lawful _ _)).trans (raiseEvent_lawful _ _)

theorem recoverGood_lawful (b : Bridge) : Lawful b (recoverGood b) := by
  have h1 : Lawful b (withCart b fun c => { c with spindle := .spinning }) :=
    cartState_lawful b _ ⟨rfl, rfl, rfl, rfl, rfl⟩ rfl fun _ h => h
  unfold recoverGood
  dsimp only
  refine h1.trans ?_
  generalize hc : (withCart b fun c => { c with spindle := .spinning }) = c
  split
  · exact (enterEjecting_lawful c).trans (answerRecover_lawful _ _)
  · split
    · have h2 : Lawful c (withCart c fun c => { c with state := .ready }) :=
        cartState_lawful c _ ⟨rfl, rfl, rfl, rfl, rfl⟩ rfl fun _ h => ⟨rfl, h.2⟩
      exact (((h2.trans (dropQuiesce_moves _).lawful).trans (tryMapWrite_moves _).lawful).trans
        (answerRecover_lawful _ _)).trans (raiseEvent_lawful _ _)
    · rename_i hm
      have hn : c.dm.map = none := by simpa using hm
      have h2 : Lawful c (withCart c fun c => { c with state := .mounting }) :=
        cartState_lawful c _ ⟨rfl, rfl, rfl, rfl, rfl⟩ rfl fun h _ => by rw [hn] at h; cases h
      exact (h2.trans (askMount_lawful _ _ fun _ => hn)).trans (answerRecover_lawful _ _)

/-! ### Orders (Arbiter.lean, Mechanism.lean) -/

theorem loadFailed_moves (b : Bridge) (i : BufIdx) (l : Load) (lsn psa : Nat) : Moves b (loadFailed b i l lsn psa) := by
  unfold loadFailed
  split
  · split
    · exact withdrawLoad_moves b i
    · exact putBuf_moves b i _ id
  · dsimp only
    refine (loadLost_moves b i).trans (.trans ?_ (record_moves _ _))
    generalize loadLost b i = c
    exact cartCounts_moves c _ rfl rfl rfl id satInc_keeps id id id

theorem loadCame_moves (b : Bridge) (i : BufIdx) (l : Load) (d : Option SectorData) : Moves b (loadCame b i l d) := by
  unfold loadCame
  dsimp only
  split
  · exact (cartCounts_moves b { b.cart with soft := satInc 65535 b.cart.soft } rfl rfl rfl satInc_keeps id id id id).trans
      (loadGood_moves _ _ _ _)
  · exact loadGood_moves _ _ _ _

theorem loadEnded_moves (b : Bridge) (i : BufIdx) (lsn psa : Nat) (o : SectorOutcome) : Moves b (loadEnded b i lsn psa o) := by
  unfold loadEnded
  split
  · exact .refl b
  · split
    · split
      · exact loadCame_moves ..
      all_goals exact loadFailed_moves ..
    · exact .refl b

theorem pieceEnded_moves (kind : OrderKind) (b : Bridge) (p : Piece) (o : SectorOutcome) :
    Moves b (pieceEnded kind b p o) := by
  unfold pieceEnded
  split
  · exact loadEnded_moves ..
  · exact phaseEnded_moves ..
  · exact .refl b
  · exact .refl b

theorem handOutcomes_moves (kind : OrderKind) (l : List (Piece × SectorOutcome)) :
    ∀ b : Bridge, Moves b (handOutcomes kind b l) := by
  induction l with
  | nil => exact .refl
  | cons x rest ih =>
    intro b
    obtain ⟨p, o⟩ := x
    unfold handOutcomes
    exact ((pieceEnded_moves kind b p o).trans (poolSettle_moves _)).trans (ih _)

theorem returnPiece_moves (b : Bridge) (p : Piece) : Moves b (returnPiece b p) := by
  unfold returnPiece
  split
  · exact putBuf_moves b _ _ id
  · exact putBuf_moves b _ _ id
  · exact mapStepReturned_moves b
  · exact .refl b

/-- The order is abandoned: it is in flight no more, and what else follows is a course of the pool. -/
theorem abandonOrder_course (b : Bridge) (o : Order) : Course b (abandonOrder b o) := by
  unfold abandonOrder
  refine Course.trans ?_ (sweepLoads_moves _).course
  refine Course.trans ?_ (Moves.foldl returnPiece_moves _ _).course
  exact arb_course b _ id rfl

theorem abandonByFault_course (b : Bridge) : Course b (abandonByFault b) := by
  unfold abandonByFault
  split
  · exact .refl b
  · exact abandonOrder_course ..

theorem takeFault_lawful (b : Bridge) : Lawful b (takeFault b) := by
  unfold takeFault
  dsimp only
  refine (abandonByFault_course b).lawful.trans ?_
  generalize abandonByFault b = c
  split
  · exact .refl c
  · exact .refl c
  · exact .refl c
  · exact enterHalted_lawful c
  · exact enterHalted_lawful c
  · exact enterHalted_lawful c
  · exact enterHalted_lawful c
  · exact enterHalted_lawful c
  · exact (arb_course c { c.arb with life := none } id rfl).lawful.trans (answerRecover_lawful _ _)

theorem runEnded_lawful (b : Bridge) (o : Order) (sectors : List SectorOutcome) : Lawful b (runEnded b o sectors) := by
  unfold runEnded
  split
  · split
    · exact .refl b
    · exact mountReadEnded_lawful b sectors
  · split
    · exact (mapStepEnded_moves b sectors).lawful
    · exact (handOutcomes_moves o.kind _ b).lawful

theorem spinUpEnded_lawful (b : Bridge) (good : Bool) : Lawful b (spinUpEnded b good) := by
  have spun : Lawful b (withCart b fun c => { c with spindle := .spinning }) :=
    cartState_lawful b _ ⟨rfl, rfl, rfl, rfl, rfl⟩ rfl fun _ h => h
  unfold spinUpEnded
  dsimp only
  cases good
  · simp only [Bool.false_eq_true, if_false]
    split
    · rename_i hs
      split
      · exact .refl b
      · exact enterUnusable_lawful b .noSpin fun ok => ok.noMap (.inl (by rw [hs]; rfl))
    · exact enterHalted_lawful b
    · exact enterHalted_lawful b
    · exact answerRecover_lawful ..
    all_goals exact .refl b
  · simp only [if_true]
    split
    · rename_i hs
      split
      · exact spun
      · exact spun.trans (startMount_lawful _ hs)
    · exact spun
    · exact spun
    · exact recoverGood_lawful b
    all_goals exact spun

theorem lifeEnded_lawful (b : Bridge) (kind : OrderKind) (good : Bool) : Lawful b (lifeEnded b kind good) := by
  unfold lifeEnded
  split
  · exact spinUpEnded_lawful ..
  · split
    · exact cartState_lawful b _ ⟨rfl, rfl, rfl, rfl, rfl⟩ rfl fun _ h => h
    · exact .refl b
  · split
    · exact ejectComplete_lawful b
    · exact enterHalted_lawful b
  all_goals exact .refl b

theorem completionTaken_lawful (b : Bridge) (o : Order) (result : CompletionResult) :
    Lawful b (completionTaken b o result) := by
  unfold completionTaken
  dsimp only
  have h1 : Lawful b { b with arb := { b.arb with order := none, timeouts := 0 } } :=
    ⟨id, id, fun ⟨h1, h2, h3, h4, h5, h6, h7, h8, h9, h10, h11, h12, _⟩ =>
      ⟨h1, h2, h3, h4, h5, h6, h7, h8, h9, h10, h11, h12, Nat.zero_le _⟩, id, id⟩
  refine h1.trans ?_
  split
  · exact runEnded_lawful ..
  · exact lifeEnded_lawful ..

theorem timeOutOrder_lawful (b : Bridge) (o : Order) : Lawful b (timeOutOrder b o) := by
  unfold timeOutOrder
  dsimp only
  refine (abandonOrder_course b o).lawful.trans (Lawful.trans ?_ (record_moves _ _).lawful)
  generalize abandonOrder b o = c
  exact ⟨id, id, fun ⟨h1, h2, h3, h4, h5, h6, h7, h8, h9, h10, h11, h12, _⟩ =>
      ⟨h1, h2, h3, h4, h5, h6, h7, h8, h9, h10, h11, h12, Nat.min_le_right _ _⟩, id, id⟩

theorem lifeReturned_lawful (b : Bridge) (kind : OrderKind) : Lawful b (lifeReturned b kind) := by
  unfold lifeReturned
  split
  · exact (arb_course b { b.arb with life := some .demandSpinUp } id rfl).lawful
  · exact (arb_course b { b.arb with life := some .spinDown } id rfl).lawful
  all_goals exact .refl b

theorem timeoutFollows_lawful (b : Bridge) (o : Order) : Lawful b (timeoutFollows b o) := by
  unfold timeoutFollows
  split
  · exact .refl b
  · exact .refl b
  · exact .refl b
  · rename_i hs
    split
    · exact .refl b
    · exact enterUnusable_lawful b .noSpin fun ok => ok.noMap (.inl (by rw [hs]; rfl))
  · split
    · exact enterHalted_lawful b
    · split
      · exact .refl b
      · split
        · exact .refl b
        · rename_i st hst
          exact mountTimedOut_lawful b st (by rw [hst]; simp)
  · split
    · exact enterHalted_lawful b
    · exact lifeReturned_lawful b o.kind
  · split
    · exact enterHalted_lawful b
    · exact lifeReturned_lawful b o.kind
  · exact enterHalted_lawful b
  · exact answerRecover_lawful ..

theorem presenceLeaves_lawful (b : Bridge) : Lawful b (presenceLeaves b) := by
  unfold presenceLeaves
  split
  · exact .refl b
  · exact becomeEmpty_lawful b
  · exact (arb_course b { b.arb with order := none } id rfl).lawful.trans (ejectComplete_lawful _)
  all_goals exact removeCartridge_lawful b

theorem quiesceExpires_lawful (b : Bridge) (q : Quiesce) : Lawful b (quiesceExpires b q) := by
  unfold quiesceExpires
  split
  · exact cartState_lawful b _ ⟨rfl, rfl, rfl, rfl, rfl⟩ rfl fun _ h => h
  · exact refuseEject_lawful b

/-! ### The links (Lines.lean) -/

theorem releaseEntry_lawful (b : Bridge) (k : Key) : Lawful b (releaseEntry b k) := by
  unfold releaseEntry
  split
  · exact putEntry_lawful ..
  · exact .refl b

theorem endTransmission_lawful (b : Bridge) : Lawful b (endTransmission b) := by
  unfold endTransmission
  split
  · exact .refl b
  · rename_i f hf
    have h1 : Lawful b { b with link := { b.link with tx := none } } := table_lawful b b.table _ b.thru ⟨rfl, rfl, rfl⟩ rfl
    refine h1.trans ?_
    generalize ({ b with link := { b.link with tx := none } } : Bridge) = c
    unfold reportSent
    split
    · exact releaseEntry_lawful ..
    · exact releaseEntry_lawful ..
    · exact .refl c
    · exact (linkCounts_lawful c { c.link with attnSent := satInc 65535 c.link.attnSent } id id satInc_keeps).trans
        (attnTest_moves _).lawful

theorem endForward_lawful (b : Bridge) : Lawful b (endForward b) := by
  unfold endForward
  split
  · exact .refl b
  · have h1 : Lawful b { b with thru := { b.thru with tx := none } } := table_lawful b b.table b.link _ ⟨rfl, rfl, rfl⟩ rfl
    refine h1.trans ?_
    unfold markSent
    split
    · exact .refl _
    · split
      · exact putEntry_lawful ..
      · exact .refl _

theorem countStray_lawful (b : Bridge) : Lawful b (countStray b) :=
  ⟨id, id, fun ⟨h1, h2, h3, h4, h⟩ => ⟨h1, h2, h3, satInc_keeps h4, h⟩, id, id⟩

theorem takeDownstream_lawful (b : Bridge) (frame : List Byte) : Lawful b (takeDownstream b frame) := by
  unfold takeDownstream
  split
  · exact countStray_lawful b
  · exact .refl b
  · split
    · exact (answerFrame_closes ..).lawful
    · exact countStray_lawful b

theorem resetOwners_lawful (b : Bridge) : Lawful b (resetOwners b) :=
  ⟨id, fun _ => ⟨List.nodup_nil, ⟨fun _ h => (nomatch h), fun _ => rfl⟩⟩, id, id, id⟩

theorem dropReadersAt_moves (b : Bridge) (i : BufIdx) : Moves b (dropReadersAt b i) := by
  unfold dropReadersAt
  split
  · exact .refl b
  · exact putBuf_moves b i _ id

/-- What follows the reset of the owners is a course of the pool. -/
theorem linkReset_moves (b : Bridge) : Moves (resetOwners b) (linkReset b) :=
  ((Moves.forBufs dropReadersAt_moves _).trans (.forBufs joinEvict_moves _)).trans (sweepLoads_moves _)

end Sys2Proof.Machine
end

