-- ==== Sys2Proof/Laws/Lock.lean ====
section
/-! SUPPORT. The edit lock and the entries in AWAIT_LOCK (R177 to R179): the operations that leave both as they are, said once
as the relation `LockKept`, and the lock operations, which keep the laws `LockOk` of Safety.lean. -/

namespace Sys2Proof.Machine

/-- The edit lock stays, and the same entries wait for it. -/
structure LockKept (b t : Bridge) : Prop where
  holder  : t.mgmt.holder = b.mgmt.holder
  waiting : t.mgmt.waiting = b.mgmt.waiting
  waits   : ∀ k e, e.state = .awaitLock → (t.entry k = some e ↔ b.entry k = some e)

/-- No entry waits for the lock at a key. -/
def NotWaiting (b : Bridge) (k : Key) : Prop := ∀ e, b.entry k = some e → e.state ≠ .awaitLock

/-! ### The relation -/

theorem LockKept.refl (b : Bridge) : LockKept b b := ⟨rfl, rfl, fun _ _ _ => Iff.rfl⟩

theorem LockKept.trans {a b c : Bridge} (h : LockKept a b) (h' : LockKept b c) : LockKept a c :=
  ⟨h'.holder.trans h.holder, h'.waiting.trans h.waiting, fun k e he => (h'.waits k e he).trans (h.waits k e he)⟩

theorem LockKept.foldl {α : Type} {f : Bridge → α → Bridge} (h : ∀ b x, LockKept b (f b x)) (l : List α) (b : Bridge) :
    LockKept b (l.foldl f b) := foldl_rel .refl .trans h l b

theorem LockKept.notWaiting {b t : Bridge} (h : LockKept b t) {k : Key} (hk : NotWaiting b k) : NotWaiting t k :=
  fun e he hs => hk e ((h.waits k e hs).1 he) hs

/-- Operations that leave the lock as it is where a key does not wait for it, in sequence. -/
theorem LockKept.foldl_at {α : Type} {f : Bridge → α → Bridge} {k : Key}
    (h : ∀ b x, NotWaiting b k → LockKept b (f b x)) (l : List α) (b : Bridge) (hk : NotWaiting b k) :
    LockKept b (l.foldl f b) :=
  foldl_rel (R := fun b t => NotWaiting b k → LockKept b t) (fun b _ => .refl b)
    (fun h h' hk => (h hk).trans (h' ((h hk).notWaiting hk))) h l b hk

/-- The waiting entries obey their law where the pending list and those entries are the same. -/
theorem LockWaitsOk.congr {b t : Bridge} (waiting : t.mgmt.waiting = b.mgmt.waiting)
    (waits : ∀ k e, e.state = .awaitLock → (t.entry k = some e ↔ b.entry k = some e)) (ok : LockWaitsOk b) :
    LockWaitsOk t := by
  obtain ⟨h1, h2, h3⟩ := ok
  refine ⟨fun k e he hs => ?_, fun o ho => ?_, fun j k e f he hf hse hsf => ?_⟩
  · rw [waiting]
    exact h1 k e ((waits k e hs).1 he) hs
  · rw [waiting] at ho
    obtain ⟨k, e, hk, he, hs⟩ := h2 o ho
    exact ⟨k, e, hk, (waits k e hs).2 he, hs⟩
  · exact h3 j k e f ((waits j e hse).1 he) ((waits k f hsf).1 hf) hse hsf

/-- The waiting entries obey their law when an originator leaves the pending list and its entry waits no more. -/
theorem LockWaitsOk.remove {b t : Bridge} (o : Originator) (waiting : ∀ p, p ∈ t.mgmt.waiting ↔ p ∈ b.mgmt.waiting ∧ p ≠ o)
    (waits : ∀ k e, e.state = .awaitLock → (t.entry k = some e ↔ b.entry k = some e ∧ k.orig ≠ o)) (ok : LockWaitsOk b) :
    LockWaitsOk t := by
  obtain ⟨h1, h2, h3⟩ := ok
  refine ⟨fun k e he hs => ?_, fun p hp => ?_, fun j k e f he hf hse hsf => ?_⟩
  · obtain ⟨he', ho⟩ := (waits k e hs).1 he
    exact ⟨(h1 k e he' hs).1, (waiting _).2 ⟨(h1 k e he' hs).2, ho⟩⟩
  · obtain ⟨hp', ho⟩ := (waiting p).1 hp
    obtain ⟨k, e, hk, he, hs⟩ := h2 p hp'
    exact ⟨k, e, hk, (waits k e hs).2 ⟨he, hk ▸ ho⟩, hs⟩
  · exact h3 j k e f ((waits j e hse).1 he).1 ((waits k f hsf).1 hf).1 hse hsf

/-- The laws of the lock speak of what the relation leaves alone. -/
theorem LockKept.lockOk {b t : Bridge} (h : LockKept b t) (ok : LockOk b) : LockOk t :=
  ⟨.congr h.holder h.waiting ok.1, .congr h.waiting h.waits ok.2⟩

/-- The entries and the lock are the same. -/
theorem LockKept.of_entries {b t : Bridge} (entries : t.table.entries = b.table.entries)
    (holder : t.mgmt.holder = b.mgmt.holder) (waiting : t.mgmt.waiting = b.mgmt.waiting) : LockKept b t :=
  ⟨holder, waiting, fun k e _ => by unfold Bridge.entry; rw [entries]⟩

/-- The requests of the pool's operations: an entry in AWAIT_LOCK is not active. -/
theorem Course.lockKept {b t : Bridge} (h : Course b t) : LockKept b t := by
  have hm := h.steady.mgmt
  refine ⟨by rw [hm], by rw [hm], fun k e hs => ⟨fun he => ?_, fun he => ?_⟩⟩
  · cases hb : b.entry k with
    | none => rw [h.steady.requests.1 k hb] at he; cases he
    | some f =>
      obtain ⟨f', hf', ⟨-, same⟩, idle⟩ := h.steady.requests.2 k f hb
      rw [he] at hf'
      cases hf'
      have hf : f.state = .awaitLock := by
        rcases same with e1 | e1 | ⟨-, e1⟩
        · rw [← e1]; exact hs
        · rw [e1] at hs; cases hs
        · rw [e1] at hs; cases hs
      rw [idle (by simp [isActive, hf])]
  · obtain ⟨f', hf', -, idle⟩ := h.steady.requests.2 k e he
    rw [hf', idle (by simp [isActive, hs])]

theorem Moves.lockKept {b t : Bridge} (h : Moves b t) : LockKept b t := h.course.lockKept

theorem finish_lockKept (b : Bridge) : LockKept b (finish b) := (finish_course b).lockKept

theorem pump_lockKept (b : Bridge) : LockKept b (pump b) := (pump_course b).lockKept

/-! ### Entries and answers -/

/-- An entry that does not wait for the lock becomes another, or none, that does not. -/
theorem putEntry_lockKept {b : Bridge} {k : Key} {x : Option Entry} (hk : NotWaiting b k)
    (hx : ∀ e, x = some e → e.state ≠ .awaitLock) : LockKept b (b.putEntry k x) := by
  refine ⟨rfl, rfl, fun j e hs => ?_⟩
  rw [entry_putEntry]
  split
  · rename_i hj
    subst hj
    exact ⟨fun h => absurd hs (hx e h), fun h => absurd hs (hk e h)⟩
  · exact Iff.rfl

theorem answerFrame_lockKept {b : Bridge} {k : Key} (hk : NotWaiting b k) (f : OutFrame) (st : Status) (done : Nat) :
    LockKept b (answerFrame b k f st done) := by
  have c := (answerFrame_closes b k f st done).mgmt
  refine ⟨by rw [c], by rw [c], fun j e hs => ?_⟩
  rw [answerFrame_entry]
  split
  · rename_i hj
    subst hj
    refine ⟨fun h => ?_, fun h => absurd hs (hk e h)⟩
    obtain ⟨g, hg, rfl⟩ := Option.map_eq_some_iff.1 h
    split at hs
    · exact absurd hs (hk g hg)
    · cases hs
  · exact Iff.rfl

theorem answer_lockKept {b : Bridge} {k : Key} (hk : NotWaiting b k) (st : Status) (done : Nat) (p : Payload) :
    LockKept b (answer b k st done p) := by
  unfold answer
  split
  · exact .refl b
  · exact answerFrame_lockKept hk ..

theorem answerStatus_lockKept {b : Bridge} {k : Key} (hk : NotWaiting b k) (st : Status) :
    LockKept b (answerStatus b k st) := answer_lockKept hk ..

theorem answerItems_lockKept {b : Bridge} {k : Key} (hk : NotWaiting b k) (l : List Item) :
    LockKept b (answerItems b k l) := answer_lockKept hk ..

theorem answerAll_lockKept (b : Bridge) {p : Entry → Bool} (hp : ∀ e, p e = true → e.state ≠ .awaitLock) (st : Status) :
    LockKept b (answerAll b p st) := by
  rw [answerAll_eq]
  refine .foldl (fun b k => ?_) allKeys b
  unfold answerEach
  split
  · rename_i h
    refine answerStatus_lockKept (fun e he => hp e ?_) st
    simpa [he] using h
  · exact .refl b

theorem editEntry_lockKept {b : Bridge} {k : Key} (hk : NotWaiting b k) {f : Entry → Entry}
    (hf : ∀ e, b.entry k = some e → (f e).state ≠ .awaitLock) : LockKept b (editEntry b k f) := by
  unfold editEntry
  split
  · exact .refl b
  · rename_i e he
    refine putEntry_lockKept hk fun g hg => ?_
    rw [← Option.some.inj hg]
    exact hf e he

theorem makeEntry_entry (b : Bridge) (h : Header) (op : Op) (f : Entry → Entry) :
    (makeEntry b h op f).entry h.key = some (f (freshEntry h op b.table.nextSeq)) := entry_putEntry_self ..

theorem makeEntry_notWaiting (b : Bridge) (h : Header) (op : Op) {f : Entry → Entry}
    (hf : ∀ e : Entry, e.state ≠ .awaitLock → (f e).state ≠ .awaitLock) :
    NotWaiting (makeEntry b h op f) h.key := by
  intro e he
  rw [makeEntry_entry] at he
  rw [← Option.some.inj he]
  exact hf _ (by simp [freshEntry])

theorem makeEntry_lockKept {b : Bridge} {h : Header} (hk : NotWaiting b h.key) (op : Op) {f : Entry → Entry}
    (hf : ∀ e : Entry, e.state ≠ .awaitLock → (f e).state ≠ .awaitLock) : LockKept b (makeEntry b h op f) := by
  refine LockKept.trans (putEntry_lockKept hk (x := some (f (freshEntry h op b.table.nextSeq))) fun e he => ?_)
    (.of_entries rfl rfl rfl)
  rw [← Option.some.inj he]
  exact hf _ (by simp [freshEntry])

/-! ### Requests (Ops.lean, Router.lean, Requests.lean) -/

theorem refuse_lockKept {b : Bridge} {h : Header} (hk : NotWaiting b h.key) (op : Op) (st : Status) :
    LockKept b (refuse b h op st) :=
  (makeEntry_lockKept hk op (f := id) fun _ he => he).trans
    (answerStatus_lockKept (makeEntry_notWaiting b h op (f := id) fun _ he => he) st)

/-- A request that is routed keeps the laws where its routing does. -/
theorem takeRequest_lockOk {b : Bridge} {h : Header} {op : Op} {route : Bridge → Bridge}
    (hr : ∀ c, NotWaiting c h.key → LockOk c → LockOk (route c)) (ok : LockOk b) : LockOk (takeRequest b h op route) := by
  unfold takeRequest
  split
  · exact ok
  · dsimp only
    have h1 : LockKept b { b with link := { b.link with partialRx := [] } } := .of_entries rfl rfl rfl
    replace ok := h1.lockOk ok
    generalize ({ b with link := { b.link with partialRx := [] } } : Bridge) = c at ok
    split
    · refine LockKept.lockOk ?_ ok
      unfold keyHeld
      split
      · exact .refl c
      · exact .of_entries rfl rfl rfl
    · rename_i hn
      have hk : NotWaiting c h.key := fun e he => by simp [he] at hn
      split
      · exact hr c hk ok
      · exact (refuse_lockKept hk ..).lockOk ok

theorem thru_lockKept (b : Bridge) (p : ThroughPort) : LockKept b { b with thru := p } := .of_entries rfl rfl rfl

theorem withCart_lockKept (b : Bridge) (f : CartRecord → CartRecord) : LockKept b (withCart b f) :=
  .of_entries rfl rfl rfl

theorem forward_lockKept {b : Bridge} {h : Header} (hk : NotWaiting b h.key) (op : Op) (data : List Block) :
    LockKept b (forward b h op data) := by
  unfold forward
  dsimp only
  refine LockKept.trans ?_ (thru_lockKept _ _)
  exact makeEntry_lockKept hk op fun _ _ => by simp

theorem passOrRefuse_lockKept {b : Bridge} {h : Header} (hk : NotWaiting b h.key) (op : Op) (data : List Block) :
    LockKept b (passOrRefuse b h op data) := by
  unfold passOrRefuse
  split
  · exact forward_lockKept hk ..
  · exact refuse_lockKept hk ..

theorem routeBlocks_lockKept {h : Header} (op : Op) (data : List Block) {accept : Fin 16 → Nat → Bridge → Bridge}
    (ha : ∀ i cb b, NotWaiting b h.key → LockKept b (accept i cb b)) {b : Bridge} (hk : NotWaiting b h.key) :
    LockKept b (routeBlocks h op data accept b) := by
  unfold routeBlocks
  split
  · exact refuse_lockKept hk ..
  · split
    · exact refuse_lockKept hk ..
    · exact passOrRefuse_lockKept hk ..
    · dsimp only
      split
      · exact refuse_lockKept hk ..
      · exact ha _ _ _ hk

theorem routeLocal_lockKept {h : Header} (op : Op) {act : Bridge → Bridge}
    (ha : ∀ b, NotWaiting b h.key → LockKept b (act b)) {b : Bridge} (hk : NotWaiting b h.key) :
    LockKept b (routeLocal h op act b) := by
  unfold routeLocal
  split
  · exact refuse_lockKept hk ..
  · split
    · exact ha b hk
    · exact passOrRefuse_lockKept hk ..

theorem admitRead_lockKept {h : Header} (i : Fin 16) (cb : Nat) {b : Bridge} (hk : NotWaiting b h.key) :
    LockKept b (admitRead h i cb b) := by
  unfold admitRead
  dsimp only
  refine LockKept.trans ?_ (insertReservation_moves ..).lockKept
  exact makeEntry_lockKept hk .read fun _ _ => by simp

theorem answerMerged_lockKept {k : Key} (mode : WriteMode) (n : Nat) {b : Bridge} (hk : NotWaiting b k) :
    LockKept b (answerMerged k mode n b) := by
  unfold answerMerged Bridge.forKeys
  refine LockKept.foldl_at (k := k) (fun b j hk => ?_) _ _ hk
  split
  · split
    · exact answer_lockKept hk ..
    · exact (finishAwait_moves ..).lockKept
  · exact (testRead_moves ..).lockKept

theorem awaitMerged_state (b : Bridge) (e : Entry) (lsn : Nat) : (awaitMerged b e lsn).state = e.state := by
  unfold awaitMerged
  split
  · rfl
  · split
    · unfold Entry.failSector; repeat' split
      all_goals rfl
    · rfl

theorem writeEntry_notWaiting (b : Bridge) (i : Fin 16) (cb : Nat) (mode : WriteMode) (e : Entry)
    (he : e.state ≠ .awaitLock) : (writeEntry b i cb mode e).state ≠ .awaitLock := by
  unfold writeEntry
  dsimp only
  split
  · exact he
  · have key : ∀ (l : List Nat) (e : Entry), (l.foldl (awaitMerged b) e).state = e.state := by
      intro l
      induction l with
      | nil => intro e; rfl
      | cons x l ih => intro e; rw [List.foldl_cons, ih, awaitMerged_state]
    rw [key]
    simp

theorem admitWriteRequest_lockKept {h : Header} (data : List Block) (i : Fin 16) (cb : Nat) {b : Bridge}
    (hk : NotWaiting b h.key) : LockKept b (admitWriteRequest h data i cb b) := by
  unfold admitWriteRequest
  dsimp only
  split
  · exact refuse_lockKept hk ..
  · have h1 := (admitWrite_moves b cb h.count.toNat data).lockKept
    revert h1
    generalize admitWrite b cb h.count.toNat data = c
    intro h1
    have hf := writeEntry_notWaiting c i cb b.router.windows[i].writeMode
    exact (h1.trans (makeEntry_lockKept (h1.notWaiting hk) .write hf)).trans
      (answerMerged_lockKept _ _ (makeEntry_notWaiting c h .write hf))

theorem countMalformed_lockKept (b : Bridge) : LockKept b (countMalformed b) := by
  unfold countMalformed
  split
  · exact .refl b
  · exact .of_entries rfl rfl rfl

theorem flushLocal_lockKept {h : Header} {b : Bridge} (hk : NotWaiting b h.key) : LockKept b (flushLocal h b) := by
  have hf : ∀ e : Entry, e.state ≠ .awaitLock → ({ e with routing := some (.onBridge none) } : Entry).state ≠ .awaitLock :=
    fun _ he => he
  have h1 := makeEntry_lockKept hk .flush hf
  have h2 := makeEntry_notWaiting b h .flush hf
  unfold flushLocal
  dsimp only
  split
  · exact h1.trans (answerStatus_lockKept h2 _)
  · split
    · exact h1.trans (answerStatus_lockKept h2 _)
    · exact h1.trans (editEntry_lockKept h2 fun _ _ => by simp)

theorem senseLocal_lockKept {h : Header} {b : Bridge} (hk : NotWaiting b h.key) : LockKept b (senseLocal h b) := by
  have hf : ∀ e : Entry, e.state ≠ .awaitLock → ({ e with routing := some (.onBridge none) } : Entry).state ≠ .awaitLock :=
    fun _ he => he
  exact (makeEntry_lockKept hk .sense hf).trans (answerItems_lockKept (makeEntry_notWaiting b h .sense hf) _)

theorem leaveQuiesce_lockKept (b : Bridge) : LockKept b (leaveQuiesce b) := by
  unfold leaveQuiesce
  exact ((withCart_lockKept b _).trans (dropQuiesce_moves _).lockKept).trans (tryMapWrite_moves _).lockKept

/-- The entries that wait for the lock after an answer at a key. -/
theorem answerStatus_waits (b : Bridge) (k : Key) (st : Status) {j : Key} {f : Entry} (hs : f.state = .awaitLock) :
    (answerStatus b k st).entry j = some f ↔ b.entry j = some f ∧ j ≠ k := by
  have he : (answerStatus b k st).entry j = _ := answer_entry ..
  rw [he]
  split
  · rename_i hj
    subst hj
    refine ⟨fun h => ?_, fun h => absurd rfl h.2⟩
    obtain ⟨g, hg, rfl⟩ := Option.map_eq_some_iff.1 h
    split at hs
    · rename_i hga; rw [hga] at hs; cases hs
    · cases hs
  · rename_i hj
    exact ⟨fun h => ⟨h, hj⟩, fun h => h.1⟩

theorem mem_leavePending (b : Bridge) (o p : Originator) :
    p ∈ (leavePending b o).mgmt.waiting ↔ p ∈ b.mgmt.waiting ∧ p ≠ o := by
  simp [leavePending]

/-- The originator of the waiting LOCK_REQUEST at a key leaves the pending list, and the request is answered (R52, R179). -/
theorem leaveAndAnswer_lockOk {b : Bridge} {k : Key} {e : Entry} (he : b.entry k = some e) (hs : e.state = .awaitLock)
    (st : Status) (ok : LockOk b) : LockOk (answerStatus (leavePending b k.orig) k st) := by
  refine ⟨((leavePending_lawful b k.orig).trans (answerStatus_lawful _ k st)).lock ok.1,
    .remove k.orig (fun p => ?_) (fun j f hf => ?_) ok.2⟩
  · rw [(answerStatus_closes ..).mgmt]
    exact mem_leavePending b k.orig p
  · refine (answerStatus_waits _ _ _ hf).trans (and_congr_right fun hj => not_congr ⟨fun h => by rw [h], fun h => ?_⟩)
    exact ok.2.2.2 j k f e hj he hf hs h

theorem abortEffect_lockOk (t : Key) {b : Bridge} (ok : LockOk b) : LockOk (abortEffect t b) := by
  unfold abortEffect
  split
  · exact ok
  · rename_i e he
    have hk : e.state ≠ .awaitLock → NotWaiting b t := fun hs f hf => by rw [he] at hf; cases hf; exact hs
    split
    · exact ok
    · exact ok
    · exact ok
    · rename_i hs; exact (answerStatus_lockKept (hk (by simp [hs])) _).lockOk ok
    · rename_i hs; exact (answerStatus_lockKept (hk (by simp [hs])) _).lockOk ok
    · rename_i hs; exact (answerStatus_lockKept (hk (by simp [hs])) _).lockOk ok
    · rename_i hs; exact leaveAndAnswer_lockOk he hs _ ok
    · rename_i hs
      split
      · have h1 := leaveQuiesce_lockKept b
        exact (h1.trans (answerStatus_lockKept (h1.notWaiting (hk (by simp [hs]))) _)).lockOk ok
      · exact ok

/-- An ABORT makes no key wait for the lock. -/
theorem abortEffect_notWaiting {b : Bridge} {t k : Key} (hk : NotWaiting b k) : NotWaiting (abortEffect t b) k := by
  have ans : ∀ (c : Bridge) (st : Status), NotWaiting c k → NotWaiting (answerStatus c t st) k :=
    fun c st hc e he hs => hc e ((answerStatus_waits c t st hs).1 he).1 hs
  unfold abortEffect
  split
  · exact hk
  · split
    · exact hk
    · exact hk
    · exact hk
    · exact ans b _ hk
    · exact ans b _ hk
    · exact ans b _ hk
    · exact ans (leavePending b t.orig) _ hk
    · split
      · exact ans _ _ ((leaveQuiesce_lockKept b).notWaiting hk)
      · exact hk

theorem routeAbort_lockOk {h : Header} {b : Bridge} (hk : NotWaiting b h.key) (ok : LockOk b) :
    LockOk (routeAbort h b) := by
  unfold routeAbort
  split
  · rename_i ht
    have hn : NotWaiting b (abortTarget h) := fun e he hs => by simp [he, hs] at ht
    have h1 := editEntry_lockKept hn (f := fun e => { e with abortPending := true }) fun e he => hn e he
    exact (h1.trans (forward_lockKept (h1.notWaiting hk) ..)).lockOk ok
  · unfold abortLocal
    dsimp only
    have hf : ∀ e : Entry, e.state ≠ .awaitLock →
        ({ e with routing := some (.onBridge (some (abortTarget h).tag)) } : Entry).state ≠ .awaitLock := fun _ he => he
    have h2 := makeEntry_notWaiting b h .abort hf
    replace ok := (makeEntry_lockKept hk .abort hf).lockOk ok
    revert h2 ok
    generalize makeEntry b h .abort (fun e => { e with routing := some (.onBridge (some (abortTarget h).tag)) }) = c
    intro h2 ok
    split
    · unfold inKeyOrder
      split
      · exact abortEffect_lockOk _ ((answerStatus_lockKept h2 _).lockOk ok)
      · exact (answerStatus_lockKept (abortEffect_notWaiting h2) _).lockOk (abortEffect_lockOk _ ok)
    · exact (answerStatus_lockKept h2 _).lockOk ok

/-! ### Management requests (Management.lean, Reports.lean) -/

/-- A management request keeps the laws where its operation does, with the entry that was just made. -/
theorem manage_lockOk {h : Header} {op : Op} {items : List Item} {act : Bridge → Bridge}
    (ha : ∀ c e, c.entry h.key = some e → e.op = op → e.state = .awaitMech → LockOk c → LockOk (act c))
    {b : Bridge} (ok : LockOk b) : LockOk (manage h op items act b) := by
  refine takeRequest_lockOk (fun b hk ok => ?_) ok
  split
  · exact (refuse_lockKept hk ..).lockOk ok
  · dsimp only
    have hf : ∀ e : Entry, e.state ≠ .awaitLock → ({ e with routing := some .management } : Entry).state ≠ .awaitLock :=
      fun _ he => he
    have h1 := makeEntry_notWaiting b h op hf
    have h2 := makeEntry_entry b h op fun e => { e with routing := some .management }
    replace ok := (makeEntry_lockKept hk op hf).lockOk ok
    revert h1 h2 ok
    generalize makeEntry b h op (fun e => { e with routing := some .management }) = c
    intro h1 h2 ok
    split
    · exact (answerStatus_lockKept h1 _).lockOk ok
    · split
      · exact (answerStatus_lockKept h1 _).lockOk ok
      · exact ha c _ h2 rfl rfl ok

/-- A management request whose operation leaves the lock alone. -/
theorem manage_lockOk_of {h : Header} {op : Op} {items : List Item} {act : Bridge → Bridge}
    (ha : ∀ c, NotWaiting c h.key → LockKept c (act c)) {b : Bridge} (ok : LockOk b) :
    LockOk (manage h op items act b) :=
  manage_lockOk (fun c e he _ hs ok => (ha c fun f hf => by rw [he] at hf; cases hf; simp [hs]).lockOk ok) ok

theorem lockRequest_lockOk {h : Header} {b : Bridge} {e : Entry} (he : b.entry h.key = some e) (ho : e.op = .lockRequest)
    (hs : e.state = .awaitMech) (ok : LockOk b) : LockOk (lockRequest h b) := by
  have hk : NotWaiting b h.key := fun f hf => by rw [he] at hf; cases hf; simp [hs]
  have hl := (lockRequest_lawful h b).lock ok.1
  obtain ⟨-, h1, h2, h3⟩ := ok
  refine ⟨hl, ?_⟩
  clear hl
  unfold lockRequest
  split
  · have hk' : NotWaiting { b with mgmt := { b.mgmt with holder := some h.orig } } h.key := hk
    have h' := answerStatus_lockKept hk' .ok
    exact LockWaitsOk.congr (b := b) h'.waiting h'.waits ⟨h1, h2, h3⟩
  · split
    · have h' := answerStatus_lockKept hk .alreadyHeld
      exact .congr h'.waiting h'.waits ⟨h1, h2, h3⟩
    · split
      · have h' := answerStatus_lockKept hk .badRequest
        exact .congr h'.waiting h'.waits ⟨h1, h2, h3⟩
      · rename_i hw
        generalize ht : waitIn { b with mgmt := { b.mgmt with waiting := b.mgmt.waiting ++ [h.orig] } } h.key .awaitLock = t
        have hm : t.mgmt.waiting = b.mgmt.waiting ++ [h.orig] := by
          rw [← ht]; unfold waitIn editEntry; split <;> rfl
        have hself : t.entry h.key = some { e with state := .awaitLock } := by
          rw [← ht]; unfold waitIn editEntry
          have he' : Bridge.entry { b with mgmt := { b.mgmt with waiting := b.mgmt.waiting ++ [h.orig] } } h.key = some e :=
            he
          rw [he']
          exact entry_putEntry_self ..
        have hother : ∀ j, j ≠ h.key → t.entry j = b.entry j := by
          intro j hj
          rw [← ht]; unfold waitIn editEntry
          split
          · rfl
          · exact entry_putEntry_ne _ _ hj
        have hne : ∀ j f, j ≠ h.key → t.entry j = some f → f.state = .awaitLock → j.orig ≠ h.orig := by
          intro j f hj hf hfs hjo
          rw [hother j hj] at hf
          exact hw (hjo ▸ (h1 j f hf hfs).2)
        refine ⟨fun j f hf hfs => ?_, fun o ho' => ?_, fun i j f g hf hg hfs hgs hij => ?_⟩
        · rw [hm]
          by_cases hj : j = h.key
          · subst hj
            rw [hself] at hf
            rw [← Option.some.inj hf]
            exact ⟨ho, by simp [Header.key]⟩
          · rw [hother j hj] at hf
            exact ⟨(h1 j f hf hfs).1, List.mem_append_left _ (h1 j f hf hfs).2⟩
        · rw [hm] at ho'
          rcases List.mem_append.1 ho' with hin | hin
          · obtain ⟨j, f, hj, hf, hfs⟩ := h2 o hin
            have : j ≠ h.key := fun hjk => hk f (hjk ▸ hf) hfs
            exact ⟨j, f, hj, (hother j this).trans hf, hfs⟩
          · exact ⟨h.key, _, (List.mem_singleton.1 hin).symm, hself, rfl⟩
        · by_cases hi : i = h.key <;> by_cases hj : j = h.key
          · rw [hi, hj]
          · exact absurd (hij ▸ hi ▸ rfl) (hne j g hj hg hgs)
          · exact absurd (hij.trans (hj ▸ rfl)) (hne i f hi hf hfs)
          · exact h3 i j f g (hother i hi ▸ hf) (hother j hj ▸ hg) hfs hgs hij

/-- The answers of a lock operation, as one of the loops of Answers.lean. -/
theorem answerLock_eq (b : Bridge) (own : Key) (o : Originator) (st : Status) :
    answerLock b own o st = allKeys.foldl (answerEach (fun k e => k == own || isLockWait o k e)
      (fun k => if k = own then .ok else st)) b := by
  unfold answerLock Bridge.forKeys
  congr 1
  funext c k
  unfold answerEach
  by_cases hk : k = own
  · subst hk
    simp only [if_true]
    cases hc : c.entry k with
    | none => simp [answerStatus, answer, hc]
    | some e => simp
  · have hb : (k == own) = false := by simp [hk]
    simp only [hk, if_false, hb, Bool.false_or]

/-- The entries that wait for the lock after a lock operation's answers: those of the other originators. -/
theorem answerLock_waits {b : Bridge} {own : Key} (hk : NotWaiting b own) (o : Originator) (st : Status)
    (h1 : ∀ k e, b.entry k = some e → e.state = .awaitLock → e.op = .lockRequest) {j : Key} {f : Entry}
    (hs : f.state = .awaitLock) :
    (answerLock b own o st).entry j = some f ↔ b.entry j = some f ∧ j.orig ≠ o := by
  rw [answerLock_eq]
  generalize hp : (fun (k : Key) (e : Entry) => k == own || isLockWait o k e) = p
  have same : ∀ g, b.entry j = some g → p j g = false →
      (allKeys.foldl (answerEach p fun k => if k = own then .ok else st) b).entry j = b.entry j := fun g hg hpf =>
    foldl_answerEach_entry p _ allKeys b fun e he ht => by rw [hg] at he; cases he; rw [hpf] at ht; cases ht
  have gone : ∀ g, b.entry j = some g → p j g = true →
      (allKeys.foldl (answerEach p fun k => if k = own then .ok else st) b).entry j ≠ some f := by
    intro g hg hpt hf
    by_cases hga : g.state = .answered
    · rw [foldl_answerEach_entry p _ allKeys b fun e he _ => by rw [hg] at he; cases he; exact hga, hg] at hf
      cases hf
      rw [hga] at hs; cases hs
    · obtain ⟨e, he, hea, -⟩ := foldl_answerEach_isAnswered p (fun k => if k = own then .ok else st) allKeys b
        allKeys_nodup (mem_allKeys j) hg hpt hga
      rw [he] at hf
      cases hf
      rw [hea] at hs; cases hs
  have hpj : ∀ g, b.entry j = some g → g.state = .awaitLock → (p j g = true ↔ j.orig = o) := by
    intro g hg hgs
    have hj : j ≠ own := fun hj => hk g (hj ▸ hg) hgs
    rw [← hp]
    simp [isLockWait, hj, h1 j g hg hgs, hgs]
  constructor
  · intro hf
    cases hb : b.entry j with
    | none =>
      rw [foldl_answerEach_entry p _ allKeys b (fun e he => by rw [hb] at he; cases he), hb] at hf
      cases hf
    | some g =>
      cases hpg : p j g with
      | true => exact absurd hf (gone g hb hpg)
      | false =>
        rw [same g hb hpg, hb] at hf
        cases hf
        exact ⟨rfl, fun ho => by rw [(hpj f hb hs).2 ho] at hpg; cases hpg⟩
  · rintro ⟨hf, ho⟩
    have hpf : p j f = false := by
      cases hpf : p j f with
      | false => rfl
      | true => exact absurd ((hpj f hf hs).1 hpf) ho
    rw [same f hf hpf, hf]

theorem answerLock_closes (b : Bridge) (own : Key) (o : Originator) (st : Status) : Closes b (answerLock b own o st) := by
  rw [answerLock_eq]
  exact foldl_answerEach_closes ..

theorem lockRelease_lockOk {h : Header} {b : Bridge} (hk : NotWaiting b h.key) (ok : LockOk b) :
    LockOk (lockRelease h b) := by
  refine ⟨(lockRelease_lawful h b).lock ok.1, ?_⟩
  have hnd := ok.1.1
  have hwaits := ok.2
  clear ok
  unfold lockRelease
  split
  · split
    · have h' := answerStatus_lockKept (b := { b with mgmt := { b.mgmt with holder := none } }) hk .ok
      exact LockWaitsOk.congr (b := b) h'.waiting h'.waits hwaits
    · rename_i o rest hw
      rw [hw, List.nodup_cons] at hnd
      refine LockWaitsOk.remove (b := b) o (fun p => ?_) (fun j f hf => ?_) hwaits
      · rw [(answerLock_closes ..).mgmt, hw]
        show p ∈ rest ↔ _
        rw [List.mem_cons]
        exact ⟨fun hp => ⟨.inr hp, fun e => hnd.1 (e ▸ hp)⟩, fun hp => hp.1.resolve_left hp.2⟩
      · exact answerLock_waits (b := { b with mgmt := { b.mgmt with holder := some o, waiting := rest } }) hk o .ok
          (fun k e he hs => (hwaits.1 k e he hs).1) hf
  · have h' := answerStatus_lockKept hk .notHolder
    exact .congr h'.waiting h'.waits hwaits

theorem lockCancel_lockOk {h : Header} {b : Bridge} (hk : NotWaiting b h.key) (ok : LockOk b) :
    LockOk (lockCancel h b) := by
  refine ⟨(lockCancel_lawful h b).lock ok.1, ?_⟩
  have hwaits := ok.2
  clear ok
  unfold lockCancel
  split
  · refine LockWaitsOk.remove (b := b) h.orig (fun p => ?_) (fun j f hf => ?_) hwaits
    · rw [(answerLock_closes ..).mgmt]
      exact mem_leavePending b h.orig p
    · exact answerLock_waits (b := leavePending b h.orig) hk h.orig .cancelled
        (fun k e he hs => (hwaits.1 k e he hs).1) hf
  · have h' := answerStatus_lockKept hk .notPending
    exact .congr h'.waiting h'.waits hwaits

theorem readDefects_lockKept {h : Header} (items : List Item) {b : Bridge} (hk : NotWaiting b h.key) :
    LockKept b (readDefects h items b) := by
  unfold readDefects
  dsimp only
  split
  · exact answerStatus_lockKept hk _
  · exact answerItems_lockKept hk _

theorem readExceptions_lockKept {h : Header} {b : Bridge} (hk : NotWaiting b h.key) : LockKept b (readExceptions h b) := by
  unfold readExceptions
  have h1 : LockKept b { b with mgmt := { b.mgmt with exceptions := b.mgmt.exceptions.drop 8, overflow := 0 } } :=
    .of_entries rfl rfl rfl
  exact h1.trans (answerItems_lockKept (h1.notWaiting hk) _)

theorem readWindow_lockKept {h : Header} (items : List Item) {b : Bridge} (hk : NotWaiting b h.key) :
    LockKept b (readWindow h items b) := by
  unfold readWindow
  split
  · exact answerStatus_lockKept hk _
  · exact answerItems_lockKept hk _

theorem readClass_lockKept {h : Header} (items : List Item) {b : Bridge} (hk : NotWaiting b h.key) :
    LockKept b (readClass h items b) := by
  unfold readClass
  split
  · exact answerStatus_lockKept hk _
  · exact answerItems_lockKept hk _

theorem writeWindow_lockKept {h : Header} (items : List Item) {b : Bridge} (hk : NotWaiting b h.key) :
    LockKept b (writeWindow h items b) := by
  unfold writeWindow
  split
  · exact answerStatus_lockKept hk _
  · dsimp only
    split
    · exact answerStatus_lockKept hk _
    · split
      · exact answerStatus_lockKept hk _
      · split
        · exact answerStatus_lockKept hk _
        · rename_i i _ _ _ _
          have h1 : LockKept b (putWindow b i (applyWindowItems items b.router.windows[i])) := .of_entries rfl rfl rfl
          exact h1.trans (answerStatus_lockKept (h1.notWaiting hk) _)

theorem writeClass_lockKept {h : Header} (items : List Item) {b : Bridge} (hk : NotWaiting b h.key) :
    LockKept b (writeClass h items b) := by
  unfold writeClass
  split
  · exact answerStatus_lockKept hk _
  · dsimp only
    split
    · exact answerStatus_lockKept hk _
    · split
      · exact answerStatus_lockKept hk _
      · rename_i i _ _ _
        have h1 : LockKept b (putClass b i (applyClassItems items b.router.classes[i])) := .of_entries rfl rfl rfl
        exact h1.trans (answerStatus_lockKept (h1.notWaiting hk) _)

theorem settingsAct_lockKept (items : List Item) (b : Bridge) : LockKept b (settingsAct items b) := by
  have h1 : LockKept b (if (findItem items 0x32).isSome then testAllOpen b else b) := by
    split
    · exact (testAllOpen_moves b).lockKept
    · exact .refl b
  have h2 : ∀ c : Bridge, LockKept c (if (findItem items 0x33).isSome then tryMapWrite c else c) := fun c => by
    split
    · exact (tryMapWrite_moves c).lockKept
    · exact .refl c
  unfold settingsAct
  dsimp only
  revert h1
  generalize (if (findItem items 0x32).isSome then testAllOpen b else b) = c
  intro h1
  have h3 := h2 c
  revert h3
  generalize (if (findItem items 0x33).isSome then tryMapWrite c else c) = d
  intro h3
  split
  · exact (h1.trans h3).trans (askLife_course d .spinDown).lockKept
  · exact h1.trans h3

theorem setSettings_lockKept {h : Header} (items : List Item) {b : Bridge} (hk : NotWaiting b h.key) :
    LockKept b (setSettings h items b) := by
  unfold setSettings
  split
  · exact answerStatus_lockKept hk _
  · dsimp only
    refine ((answerStatus_lockKept hk .ok).trans ?_).trans (settingsAct_lockKept items _)
    generalize answerStatus b h.key .ok = c
    unfold pruneAttention
    refine LockKept.trans ?_ (attnTest_moves _).lockKept
    exact .of_entries rfl rfl rfl

theorem discardStranded_lockKept {h : Header} {b : Bridge} (hk : NotWaiting b h.key) :
    LockKept b (discardStranded h b) := by
  unfold discardStranded
  split
  · exact answerStatus_lockKept hk _
  · have h1 := (discardWhere_moves b fun x => x.state == .stranded).lockKept
    exact h1.trans (answerItems_lockKept (h1.notWaiting hk) _)

theorem waitIn_lockKept {b : Bridge} {k : Key} (hk : NotWaiting b k) {st : EntryState} (hs : st ≠ .awaitLock) :
    LockKept b (waitIn b k st) := editEntry_lockKept hk fun _ _ => hs

theorem recover_lockKept {h : Header} {b : Bridge} (hk : NotWaiting b h.key) : LockKept b (recover h b) := by
  unfold recover
  split
  · split
    · exact answerStatus_lockKept hk _
    · have h1 := (askLife_course b .recoverSpinUp).lockKept
      exact h1.trans (waitIn_lockKept (h1.notWaiting hk) (by simp))
  · exact answerStatus_lockKept hk _

/-! ### The life of a cartridge (Cartridge.lean) -/

theorem isActive_notWaiting {e : Entry} (h : isActive e = true) : e.state ≠ .awaitLock := by
  intro hs; simp [isActive, hs] at h

theorem isEjectWait_notWaiting {e : Entry} (h : isEjectWait e = true) : e.state ≠ .awaitLock := by
  intro hs; simp [isEjectWait, hs] at h

theorem isRecoverWait_notWaiting {e : Entry} (h : isRecoverWait e = true) : e.state ≠ .awaitLock := by
  intro hs; simp [isRecoverWait, hs] at h

theorem answerEject_lockKept (b : Bridge) (st : Status) : LockKept b (answerEject b st) :=
  answerAll_lockKept b (fun _ => isEjectWait_notWaiting) st

theorem answerRecover_lockKept (b : Bridge) (st : Status) : LockKept b (answerRecover b st) :=
  answerAll_lockKept b (fun _ => isRecoverWait_notWaiting) st

theorem raiseEvent_lockKept (b : Bridge) (ev : AttnEvent) : LockKept b (raiseEvent b ev) := (raiseEvent_moves b ev).lockKept

theorem arb_lockKept (b : Bridge) (a : Arbiter) : LockKept b { b with arb := a } := .of_entries rfl rfl rfl

theorem beginQuiesce_lockKept (b : Bridge) (source : EjectSource) (forced : Bool) :
    LockKept b (beginQuiesce b source forced) := by
  unfold beginQuiesce
  dsimp only
  exact (withCart_lockKept b _).trans
    (((addQuiesce_moves _).trans (syncJobs_moves _)).trans (tryMapWrite_moves _)).lockKept

theorem beginEject_lockKept (b : Bridge) : LockKept b (beginEject b) := by
  unfold beginEject
  dsimp only
  refine LockKept.trans ?_ (abandonMapWrite_moves _).lockKept
  refine LockKept.trans ?_ (reportDiscard_moves _ _).lockKept
  exact (answerAll_lockKept b (fun _ => isActive_notWaiting) _).trans (discardWhere_moves _ _).lockKept

theorem enterEjecting_lockKept (b : Bridge) : LockKept b (enterEjecting b) := by
  unfold enterEjecting
  dsimp only
  refine LockKept.trans ?_ (askLife_course ..).lockKept
  refine LockKept.trans ?_ (withCart_lockKept _ _)
  split
  · exact withCart_lockKept b _
  · exact (withCart_lockKept b _).trans (beginEject_lockKept _)

theorem requestEject_lockKept {b t : Bridge} {source : EjectSource} {forced : Bool}
    (h : requestEject b source forced = some t) : LockKept b t := by
  unfold requestEject at h
  split at h
  · cases h
  · cases h
  · cases h
  · cases h
  · split at h
    · cases h
    · rw [← Option.some.inj h]; exact withCart_lockKept b _
  · split at h
    · cases h
    · rw [← Option.some.inj h]; exact withCart_lockKept b _
  · rw [← Option.some.inj h]; exact beginQuiesce_lockKept b source forced
  · rw [← Option.some.inj h]; exact enterEjecting_lockKept b
  · split at h
    · cases h
    · rw [← Option.some.inj h]; exact enterEjecting_lockKept b

theorem eject_lockKept {h : Header} (items : List Item) {b : Bridge} (hk : NotWaiting b h.key) :
    LockKept b (eject h items b) := by
  unfold eject
  dsimp only
  split
  · exact answerStatus_lockKept hk _
  · split
    · rename_i b' hb
      exact (waitIn_lockKept hk (by simp)).trans (requestEject_lockKept hb)
    · exact answerStatus_lockKept hk _

theorem presenceArrives_lockKept (b : Bridge) (tab : Bool) : LockKept b (presenceArrives b tab) := by
  unfold presenceArrives
  split
  · exact withCart_lockKept b _
  · exact withCart_lockKept b _
  all_goals exact .refl b

theorem endSettle_lockKept (b : Bridge) : LockKept b (endSettle b) := by
  unfold endSettle
  exact (withCart_lockKept b _).trans (askLife_course ..).lockKept

theorem enterUnusable_lockKept (b : Bridge) (r : Reason) : LockKept b (enterUnusable b r) := by
  unfold enterUnusable
  refine LockKept.trans ?_ (raiseEvent_lockKept _ _)
  exact .of_entries rfl rfl rfl

theorem enterHalted_lockKept (b : Bridge) : LockKept b (enterHalted b) := by
  unfold enterHalted
  dsimp only
  refine LockKept.trans ?_ (raiseEvent_lockKept _ _)
  have h1 := (withCart_lockKept b fun c => { c with state := .halted }).trans
    (answerAll_lockKept _ (p := fun e => isActive e || isEjectWait e)
      (fun e he => (Bool.or_eq_true_iff.1 he).elim isActive_notWaiting isEjectWait_notWaiting) .mechFault)
  revert h1
  generalize answerAll (withCart b fun c => { c with state := .halted }) (fun e => isActive e || isEjectWait e) .mechFault = c
  intro h1
  exact h1.trans (.of_entries rfl rfl rfl)

theorem askMount_lockKept (b : Bridge) (st : MountStep) : LockKept b (askMount b st) := by
  unfold askMount
  refine LockKept.trans ?_ (takeStamp_moves _).lockKept
  exact .of_entries rfl rfl rfl

theorem startMount_lockKept (b : Bridge) : LockKept b (startMount b) :=
  (withCart_lockKept b _).trans (askMount_lockKept _ _)

theorem mountFailed_lockKept (b : Bridge) (st : MountStep) : LockKept b (mountFailed b st) := by
  unfold mountFailed
  split
  · exact askMount_lockKept ..
  · exact enterUnusable_lockKept ..

theorem mountTimedOut_lockKept (b : Bridge) (st : MountStep) : LockKept b (mountTimedOut b st) := by
  unfold mountTimedOut
  split
  · exact withCart_lockKept b _
  · exact enterUnusable_lockKept ..

theorem judgeLabel_lockKept (b : Bridge) : LockKept b (judgeLabel b) := by
  unfold judgeLabel
  dsimp only
  generalize asLabel b.dm.staging[0] = l
  split
  · exact enterUnusable_lockKept ..
  · split
    · exact enterUnusable_lockKept ..
    · exact (withCart_lockKept b _).trans (askMount_lockKept ..)

theorem judgeMapRead_lockKept (b : Bridge) : LockKept b (judgeMapRead b) := by
  unfold judgeMapRead
  split
  · exact enterUnusable_lockKept ..
  · split
    · exact enterUnusable_lockKept ..
    · unfold acceptMount
      refine LockKept.trans ?_ (raiseEvent_lockKept _ _)
      exact .of_entries rfl rfl rfl

theorem mountReadEnded_lockKept (b : Bridge) (outcomes : List SectorOutcome) : LockKept b (mountReadEnded b outcomes) := by
  unfold mountReadEnded
  split
  · exact .refl b
  · dsimp only
    have h1 : LockKept b (stageRead b outcomes) := .of_entries rfl rfl rfl
    refine h1.trans ?_
    generalize stageRead b outcomes = c
    split
    · split
      · exact judgeLabel_lockKept c
      · exact judgeMapRead_lockKept c
    · exact mountFailed_lockKept c _

theorem becomeEmpty_lockKept (b : Bridge) : LockKept b (becomeEmpty b) := .of_entries rfl rfl rfl

theorem ejectComplete_lockKept (b : Bridge) : LockKept b (ejectComplete b) :=
  (((discardWhere_moves b _).lockKept.trans (becomeEmpty_lockKept _)).trans (answerEject_lockKept _ _)).trans
    (raiseEvent_lockKept _ _)

theorem removeCartridge_lockKept (b : Bridge) : LockKept b (removeCartridge b) := by
  unfold removeCartridge
  dsimp only
  refine LockKept.trans ?_ (raiseEvent_lockKept _ _)
  refine LockKept.trans ?_ (becomeEmpty_lockKept _)
  refine LockKept.trans ?_ (abandonMapWrite_moves _).lockKept
  refine LockKept.trans ?_ (reportDiscard_moves _ _).lockKept
  refine LockKept.trans ?_ (discardWhere_moves _ _).lockKept
  refine LockKept.trans (arb_lockKept b _) (answerAll_lockKept _ (fun e he => ?_) _)
  simp only [Bool.or_eq_true] at he
  exact he.elim (fun h => h.elim isActive_notWaiting isEjectWait_notWaiting) isRecoverWait_notWaiting

theorem refuseEject_lockKept (b : Bridge) : LockKept b (refuseEject b) :=
  ((leaveQuiesce_lockKept b).trans (answerEject_lockKept _ _)).trans (raiseEvent_lockKept _ _)

theorem recoverGood_lockKept (b : Bridge) : LockKept b (recoverGood b) := by
  unfold recoverGood
  dsimp only
  refine (withCart_lockKept b fun c => { c with spindle := .spinning }).trans ?_
  generalize withCart b (fun c => { c with spindle := .spinning }) = c
  split
  · exact (enterEjecting_lockKept c).trans (answerRecover_lockKept _ _)
  · split
    · exact ((((withCart_lockKept c _).trans (dropQuiesce_moves _).lockKept).trans (tryMapWrite_moves _).lockKept).trans
        (answerRecover_lockKept _ _)).trans (raiseEvent_lockKept _ _)
    · exact ((withCart_lockKept c _).trans (askMount_lockKept _ _)).trans (answerRecover_lockKept _ _)

/-! ### Orders (Mechanism.lean) -/

theorem takeFault_lockKept (b : Bridge) : LockKept b (takeFault b) := by
  unfold takeFault
  dsimp only
  refine (abandonByFault_course b).lockKept.trans ?_
  generalize abandonByFault b = c
  split
  · exact .refl c
  · exact .refl c
  · exact .refl c
  · exact enterHalted_lockKept c
  · exact enterHalted_lockKept c
  · exact enterHalted_lockKept c
  · exact enterHalted_lockKept c
  · exact enterHalted_lockKept c
  · exact (arb_lockKept c _).trans (answerRecover_lockKept _ _)

theorem runEnded_lockKept (b : Bridge) (o : Order) (sectors : List SectorOutcome) : LockKept b (runEnded b o sectors) := by
  unfold runEnded
  split
  · split
    · exact .refl b
    · exact mountReadEnded_lockKept b sectors
  · split
    · exact (mapStepEnded_moves b sectors).lockKept
    · exact (handOutcomes_moves o.kind _ b).lockKept

theorem spinUpEnded_lockKept (b : Bridge) (good : Bool) : LockKept b (spinUpEnded b good) := by
  have spun : LockKept b (withCart b fun c => { c with spindle := .spinning }) := withCart_lockKept b _
  unfold spinUpEnded
  dsimp only
  cases good
  · simp only [Bool.false_eq_true, if_false]
    split
    · split
      · exact .refl b
      · exact enterUnusable_lockKept b .noSpin
    · exact enterHalted_lockKept b
    · exact enterHalted_lockKept b
    · exact answerRecover_lockKept ..
    all_goals exact .refl b
  · simp only [if_true]
    split
    · split
      · exact spun
      · exact spun.trans (startMount_lockKept _)
    · exact spun
    · exact spun
    · exact recoverGood_lockKept b
    all_goals exact spun

theorem lifeEnded_lockKept (b : Bridge) (kind : OrderKind) (good : Bool) : LockKept b (lifeEnded b kind good) := by
  unfold lifeEnded
  split
  · exact spinUpEnded_lockKept ..
  · split
    · exact withCart_lockKept b _
    · exact .refl b
  · split
    · exact ejectComplete_lockKept b
    · exact enterHalted_lockKept b
  all_goals exact .refl b

theorem completionTaken_lockKept (b : Bridge) (o : Order) (result : CompletionResult) :
    LockKept b (completionTaken b o result) := by
  unfold completionTaken
  dsimp only
  split
  · exact (arb_lockKept b _).trans (runEnded_lockKept ..)
  · exact (arb_lockKept b _).trans (lifeEnded_lockKept ..)

theorem takeCompletion_lockKept (b : Bridge) (number : BitVec 8) (kind : OrderKind) (result : CompletionResult) :
    LockKept b (takeCompletion b number kind result) := by
  unfold takeCompletion
  split
  · exact .refl b
  · split
    · exact .refl b
    · split
      · exact (completionTaken_lockKept ..).trans (finish_lockKept _)
      · exact (takeFault_lockKept b).trans (finish_lockKept _)

theorem timeOutOrder_lockKept (b : Bridge) (o : Order) : LockKept b (timeOutOrder b o) := by
  unfold timeOutOrder
  dsimp only
  exact ((abandonOrder_course b o).lockKept.trans (arb_lockKept _ _)).trans (record_moves _ _).lockKept

theorem lifeReturned_lockKept (b : Bridge) (kind : OrderKind) : LockKept b (lifeReturned b kind) := by
  unfold lifeReturned
  split
  · exact arb_lockKept b _
  · exact arb_lockKept b _
  all_goals exact .refl b

theorem timeoutFollows_lockKept (b : Bridge) (o : Order) : LockKept b (timeoutFollows b o) := by
  unfold timeoutFollows
  split
  · exact .refl b
  · exact .refl b
  · exact .refl b
  · split
    · exact .refl b
    · exact enterUnusable_lockKept b .noSpin
  · split
    · exact enterHalted_lockKept b
    · split
      · exact .refl b
      · split
        · exact .refl b
        · exact mountTimedOut_lockKept b _
  · split
    · exact enterHalted_lockKept b
    · exact lifeReturned_lockKept b o.kind
  · split
    · exact enterHalted_lockKept b
    · exact lifeReturned_lockKept b o.kind
  · exact enterHalted_lockKept b
  · exact answerRecover_lockKept ..

theorem presenceLeaves_lockKept (b : Bridge) : LockKept b (presenceLeaves b) := by
  unfold presenceLeaves
  split
  · exact .refl b
  · exact becomeEmpty_lockKept b
  · exact (arb_lockKept b _).trans (ejectComplete_lockKept _)
  all_goals exact removeCartridge_lockKept b

theorem quiesceExpires_lockKept (b : Bridge) (q : Quiesce) : LockKept b (quiesceExpires b q) := by
  unfold quiesceExpires
  split
  · exact withCart_lockKept b _
  · exact refuseEject_lockKept b

/-! ### The links (Lines.lean) -/

theorem releaseEntry_lockKept (b : Bridge) (k : Key) : LockKept b (releaseEntry b k) := by
  unfold releaseEntry
  split
  · rename_i h
    exact putEntry_lockKept (fun e he hs => by simp [he, hs] at h) fun e he => by cases he
  · exact .refl b

theorem link_lockKept (b : Bridge) (l : LinkPort) : LockKept b { b with link := l } := .of_entries rfl rfl rfl

theorem endTransmission_lockKept (b : Bridge) : LockKept b (endTransmission b) := by
  unfold endTransmission
  split
  · exact .refl b
  · refine (link_lockKept b { b.link with tx := none }).trans ?_
    generalize ({ b with link := { b.link with tx := none } } : Bridge) = c
    unfold reportSent
    split
    · exact releaseEntry_lockKept ..
    · exact releaseEntry_lockKept ..
    · exact .refl c
    · exact (link_lockKept c _).trans (attnTest_moves _).lockKept

theorem endForward_lockKept (b : Bridge) : LockKept b (endForward b) := by
  unfold endForward
  split
  · exact .refl b
  · refine (thru_lockKept b { b.thru with tx := none }).trans ?_
    generalize ({ b with thru := { b.thru with tx := none } } : Bridge) = c
    unfold markSent
    split
    · exact .refl c
    · rename_i e he
      split
      · rename_i h
        have hs : e.state ≠ .awaitLock := by simp [h.2]
        refine putEntry_lockKept (fun f hf => ?_) fun f hf => ?_
        · rw [he] at hf; cases hf; exact hs
        · rw [← Option.some.inj hf]; exact hs
      · exact .refl c

theorem takeDownstream_lockKept (b : Bridge) (frame : List Byte) : LockKept b (takeDownstream b frame) := by
  unfold takeDownstream
  split
  · exact thru_lockKept b _
  · exact .refl b
  · split
    · rename_i h
      refine answerFrame_lockKept (fun e he hs => ?_) ..
      simp [he, repliesTo, hs] at h
    · exact thru_lockKept b _

/-- A timer that runs out only where the entry does not wait for the lock. -/
theorem answerDue_lockKept {b : Bridge} {k : Key} {p : Entry → Bool} (h : (b.entry k).any p = true)
    (hp : ∀ e, p e = true → e.state ≠ .awaitLock) (st : Status) : LockKept b (answerStatus b k st) :=
  answerStatus_lockKept (fun e he => hp e (by simpa [he] using h)) st

/-- Link reset empties the table and the pending list, and no originator holds the lock. -/
theorem resetOwners_lockOk (b : Bridge) : LockOk (resetOwners b) := by
  have hn : ∀ k, (resetOwners b).entry k = none := fun k => by simp [Bridge.entry, resetOwners]
  refine ⟨⟨List.nodup_nil, ⟨fun _ h => (nomatch h), fun _ => rfl⟩⟩, fun k e he => ?_, fun o ho => ?_, fun j k e f he => ?_⟩
  · rw [hn] at he; cases he
  · cases ho
  · rw [hn] at he; cases he

end Sys2Proof.Machine
end

