-- ==== Sys2Proof/Laws/MapChange.lean ====
section
/-! SUPPORT. What leaves the Defect Manager as it is: the answers, notices, records and ends of jobs that follow a mark. So what
a permanent failure does to the map (R117, R130 to R133). -/

namespace Sys2Proof.Machine

/-! ### What leaves the map as it is -/

/-- The Defect Manager stays as it is, and no stamp is given back. -/
structure MapKept (b t : Bridge) : Prop where
  dm     : t.dm = b.dm
  stamps : b.arb.stamps ≤ t.arb.stamps

theorem MapKept.refl (b : Bridge) : MapKept b b := ⟨rfl, Nat.le_refl _⟩

theorem MapKept.trans {a b c : Bridge} (h : MapKept a b) (h' : MapKept b c) : MapKept a c :=
  ⟨h'.dm.trans h.dm, Nat.le_trans h.stamps h'.stamps⟩

theorem Closes.mapKept {b t : Bridge} (h : Closes b t) : MapKept b t := ⟨h.dm, by rw [h.arb]⟩

theorem MapKept.forKeys {f : Bridge → Key → Bridge} (h : ∀ b k, MapKept b (f b k)) (b : Bridge) :
    MapKept b (b.forKeys f) :=
  foldl_rel .refl .trans h allKeys b

theorem raiseEvent_mapKept (b : Bridge) (ev : AttnEvent) : MapKept b (raiseEvent b ev) := by
  unfold raiseEvent attnTest
  dsimp only
  repeat' split
  all_goals exact ⟨rfl, Nat.le_refl _⟩

theorem record_mapKept (b : Bridge) (r : ExceptionRecord) : MapKept b (record b r) := by
  unfold record
  split
  · refine .trans ?_ (raiseEvent_mapKept _ _)
    exact ⟨rfl, Nat.le_refl _⟩
  · exact ⟨rfl, Nat.le_refl _⟩

theorem answerMediaError_mapKept (b : Bridge) (k : Key) : MapKept b (answerMediaError b k) := by
  unfold answerMediaError
  split
  · exact .refl b
  · exact (answer_closes ..).mapKept

theorem testRead_mapKept (b : Bridge) (k : Key) : MapKept b (testRead b k) := by
  unfold testRead
  split
  · exact .refl b
  · dsimp only
    repeat' split
    all_goals first | exact .refl b | exact answerMediaError_mapKept b k | exact (answer_closes ..).mapKept

theorem failReaders_mapKept (b : Bridge) (i : BufIdx) : MapKept b (failReaders b i) := by
  refine .forKeys (fun b k => ?_) b
  split
  · exact answerMediaError_mapKept b k
  · exact .refl b

theorem finishAwait_mapKept (b : Bridge) (k : Key) : MapKept b (finishAwait b k) := by
  unfold finishAwait
  repeat' split
  all_goals first | exact .refl b | exact (answer_closes ..).mapKept

theorem notice_mapKept (b : Bridge) (i : BufIdx) (f : Entry → Entry) : MapKept b (notice b i f) := by
  refine .forKeys (fun b k => ?_) b
  split
  · exact .refl b
  · split
    · refine .trans ?_ (finishAwait_mapKept _ k)
      exact ⟨rfl, Nat.le_refl _⟩
    · exact .refl b

theorem noticeMoved_mapKept (b : Bridge) (i j : BufIdx) : MapKept b (noticeMoved b i j) := notice_mapKept b i _

theorem noticeFailed_mapKept (b : Bridge) (i : BufIdx) : MapKept b (noticeFailed b i) := notice_mapKept b i _

theorem takeTarget_mapKept (b : Bridge) (i : BufIdx) : MapKept b (takeTarget b i) := by
  unfold takeTarget
  repeat' split
  all_goals first | exact .refl b | exact ⟨rfl, Nat.le_refl _⟩ | exact ⟨rfl, Nat.le_succ _⟩

theorem endToSuccessor_mapKept (b : Bridge) (i j : BufIdx) : MapKept b (endToSuccessor b i j) := by
  unfold endToSuccessor releaseHold
  have h : MapKept b (testReads (freeBuf (movePins b i j) i)) := by
    refine .trans (.trans ?_ (freeBuf_poolOnly _ i).closes.mapKept) (.forKeys testRead_mapKept _)
    refine .forKeys (fun b k => ?_) b
    repeat' split
    all_goals exact ⟨rfl, Nat.le_refl _⟩
  split
  · exact h.trans (takeTarget_mapKept _ j)
  · exact h

theorem strand_mapKept (b : Bridge) (i : BufIdx) : MapKept b (strand b i) := by
  unfold strand lockWrites
  dsimp only
  split
  · repeat' split
    all_goals exact ⟨rfl, Nat.le_refl _⟩
  · have hf := failReaders_mapKept (b.putBuf i { b.buf i with valid := 0, load := none, flush := none }) i
    generalize failReaders _ i = c at hf ⊢
    have hr := record_mapKept c { kind := .dataDiscarded, time := b.clock, lsn := (b.buf i).lsn, sectorCount := some 1 }
    generalize record c _ = d at hr ⊢
    refine .trans ?_ (freeBuf_poolOnly _ i).closes.mapKept
    exact ⟨hr.dm.trans hf.dm, Nat.le_trans hf.stamps hr.stamps⟩

/-- After a permanent failure the map is as the mark of its user PSA left it. -/
theorem permanentFailure_mapKept {b : Bridge} {i : BufIdx} {u : Nat} (h : (b.buf i).lsn.bind (homeOf b) = some u)
    (failed : Option Nat) : MapKept (markLost b u) (permanentFailure b i failed) := by
  unfold permanentFailure
  dsimp only
  rw [h]
  dsimp only
  generalize markLost b u = c
  split
  · exact ((record_mapKept c _).trans (noticeMoved_mapKept _ i _)).trans (endToSuccessor_mapKept _ i _)
  · exact ((record_mapKept c _).trans (noticeFailed_mapKept _ i)).trans (strand_mapKept _ i)

/-- The map after a permanent failure: as it was, or with one map change (R117, R131). -/
theorem permanentFailure_map {b : Bridge} {i : BufIdx} {u : Nat} {m : HeldMap}
    (h : (b.buf i).lsn.bind (homeOf b) = some u) (hm : b.dm.map = some m) (failed : Option Nat) :
    (lostEntries m.entries u = none → (permanentFailure b i failed).dm = b.dm)
    ∧ ∀ entries, lostEntries m.entries u = some entries → MapChanged b (permanentFailure b i failed) m entries := by
  have hk := permanentFailure_mapKept h failed
  unfold markLost at hk
  rw [hm] at hk
  dsimp only at hk
  refine ⟨fun e => ?_, fun entries e => ?_⟩
  · rw [e] at hk
    exact hk.dm
  · rw [e] at hk
    exact (changeMap_changed b m entries).after hk.dm hk.stamps

end Sys2Proof.Machine
end

