-- ==== Sys2Proof/Laws/Pool.lean ====
section
/-! SUPPORT. The buffer records and the eviction order stay in agreement, and a LOADING buffer keeps its sets: each operation
that can touch them is an `Orderly`. -/

namespace Sys2Proof.Machine

/-- The buffer records and the eviction order agree after, if they agree before; and then the sets of the LOADING buffers are
after as they must be, if they were before. -/
structure Orderly (b t : Bridge) : Prop where
  keeps   : PoolOk b → PoolOk t
  loading : PoolOk b → LoadingOk b → LoadingOk t

theorem Orderly.refl (b : Bridge) : Orderly b b := ⟨id, fun _ => id⟩

theorem Orderly.trans {a b c : Bridge} (h : Orderly a b) (h' : Orderly b c) : Orderly a c :=
  ⟨h'.keeps ∘ h.keeps, fun ok lo => h'.loading (h.keeps ok) (h.loading ok lo)⟩

/-- What is to be shown of a change may rest on the agreement before it. -/
theorem Orderly.of_ok {b t : Bridge} (h : PoolOk b → Orderly b t) : Orderly b t :=
  ⟨fun ok => (h ok).keeps ok, fun ok => (h ok).loading ok⟩

theorem Orderly.foldl {α : Type} {f : Bridge → α → Bridge} (h : ∀ b x, Orderly b (f b x)) (l : List α) (b : Bridge) :
    Orderly b (l.foldl f b) := foldl_rel .refl .trans h l b

theorem Orderly.forKeys {f : Bridge → Key → Bridge} (h : ∀ b k, Orderly b (f b k)) (b : Bridge) :
    Orderly b (b.forKeys f) := .foldl h allKeys b

theorem Orderly.forBufs {f : Bridge → BufIdx → Bridge} (h : ∀ b i, Orderly b (f b i)) (b : Bridge) :
    Orderly b (b.forBufs f) := .foldl h allBufs b

theorem buf_congr {b t : Bridge} (h : t.pool.buffers = b.pool.buffers) (i : BufIdx) : t.buf i = b.buf i := by
  simp [Bridge.buf, h]

/-- A change of anything but the buffers and the eviction order. -/
theorem Orderly.of_pool {b t : Bridge} (h : t.pool.buffers = b.pool.buffers) (he : t.pool.evict = b.pool.evict) :
    Orderly b t := by
  refine ⟨fun ok => ?_, fun _ lo => ?_⟩
  · unfold PoolOk
    simp only [buf_congr h, he]
    exact ok
  · unfold LoadingOk
    simp only [buf_congr h]
    exact lo

/-! ### Buffer records -/

/-- The record `x` may be put in the place of buffer `i`. -/
def FitsAt (b : Bridge) (i : BufIdx) (x : Buffer) : Prop :=
  (x.state = .free → x = Buffer.free) ∧ (x.flush.isSome = true → x.state = .opened ∨ x.state = .committing)
  ∧ (i ∈ b.pool.evict → x.state = .clean)
  ∧ (LoadingOk b → x.state = .loading → x.valid = x.dirty ∧ x.lost = 0)

/-- A record is put whose sets are as a LOADING buffer's must be. -/
theorem putBuf_loading {b : Bridge} {i : BufIdx} {x : Buffer} (lo : LoadingOk b)
    (h : x.state = .loading → x.valid = x.dirty ∧ x.lost = 0) : LoadingOk (b.putBuf i x) := by
  intro j
  rw [buf_putBuf]
  split
  · exact h
  · exact lo j

theorem putBuf_orderly (b : Bridge) (i : BufIdx) (x : Buffer) (h : PoolOk b → FitsAt b i x) :
    Orderly b (b.putBuf i x) := by
  refine ⟨fun ok => ?_, fun ok lo => putBuf_loading lo ((h ok).2.2.2 lo)⟩
  obtain ⟨h1, h2, h3, -⟩ := h ok
  obtain ⟨o1, o2, o3, o4⟩ := ok
  refine ⟨fun j => ?_, fun j => ?_, o3, fun j hj => ?_⟩
  · rw [buf_putBuf]
    split
    · exact h1
    · exact o1 j
  · rw [buf_putBuf]
    split
    · exact h2
    · exact o2 j
  · rw [buf_putBuf]
    split
    · rename_i e
      exact h3 (e ▸ hj)
    · exact o4 j hj

/-- A record of the same state, and where that is LOADING of the same sets, that holds no job where there was none, and is
FREE only where nothing changes. -/
theorem FitsAt.same {b : Bridge} {i : BufIdx} {x : Buffer} (ok : PoolOk b) (state : x.state = (b.buf i).state)
    (flush : x.flush.isSome = true → (b.buf i).flush.isSome = true) (free : b.buf i = Buffer.free → x = Buffer.free)
    (sets : (b.buf i).state ≠ .loading
      ∨ (x.valid = (b.buf i).valid ∧ x.dirty = (b.buf i).dirty ∧ x.lost = (b.buf i).lost) := by
        exact .inr ⟨rfl, rfl, rfl⟩) :
    FitsAt b i x := by
  refine ⟨fun h => free (ok.1 i (state ▸ h)), fun h => state ▸ ok.2.1 i (flush h), fun h => state ▸ ok.2.2.2 i h,
    fun lo h => ?_⟩
  rcases sets with hn | ⟨e1, e2, e3⟩
  · exact absurd (state ▸ h) hn
  · rw [e1, e2, e3]
    exact lo i (state ▸ h)

/-- A buffer with a job, or that may have one. -/
def MayHoldJob (b : Bridge) (i : BufIdx) : Prop := (b.buf i).state = .opened ∨ (b.buf i).state = .committing

theorem PoolOk.mayHoldJob {b : Bridge} (ok : PoolOk b) {i : BufIdx} {f : Flush} (h : (b.buf i).flush = some f) :
    MayHoldJob b i := ok.2.1 i (by rw [h]; rfl)

/-- A buffer that is not CLEAN is not in the eviction order. -/
theorem PoolOk.not_evict {b : Bridge} (ok : PoolOk b) {i : BufIdx} (h : (b.buf i).state ≠ .clean) : i ∉ b.pool.evict :=
  fun hm => h (ok.2.2.2 i hm)

/-- An OPEN or COMMITTING record for a buffer that was not CLEAN. -/
theorem FitsAt.job {b : Bridge} {i : BufIdx} {x : Buffer} (ok : PoolOk b) (was : (b.buf i).state ≠ .clean)
    (state : x.state = .opened ∨ x.state = .committing) : FitsAt b i x := by
  refine ⟨fun h => ?_, fun _ => state, fun h => absurd h (ok.not_evict was), fun _ h => ?_⟩
  all_goals
    rw [h] at state
    rcases state with h | h <;> cases h

theorem MayHoldJob.not_clean {b : Bridge} {i : BufIdx} (h : MayHoldJob b i) : (b.buf i).state ≠ .clean := by
  intro e
  rcases h with h | h <;> rw [e] at h <;> cases h

theorem MayHoldJob.not_loading {b : Bridge} {i : BufIdx} (h : MayHoldJob b i) : (b.buf i).state ≠ .loading := by
  intro e
  rcases h with h | h <;> rw [e] at h <;> cases h

/-- A buffer whose record differs from the FREE one is not FREE. -/
theorem PoolOk.not_free {b : Bridge} (ok : PoolOk b) {i : BufIdx} (h : b.buf i ≠ Buffer.free) : (b.buf i).state ≠ .free :=
  fun e => h (ok.1 i e)

/-! ### Operations of Ops.lean -/

theorem takeStamp_orderly (b : Bridge) : Orderly b (takeStamp b) := .of_pool rfl rfl

theorem putEntry_orderly (b : Bridge) (k : Key) (e : Option Entry) : Orderly b (b.putEntry k e) := .of_pool rfl rfl

theorem attnTest_pool (b : Bridge) : (attnTest b).pool = b.pool := by
  unfold attnTest
  split
  · rfl
  · split <;> rfl

theorem raiseEvent_pool (b : Bridge) (ev : AttnEvent) : (raiseEvent b ev).pool = b.pool := by
  unfold raiseEvent
  split
  · exact attnTest_pool _
  · rfl

theorem record_pool (b : Bridge) (r : ExceptionRecord) : (record b r).pool = b.pool := by
  unfold record
  split
  · exact raiseEvent_pool _ _
  · rfl

/-- A change that leaves the pool as it is. -/
theorem Orderly.of_eq {b t : Bridge} (h : t.pool = b.pool) : Orderly b t := .of_pool (by rw [h]) (by rw [h])

/-- A change of the cartridge record and of what the Head Arbiter owns. -/
theorem cartArb_orderly (b : Bridge) (c : CartRecord) (a : Arbiter) : Orderly b { b with cart := c, arb := a } :=
  .of_eq rfl

theorem raiseEvent_orderly (b : Bridge) (ev : AttnEvent) : Orderly b (raiseEvent b ev) := .of_eq (raiseEvent_pool ..)

theorem record_orderly (b : Bridge) (r : ExceptionRecord) : Orderly b (record b r) := .of_eq (record_pool ..)

theorem joinEvict_orderly (b : Bridge) (i : BufIdx) : Orderly b (joinEvict b i) := by
  unfold joinEvict
  split
  · rename_i h
    refine ⟨fun ⟨o1, o2, o3, o4⟩ => ?_, fun _ lo => lo⟩
    refine ⟨o1, o2, ?_, fun j hj => ?_⟩
    · refine List.nodup_append.2 ⟨o3, by simp, fun a ha c hc e => ?_⟩
      rw [List.mem_singleton] at hc
      exact h.2.2 (hc ▸ e ▸ ha)
    · rcases List.mem_append.1 hj with hj | hj
      · exact o4 j hj
      · rw [List.mem_singleton] at hj
        exact hj ▸ h.1
  · exact .refl b

theorem leaveEvict_orderly (b : Bridge) (i : BufIdx) : Orderly b (leaveEvict b i) :=
  ⟨fun ⟨o1, o2, o3, o4⟩ => ⟨o1, o2, o3.filter _, fun j hj => o4 j (List.mem_filter.1 hj).1⟩, fun _ lo => lo⟩

theorem testLater_orderly (b : Bridge) (i : BufIdx) : Orderly b (testLater b i) := .of_pool rfl rfl

/-- A record is put and its buffer leaves the eviction order. -/
theorem putBuf_leaveEvict_orderly (b : Bridge) (i : BufIdx) (x : Buffer)
    (h : PoolOk b → (x.state = .free → x = Buffer.free)
      ∧ (x.flush.isSome = true → x.state = .opened ∨ x.state = .committing)
      ∧ (LoadingOk b → x.state = .loading → x.valid = x.dirty ∧ x.lost = 0)) :
    Orderly b (leaveEvict (b.putBuf i x) i) := by
  refine ⟨fun ok => ?_, fun ok lo => putBuf_loading lo ((h ok).2.2 lo)⟩
  obtain ⟨h1, h2, h3⟩ := h ok
  have ok' := (leaveEvict_orderly b i).keeps ok
  have hn : i ∉ (leaveEvict b i).pool.evict := fun hm => by simpa using (List.mem_filter.1 hm).2
  exact (putBuf_orderly (leaveEvict b i) i x fun _ => ⟨h1, h2, fun hm => absurd hm hn, h3⟩).keeps ok'

theorem unlink_orderly (i : BufIdx) (b : Bridge) (j : BufIdx) : Orderly b (unlink i b j) := by
  unfold unlink
  split
  · rename_i h
    refine putBuf_orderly b j _ fun ok => .same ok rfl id fun e => ?_
    rw [e] at h
    cases h
  · exact .refl b

theorem freeBuf_orderly (b : Bridge) (i : BufIdx) : Orderly b (freeBuf b i) :=
  (Orderly.forBufs (unlink_orderly i) b).trans
    (putBuf_leaveEvict_orderly _ i _ fun _ => ⟨fun _ => rfl, fun h => (by cases h), fun _ h => (by cases h)⟩)

theorem freeBuf_self (b : Bridge) (i : BufIdx) : (freeBuf b i).buf i = Buffer.free := by
  unfold freeBuf leaveEvict
  generalize b.forBufs (unlink i) = c
  simp [Bridge.buf, Bridge.putBuf]

theorem withdrawLoad_orderly (b : Bridge) (i : BufIdx) : Orderly b (withdrawLoad b i) := by
  unfold withdrawLoad
  dsimp only
  split
  · rename_i hs
    split
    · exact freeBuf_orderly b i
    · exact (putBuf_orderly b i _ fun ok => .job ok (by rw [hs]; simp) (.inl rfl)).trans (testLater_orderly _ i)
  · exact putBuf_orderly b i _ fun ok => .same ok rfl id fun e => by rw [e]; rfl

theorem withdrawUnneeded_orderly (b : Bridge) (i : BufIdx) : Orderly b (withdrawUnneeded b i) := by
  unfold withdrawUnneeded
  split
  · exact .refl b
  · split
    · exact withdrawLoad_orderly b i
    · exact .refl b

theorem sweepLoads_orderly (b : Bridge) : Orderly b (sweepLoads b) := .forBufs withdrawUnneeded_orderly b

/-- The load of a buffer that has one is changed. -/
theorem putLoad_orderly (b : Bridge) (i : BufIdx) (l : Option Load) (h : (b.buf i).load ≠ none) :
    Orderly b (b.putBuf i { b.buf i with load := l }) :=
  putBuf_orderly b i _ fun ok => .same ok rfl id fun e => absurd (by rw [e]; rfl) h

theorem dropReaderAt_orderly (k : Key) (b : Bridge) (i : BufIdx) : Orderly b (dropReaderAt k b i) := by
  unfold dropReaderAt
  split
  · exact .refl b
  · rename_i l hl
    exact putLoad_orderly b i _ (by rw [hl]; simp)

theorem dropReader_orderly (b : Bridge) (k : Key) : Orderly b (dropReader b k) :=
  (Orderly.forBufs (dropReaderAt_orderly k) b).trans (sweepLoads_orderly _)

theorem answerFrame_orderly (b : Bridge) (k : Key) (f : OutFrame) (st : Status) (done : Nat) :
    Orderly b (answerFrame b k f st done) := by
  unfold answerFrame
  split
  · exact .refl b
  · rename_i e he
    split
    · exact .refl b
    · dsimp only
      refine .trans (b := e.pinned.foldl joinEvict { b.putEntry k (some (e.close st done)) with
            link := { b.link with queue := queueReply b.link.queue k f }
            thru := { b.thru with fifo := b.thru.fifo.filter (fun g => g.seq != e.seq) }
            pool := { b.pool with resQueue := b.pool.resQueue.filter (· != k) } }) ?_ ?_
      · refine .trans ?_ (.foldl joinEvict_orderly _ _)
        exact .of_pool rfl rfl
      · split
        · exact dropReader_orderly _ k
        · exact .refl _

theorem answer_orderly (b : Bridge) (k : Key) (st : Status) (done : Nat) (p : Payload) :
    Orderly b (answer b k st done p) := by
  unfold answer
  split
  · exact .refl b
  · exact answerFrame_orderly ..

theorem answerStatus_orderly (b : Bridge) (k : Key) (st : Status) : Orderly b (answerStatus b k st) := answer_orderly ..

theorem answerAll_orderly (b : Bridge) (p : Entry → Bool) (st : Status) : Orderly b (answerAll b p st) := by
  refine .forKeys (fun b k => ?_) b
  split
  · exact answerStatus_orderly ..
  · exact .refl b

/-! ### Operations of Pool.lean -/

theorem answerMediaError_orderly (b : Bridge) (k : Key) : Orderly b (answerMediaError b k) := by
  unfold answerMediaError
  split
  · exact .refl b
  · exact answer_orderly ..

theorem testRead_orderly (b : Bridge) (k : Key) : Orderly b (testRead b k) := by
  unfold testRead
  split
  · exact .refl b
  · split
    · dsimp only
      split
      · exact answerMediaError_orderly b k
      · split
        · exact answer_orderly ..
        · exact .refl b
    · exact .refl b

theorem testReads_orderly (b : Bridge) : Orderly b (testReads b) := .forKeys testRead_orderly b

theorem failReaders_orderly (b : Bridge) (i : BufIdx) : Orderly b (failReaders b i) := by
  refine .forKeys (fun b k => ?_) b
  split
  · exact answerMediaError_orderly b k
  · exact .refl b

theorem mem_freeBufs {b : Bridge} {i : BufIdx} (h : i ∈ freeBufs b) : (b.buf i).state = .free := by
  unfold freeBufs at h
  simpa using (List.mem_filter.1 h).2

/-- A buffer that was taken is FREE, and the others are as orderly as before. -/
theorem takeBuffer_spec {b t : Bridge} {lsns : List Nat} {i : BufIdx} (h : takeBuffer b lsns = some (t, i)) :
    Orderly b t ∧ (t.buf i).state = .free := by
  unfold takeBuffer at h
  split at h
  · rename_i j js hj
    simp only [Option.some.injEq, Prod.mk.injEq] at h
    obtain ⟨rfl, rfl⟩ := h
    exact ⟨.refl b, mem_freeBufs (by rw [hj]; exact List.mem_cons_self)⟩
  · split at h
    · simp only [Option.some.injEq, Prod.mk.injEq] at h
      obtain ⟨rfl, rfl⟩ := h
      exact ⟨freeBuf_orderly b _, by rw [freeBuf_self]; rfl⟩
    · cases h

theorem lsn_not_free {b : Bridge} {i : BufIdx} {n : Nat} (h : (b.buf i).lsn = some n) : b.buf i ≠ Buffer.free := by
  intro e
  rw [e] at h
  cases h

theorem currentBuf_lsn {b : Bridge} {n : Nat} {i : BufIdx} (h : currentBuf b n = some i) : (b.buf i).lsn = some n := by
  unfold currentBuf at h
  split at h
  · rename_i j hj
    cases h
    have := List.find?_some hj
    simp only [Bool.and_eq_true, beq_iff_eq] at this
    exact this.1
  · have := List.find?_some h
    simp only [Bool.and_eq_true, beq_iff_eq] at this
    exact this.1

theorem addReader_orderly (b : Bridge) (i : BufIdx) (k : Key) (h : b.buf i ≠ Buffer.free) :
    Orderly b (addReader b i k) := by
  unfold addReader
  split
  · exact putBuf_orderly b i _ fun ok => .same ok rfl id fun e => absurd e h
  · refine .trans ?_ (takeStamp_orderly _)
    exact putBuf_orderly b i _ fun ok => .same ok rfl id fun e => absurd e h

theorem addFillNeed_orderly (b : Bridge) (i : BufIdx) (h : b.buf i ≠ Buffer.free) : Orderly b (addFillNeed b i) := by
  unfold addFillNeed
  split
  · exact putBuf_orderly b i _ fun ok => .same ok rfl id fun e => absurd e h
  · refine .trans ?_ (takeStamp_orderly _)
    exact putBuf_orderly b i _ fun ok => .same ok rfl id fun e => absurd e h

theorem grantExisting_orderly (b : Bridge) (lsn : Nat) : Orderly b (grantExisting b lsn) := by
  unfold grantExisting
  split
  · exact leaveEvict_orderly b _
  · exact .refl b

theorem grantNew_orderly (lsns : List Nat) (b : Bridge) (lsn : Nat) : Orderly b (grantNew lsns b lsn) := by
  unfold grantNew
  split
  · exact .refl b
  · split
    · exact .refl b
    · rename_i t i h
      obtain ⟨h1, h2⟩ := takeBuffer_spec h
      refine h1.trans (putBuf_orderly t i _ fun ok => ⟨fun h => (by cases h), fun h => (by cases h), fun h => ?_,
        fun _ _ => ⟨rfl, rfl⟩⟩)
      exact absurd h (ok.not_evict (by rw [h2]; simp))

theorem grantLoad_orderly (k : Key) (e : Entry) (b : Bridge) (lsn : Nat) : Orderly b (grantLoad k e b lsn) := by
  unfold grantLoad
  split
  · exact .refl b
  · rename_i i hi
    split
    · exact addReader_orderly b i k (lsn_not_free (currentBuf_lsn hi))
    · exact .refl b

theorem leaveQueue_orderly (b : Bridge) (k : Key) : Orderly b (leaveQueue b k) := .of_pool rfl rfl

theorem insertReservation_orderly (b : Bridge) (k : Key) : Orderly b (insertReservation b k) := .of_pool rfl rfl

theorem grant_orderly (b : Bridge) (k : Key) : Orderly b (grant b k) := by
  unfold grant
  split
  · exact leaveQueue_orderly b k
  · rename_i e _
    split
    · dsimp only
      exact ((((Orderly.foldl grantExisting_orderly e.sectors b).trans
        (.foldl (grantNew_orderly e.sectors) e.sectors _)).trans (.foldl (grantLoad_orderly k e) e.sectors _)).trans (putEntry_orderly _ k _)).trans
        ((leaveQueue_orderly _ k).trans (testRead_orderly _ k))
    · exact leaveQueue_orderly b k

theorem takeForWrite_orderly (lsns : List Nat) (b : Bridge) (lsn : Nat) : Orderly b (takeForWrite lsns b lsn) := by
  unfold takeForWrite
  split
  · split
    · exact .refl b
    · rename_i t j h
      obtain ⟨h1, h2⟩ := takeBuffer_spec h
      split
      · refine h1.trans (putBuf_orderly t j _ fun ok => ?_)
        exact .job ok (by rw [h2]; simp) (.inl rfl)
      · rename_i c hc
        have hne := lsn_not_free (currentBuf_lsn hc)
        have h3 : Orderly t (t.putBuf c { t.buf c with successor := some j }) :=
          putBuf_orderly t c _ fun ok => .same ok rfl id fun e => absurd e hne
        refine (h1.trans h3).trans (putBuf_orderly _ j _ fun ok => ?_)
        refine .job ok ?_ (.inl rfl)
        rw [buf_putBuf]
        split
        · rename_i e
          subst e
          show (t.buf j).state ≠ .clean
          rw [h2]; simp
        · rw [h2]; simp
  · exact .refl b

/-- A merge into a LOADING buffer that stays LOADING adds the same quarters to both its sets. -/
theorem mergedBuffer_loading {now : Clock} {cb lsn : Nat} {data : List Block} {q : QSet} {x : Buffer}
    (h : x.state = .loading → x.valid = x.dirty ∧ x.lost = 0) (hs : (mergedBuffer now cb lsn data q x).state = .loading) :
    (mergedBuffer now cb lsn data q x).valid = (mergedBuffer now cb lsn data q x).dirty
      ∧ (mergedBuffer now cb lsn data q x).lost = 0 := by
  have sets : (mergedBuffer now cb lsn data q x).valid = x.valid ||| q
      ∧ (mergedBuffer now cb lsn data q x).dirty = x.dirty ||| q
      ∧ (mergedBuffer now cb lsn data q x).lost = x.lost &&& ~~~ q := by
    unfold mergedBuffer
    dsimp only
    repeat' split
    all_goals exact ⟨rfl, rfl, rfl⟩
  have hx : x.state = .loading := by
    revert hs
    unfold mergedBuffer
    cases hc : x.state <;> simp
  obtain ⟨h1, h2⟩ := h hx
  rw [sets.1, sets.2.1, sets.2.2, h1, h2]
  exact ⟨rfl, BitVec.zero_and⟩

theorem mergeSector_orderly (cb n : Nat) (data : List Block) (b : Bridge) (lsn : Nat) :
    Orderly b (mergeSector cb n data b lsn) := by
  unfold mergeSector
  split
  · exact .refl b
  · rename_i i hi
    have hne := lsn_not_free (currentBuf_lsn hi)
    have h1 : Orderly b
        (leaveEvict (b.putBuf i (mergedBuffer b.clock cb lsn data (neededQuarters cb n lsn) (b.buf i))) i) := by
      refine putBuf_leaveEvict_orderly b i _ fun ok => ?_
      have hf := ok.not_free hne
      have hj := ok.2.1 i
      refine and_assoc.1 ⟨?_, fun lo => mergedBuffer_loading (lo i)⟩
      revert hf hj
      generalize b.buf i = x
      intro hf hj
      unfold mergedBuffer
      cases hs : x.state <;> rw [hs] at hf hj <;> simp_all
      split <;> simp_all
    dsimp only
    split
    · exact h1.trans (testLater_orderly _ i)
    · exact h1

theorem admitWrite_orderly (b : Bridge) (cb n : Nat) (data : List Block) : Orderly b (admitWrite b cb n data) :=
  (Orderly.foldl (takeForWrite_orderly _) _ b).trans (.foldl (mergeSector_orderly cb n data) _ _)

/-- A load that its buffer holds has come good. -/
theorem loadGood_orderly (b : Bridge) (i : BufIdx) (q : Quad) (r : Bool) (h : (b.buf i).load ≠ none) :
    Orderly b (loadGood b i q r) := by
  have hne : b.buf i ≠ Buffer.free := fun e => h (by rw [e]; rfl)
  unfold loadGood
  dsimp only
  split
  · rename_i hs
    refine .trans (.trans ?_ (testLater_orderly _ i)) (testReads_orderly _)
    refine putBuf_orderly b i _ fun ok => .job ok ?_ (.inl rfl)
    simp only [Bool.and_eq_true, Bool.or_eq_true, beq_iff_eq] at hs
    rcases hs.2 with e | e <;> rw [e] <;> simp
  · split
    · rename_i hs
      split
      · refine .trans (.trans ?_ (joinEvict_orderly _ i)) (testReads_orderly _)
        refine putBuf_orderly b i _ fun ok => ⟨fun e => (by cases e), fun e => ?_, fun _ => rfl, fun _ e => (by cases e)⟩
        rcases ok.2.1 i e with e | e <;> rw [hs] at e <;> cases e
      · refine .trans (.trans ?_ (testLater_orderly _ i)) (testReads_orderly _)
        exact putBuf_orderly b i _ fun ok => .job ok (by rw [hs]; simp) (.inl rfl)
    · rename_i hs
      refine .trans ?_ (testReads_orderly _)
      exact putBuf_orderly b i _ fun ok => .same ok rfl id (fun e => absurd e hne) (.inl hs)

/-- A load that its buffer holds has ended unrecovered. -/
theorem loadLost_orderly (b : Bridge) (i : BufIdx) (h : (b.buf i).load ≠ none) : Orderly b (loadLost b i) := by
  have hne : b.buf i ≠ Buffer.free := fun e => h (by rw [e]; rfl)
  unfold loadLost
  dsimp only
  split
  · exact ((putLoad_orderly b i _ h).trans (failReaders_orderly _ i)).trans (freeBuf_orderly _ i)
  · refine .trans (.trans ?_ (record_orderly _ _)) (testReads_orderly _)
    split
    · rename_i hs
      refine .trans ?_ (testLater_orderly _ i)
      exact putBuf_orderly b i _ fun ok => .job ok (by rw [hs]; simp) (.inl rfl)
    · rename_i hs
      exact putBuf_orderly b i _ fun ok => .same ok rfl id (fun e => absurd e hne) (.inl hs)

/-! ### Operations of Defects.lean, which leave the pool alone -/

theorem startMapWrite_pool (b : Bridge) (m : HeldMap) (n : Nat) : (startMapWrite b m n).pool = b.pool := rfl

theorem tryMapWrite_pool (b : Bridge) : (tryMapWrite b).pool = b.pool := by
  unfold tryMapWrite
  split
  · rfl
  · split
    · exact startMapWrite_pool ..
    · rfl

theorem changeMap_pool (b : Bridge) (m : HeldMap) (l : List MapEntry) : (changeMap b m l).pool = b.pool := by
  unfold changeMap
  exact tryMapWrite_pool _

theorem grantSpare_pool (b : Bridge) (u s : Nat) (r : Bool) : (grantSpare b u s r).pool = b.pool := by
  unfold grantSpare
  split
  · rfl
  · exact changeMap_pool ..

theorem markLost_pool (b : Bridge) (u : Nat) : (markLost b u).pool = b.pool := by
  unfold markLost
  split
  · rfl
  · split
    · rfl
    · exact changeMap_pool ..

theorem lockWrites_pool (b : Bridge) : (lockWrites b).pool = b.pool := by
  unfold lockWrites
  split <;> rfl

theorem mapAttemptFailed_pool (b : Bridge) (m : HeldMap) (psa : Nat) : (mapAttemptFailed b m psa).pool = b.pool := by
  unfold mapAttemptFailed
  split
  · exact startMapWrite_pool ..
  · rw [record_pool, lockWrites_pool, putMap_pool]

theorem mapStepEnded_pool (b : Bridge) (l : List SectorOutcome) : (mapStepEnded b l).pool = b.pool := by
  unfold mapStepEnded mapSaved
  split
  · rfl
  · split
    · rfl
    · split
      · exact mapAttemptFailed_pool ..
      · split
        · rfl
        · rfl
        · rw [tryMapWrite_pool, putMap_pool]

theorem mapStepReturned_pool (b : Bridge) : (mapStepReturned b).pool = b.pool := by
  unfold mapStepReturned
  split <;> rfl

theorem abandonMapWrite_pool (b : Bridge) : (abandonMapWrite b).pool = b.pool := by
  unfold abandonMapWrite
  split
  · rfl
  · split
    · rw [record_pool, putMap_pool]
    · rfl

/-! ### Operations of WriteBack.lean -/

/-- A flush context is put at a buffer that may hold a job. -/
theorem putFlush_orderly (b : Bridge) (i : BufIdx) (f : Flush) (h : PoolOk b → MayHoldJob b i) :
    Orderly b (putFlush b i f) :=
  putBuf_orderly b i _ fun ok => .job ok (h ok).not_clean (h ok)

theorem eraseAt_orderly (b : Bridge) (i : BufIdx) (f : Flush) (psa : Nat) (h : PoolOk b → MayHoldJob b i) :
    Orderly b (eraseAt b i f psa) := (putFlush_orderly b i _ h).trans (takeStamp_orderly _)

theorem remapAt_orderly (b : Bridge) (i : BufIdx) (f : Flush) (r : Option SpareRequest) (h : PoolOk b → MayHoldJob b i) :
    Orderly b (remapAt b i f r) := putFlush_orderly b i _ h

theorem takeTarget_orderly (b : Bridge) (i : BufIdx) : Orderly b (takeTarget b i) := by
  unfold takeTarget
  split
  · exact .refl b
  · rename_i f hf
    have h : PoolOk b → MayHoldJob b i := fun ok => ok.mayHoldJob hf
    split
    · exact remapAt_orderly b i _ _ h
    · split
      · exact .refl b
      · exact eraseAt_orderly b i _ _ h
      · exact eraseAt_orderly b i _ _ h
      · exact remapAt_orderly b i _ _ h

theorem releaseHold_orderly (b : Bridge) (i : BufIdx) : Orderly b (releaseHold b i) := by
  unfold releaseHold
  split
  · exact takeTarget_orderly b i
  · exact .refl b

theorem makeJob_orderly (b : Bridge) (i : BufIdx) (c : Causes) (h : (b.buf i).state = .opened) :
    Orderly b (makeJob b i c) := by
  have hj : PoolOk b → MayHoldJob b i := fun _ => .inl h
  unfold makeJob
  dsimp only
  split
  · refine (putFlush_orderly b i _ hj).trans (addFillNeed_orderly _ i fun e => ?_)
    unfold putFlush at e
    rw [buf_putBuf_self] at e
    have e' := congrArg Buffer.flush e
    cases e'
  · split
    · exact putFlush_orderly b i _ hj
    · exact (putFlush_orderly b i _ hj).trans (takeTarget_orderly _ i)

theorem endFill_orderly (b : Bridge) (i : BufIdx) (f : Flush) (h : PoolOk b → MayHoldJob b i) :
    Orderly b (endFill b i f) := by
  unfold endFill
  dsimp only
  refine .trans ?_ (takeTarget_orderly _ i)
  exact putBuf_orderly b i _ fun ok => .job ok (h ok).not_clean (h ok)

theorem syncJob_orderly (b : Bridge) (i : BufIdx) : Orderly b (syncJob b i) := by
  unfold syncJob
  dsimp only
  split
  · rename_i f hf
    have h : PoolOk b → MayHoldJob b i := fun ok => ok.mayHoldJob hf
    split
    · exact endFill_orderly b i _ h
    · split
      · exact .refl b
      · exact putFlush_orderly b i _ h
  · split
    · rename_i hs
      split
      · exact .refl b
      · exact makeJob_orderly b i _ hs
    · exact .refl b

theorem notePressure_orderly (b : Bridge) : Orderly b (notePressure b) := .of_pool rfl rfl

theorem syncJobs_orderly (b : Bridge) : Orderly b (syncJobs b) := by
  unfold syncJobs
  dsimp only
  have h := (notePressure_orderly b).trans (Orderly.forBufs syncJob_orderly (notePressure b))
  generalize (notePressure b).forBufs syncJob = c at h ⊢
  refine .trans (h.trans ?_) (sweepLoads_orderly _)
  exact .of_pool rfl rfl

theorem dropQuiesceAt_orderly (b : Bridge) (i : BufIdx) : Orderly b (dropQuiesceAt b i) := by
  unfold dropQuiesceAt
  split
  · exact .refl b
  · rename_i f hf
    exact putFlush_orderly b i _ fun ok => ok.mayHoldJob hf

theorem dropQuiesce_orderly (b : Bridge) : Orderly b (dropQuiesce b) := .forBufs dropQuiesceAt_orderly b

theorem addQuiesceAt_orderly (b : Bridge) (i : BufIdx) : Orderly b (addQuiesceAt b i) := by
  unfold addQuiesceAt
  split
  · exact .refl b
  · rename_i f hf
    exact putFlush_orderly b i _ fun ok => ok.mayHoldJob hf

theorem addQuiesce_orderly (b : Bridge) : Orderly b (addQuiesce b) := .forBufs addQuiesceAt_orderly b

theorem foldl_joinEvict_buffers (l : List BufIdx) (b : Bridge) :
    (l.foldl joinEvict b).pool.buffers = b.pool.buffers := by
  refine foldl_rel (R := fun b t => t.pool.buffers = b.pool.buffers) (fun _ => rfl) (fun h h' => h'.trans h)
    (fun b i => ?_) l b
  unfold joinEvict
  split <;> rfl

/-- The answer of an entry that waits for notices changes no buffer. -/
theorem answer_buffers {b : Bridge} {k : Key} {e : Entry} (he : b.entry k = some e) (hs : e.state = .awaitCommit)
    (st : Status) (done : Nat) (p : Payload) : (answer b k st done p).pool.buffers = b.pool.buffers := by
  unfold answer answerFrame
  rw [he]
  dsimp only
  rw [hs, if_neg (by simp), if_neg (by simp), foldl_joinEvict_buffers]
  rfl

theorem finishAwait_buffers (b : Bridge) (k : Key) : (finishAwait b k).pool.buffers = b.pool.buffers := by
  unfold finishAwait
  split
  · rfl
  · rename_i e he
    split
    · rename_i hs
      split
      · split
        · exact answer_buffers he hs.1 ..
        · exact answer_buffers he hs.1 ..
      · exact answer_buffers he hs.1 ..
    · rfl

theorem finishAwait_orderly (b : Bridge) (k : Key) : Orderly b (finishAwait b k) := by
  unfold finishAwait
  split
  · exact .refl b
  · split
    · split
      · split
        · exact answer_orderly ..
        · exact answer_orderly ..
      · exact answer_orderly ..
    · exact .refl b

/-- A notice answers entries, and changes no buffer. -/
theorem notice_spec (b : Bridge) (i : BufIdx) (f : Entry → Entry) :
    Orderly b (notice b i f) ∧ (notice b i f).pool.buffers = b.pool.buffers := by
  unfold notice Bridge.forKeys
  refine foldl_rel (R := fun b t => Orderly b t ∧ t.pool.buffers = b.pool.buffers) (fun b => ⟨.refl b, rfl⟩)
    (fun h h' => ⟨h.1.trans h'.1, h'.2.trans h.2⟩) (fun b k => ?_) allKeys b
  split
  · exact ⟨.refl b, rfl⟩
  · split
    · exact ⟨(putEntry_orderly b k _).trans (finishAwait_orderly _ k), finishAwait_buffers _ k⟩
    · exact ⟨.refl b, rfl⟩

theorem noticeCommitted_orderly (b : Bridge) (i : BufIdx) : Orderly b (noticeCommitted b i) := (notice_spec b i _).1

theorem noticeMoved_orderly (b : Bridge) (i j : BufIdx) : Orderly b (noticeMoved b i j) := (notice_spec b i _).1

theorem noticeFailed_orderly (b : Bridge) (i : BufIdx) : Orderly b (noticeFailed b i) := (notice_spec b i _).1

theorem noticeFailed_buf (b : Bridge) (i j : BufIdx) : (noticeFailed b i).buf j = b.buf j :=
  buf_congr (notice_spec b i _).2 j

theorem movePins_orderly (b : Bridge) (i j : BufIdx) : Orderly b (movePins b i j) := by
  refine .forKeys (fun b k => ?_) b
  split
  · exact .refl b
  · split
    · exact putEntry_orderly ..
    · exact .refl b

theorem endToSuccessor_orderly (b : Bridge) (i j : BufIdx) : Orderly b (endToSuccessor b i j) :=
  (((movePins_orderly b i j).trans (freeBuf_orderly _ i)).trans (testReads_orderly _)).trans (releaseHold_orderly _ j)

theorem commitJob_orderly (b : Bridge) (i : BufIdx) : Orderly b (commitJob b i) := by
  unfold commitJob
  dsimp only
  have h := noticeCommitted_orderly b i
  split
  · exact h.trans (endToSuccessor_orderly _ i _)
  · refine .trans (.trans (h.trans ?_) (joinEvict_orderly _ i)) (testReads_orderly _)
    exact putBuf_orderly _ i _ fun _ => ⟨fun e => (by cases e), fun e => (by cases e), fun _ => rfl, fun _ e => (by cases e)⟩

theorem strand_orderly (b : Bridge) (i : BufIdx) (h : PoolOk b → MayHoldJob b i) : Orderly b (strand b i) := by
  unfold strand
  dsimp only
  split
  · have h1 : Orderly b (b.putBuf i { b.buf i with state := .stranded, load := none, flush := none, relocate := false }) :=
      putBuf_orderly b i _ fun ok =>
        ⟨fun e => (by cases e), fun e => (by cases e), fun e => absurd e (ok.not_evict (h ok).not_clean), fun _ e => (by cases e)⟩
    split
    · exact h1.trans (.of_eq (lockWrites_pool _))
    · exact h1
  · refine .trans ?_ (freeBuf_orderly _ i)
    refine .trans (b := record (failReaders (b.putBuf i { b.buf i with valid := 0, load := none, flush := none }) i)
      { kind := .dataDiscarded, time := b.clock, lsn := (b.buf i).lsn, sectorCount := some 1 }) ?_ ?_
    · refine .trans (.trans ?_ (failReaders_orderly _ i)) (record_orderly _ _)
      exact putBuf_orderly b i _ fun ok => .same ok rfl (fun e => by cases e) (fun e => by rw [e]; rfl)
        (.inl (h ok).not_loading)
    · exact cartArb_orderly _ _ _

/-- The job of a buffer that may hold one fails. -/
theorem permanentFailure_orderly (b : Bridge) (i : BufIdx) (failed : Option Nat)
    (h : PoolOk b → MayHoldJob b i) : Orderly b (permanentFailure b i failed) := by
  unfold permanentFailure
  dsimp only
  have ends : ∀ d : Bridge, d.pool = b.pool → Orderly b (match (b.buf i).successor with
      | some j => endToSuccessor (noticeMoved d i j) i j
      | none => strand (noticeFailed d i) i) := by
    intro d hd
    have h1 : Orderly b d := .of_eq hd
    split
    · exact (h1.trans (noticeMoved_orderly d i _)).trans (endToSuccessor_orderly _ i _)
    · refine .of_ok fun ok => (h1.trans (noticeFailed_orderly d i)).trans (strand_orderly _ i fun _ => ?_)
      unfold MayHoldJob
      rw [noticeFailed_buf, buf_congr (t := d) (b := b) (by rw [hd])]
      exact h ok
  refine ends _ ?_
  rw [record_pool]
  split
  · exact markLost_pool ..
  · rfl

theorem discardBuf_orderly (b : Bridge) (i : BufIdx) : Orderly b (discardBuf b i) :=
  (noticeFailed_orderly b i).trans (freeBuf_orderly _ i)

/-- A buffer record that keeps its successor link where a test of the link lets it. -/
def Buffer.keepLink (x : Buffer) (q : BufIdx → Bool) : Buffer := { x with successor := x.successor.filter q }

theorem Buffer.keepLink_keepLink (x : Buffer) (q r : BufIdx → Bool) :
    (x.keepLink q).keepLink r = x.keepLink fun i => q i && r i := by
  simp [Buffer.keepLink, Option.filter_filter]

theorem Buffer.keepLink_eq {x : Buffer} {q : BufIdx → Bool} (h : ∀ i, x.successor = some i → q i = true) :
    x.keepLink q = x := by
  have : x.successor.filter q = x.successor := by
    cases hs : x.successor with
    | none => rfl
    | some i => simp [h i hs]
  unfold Buffer.keepLink
  rw [this]

theorem unlink_buf (i : BufIdx) (b : Bridge) (a j : BufIdx) :
    (unlink i b a).buf j = if j = a then (b.buf j).keepLink (· != i) else b.buf j := by
  unfold unlink
  split
  · rename_i h
    rw [buf_putBuf]
    split
    · rename_i hj; subst hj
      unfold Buffer.keepLink
      rw [h, Option.filter_some, if_neg (by simp)]
    · rfl
  · rename_i h
    split
    · rename_i hj; subst hj
      exact (Buffer.keepLink_eq fun k hk => by
        rw [bne_iff_ne]; exact fun e => h (e ▸ hk)).symm
    · rfl

/-- A buffer that becomes FREE holds the FREE values, and every other buffer loses only a successor link to it. -/
theorem freeBuf_buf (b : Bridge) (i j : BufIdx) :
    (freeBuf b i).buf j = if j = i then Buffer.free else (b.buf j).keepLink (· != i) := by
  have all : ∀ (l : List BufIdx) (c : Bridge), l.Nodup → (l.foldl (unlink i) c).buf j
      = if j ∈ l then (c.buf j).keepLink (· != i) else c.buf j := by
    intro l
    induction l with
    | nil => intro c _; rfl
    | cons a l ih =>
      intro c hn
      rw [List.nodup_cons] at hn
      rw [List.foldl_cons, ih _ hn.2, unlink_buf]
      by_cases hj : j = a
      · subst hj; simp [hn.1]
      · simp [hj]
  have lv : ∀ c : Bridge, (leaveEvict c i).buf j = c.buf j := fun _ => rfl
  unfold freeBuf
  rw [lv, buf_putBuf]
  split
  · rfl
  · unfold Bridge.forBufs
    have hj : j ∈ allBufs := List.mem_finRange j
    rw [all allBufs b (List.nodup_finRange 32), if_pos hj]

/-- What a discard makes of the buffers, by their states: those it frees hold the FREE values, and the others lose only a
successor link to one of them (R81). -/
theorem discardWhere_buf (b : Bridge) (p : BufState → Bool) (j : BufIdx) :
    (discardWhere b fun x => p x.state).buf j = if p (b.buf j).state then Buffer.free else
      (b.buf j).keepLink fun i => !p (b.buf i).state := by
  have key : ∀ (l : List BufIdx) (c : Bridge), l.Nodup →
      (l.foldl (fun b i => if p (b.buf i).state then discardBuf b i else b) c).buf j
        = if j ∈ l ∧ p (c.buf j).state = true then Buffer.free else
          (c.buf j).keepLink fun i => !(decide (i ∈ l) && p (c.buf i).state) := by
    intro l
    induction l with
    | nil => intro c _; exact (Buffer.keepLink_eq fun i _ => rfl).symm
    | cons a l ih =>
      intro c hn
      rw [List.nodup_cons] at hn
      rw [List.foldl_cons, ih _ hn.2]
      by_cases ha : p (c.buf a).state = true
      · rw [if_pos ha]
        have d : ∀ k, (discardBuf c a).buf k = if k = a then Buffer.free else (c.buf k).keepLink (· != a) := fun k => by
          unfold discardBuf
          rw [freeBuf_buf, noticeFailed_buf]
        have st : ∀ k, k ≠ a → ((discardBuf c a).buf k).state = (c.buf k).state := fun k hk => by
          rw [d, if_neg hk]; rfl
        by_cases hj : j = a
        · subst hj
          rw [if_neg (fun h => hn.1 h.1), if_pos ⟨List.mem_cons_self, ha⟩, d, if_pos rfl]
          rfl
        · rw [st j hj]
          by_cases hp : j ∈ l ∧ p (c.buf j).state = true
          · rw [if_pos hp, if_pos ⟨List.mem_cons_of_mem _ hp.1, hp.2⟩]
          · rw [if_neg hp, if_neg fun h => hp ⟨(List.mem_cons.1 h.1).resolve_left hj, h.2⟩, d, if_neg hj,
              Buffer.keepLink_keepLink]
            congr 1
            funext x
            by_cases hx : x = a
            · subst hx; simp [ha]
            · simp [hx, st x hx]
      · rw [if_neg ha]
        have same : ∀ x, (decide (x ∈ a :: l) && p (c.buf x).state) = (decide (x ∈ l) && p (c.buf x).state) := fun x => by
          by_cases hx : x = a
          · subst hx; simp [ha]
          · simp [hx]
        have hs := same j
        rw [Bool.eq_iff_iff] at hs
        simp only [Bool.and_eq_true, decide_eq_true_eq] at hs
        simp only [same, hs]
  have := key allBufs b (List.nodup_finRange 32)
  simp only [allBufs, List.mem_finRange, true_and, decide_true, Bool.true_and] at this
  exact this

theorem putEntry_closes (b : Bridge) (k : Key) (x : Option Entry) : Closes b (b.putEntry k x) :=
  ⟨rfl, fun _ h _ => h, fun _ h => h, fun _ h => h⟩

theorem finishAwait_closes (b : Bridge) (k : Key) : Closes b (finishAwait b k) := by
  unfold finishAwait
  split
  · exact .refl b
  · split
    · split
      · split
        · exact answer_closes ..
        · exact answer_closes ..
      · exact answer_closes ..
    · exact .refl b

theorem noticeFailed_closes (b : Bridge) (i : BufIdx) : Closes b (noticeFailed b i) := by
  unfold noticeFailed notice Bridge.forKeys
  refine .foldl (fun b k => ?_) allKeys b
  split
  · exact .refl b
  · split
    · refine Closes.trans ?_ (finishAwait_closes _ k)
      exact putEntry_closes ..
    · exact .refl b

/-- A discard changes the pool, the entries and what is queued, and nothing else: no count, no record, no write state
(R81). -/
theorem discardWhere_closes (b : Bridge) (p : Buffer → Bool) : Closes b (discardWhere b p) := by
  unfold discardWhere Bridge.forBufs
  refine .foldl (fun b i => ?_) allBufs b
  split
  · exact (noticeFailed_closes b i).trans (freeBuf_poolOnly _ i).closes
  · exact .refl b

theorem discardWhere_orderly (b : Bridge) (p : Buffer → Bool) : Orderly b (discardWhere b p) := by
  refine .forBufs (fun b i => ?_) b
  split
  · exact discardBuf_orderly b i
  · exact .refl b

theorem targetFailed_orderly (b : Bridge) (i : BufIdx) (f : Flush) (psa : Nat) (h : PoolOk b → MayHoldJob b i) :
    Orderly b (targetFailed b i f psa) := by
  unfold targetFailed
  split
  · exact remapAt_orderly b i f _ h
  · exact permanentFailure_orderly b i _ h

theorem nextPhase_orderly (b : Bridge) (i : BufIdx) (f : Flush) (p : Phase) (h : PoolOk b → MayHoldJob b i) :
    Orderly b (nextPhase b i f p) := (putFlush_orderly b i _ h).trans (takeStamp_orderly _)

theorem phaseEnded_orderly (b : Bridge) (i : BufIdx) (psa : Nat) (kind : OrderKind) (o : SectorOutcome) :
    Orderly b (phaseEnded b i psa kind o) := by
  unfold phaseEnded
  split
  · exact .refl b
  · rename_i f hf
    have h : PoolOk b → MayHoldJob b i := fun ok => ok.mayHoldJob hf
    split
    · split
      · exact nextPhase_orderly b i _ _ h
      · exact nextPhase_orderly b i _ _ h
      · split
        · exact commitJob_orderly b i
        · exact targetFailed_orderly b i _ _ h
      · exact .refl b
      all_goals exact targetFailed_orderly b i _ _ h
    · exact .refl b

theorem spareGranted_orderly (b : Bridge) (i : BufIdx) (f : Flush) (r : SpareRequest) (u s : Nat)
    (h : PoolOk b → MayHoldJob b i) : Orderly b (spareGranted b i f r u s) := by
  have step : ∀ (r : Bool) (f : Flush), Orderly b (eraseAt (grantSpare b u s r) i f s) := fun r f => by
    have hp := grantSpare_pool b u s r
    refine .of_ok fun ok => (Orderly.of_eq hp).trans (eraseAt_orderly _ i f s fun _ => ?_)
    unfold MayHoldJob
    rw [buf_congr (t := grantSpare b u s r) (b := b) (by rw [hp])]
    exact h ok
  unfold spareGranted
  dsimp only
  split
  · split
    · exact (step _ _).trans (record_orderly _ _)
    · exact step _ _
  · exact (step _ _).trans (record_orderly _ _)

theorem spareRefused_orderly (b : Bridge) (i : BufIdx) (f : Flush) (r : SpareRequest) (h : PoolOk b → MayHoldJob b i) :
    Orderly b (spareRefused b i f r) := by
  unfold spareRefused
  split
  · exact permanentFailure_orderly b i _ h
  · split
    · dsimp only
      refine .trans ?_ (takeTarget_orderly _ i)
      exact putBuf_orderly b i _ fun ok => .job ok (h ok).not_clean (h ok)
    · exact permanentFailure_orderly b i _ h

theorem takeSpareRequest_orderly (b : Bridge) (i : BufIdx) : Orderly b (takeSpareRequest b i) := by
  unfold takeSpareRequest
  split
  · exact .refl b
  · rename_i f hf
    have h : PoolOk b → MayHoldJob b i := fun ok => ok.mayHoldJob hf
    split
    · exact .refl b
    · split
      · exact spareRefused_orderly b i _ _ h
      · split
        · exact spareGranted_orderly b i _ _ _ _ h
        · exact spareRefused_orderly b i _ _ h

/-! ### The consequences of an event (Arbiter.lean, Cartridge.lean, Settle.lean) -/

theorem startPiece_orderly (kind : OrderKind) (b : Bridge) (p : Piece) : Orderly b (startPiece kind b p) := by
  unfold startPiece
  split
  · exact putBuf_orderly b _ _ fun ok => .same ok rfl id fun e => by rw [e]; rfl
  · rename_i i _ _
    refine putBuf_orderly b i _ fun ok => ?_
    unfold startPhase
    dsimp only
    split
    · rename_i hs
      exact .job ok (by rw [hs.2]; simp) (.inr rfl)
    · exact .same ok rfl (fun h => by simpa using h) fun e => by rw [e]; rfl
  · split
    · exact .refl b
    · exact .of_eq rfl
  · exact .refl b

theorem issueWork_orderly (b : Bridge) (w : Work) (kind : OrderKind) (psa streak : Nat) :
    Orderly b (issueWork b w kind psa streak) := by
  unfold issueWork
  dsimp only
  refine .trans ?_ (.foldl (startPiece_orderly kind) _ _)
  exact .of_eq rfl

theorem endLostLoad_orderly (b : Bridge) (i : BufIdx) : Orderly b (endLostLoad b i) := by
  unfold endLostLoad
  split
  · rename_i h
    refine loadLost_orderly b i fun e => ?_
    unfold isLostLoad loadPending at h
    rw [e] at h
    simp at h
  · exact .refl b

theorem grantWork_orderly {b t : Bridge} (h : grantWork b = some t) : Orderly b t := by
  have h1 := Orderly.forBufs endLostLoad_orderly b
  unfold grantWork at h
  dsimp only at h
  obtain ⟨w, -, h2⟩ := Option.map_eq_some_iff.1 h
  generalize b.forBufs endLostLoad = c at h1 h2
  have done : ∀ {a : Bridge}, Orderly b a →
      (match workOrder a w with
        | some (kind, psa) => issueWork a w kind psa (nextStreak b (pendingWork b) w)
        | none => a) = t → Orderly b t := by
    intro a ha hat
    split at hat
    · exact hat ▸ ha.trans (issueWork_orderly _ w _ _ _)
    · exact hat ▸ ha
  cases w
  · exact done h1 h2
  · exact done (.refl b) h2
  · exact done (.refl b) h2

theorem askLife_orderly (b : Bridge) (o : LifeOrder) : Orderly b (askLife b o) := .of_eq rfl

theorem issueLife_orderly (b : Bridge) (kind : OrderKind) (ps : List Piece) : Orderly b (issueLife b kind ps) :=
  .of_eq rfl

theorem grantServing_orderly {b t : Bridge} (h : grantServing b = some t) : Orderly b t := by
  unfold grantServing at h
  split at h
  · split at h
    · obtain rfl := Option.some.inj h; exact issueLife_orderly b _ _
    · obtain rfl := Option.some.inj h; exact .of_eq rfl
    all_goals cases h
  · split at h
    · obtain rfl := Option.some.inj h
      refine .trans (b := dueSpinUp b) ?_ (issueLife_orderly _ _ _)
      unfold dueSpinUp
      split
      · exact .refl b
      · exact askLife_orderly b _
    · exact .trans (b := dropLife b) (.of_eq rfl) (grantWork_orderly h)

theorem arbiterStep_orderly {b t : Bridge} (h : arbiterStep b = some t) : Orderly b t := by
  unfold arbiterStep at h
  split at h
  · cases h
  · split at h
    · cases h
    · cases h
    · cases h
    · split at h
      · obtain rfl := Option.some.inj h; exact issueLife_orderly b _ _
      · cases h
    · obtain ⟨st, -, rfl⟩ := Option.map_eq_some_iff.1 h
      exact issueLife_orderly b _ _
    · split at h
      · exact grantServing_orderly h
      · cases h
    · split at h
      · exact grantServing_orderly h
      · cases h
    · split at h
      · obtain rfl := Option.some.inj h; exact issueLife_orderly b _ _
      · cases h
    · split at h
      · obtain rfl := Option.some.inj h; exact issueLife_orderly b _ _
      · cases h

theorem withCart_orderly (b : Bridge) (f : CartRecord → CartRecord) : Orderly b (withCart b f) := .of_eq rfl

theorem reportDiscard_orderly (b : Bridge) (n : Nat) : Orderly b (reportDiscard b n) := by
  unfold reportDiscard
  split
  · exact (withCart_orderly b _).trans (record_orderly _ _)
  · exact .refl b

theorem abandonMapWrite_orderly (b : Bridge) : Orderly b (abandonMapWrite b) := .of_eq (abandonMapWrite_pool b)

theorem tryMapWrite_orderly (b : Bridge) : Orderly b (tryMapWrite b) := .of_eq (tryMapWrite_pool b)

theorem beginEject_orderly (b : Bridge) : Orderly b (beginEject b) := by
  unfold beginEject
  dsimp only
  refine .trans ?_ (abandonMapWrite_orderly _)
  refine .trans ?_ (reportDiscard_orderly _ _)
  exact (answerAll_orderly b _ _).trans (discardWhere_orderly _ _)

theorem enterEjecting_orderly (b : Bridge) : Orderly b (enterEjecting b) := by
  unfold enterEjecting
  dsimp only
  refine .trans ?_ (askLife_orderly _ _)
  split
  · exact (withCart_orderly b _).trans (withCart_orderly _ _)
  · exact ((withCart_orderly b _).trans (beginEject_orderly _)).trans (withCart_orderly _ _)

theorem poolStep_orderly {b t : Bridge} (h : poolStep b = some t) : Orderly b t := by
  unfold poolStep at h
  split at h
  · rename_i i hi
    obtain rfl := Option.some.inj h
    refine permanentFailure_orderly b i _ fun ok => ?_
    have hf := List.find?_some hi
    obtain ⟨f, hf, -⟩ := (Option.any_eq_true ..).1 hf
    exact ok.mayHoldJob hf
  · split at h
    · obtain rfl := Option.some.inj h; exact notePressure_orderly b
    · split at h
      · split at h
        · obtain rfl := Option.some.inj h; exact grant_orderly b _
        · split at h
          · cases h
          · obtain rfl := Option.some.inj h; exact .refl b
      · split at h
        · cases h
        · obtain rfl := Option.some.inj h; exact .refl b

theorem poolOnce_orderly {rest : Bridge → Bridge} (h : ∀ b, Orderly b (rest b)) (b : Bridge) :
    Orderly b (poolOnce rest b) := by
  have h1 := syncJobs_orderly b
  unfold poolOnce
  dsimp only
  generalize syncJobs b = c at h1
  split
  · exact h1
  · rename_i h2
    exact (h1.trans (poolStep_orderly h2)).trans (h _)

theorem poolSettleFor_orderly (n : Nat) : ∀ b : Bridge, Orderly b (poolSettleFor n b) := by
  induction n with
  | zero => exact .refl
  | succ n ih => exact poolOnce_orderly ih

theorem poolSettle_orderly (b : Bridge) : Orderly b (poolSettle b) := poolSettleFor_orderly _ b

theorem headStep_orderly {b t : Bridge} (h : headStep b = some t) : Orderly b t := by
  unfold headStep at h
  split at h
  · obtain rfl := Option.some.inj h; exact enterEjecting_orderly b
  · exact arbiterStep_orderly h

theorem settleOnce_orderly {rest : Bridge → Bridge} (h : ∀ b, Orderly b (rest b)) (b : Bridge) :
    Orderly b (settleOnce rest b) := by
  have h1 := poolSettle_orderly b
  unfold settleOnce
  dsimp only
  generalize poolSettle b = c at h1
  split
  · exact h1
  · rename_i h2
    exact (h1.trans (headStep_orderly h2)).trans (h _)

theorem settleFor_orderly (n : Nat) : ∀ b : Bridge, Orderly b (settleFor n b) := by
  induction n with
  | zero => exact .refl
  | succ n ih => exact settleOnce_orderly ih

theorem pump_pool (b : Bridge) : (pump b).pool = b.pool := by
  have up : (pumpUp b).pool = b.pool := by
    unfold pumpUp
    split
    · split <;> rfl
    · rfl
  unfold pump pumpDown
  split
  · split
    · exact up
    · exact up
  · exact up

theorem pump_orderly (b : Bridge) : Orderly b (pump b) := .of_eq (pump_pool b)

/-- What the end of a step can do to the pool. -/
theorem finish_orderly (b : Bridge) : Orderly b (finish b) :=
  ((settleFor_orderly _ b).trans (withCart_orderly _ _)).trans (pump_orderly _)

/-! ### Orders (Arbiter.lean, Mechanism.lean) -/

theorem loadFailed_orderly (b : Bridge) (i : BufIdx) (l : Load) (lsn psa : Nat) (h : (b.buf i).load ≠ none) :
    Orderly b (loadFailed b i l lsn psa) := by
  unfold loadFailed
  split
  · split
    · exact withdrawLoad_orderly b i
    · exact putLoad_orderly b i _ h
  · dsimp only
    refine (loadLost_orderly b i h).trans (.trans ?_ (record_orderly _ _))
    exact .of_eq rfl

theorem loadEnded_orderly (b : Bridge) (i : BufIdx) (lsn psa : Nat) (o : SectorOutcome) :
    Orderly b (loadEnded b i lsn psa o) := by
  unfold loadEnded
  split
  · exact .refl b
  · rename_i l hl
    have h : (b.buf i).load ≠ none := by rw [hl]; simp
    split
    · split
      · unfold loadCame
        dsimp only
        split
        · exact .trans (b := { b with cart := { b.cart with soft := satInc 65535 b.cart.soft } }) (.of_eq rfl)
            (loadGood_orderly _ i _ _ h)
        · exact loadGood_orderly b i _ _ h
      all_goals exact loadFailed_orderly b i l _ _ h
    · exact .refl b

theorem pieceEnded_orderly (kind : OrderKind) (b : Bridge) (p : Piece) (o : SectorOutcome) :
    Orderly b (pieceEnded kind b p o) := by
  unfold pieceEnded
  split
  · exact loadEnded_orderly ..
  · exact phaseEnded_orderly ..
  · exact .refl b
  · exact .refl b

theorem handOutcomes_orderly (kind : OrderKind) (l : List (Piece × SectorOutcome)) :
    ∀ b : Bridge, Orderly b (handOutcomes kind b l) := by
  induction l with
  | nil => exact .refl
  | cons x rest ih =>
    intro b
    obtain ⟨p, o⟩ := x
    unfold handOutcomes
    exact ((pieceEnded_orderly kind b p o).trans (poolSettle_orderly _)).trans (ih _)

theorem returnPiece_orderly (b : Bridge) (p : Piece) : Orderly b (returnPiece b p) := by
  unfold returnPiece
  split
  · exact putBuf_orderly b _ _ fun ok => .same ok rfl id fun e => by rw [e]; rfl
  · exact putBuf_orderly b _ _ fun ok => .same ok rfl (fun h => by simpa using h) fun e => by rw [e]; rfl
  · exact .of_eq (mapStepReturned_pool b)
  · exact .refl b

theorem abandonOrder_orderly (b : Bridge) (o : Order) : Orderly b (abandonOrder b o) := by
  unfold abandonOrder
  refine .trans (.trans ?_ (.foldl returnPiece_orderly _ _)) (sweepLoads_orderly _)
  exact .of_eq rfl

/-! ### What the other blocks do (Requests.lean, Cartridge.lean, Lines.lean) -/

theorem answerMerged_orderly (k : Key) (mode : WriteMode) (n : Nat) (b : Bridge) :
    Orderly b (answerMerged k mode n b) := by
  refine .forKeys (fun b j => ?_) b
  split
  · split
    · exact answer_orderly ..
    · exact finishAwait_orderly ..
  · exact testRead_orderly ..

theorem beginQuiesce_orderly (b : Bridge) (source : EjectSource) (forced : Bool) :
    Orderly b (beginQuiesce b source forced) := by
  unfold beginQuiesce
  dsimp only
  exact (((withCart_orderly b _).trans (addQuiesce_orderly _)).trans (syncJobs_orderly _)).trans (tryMapWrite_orderly _)

theorem leaveQuiesce_orderly (b : Bridge) : Orderly b (leaveQuiesce b) :=
  ((withCart_orderly b _).trans (dropQuiesce_orderly _)).trans (tryMapWrite_orderly _)

theorem enterHalted_orderly (b : Bridge) : Orderly b (enterHalted b) := by
  unfold enterHalted
  dsimp only
  refine .trans ?_ (raiseEvent_orderly _ _)
  refine .trans (b := answerAll (withCart b fun c => { c with state := .halted })
    (fun e => isActive e || isEjectWait e) .mechFault) ?_ (cartArb_orderly _ _ _)
  exact (withCart_orderly b _).trans (answerAll_orderly _ _ _)

theorem becomeEmpty_orderly (b : Bridge) : Orderly b (becomeEmpty b) := .of_eq rfl

theorem ejectComplete_orderly (b : Bridge) : Orderly b (ejectComplete b) := by
  unfold ejectComplete
  dsimp only
  refine .trans ?_ (raiseEvent_orderly _ _)
  refine .trans ?_ (answerAll_orderly _ _ _)
  exact (discardWhere_orderly b _).trans (becomeEmpty_orderly _)

theorem removeCartridge_orderly (b : Bridge) : Orderly b (removeCartridge b) := by
  unfold removeCartridge
  dsimp only
  refine .trans ?_ (raiseEvent_orderly _ _)
  refine .trans ?_ (becomeEmpty_orderly _)
  refine .trans ?_ (abandonMapWrite_orderly _)
  refine .trans ?_ (reportDiscard_orderly _ _)
  refine .trans ?_ (discardWhere_orderly _ _)
  refine .trans ?_ (answerAll_orderly _ _ _)
  exact .of_eq rfl

theorem linkReset_orderly (b : Bridge) : Orderly b (linkReset b) := by
  refine .trans (.trans (.trans (b := resetOwners b) ?_ (.forBufs (fun b i => ?_) _)) (.forBufs joinEvict_orderly _))
    (sweepLoads_orderly _)
  · exact .of_pool rfl rfl
  · unfold dropReadersAt
    split
    · exact .refl b
    · rename_i l hl
      exact putLoad_orderly b i _ (by rw [hl]; simp)

/-! ### Requests (Ops.lean, Router.lean, Requests.lean, Management.lean, Reports.lean) -/

theorem makeEntry_orderly (b : Bridge) (h : Header) (op : Op) (f : Entry → Entry) : Orderly b (makeEntry b h op f) :=
  .of_eq rfl

theorem refuse_orderly (b : Bridge) (h : Header) (op : Op) (st : Status) : Orderly b (refuse b h op st) :=
  (makeEntry_orderly ..).trans (answerStatus_orderly ..)

theorem editEntry_orderly (b : Bridge) (k : Key) (f : Entry → Entry) : Orderly b (editEntry b k f) := by
  unfold editEntry
  split
  · exact .refl b
  · exact putEntry_orderly ..

theorem takeRequest_orderly (b : Bridge) (h : Header) (op : Op) {route : Bridge → Bridge} (hr : ∀ b, Orderly b (route b)) :
    Orderly b (takeRequest b h op route) := by
  unfold takeRequest
  split
  · exact .refl b
  · dsimp only
    have h1 : Orderly b { b with link := { b.link with partialRx := [] } } := .of_eq rfl
    refine h1.trans ?_
    generalize ({ b with link := { b.link with partialRx := [] } } : Bridge) = c
    split
    · unfold keyHeld
      split
      · exact .refl c
      · exact .of_eq rfl
    · split
      · exact hr c
      · exact refuse_orderly ..

theorem forward_orderly (b : Bridge) (h : Header) (op : Op) (data : List Block) : Orderly b (forward b h op data) :=
  .of_eq rfl

theorem passOrRefuse_orderly (b : Bridge) (h : Header) (op : Op) (data : List Block) :
    Orderly b (passOrRefuse b h op data) := by
  unfold passOrRefuse
  split
  · exact forward_orderly ..
  · exact refuse_orderly ..

theorem routeBlocks_orderly (h : Header) (op : Op) (data : List Block) {accept : Fin 16 → Nat → Bridge → Bridge}
    (ha : ∀ i cb b, Orderly b (accept i cb b)) (b : Bridge) : Orderly b (routeBlocks h op data accept b) := by
  unfold routeBlocks
  split
  · exact refuse_orderly ..
  · split
    · exact refuse_orderly ..
    · exact passOrRefuse_orderly ..
    · dsimp only
      split
      · exact refuse_orderly ..
      · exact ha ..

theorem routeLocal_orderly (h : Header) (op : Op) {act : Bridge → Bridge} (ha : ∀ b, Orderly b (act b)) (b : Bridge) :
    Orderly b (routeLocal h op act b) := by
  unfold routeLocal
  split
  · exact refuse_orderly ..
  · split
    · exact ha b
    · exact passOrRefuse_orderly ..

theorem admitRead_orderly (h : Header) (i : Fin 16) (cb : Nat) (b : Bridge) : Orderly b (admitRead h i cb b) :=
  (makeEntry_orderly ..).trans (insertReservation_orderly ..)

theorem admitWriteRequest_orderly (h : Header) (data : List Block) (i : Fin 16) (cb : Nat) (b : Bridge) :
    Orderly b (admitWriteRequest h data i cb b) := by
  unfold admitWriteRequest
  dsimp only
  split
  · exact refuse_orderly ..
  · exact ((admitWrite_orderly ..).trans (makeEntry_orderly ..)).trans (answerMerged_orderly ..)

theorem flushLocal_orderly (h : Header) (b : Bridge) : Orderly b (flushLocal h b) := by
  unfold flushLocal
  dsimp only
  split
  · exact (makeEntry_orderly ..).trans (answerStatus_orderly ..)
  · split
    · exact (makeEntry_orderly ..).trans (answerStatus_orderly ..)
    · exact (makeEntry_orderly ..).trans (editEntry_orderly ..)

theorem senseLocal_orderly (h : Header) (b : Bridge) : Orderly b (senseLocal h b) :=
  (makeEntry_orderly ..).trans (answer_orderly ..)

/-- What the Management Unit owns changes. -/
theorem mgmt_orderly (b : Bridge) (m : Management) : Orderly b { b with mgmt := m } := .of_eq rfl

theorem leavePending_orderly (b : Bridge) (o : Originator) : Orderly b (leavePending b o) := mgmt_orderly b _

theorem abortEffect_orderly (t : Key) (b : Bridge) : Orderly b (abortEffect t b) := by
  unfold abortEffect
  split
  · exact .refl b
  · split
    · exact .refl b
    · exact .refl b
    · exact .refl b
    · exact answerStatus_orderly ..
    · exact answerStatus_orderly ..
    · exact answerStatus_orderly ..
    · exact (leavePending_orderly ..).trans (answerStatus_orderly ..)
    · split
      · exact (leaveQuiesce_orderly _).trans (answerStatus_orderly ..)
      · exact .refl b

theorem inKeyOrder_orderly (own other : Key) {f g : Bridge → Bridge} (hf : ∀ b, Orderly b (f b)) (hg : ∀ b, Orderly b (g b))
    (b : Bridge) : Orderly b (inKeyOrder own other f g b) := by
  unfold inKeyOrder
  split
  · exact (hf b).trans (hg _)
  · exact (hg b).trans (hf _)

theorem routeAbort_orderly (h : Header) (b : Bridge) : Orderly b (routeAbort h b) := by
  unfold routeAbort
  split
  · exact (editEntry_orderly ..).trans (forward_orderly ..)
  · unfold abortLocal
    dsimp only
    split
    · exact (makeEntry_orderly ..).trans
        (inKeyOrder_orderly _ _ (fun b => answerStatus_orderly b h.key .ok) (abortEffect_orderly _) _)
    · exact (makeEntry_orderly ..).trans (answerStatus_orderly ..)

theorem manage_orderly (h : Header) (op : Op) (items : List Item) {act : Bridge → Bridge} (ha : ∀ b, Orderly b (act b))
    (b : Bridge) : Orderly b (manage h op items act b) := by
  refine takeRequest_orderly b h op fun b => ?_
  split
  · exact refuse_orderly ..
  · dsimp only
    refine (makeEntry_orderly b h op fun e => { e with routing := some .management }).trans ?_
    generalize makeEntry b h op (fun e => { e with routing := some .management }) = c
    split
    · exact answerStatus_orderly ..
    · split
      · exact answerStatus_orderly ..
      · exact ha c

theorem answerLock_orderly (b : Bridge) (own : Key) (o : Originator) (st : Status) :
    Orderly b (answerLock b own o st) := by
  refine .forKeys (fun b k => ?_) b
  split
  · exact answerStatus_orderly ..
  · split
    · exact answerStatus_orderly ..
    · exact .refl b

theorem lockRequest_orderly (h : Header) (b : Bridge) : Orderly b (lockRequest h b) := by
  unfold lockRequest
  split
  · exact (mgmt_orderly b _).trans (answerStatus_orderly ..)
  · split
    · exact answerStatus_orderly ..
    · split
      · exact answerStatus_orderly ..
      · exact (mgmt_orderly b _).trans (editEntry_orderly ..)

theorem lockRelease_orderly (h : Header) (b : Bridge) : Orderly b (lockRelease h b) := by
  unfold lockRelease
  split
  · split
    · exact (mgmt_orderly b _).trans (answerStatus_orderly ..)
    · exact (mgmt_orderly b _).trans (answerLock_orderly ..)
  · exact answerStatus_orderly ..

theorem lockCancel_orderly (h : Header) (b : Bridge) : Orderly b (lockCancel h b) := by
  unfold lockCancel
  split
  · exact (leavePending_orderly ..).trans (answerLock_orderly ..)
  · exact answerStatus_orderly ..

theorem readExceptions_orderly (h : Header) (b : Bridge) : Orderly b (readExceptions h b) := by
  unfold readExceptions
  exact (mgmt_orderly b _).trans (answer_orderly ..)

theorem readDefects_orderly (h : Header) (items : List Item) (b : Bridge) : Orderly b (readDefects h items b) := by
  unfold readDefects
  dsimp only
  split
  · exact answerStatus_orderly ..
  · exact answer_orderly ..

theorem readWindow_orderly (h : Header) (items : List Item) (b : Bridge) : Orderly b (readWindow h items b) := by
  unfold readWindow
  split
  · exact answerStatus_orderly ..
  · exact answer_orderly ..

theorem readClass_orderly (h : Header) (items : List Item) (b : Bridge) : Orderly b (readClass h items b) := by
  unfold readClass
  split
  · exact answerStatus_orderly ..
  · exact answer_orderly ..

theorem writeWindow_orderly (h : Header) (items : List Item) (b : Bridge) : Orderly b (writeWindow h items b) := by
  unfold writeWindow
  split
  · exact answerStatus_orderly ..
  · dsimp only
    split
    · exact answerStatus_orderly ..
    · split
      · exact answerStatus_orderly ..
      · split
        · exact answerStatus_orderly ..
        · exact .trans (b := putWindow b _ _) (.of_eq rfl) (answerStatus_orderly ..)

theorem writeClass_orderly (h : Header) (items : List Item) (b : Bridge) : Orderly b (writeClass h items b) := by
  unfold writeClass
  split
  · exact answerStatus_orderly ..
  · dsimp only
    split
    · exact answerStatus_orderly ..
    · split
      · exact answerStatus_orderly ..
      · exact .trans (b := putClass b _ _) (.of_eq rfl) (answerStatus_orderly ..)

theorem testAllOpen_orderly (b : Bridge) : Orderly b (testAllOpen b) := by
  refine .forBufs (fun b i => ?_) b
  split
  · exact testLater_orderly b i
  · exact .refl b

theorem settingsAct_orderly (items : List Item) (b : Bridge) : Orderly b (settingsAct items b) := by
  have h1 : Orderly b (if (findItem items 0x32).isSome then testAllOpen b else b) := by
    split
    · exact testAllOpen_orderly b
    · exact .refl b
  have h2 : ∀ c : Bridge, Orderly c (if (findItem items 0x33).isSome then tryMapWrite c else c) := fun c => by
    split
    · exact tryMapWrite_orderly c
    · exact .refl c
  unfold settingsAct
  dsimp only
  revert h1
  generalize (if (findItem items 0x32).isSome then testAllOpen b else b) = c
  intro h1
  have h3 := h2 c
  revert h3
  generalize (if (findItem items 0x33).isSome then tryMapWrite c else c) = d
  intro h3
  split
  · exact (h1.trans h3).trans (askLife_orderly d .spinDown)
  · exact h1.trans h3

theorem pruneAttention_orderly (b : Bridge) : Orderly b (pruneAttention b) := .of_eq (attnTest_pool _)

theorem setSettings_orderly (h : Header) (items : List Item) (b : Bridge) : Orderly b (setSettings h items b) := by
  unfold setSettings
  split
  · exact answerStatus_orderly ..
  · dsimp only
    refine .trans ?_ (settingsAct_orderly ..)
    refine .trans ?_ (pruneAttention_orderly _)
    exact (answerStatus_orderly b h.key .ok).trans (mgmt_orderly _ _)

theorem discardStranded_orderly (h : Header) (b : Bridge) : Orderly b (discardStranded h b) := by
  unfold discardStranded
  split
  · exact answerStatus_orderly ..
  · exact (discardWhere_orderly ..).trans (answer_orderly ..)

theorem recover_orderly (h : Header) (b : Bridge) : Orderly b (recover h b) := by
  unfold recover
  split
  · split
    · exact answerStatus_orderly ..
    · exact (askLife_orderly ..).trans (editEntry_orderly ..)
  · exact answerStatus_orderly ..

/-! ### The mount, the ejects and the ends of orders (Cartridge.lean, Mechanism.lean) -/

theorem enterUnusable_orderly (b : Bridge) (r : Reason) : Orderly b (enterUnusable b r) := by
  unfold enterUnusable
  exact (cartArb_orderly b _ _).trans (raiseEvent_orderly _ _)

theorem askMount_orderly (b : Bridge) (st : MountStep) : Orderly b (askMount b st) := .of_eq rfl

theorem mountFailed_orderly (b : Bridge) (st : MountStep) : Orderly b (mountFailed b st) := by
  unfold mountFailed
  split
  · exact askMount_orderly ..
  · exact enterUnusable_orderly ..

theorem mountReadEnded_orderly (b : Bridge) (l : List SectorOutcome) : Orderly b (mountReadEnded b l) := by
  unfold mountReadEnded
  split
  · exact .refl b
  · dsimp only
    refine .trans (b := stageRead b l) (.of_eq rfl) ?_
    generalize stageRead b l = c
    split
    · split
      · unfold judgeLabel
        dsimp only
        split
        · exact enterUnusable_orderly ..
        · split
          · exact enterUnusable_orderly ..
          · exact (withCart_orderly c _).trans (askMount_orderly ..)
      · unfold judgeMapRead acceptMount
        split
        · exact enterUnusable_orderly ..
        · split
          · exact enterUnusable_orderly ..
          · exact .of_eq (raiseEvent_pool _ _)
    · exact mountFailed_orderly ..

theorem requestEject_orderly {b t : Bridge} {source : EjectSource} {forced : Bool}
    (h : requestEject b source forced = some t) : Orderly b t := by
  unfold requestEject at h
  split at h
  · cases h
  · cases h
  · cases h
  · cases h
  · split at h
    · cases h
    · rw [← Option.some.inj h]; exact withCart_orderly ..
  · split at h
    · cases h
    · rw [← Option.some.inj h]; exact withCart_orderly ..
  · rw [← Option.some.inj h]; exact beginQuiesce_orderly b source forced
  · rw [← Option.some.inj h]; exact enterEjecting_orderly b
  · split at h
    · cases h
    · rw [← Option.some.inj h]; exact enterEjecting_orderly b

theorem eject_orderly (h : Header) (items : List Item) (b : Bridge) : Orderly b (eject h items b) := by
  unfold eject
  dsimp only
  split
  · exact answerStatus_orderly ..
  · split
    · rename_i hb
      exact (editEntry_orderly ..).trans (requestEject_orderly hb)
    · exact answerStatus_orderly ..

theorem presenceArrives_orderly (b : Bridge) (tab : Bool) : Orderly b (presenceArrives b tab) := by
  unfold presenceArrives
  split
  · exact withCart_orderly ..
  · exact withCart_orderly ..
  all_goals exact .refl b

theorem endSettle_orderly (b : Bridge) : Orderly b (endSettle b) := (withCart_orderly b _).trans (askLife_orderly _ _)

theorem recoverGood_orderly (b : Bridge) : Orderly b (recoverGood b) := by
  have h1 : Orderly b (withCart b fun c => { c with spindle := .spinning }) := withCart_orderly ..
  unfold recoverGood
  dsimp only
  refine h1.trans ?_
  generalize (withCart b fun c => { c with spindle := .spinning }) = c
  split
  · exact (enterEjecting_orderly c).trans (answerAll_orderly _ _ _)
  · split
    · have h2 : Orderly c (withCart c fun c => { c with state := .ready }) := withCart_orderly ..
      exact (((h2.trans (dropQuiesce_orderly _)).trans (tryMapWrite_orderly _)).trans
        (answerAll_orderly _ _ _)).trans (raiseEvent_orderly _ _)
    · have h2 : Orderly c (withCart c fun c => { c with state := .mounting }) := withCart_orderly ..
      exact (h2.trans (askMount_orderly _ _)).trans (answerAll_orderly _ _ _)

theorem spinUpEnded_orderly (b : Bridge) (good : Bool) : Orderly b (spinUpEnded b good) := by
  have spun : Orderly b (withCart b fun c => { c with spindle := .spinning }) := withCart_orderly ..
  unfold spinUpEnded
  dsimp only
  cases good
  · simp only [Bool.false_eq_true, if_false]
    split
    · split
      · exact .refl b
      · exact enterUnusable_orderly b _
    · exact enterHalted_orderly b
    · exact enterHalted_orderly b
    · exact answerAll_orderly ..
    all_goals exact .refl b
  · simp only [if_true]
    split
    · split
      · exact spun
      · exact spun.trans ((withCart_orderly _ _).trans (askMount_orderly _ _))
    · exact spun
    · exact spun
    · exact recoverGood_orderly b
    all_goals exact spun

theorem lifeEnded_orderly (b : Bridge) (kind : OrderKind) (good : Bool) : Orderly b (lifeEnded b kind good) := by
  unfold lifeEnded
  split
  · exact spinUpEnded_orderly ..
  · split
    · exact withCart_orderly ..
    · exact .refl b
  · split
    · exact ejectComplete_orderly b
    · exact enterHalted_orderly b
  all_goals exact .refl b

theorem runEnded_orderly (b : Bridge) (o : Order) (l : List SectorOutcome) : Orderly b (runEnded b o l) := by
  unfold runEnded
  split
  · split
    · exact .refl b
    · exact mountReadEnded_orderly b l
  · split
    · exact .of_eq (mapStepEnded_pool b l)
    · exact handOutcomes_orderly o.kind _ b

/-- What the Head Arbiter owns changes. -/
theorem arb_orderly (b : Bridge) (a : Arbiter) : Orderly b { b with arb := a } := .of_eq rfl

theorem completionTaken_orderly (b : Bridge) (o : Order) (result : CompletionResult) :
    Orderly b (completionTaken b o result) := by
  unfold completionTaken
  dsimp only
  refine (arb_orderly b { b.arb with order := none, timeouts := 0 }).trans ?_
  split
  · exact runEnded_orderly ..
  · exact lifeEnded_orderly ..

theorem takeFault_orderly (b : Bridge) : Orderly b (takeFault b) := by
  have h1 : Orderly b (abandonByFault b) := by
    unfold abandonByFault
    split
    · exact .refl b
    · exact abandonOrder_orderly ..
  unfold takeFault
  dsimp only
  refine h1.trans ?_
  generalize abandonByFault b = c
  split
  · exact .refl c
  · exact .refl c
  · exact .refl c
  · exact enterHalted_orderly c
  · exact enterHalted_orderly c
  · exact enterHalted_orderly c
  · exact enterHalted_orderly c
  · exact enterHalted_orderly c
  · exact (arb_orderly c _).trans (answerAll_orderly _ _ _)

theorem timeOutOrder_orderly (b : Bridge) (o : Order) : Orderly b (timeOutOrder b o) := by
  unfold timeOutOrder
  dsimp only
  exact ((abandonOrder_orderly b o).trans (arb_orderly _ _)).trans (record_orderly _ _)

theorem timeoutFollows_orderly (b : Bridge) (o : Order) : Orderly b (timeoutFollows b o) := by
  have back : Orderly b (lifeReturned b o.kind) := by
    unfold lifeReturned
    split
    · exact arb_orderly ..
    · exact arb_orderly ..
    all_goals exact .refl b
  unfold timeoutFollows
  split
  · exact .refl b
  · exact .refl b
  · exact .refl b
  · split
    · exact .refl b
    · exact enterUnusable_orderly b _
  · split
    · exact enterHalted_orderly b
    · split
      · exact .refl b
      · split
        · exact .refl b
        · unfold mountTimedOut
          split
          · exact withCart_orderly ..
          · exact enterUnusable_orderly ..
  · split
    · exact enterHalted_orderly b
    · exact back
  · split
    · exact enterHalted_orderly b
    · exact back
  · exact enterHalted_orderly b
  · exact answerAll_orderly ..

theorem presenceLeaves_orderly (b : Bridge) : Orderly b (presenceLeaves b) := by
  unfold presenceLeaves
  split
  · exact .refl b
  · exact becomeEmpty_orderly b
  · exact (arb_orderly b _).trans (ejectComplete_orderly _)
  all_goals exact removeCartridge_orderly b

theorem quiesceExpires_orderly (b : Bridge) (q : Quiesce) : Orderly b (quiesceExpires b q) := by
  unfold quiesceExpires
  split
  · exact withCart_orderly ..
  · exact ((leaveQuiesce_orderly b).trans (answerAll_orderly _ _ _)).trans (raiseEvent_orderly _ _)

/-! ### The links (Lines.lean) -/

theorem endTransmission_orderly (b : Bridge) : Orderly b (endTransmission b) := by
  have release : ∀ (c : Bridge) (k : Key), Orderly c (releaseEntry c k) := fun c k => by
    unfold releaseEntry
    split
    · exact putEntry_orderly ..
    · exact .refl c
  unfold endTransmission
  split
  · exact .refl b
  · refine .trans (b := { b with link := { b.link with tx := none } }) (.of_eq rfl) ?_
    unfold reportSent
    split
    · exact release _ _
    · exact release _ _
    · exact .refl _
    · exact .of_eq (attnTest_pool _)

theorem endForward_orderly (b : Bridge) : Orderly b (endForward b) := by
  unfold endForward
  split
  · exact .refl b
  · refine .trans (b := { b with thru := { b.thru with tx := none } }) (.of_eq rfl) ?_
    unfold markSent
    split
    · exact .refl _
    · split
      · exact putEntry_orderly ..
      · exact .refl _

theorem takeDownstream_orderly (b : Bridge) (frame : List Byte) : Orderly b (takeDownstream b frame) := by
  unfold takeDownstream
  split
  · exact .of_eq rfl
  · exact .refl b
  · split
    · exact answerFrame_orderly ..
    · exact .of_eq rfl

end Sys2Proof.Machine
end

