-- ==== Sys2Proof/Laws/Readers.lean ====
section
/-! SUPPORT. What the answers of other entries leave to a READ that shares their buffers: the quarters that are valid and not
lost stay so, with their data (R44), for an answer only takes entries, loads without need and pins away (R40, R70, R100). So do the
flush jobs, in HALTED as well (R154). -/

namespace Sys2Proof.Machine

/-- The record has no load that could be withdrawn, or its sets are as a LOADING buffer's must be (R60). -/
def Fine (x : Buffer) : Prop := x.load = none ∨ (x.state = .loading → x.valid = x.dirty ∧ x.lost = 0)

/-- The same quarters are valid and not lost, and they hold the same data. -/
def SameGood (x y : Buffer) : Prop :=
  ∀ q, (hasQuarter y.valid q && !hasQuarter y.lost q) = (hasQuarter x.valid q && !hasQuarter x.lost q)
    ∧ ((hasQuarter x.valid q && !hasQuarter x.lost q) = true → y.data[q] = x.data[q])

theorem SameGood.refl (x : Buffer) : SameGood x x := fun _ => ⟨rfl, fun _ => rfl⟩

theorem SameGood.trans {x y z : Buffer} (h : SameGood x y) (h' : SameGood y z) : SameGood x z := fun q =>
  ⟨(h' q).1.trans (h q).1, fun g => ((h' q).2 ((h q).1.trans g)).trans ((h q).2 g)⟩

/-- What an answer leaves to the READs that go on waiting. -/
structure Serves (b t : Bridge) : Prop where
  keeps : (∀ j, Fine (b.buf j)) → (∀ j, Fine (t.buf j)) ∧ ∀ j, SameGood (b.buf j) (t.buf j)

theorem Serves.refl (b : Bridge) : Serves b b := ⟨fun h => ⟨h, fun _ => .refl _⟩⟩

theorem Serves.trans {a b c : Bridge} (h : Serves a b) (h' : Serves b c) : Serves a c :=
  ⟨fun f => ⟨(h'.keeps (h.keeps f).1).1, fun j => ((h.keeps f).2 j).trans ((h'.keeps (h.keeps f).1).2 j)⟩⟩

theorem Serves.foldl {α : Type} {f : Bridge → α → Bridge} (h : ∀ b x, Serves b (f b x)) (l : List α) (b : Bridge) :
    Serves b (l.foldl f b) := foldl_rel .refl .trans h l b

theorem Serves.forBufs {f : Bridge → BufIdx → Bridge} (h : ∀ b i, Serves b (f b i)) (b : Bridge) :
    Serves b (b.forBufs f) := .foldl h allBufs b

theorem Serves.of_buffers {b t : Bridge} (h : t.pool.buffers = b.pool.buffers) : Serves b t :=
  ⟨fun f => ⟨fun j => by rw [buf_congr h]; exact f j, fun j => by rw [buf_congr h]; exact .refl _⟩⟩

theorem putBuf_serves {b : Bridge} {i : BufIdx} {y : Buffer} (h : Fine (b.buf i) → Fine y ∧ SameGood (b.buf i) y) :
    Serves b (b.putBuf i y) := by
  refine ⟨fun f => ⟨fun j => ?_, fun j => ?_⟩⟩
  · rw [buf_putBuf]
    split
    · exact (h (f i)).1
    · exact f j
  · rw [buf_putBuf]
    split
    · rename_i e; subst e; exact (h (f _)).2
    · exact .refl _

theorem joinEvict_serves (b : Bridge) (i : BufIdx) : Serves b (joinEvict b i) := by
  unfold joinEvict
  split
  · exact .of_buffers rfl
  · exact .refl _

theorem leaveEvict_serves (b : Bridge) (i : BufIdx) : Serves b (leaveEvict b i) := .of_buffers rfl

theorem testLater_serves (b : Bridge) (i : BufIdx) : Serves b (testLater b i) := .of_buffers rfl

theorem closedBase_serves (b : Bridge) (k : Key) (e : Entry) (f : OutFrame) (st : Status) (done : Nat) :
    Serves b (closedBase b k e f st done) := .of_buffers rfl

theorem unlink_serves (i : BufIdx) (b : Bridge) (j : BufIdx) : Serves b (unlink i b j) := by
  unfold unlink
  split
  · exact putBuf_serves fun f => ⟨f, .refl _⟩
  · exact .refl _

/-- Taking the successor links away leaves the rest of a record. -/
theorem foldl_unlink_record (i : BufIdx) (l : List BufIdx) (b : Bridge) :
    ((l.foldl (unlink i) b).buf i).state = (b.buf i).state ∧ ((l.foldl (unlink i) b).buf i).dirty = (b.buf i).dirty
      ∧ ((l.foldl (unlink i) b).buf i).load = (b.buf i).load := by
  induction l generalizing b with
  | nil => exact ⟨rfl, rfl, rfl⟩
  | cons a l ih =>
    have h : ((unlink i b a).buf i).state = (b.buf i).state ∧ ((unlink i b a).buf i).dirty = (b.buf i).dirty
        ∧ ((unlink i b a).buf i).load = (b.buf i).load := by
      unfold unlink
      split
      · rw [buf_putBuf]
        split
        · rename_i e; subst e; exact ⟨rfl, rfl, rfl⟩
        · exact ⟨rfl, rfl, rfl⟩
      · exact ⟨rfl, rfl, rfl⟩
    obtain ⟨h1, h2, h3⟩ := ih (unlink i b a)
    exact ⟨h1.trans h.1, h2.trans h.2.1, h3.trans h.2.2⟩

/-- A LOADING buffer without dirty quarters holds nothing that a READ could be given. -/
theorem freeBuf_serves {b : Bridge} {i : BufIdx} (h : (b.buf i).state = .loading) (hd : (b.buf i).dirty = 0)
    (hl : (b.buf i).load ≠ none) : Serves b (freeBuf b i) := by
  obtain ⟨h1, h2, h3⟩ := foldl_unlink_record i allBufs b
  unfold freeBuf
  refine ((Serves.forBufs (unlink_serves i) b).trans (putBuf_serves fun f => ⟨.inr (by simp [Buffer.free]), ?_⟩)).trans
    (leaveEvict_serves _ _)
  unfold Bridge.forBufs at f ⊢
  obtain ⟨hv, hz⟩ := f.resolve_left (by rw [h3]; exact hl) (h1.trans h)
  intro q
  rw [hv, hz, h2, hd]
  simp [Buffer.free, hasQuarter]

theorem sweepLoads_serves (b : Bridge) : Serves b (sweepLoads b) := by
  refine .forBufs (fun b i => ?_) b
  unfold withdrawUnneeded
  split
  · exact .refl _
  · rename_i l hl
    split
    · unfold withdrawLoad
      dsimp only
      split
      · rename_i hs
        split
        · rename_i hd
          exact freeBuf_serves hs hd (by simp [hl])
        · exact (putBuf_serves (i := i) (y := { b.buf i with state := .opened, load := none })
            fun _ => ⟨.inl rfl, .refl _⟩).trans (testLater_serves _ _)
      · exact putBuf_serves fun _ => ⟨.inl rfl, .refl _⟩
    · exact .refl _

theorem dropReader_serves (b : Bridge) (k : Key) : Serves b (dropReader b k) := by
  refine (Serves.forBufs (fun b i => ?_) b).trans (sweepLoads_serves _)
  unfold dropReaderAt
  split
  · exact .refl _
  · rename_i l hl
    exact putBuf_serves fun f => ⟨.inr (f.resolve_left (by simp [hl])), .refl _⟩

theorem letGo_serves (b : Bridge) (k : Key) (e : Entry) : Serves b (letGo b k e) := by
  unfold letGo
  split
  · exact (Serves.foldl joinEvict_serves _ b).trans (dropReader_serves _ k)
  · exact .foldl joinEvict_serves _ b

theorem answer_serves (b : Bridge) (k : Key) (st : Status) (done : Nat) (p : Payload) :
    Serves b (answer b k st done p) := by
  unfold answer
  split
  · exact .refl _
  · rename_i e he
    by_cases hs : e.state = .answered
    · rw [answerFrame_not _ _ _ (fun e' h' => by rw [he] at h'; cases h'; exact hs)]
      exact .refl _
    · rw [answerFrame_given _ _ _ he hs]
      exact (closedBase_serves ..).trans (letGo_serves _ _ _)

theorem answerMediaError_serves (b : Bridge) (k : Key) : Serves b (answerMediaError b k) := by
  unfold answerMediaError
  split
  · exact .refl _
  · exact answer_serves ..

theorem answerMediaError_closes (b : Bridge) (k : Key) : Closes b (answerMediaError b k) := by
  unfold answerMediaError
  split
  · exact .refl _
  · exact answer_closes ..

/-- The leading good blocks of a READ (R44). -/
def leadingGood (b : Bridge) (e : Entry) : List Block :=
  ((blockPlaces e).takeWhile (placeGood b)).map (placeData b)

/-- A READ would be given the same leading good blocks after the answers of others. -/
theorem Serves.leadingGood {b t : Bridge} (h : Serves b t) (f : ∀ j, Fine (b.buf j)) (e : Entry) :
    leadingGood t e = leadingGood b e := by
  have hs := (h.keeps f).2
  unfold Machine.leadingGood
  induction blockPlaces e with
  | nil => rfl
  | cons p l ih =>
    obtain ⟨_ | j, q⟩ := p
    · simp [placeGood]
    · have h1 : placeGood t (some j, q) = placeGood b (some j, q) := (hs j q).1
      cases hg : placeGood b (some j, q)
      · rw [List.takeWhile_cons_of_neg (by simp [h1, hg]), List.takeWhile_cons_of_neg (by simp [hg])]
        rfl
      · rw [List.takeWhile_cons_of_pos (by rw [h1, hg]), List.takeWhile_cons_of_pos hg, List.map_cons, List.map_cons, ih]
        exact congrArg (· :: _) ((hs j q).2 hg)

/-! ### Jobs (R105) -/

/-- What an answer leaves to the flush jobs: a buffer keeps its job and its state, for the answers withdraw and free LOADING
buffers only. -/
structure JobsKept (b t : Bridge) : Prop where
  kept : ∀ i, (b.buf i).state ≠ .loading → (t.buf i).flush = (b.buf i).flush ∧ (t.buf i).state = (b.buf i).state

theorem JobsKept.refl (b : Bridge) : JobsKept b b := ⟨fun _ _ => ⟨rfl, rfl⟩⟩

theorem JobsKept.trans {a b c : Bridge} (h : JobsKept a b) (h' : JobsKept b c) : JobsKept a c :=
  ⟨fun i hs => by
    obtain ⟨h1, h2⟩ := h.kept i hs
    obtain ⟨h3, h4⟩ := h'.kept i (h2 ▸ hs)
    exact ⟨h3.trans h1, h4.trans h2⟩⟩

theorem JobsKept.foldl {α : Type} {f : Bridge → α → Bridge} (h : ∀ b x, JobsKept b (f b x)) (l : List α) (b : Bridge) :
    JobsKept b (l.foldl f b) := foldl_rel .refl .trans h l b

theorem JobsKept.forBufs {f : Bridge → BufIdx → Bridge} (h : ∀ b i, JobsKept b (f b i)) (b : Bridge) :
    JobsKept b (b.forBufs f) := .foldl h allBufs b

theorem JobsKept.forKeys {f : Bridge → Key → Bridge} (h : ∀ b k, JobsKept b (f b k)) (b : Bridge) :
    JobsKept b (b.forKeys f) := .foldl h allKeys b

theorem JobsKept.of_buffers {b t : Bridge} (h : t.pool.buffers = b.pool.buffers) : JobsKept b t := by
  refine ⟨fun i _ => ?_⟩
  rw [buf_congr h]
  exact ⟨rfl, rfl⟩

theorem putBuf_jobsKept {b : Bridge} {i : BufIdx} {x : Buffer}
    (h : (b.buf i).state ≠ .loading → x.flush = (b.buf i).flush ∧ x.state = (b.buf i).state) : JobsKept b (b.putBuf i x) := by
  refine ⟨fun j hs => ?_⟩
  rw [buf_putBuf]
  split
  · rename_i e
    subst e
    exact h hs
  · exact ⟨rfl, rfl⟩

theorem joinEvict_jobsKept (b : Bridge) (i : BufIdx) : JobsKept b (joinEvict b i) := by
  unfold joinEvict
  split
  · exact .of_buffers rfl
  · exact .refl b

theorem unlink_jobsKept (i : BufIdx) (b : Bridge) (j : BufIdx) : JobsKept b (unlink i b j) := by
  unfold unlink
  split
  · exact putBuf_jobsKept fun _ => ⟨rfl, rfl⟩
  · exact .refl b

theorem leaveEvict_jobsKept (b : Bridge) (i : BufIdx) : JobsKept b (leaveEvict b i) := .of_buffers rfl

theorem testLater_jobsKept (b : Bridge) (i : BufIdx) : JobsKept b (testLater b i) := .of_buffers rfl

theorem freeBuf_jobsKept {b : Bridge} {i : BufIdx} (h : (b.buf i).state = .loading) : JobsKept b (freeBuf b i) := by
  have hs : ((b.forBufs (unlink i)).buf i).state = .loading := (foldl_unlink_record i allBufs b).1.trans h
  unfold freeBuf
  exact (JobsKept.forBufs (unlink_jobsKept i) b).trans
    ((putBuf_jobsKept (b := b.forBufs (unlink i)) fun hn => absurd hs hn).trans (leaveEvict_jobsKept _ i))

theorem sweepLoads_jobsKept (b : Bridge) : JobsKept b (sweepLoads b) := by
  refine .forBufs (fun b i => ?_) b
  unfold withdrawUnneeded
  split
  · exact .refl b
  · split
    · unfold withdrawLoad
      dsimp only
      split
      · rename_i hs
        split
        · exact freeBuf_jobsKept hs
        · exact (putBuf_jobsKept (x := { b.buf i with state := .opened, load := none }) fun hn => absurd hs hn).trans
            (testLater_jobsKept _ i)
      · exact putBuf_jobsKept fun _ => ⟨rfl, rfl⟩
    · exact .refl b

theorem letGo_jobsKept (b : Bridge) (k : Key) (e : Entry) : JobsKept b (letGo b k e) := by
  unfold letGo
  split
  · refine (JobsKept.foldl joinEvict_jobsKept _ b).trans (.trans (.forBufs (fun b i => ?_) _) (sweepLoads_jobsKept _))
    unfold dropReaderAt
    split
    · exact .refl b
    · exact putBuf_jobsKept fun _ => ⟨rfl, rfl⟩
  · exact .foldl joinEvict_jobsKept _ b

theorem closedBase_jobsKept (b : Bridge) (k : Key) (e : Entry) (f : OutFrame) (st : Status) (done : Nat) :
    JobsKept b (closedBase b k e f st done) := .of_buffers rfl

theorem answer_jobsKept (b : Bridge) (k : Key) (st : Status) (done : Nat) (p : Payload) :
    JobsKept b (answer b k st done p) := by
  unfold answer
  split
  · exact .refl b
  · rename_i e he
    by_cases hs : e.state = .answered
    · rw [answerFrame_not _ _ _ (fun e' h' => by rw [he] at h'; cases h'; exact hs)]
      exact .refl b
    · rw [answerFrame_given _ _ _ he hs]
      exact (closedBase_jobsKept ..).trans (letGo_jobsKept _ _ _)

theorem answerAll_jobsKept (b : Bridge) (p : Entry → Bool) (st : Status) : JobsKept b (answerAll b p st) := by
  refine .forKeys (fun b k => ?_) b
  split
  · exact answer_jobsKept ..
  · exact .refl b

/-! ### HALTED (R154) -/

theorem awaitsMechanism_iff (e : Entry) : awaitsMechanism e ↔ (isActive e || isEjectWait e) = true := by
  simp [awaitsMechanism, isActive, isEjectWait, or_assoc]

theorem awaitsMechanism_state {e : Entry} (h : awaitsMechanism e) : e.state ≠ .answered := by
  rcases h with h | h | h | ⟨-, h⟩ <;> simp [h]

/-- What entering HALTED does. -/
theorem enterHalted_halted (b : Bridge) : ∃ c, Halted b c ∧ enterHalted b = raiseEvent c .mechHalted := by
  refine ⟨_, ?_, rfl⟩
  have hc := answerAll_closes (withCart b fun c => { c with state := .halted }) (fun e => isActive e || isEjectWait e) .mechFault
  have hj := answerAll_jobsKept (withCart b fun c => { c with state := .halted }) (fun e => isActive e || isEjectWait e) .mechFault
  have hw : ∀ k e, b.entry k = some e →
      (awaitsMechanism e → IsAnswered (answerAll (withCart b fun c => { c with state := .halted })
        (fun e => isActive e || isEjectWait e) .mechFault) k .mechFault 0 .none)
      ∧ (¬ awaitsMechanism e → (answerAll (withCart b fun c => { c with state := .halted })
        (fun e => isActive e || isEjectWait e) .mechFault).entry k = some e) := by
    intro k e he
    refine ⟨fun h => answerAll_isAnswered .mechFault he ((awaitsMechanism_iff e).1 h) (awaitsMechanism_state h), fun h => ?_⟩
    refine (answerAll_entry .mechFault fun e' h' hp => ?_).trans he
    obtain rfl : e = e' := Option.some.inj (he.symm.trans h')
    exact absurd ((awaitsMechanism_iff e).2 hp) h
  generalize answerAll _ _ _ = d at hc hj hw
  refine ⟨?_, ?_, hc.dm, hc.mgmt, hw, fun ok i f hf => ((hj.kept i ?_).1).trans hf⟩
  · dsimp only
    rw [hc.cart]
    rfl
  · dsimp only
    rw [hc.arb]
    rfl
  · rcases ok.2.1 i (by simp [hf]) with h | h <;> intro h' <;> exact absurd (h.symm.trans h') (by simp)

end Sys2Proof.Machine
end

