-- ==== Sys2Proof/Tests/Slice0.lean ====
section
/-! SUPPORT. Tests of the model on small states: an ill-formed command for each check of `wellFormed`, the worked examples of
the manual's chapters, one step of each command, and for each statement a state and operands that meet its hypotheses. -/

namespace Sys2Proof.Tests

open Sys2Proof.Machine

set_option maxRecDepth 20000
set_option Elab.async false

/-! ### Small states -/

/-- A request header. -/
def hd (o t u blk cnt : Nat) : Header := ⟨Fin.ofNat 4 o, Fin.ofNat 16 t, Fin.ofNat 16 u, BitVec.ofNat 24 blk, BitVec.ofNat 8 cnt⟩

/-- A management request header: unit 15, count 0. -/
def mh (o t : Nat) : Header := hd o t 15 0 0

/-- A cartridge of two zones with 49 user sectors: user PSAs 5 to 36 and 53 to 69, spare PSAs 37 to 52 and 70 to 86. -/
def label2 : Label :=
  { formatMark := 0x4E5A3431#32, sectorSize := 2048, serial := 7, name := [0x41], controlCount := 5,
    zones := [⟨5, 16, 2, 1⟩, ⟨53, 17, 1, 1⟩] }

/-- A defect map: LSN 0 is on the spare 37, LSN 2 is lost, spare 38 is retired. -/
def map3 : List MapEntry := [⟨5, some 37, .factory⟩, ⟨7, none, .lost⟩, ⟨38, none, .retired⟩]

/-- Unit 1, blocks 0 to 300, from cartridge block 0 on, POSTED. -/
def window0 : Window :=
  { Window.powerOn with enabled := true, unit := 1, last := 300, readAllowed := true, writeAllowed := true }

/-- Unit 2, blocks 0 to 99 less the gap 10 to 13, from cartridge block 0 on, CONFIRMED. -/
def window1 : Window :=
  { window0 with unit := 2, last := 99, gap := some ⟨10, 4⟩, writeMode := .confirmed }

/-- READs of originator 2 on blocks 8 to 20 are STREAM, deadline 50. -/
def class0 : ClassEntry := { enabled := true, origs := 4, units := 0x7FFF, range := some ⟨8, 20⟩, deadline := 50 }

/-- The cartridge is READY and spinning, two windows and a class are set, and the downstream link is UP. -/
def ready : Bridge :=
  { Bridge.powerOn with
    thru := { Bridge.powerOn.thru with line := .up }
    cart := { CartRecord.powerOn with
      state := .ready, writeState := some .writable, spindle := .spinning, layout := some label2 }
    dm := { map := some (acceptedMap map3 9), staging := unusedStaging }
    router := { windows := (Bridge.powerOn.router.windows.set 0 window0).set 1 window1
                classes := Bridge.powerOn.router.classes.set 0 class0 } }

/-- The cartridge record in another state. -/
def inState (st : CartState) : Bridge := { ready with cart := { ready.cart with state := st } }

/-- The edit lock is held by an originator. -/
def heldBy (o : Originator) (waiting : List Originator) : Bridge :=
  { ready with mgmt := { ready.mgmt with holder := some o, waiting } }

/-- An entry in a state. -/
def entryIn (st : EntryState) (op : Op) : Entry :=
  { freshEntry (hd 0 0 1 12 4) op 0 with
    state := st, routing := some (.window 0 12), sectors := [3], cls := some .normal }

/-- A bridge with one entry more. -/
def plus (b : Bridge) (k : Key) (e : Entry) : Bridge := b.putEntry k (some e)

/-- Four quarters that hold the same block. -/
def quad (n : Nat) : Quad := Vector.replicate 4 (BitVec.ofNat 4096 n)

/-- A buffer in a state for an LSN, every quarter valid, with a dirty set. -/
def bufIn (st : BufState) (lsn : Nat) (dirty : QSet) : Buffer :=
  { Buffer.free with state := st, lsn := some lsn, data := quad 1, valid := 15, dirty, lastWrite := some 0 }

/-- A buffer whose load is in flight, with a reader. -/
def loadingBuf (lsn retries : Nat) (readers : List Key) : Buffer :=
  { Buffer.free with
    state := .loading, lsn := some lsn,
    load := some { readers, fillNeed := false, stage := .inFlight, retries, stamp := 0, orderedAt := some (lsn + 5) } }

/-- A flush context in a phase, in flight on a PSA. -/
def flushIn (p : Phase) (psa : Nat) : Flush :=
  { phase := p, stage := some .inFlight, target := some psa, erased := true, attempts := 0, request := none,
    causes := { Causes.none with aged := true }, stamp := 0 }

/-- An order in flight. -/
def orderOf (kind : OrderKind) (pieces : List Piece) : Order :=
  { number := 5, kind, pieces, data := [], issued := 0, expiry := 3000 }

/-- A bridge with an order in flight. -/
def flying (b : Bridge) (kind : OrderKind) (pieces : List Piece) : Bridge :=
  { b with arb := { b.arb with order := some (orderOf kind pieces) } }

/-- The clock at a value. -/
def atClock (b : Bridge) (t : Clock) : Bridge := { b with clock := t }

/-- The state with no command waiting. -/
def idle (b : Bridge) : State := { bridge := b, pending := [] }

/-- The bridge after one command. -/
def after (c : Instr) (b : Bridge) : Bridge :=
  match exec c (idle b) with
  | .next t => t.bridge
  | .fault _ => b
  | .refused _ => b

/-- The frame in transmission after one command on an idle link. -/
def sent (c : Instr) (b : Bridge) : Option OutFrame := (after c b).link.tx

/-- The kind and the pieces of the order in flight after one command. -/
def ordered (c : Instr) (b : Bridge) : Option (OrderKind × List Piece) :=
  (after c b).arb.order.map fun o => (o.kind, o.pieces)

/-- The key of originator 0, tag 0. -/
def k0 : Key := ⟨0, 0⟩

/-- The key of originator 1, tag 3. -/
def k1 : Key := ⟨1, 3⟩

/-! ### The check of a command -/

theorem test_wellFormed_accepts :
    [Instr.write (hd 0 0 1 8 1) [7#4096], .write (hd 0 0 1 8 0) [], .unknownOperation (hd 0 0 0 0 0) 0x3F,
      .badCheckFrame [1, 2], .malformedFrame (withCheck [4]), .setSettings (mh 0 0) [numItem 0x30 2 600],
      .completion 0 .erase (.run [.good none]), .completion 0 .read (.run [.good (some (.user (quad 0)))]),
      .completion 0 .eject (.life false)].all wellFormed = true := by decide +kernel

theorem test_wellFormed_refuses_write_payload :
    wellFormed (.write (hd 0 0 1 8 2) [7#4096]) = false ∧ wellFormed (.write (hd 0 0 1 8 33) [7#4096]) = false := by
  decide +kernel

theorem test_wellFormed_refuses_known_code : wellFormed (.unknownOperation (hd 0 0 0 0 0) 0x53) = false := by
  decide +kernel

theorem test_wellFormed_refuses_good_check : wellFormed (.badCheckFrame (withCheck [1])) = false := by decide +kernel

theorem test_wellFormed_refuses_well_formed_frame :
    wellFormed (.malformedFrame (requestBytes (hd 0 0 1 8 1) .read [])) = false := by decide +kernel

theorem test_wellFormed_refuses_long_value :
    wellFormed (.identify (mh 0 0) [⟨0, List.replicate 256 0⟩]) = false := by decide +kernel

theorem test_wellFormed_refuses_long_list :
    wellFormed (.identify (mh 0 0) (List.replicate 65 ⟨0, List.replicate 251 0⟩)) = false := by decide +kernel

theorem test_wellFormed_refuses_result :
    wellFormed (.completion 0 .read (.life true)) = false ∧ wellFormed (.completion 0 .eject (.run [.noId])) = false
    ∧ wellFormed (.completion 0 .erase (.run [])) = false
    ∧ wellFormed (.completion 0 .erase (.run (List.replicate 17 .noId))) = false
    ∧ wellFormed (.completion 0 .erase (.run [.good (some (.user (quad 0)))])) = false
    ∧ wellFormed (.completion 0 .verify (.run [.good none])) = false := by decide +kernel

/-! ### Frames and codes -/

theorem test_crc16_check_value : crc16 [0x31, 0x32, 0x33, 0x34, 0x35, 0x36, 0x37, 0x38, 0x39] = 0x29B1#16 := by
  decide +kernel

theorem test_frame_spells_its_command :
    upstreamCommand (requestBytes (hd 2 7 3 0x123456 5) .read []) = .read (hd 2 7 3 0x123456 5)
    ∧ upstreamCommand (requestBytes (mh 1 2) .eject [0x02, 0x01, 0x01]) = .eject (mh 1 2) [⟨2, [1]⟩]
    ∧ upstreamCommand (requestBytes (mh 1 2) (.other 0x3F) []) = .unknownOperation (mh 1 2) 0x3F := by decide +kernel

theorem test_codes_read_back :
    knownOps.all (fun o => opOfCode o.code == o) = true
    ∧ knownStatuses.all (fun s => statusOfCode s.code == s) = true := by decide +kernel

theorem test_no_row_has_bits : decodeTableWord 8 0 = none := rfl

/-! ### Layout and routing -/

theorem test_label2_is_accepted : labelOk label2 = true ∧ zonesOk label2 = true ∧ userCount label2 = 49 := by
  decide +kernel

theorem test_home_psa : homePsa label2 0 = some 5 ∧ homePsa label2 31 = some 36 ∧ homePsa label2 32 = some 53
    ∧ homePsa label2 48 = some 69 ∧ homePsa label2 49 = none ∧ homeLsn label2 53 = some 32 ∧ homeLsn label2 37 = none := by
  decide +kernel

theorem test_map3_is_lawful : mapLaws map3 = true ∧ map3.all (entryClassesOk label2) = true
    ∧ judgeMap label2 ((snapshotSectors map3 9).toList.map asMapSector) = some map3 := by decide +kernel

theorem test_spare_zone_order : spareZoneOrder 5 2 = [2, 1, 3, 0, 4] ∧ spareZoneOrder 5 0 = [0, 1, 2, 3, 4] := by
  decide +kernel

theorem test_cartridge_block_around_a_gap : cbOf window1 9 = 9 ∧ cbOf window1 14 = 10 ∧ claims window1 2 10 = false
    ∧ claims window1 2 13 = false ∧ claims window1 2 14 = true := by decide +kernel

theorem test_sector_list : sectorList 7 2 = [1, 2] ∧ sectorList 5 32 = [1, 2, 3, 4, 5, 6, 7, 8, 9]
    ∧ neededQuarters 7 2 1 = 0b1000#4 ∧ neededQuarters 7 2 2 = 0b0001#4 := by decide +kernel

/-! ### One step of each command -/

theorem test_powerOnReset_with_a_protected_cartridge :
    (after (.powerOnReset (some true) .up) ready).cart.state = .settling
    ∧ (after (.powerOnReset (some true) .up) ready).cart.writeState = some .isProtected
    ∧ (after (.powerOnReset (some true) .up) ready).cart.settleExpiry = some 1000
    ∧ (after (.powerOnReset (some true) .up) ready).thru.powerHold = some 20 := by decide +kernel

theorem test_linkReset_frees_the_keys :
    (after .linkReset (plus ready k0 (entryIn .awaitLock .lockRequest))).entry k0 = none
    ∧ (after .linkReset ready).link.resetHeld = true := by decide +kernel

theorem test_linkResetEnd_receives_again :
    (after .linkResetEnd { ready with link := { ready.link with resetHeld := true } }).link.resetHeld = false := by
  decide +kernel

theorem test_badCheckFrame_saturates :
    (after (.badCheckFrame [1]) { ready with link := { ready.link with badCheck := 65535 } }).link.badCheck = 65535
    ∧ (after (.badCheckFrame [1]) ready).link.badCheck = 1 := by decide +kernel

theorem test_malformedFrame_counts : (after (.malformedFrame [1]) ready).link.malformed = 1 := by decide +kernel

theorem test_unknownOperation_is_bad_request :
    sent (.unknownOperation (hd 0 0 1 0 0) 0x3F) ready = some (.reply k0 1 .badRequest 0 .none) := by decide +kernel

theorem test_read_of_a_remapped_sector_orders_its_spare :
    ordered (.read (hd 0 0 1 0 4)) ready = some (.read, [.load 0 0 37]) := by decide +kernel

theorem test_read_of_a_lost_sector_is_media_error :
    sent (.read (hd 0 0 1 8 4)) ready = some (.reply k0 1 .mediaError 0 (.blocks [])) := by decide +kernel

theorem test_write_posted_is_answered_at_once :
    sent (.write (hd 0 0 1 13 1) [7#4096]) ready = some (.reply k0 1 .ok 1 .none)
    ∧ (let x := (after (.write (hd 0 0 1 13 1) [7#4096]) ready).buf 0
       (x.state, x.lsn, x.dirty, x.data[1]) = (.opened, some 3, 0b0010#4, 7#4096)) := by decide +kernel

theorem test_write_confirmed_orders_its_fill :
    ordered (.write (hd 0 0 2 4 1) [7#4096]) ready = some (.read, [.load 0 1 6]) := by decide +kernel

theorem test_flush_starts_the_job_of_a_dirty_buffer :
    ordered (.flush (hd 0 0 1 0 0)) (ready.putBuf 4 (bufIn .opened 3 15)) = some (.erase, [.phase 4 3 8])
    ∧ sent (.flush (hd 0 0 1 0 0)) ready = some (.reply k0 1 .ok 0 .none) := by decide +kernel

theorem test_sense_reports :
    sent (.sense (hd 0 0 1 0 0)) ready
      = some (.reply k0 1 .ok 0 (.items [⟨0x60, [4]⟩, ⟨0x61, [0]⟩, ⟨0x62, [1]⟩, ⟨0x63, [0]⟩, ⟨0x64, [0]⟩])) := by
  decide +kernel

theorem test_abort_of_a_free_key_is_not_found :
    sent (.abort (hd 0 0 1 5 0)) ready = some (.reply k0 1 .notFound 0 .none) := by decide +kernel

theorem test_identify_reports_the_clock :
    (match sent (.identify (mh 0 0) []) (atClock ready 258) with
      | some (.reply _ _ .ok 0 (.items l)) => l.getLast?
      | _ => none) = some ⟨0xD8, [0, 0, 1, 2]⟩ := by decide +kernel

theorem test_readSettings_of_one_item :
    sent (.readSettings (mh 0 0) [⟨0x37, []⟩]) ready = some (.reply k0 15 .ok 0 (.items [⟨0x37, [3]⟩])) := by
  decide +kernel

theorem test_setSettings_needs_the_lock :
    sent (.setSettings (mh 0 0) [numItem 0x37 1 7]) ready = some (.reply k0 15 .lockRequired 0 .none)
    ∧ (after (.setSettings (mh 0 0) [numItem 0x37 1 7]) (heldBy 0 [])).mgmt.settings.retryLimit = 7 := by decide +kernel

theorem test_readWindow_reports_the_gap :
    (match sent (.readWindow (mh 0 0) [numItem 1 1 1]) ready with
      | some (.reply _ _ .ok 0 (.items l)) => l[5]?
      | _ => none) = some ⟨0x15, [0, 0, 10, 0, 0, 4]⟩ := by decide +kernel

theorem test_writeWindow_replaces_the_entry :
    (after (.writeWindow (mh 0 0) [numItem 1 1 15, numItem 0x11 1 14]) (heldBy 0 [])).router.windows[15].unit = 14
    ∧ sent (.writeWindow (mh 0 0) [numItem 1 1 1, pairItem 0x15 (some (0, 1))]) (heldBy 0 [])
        = some (.reply k0 15 .inconsistent 0 .none) := by decide +kernel

theorem test_readClass_out_of_range :
    sent (.readClass (mh 0 0) [numItem 1 1 8]) ready = some (.reply k0 15 .outOfRange 0 .none) := by decide +kernel

theorem test_writeClass_replaces_the_entry :
    (after (.writeClass (mh 0 0) [numItem 1 1 7, numItem 0x24 2 2000]) (heldBy 0 [])).router.classes[7].deadline = 2000 := by
  decide +kernel

theorem test_lockRequest_waits_behind_the_holder :
    (after (.lockRequest (mh 1 3) []) (heldBy 0 [])).mgmt.waiting = [1]
    ∧ (after (.lockRequest (mh 1 3) []) (heldBy 0 [])).link.tx = none := by decide +kernel

theorem test_lockRelease_passes_the_lock_on :
    (after (.lockRelease (mh 0 0) []) (plus (heldBy 0 [1]) k1 (entryIn .awaitLock .lockRequest))).mgmt.holder = some 1
    ∧ (after (.lockRelease (mh 0 0) []) (plus (heldBy 0 [1]) k1 (entryIn .awaitLock .lockRequest))).link.queue
        = [.reply k1 1 .ok 0 .none] := by decide +kernel

theorem test_lockCancel_without_waiting : sent (.lockCancel (mh 0 0) []) ready = some (.reply k0 15 .notPending 0 .none) := by
  decide +kernel

theorem test_lockStatus_reports :
    sent (.lockStatus (mh 0 0) []) (heldBy 3 [1, 2])
      = some (.reply k0 15 .ok 0 (.items [⟨0xE0, [3]⟩, ⟨0xE1, [1, 2]⟩])) := by decide +kernel

theorem test_readCartridge_names_the_serial :
    (match sent (.readCartridge (mh 0 0) []) ready with
      | some (.reply _ _ .ok 0 (.items l)) => l[3]?
      | _ => none) = some ⟨0x74, [0, 0, 0, 7]⟩ := by decide +kernel

theorem test_readZones_lists_the_zones :
    (match sent (.readZones (mh 0 0) []) ready with
      | some (.reply _ _ .ok 0 (.items l)) => l[2]?
      | _ => none) = some ⟨0x81, [1, 3, 0, 0, 53, 2, 1, 17, 3, 3, 0, 0, 1, 4, 1, 1, 5, 3, 0, 0, 32]⟩ := by decide +kernel

theorem test_readDefects_past_the_map :
    sent (.readDefects (mh 0 0) [numItem 0x90 2 1024]) ready = some (.reply k0 15 .outOfRange 0 .none) := by decide +kernel

theorem test_readExceptions_empties_the_list :
    (let r : ExceptionRecord := { kind := .mechTimeout, time := 1 }
     let b := after (.readExceptions (mh 0 0) [])
      { ready with mgmt := { ready.mgmt with exceptions := List.replicate 9 r, overflow := 4 } }
     (b.mgmt.exceptions, b.mgmt.overflow) = ([r], 0)) := by decide +kernel

theorem test_readPool_reports_every_buffer :
    (match sent (.readPool (mh 0 0) []) ready with
      | some (.reply _ _ .ok 0 (.items l)) => l.length
      | _ => 0) = 40 := by decide +kernel

theorem test_readLinkCounts_reports :
    sent (.readLinkCounts (mh 0 0) []) { ready with thru := { ready.thru with stray := 258 } }
      = some (.reply k0 15 .ok 0 (.items [⟨0xC0, [0, 0]⟩, ⟨0xC1, [0, 0]⟩, ⟨0xC2, [0, 0]⟩, ⟨0xC3, [1, 2]⟩, ⟨0xC4, [0]⟩])) := by
  decide +kernel

theorem test_eject_of_a_quiet_cartridge :
    (after (.eject (mh 0 0) []) ready).cart.state = .ejecting ∧ ordered (.eject (mh 0 0) []) ready = some (.eject, []) := by
  decide +kernel

theorem test_recover_asks_for_its_spin_up : ordered (.recover (mh 0 0) []) (inState .halted) = some (.spinUp, []) := by
  decide +kernel

theorem test_discardStranded_frees :
    sent (.discardStranded (mh 0 0) []) ((heldBy 0 []).putBuf 3 (bufIn .stranded 3 15))
      = some (.reply k0 15 .ok 0 (.items [⟨0xB0, [1]⟩]))
    ∧ (after (.discardStranded (mh 0 0) []) ((heldBy 0 []).putBuf 3 (bufIn .stranded 3 15))).buf 3 = Buffer.free := by
  decide +kernel

theorem test_transmissionEnd_releases_the_key :
    (after .transmissionEnd { plus ready k0 (entryIn .answered .read) with
      link := { ready.link with tx := some (.reply k0 1 .ok 0 .none) } }).entry k0 = none := by decide +kernel

theorem test_forwardTransmissionEnd_marks_sent :
    ((after .forwardTransmissionEnd { plus ready k0 (entryIn .forwarded .read) with
      thru := { ready.thru with tx := some ⟨hd 0 0 1 12 4, .read, [], 0⟩ } }).entry k0).map Entry.sent = some true := by
  decide +kernel

theorem test_downstreamFrame_is_relayed :
    sent (.downstreamFrame (replyBytes k0 1 .mediaError 3 [])) (plus ready k0 { entryIn .forwarded .read with sent := true })
      = some (.relayed k0 (replyBytes k0 1 .mediaError 3 [])) := by decide +kernel

theorem test_downstreamLinkDown_answers :
    sent .downstreamLinkDown (plus ready k0 (entryIn .forwarded .read)) = some (.reply k0 1 .passTimeout 0 .none) := by
  decide +kernel

theorem test_downstreamLinkUp_changes_the_line :
    (after .downstreamLinkUp { ready with thru := { ready.thru with line := .down } }).thru.line = .up := by decide +kernel

theorem test_deadlineExpiry_answers :
    sent (.deadlineExpiry k0) (plus (atClock ready 50) k0 { entryIn .reserving .read with deadline := some 50 })
      = some (.reply k0 1 .deadlineMissed 0 .none) := by decide +kernel

theorem test_passThroughTimeout_answers :
    sent (.passThroughTimeout k0) (plus (atClock ready 50) k0 { entryIn .forwarded .read with passExpiry := some 50 })
      = some (.reply k0 1 .passTimeout 0 .none) := by decide +kernel

theorem test_orderTimeout_counts :
    (after .orderTimeout (flying (atClock ready 3000) .spinDown [])).arb.timeouts = 1
    ∧ (after .orderTimeout (flying (atClock ready 2999) .spinDown [])).arb.timeouts = 0 := by decide +kernel

theorem test_agingExpiry_starts_a_job :
    ordered (.agingExpiry 4) ((atClock ready 200).putBuf 4 (bufIn .opened 3 15)) = some (.erase, [.phase 4 3 8]) := by
  decide +kernel

theorem test_mapWriteDelayExpiry_starts_the_write_back :
    ordered .mapWriteDelayExpiry (atClock { ready with dm :=
        { map := some { acceptedMap map3 9 with writeState := .dirty, lastChange := some 0 }, staging := unusedStaging } } 5000)
      = some (.erase, [.map 1, .map 2, .map 3, .map 4]) := by decide +kernel

theorem test_settleExpiry_spins_up :
    ordered .settleExpiry { inState .settling with cart := { ready.cart with state := .settling, settleExpiry := some 0 } }
      = some (.spinUp, []) := by decide +kernel

theorem test_quiesceExpiry_refuses :
    (after .quiesceExpiry { inState .quiescing with cart :=
      { ready.cart with state := .quiescing, quiesce := some ⟨.button, false, 0, false⟩ } }).cart.state = .ready := by
  decide +kernel

theorem test_spinDownTimerExpiry_orders :
    ordered .spinDownTimerExpiry (atClock { ready with
      mgmt := { ready.mgmt with settings := { ready.mgmt.settings with spinDownDelay := 10 } }
      cart := { ready.cart with spinTimer := some 0 } } 10000) = some (.spinDown, []) := by decide +kernel

theorem test_completion_of_a_load_answers_its_reader :
    (let e := { entryIn .fetching .read with pins := [0] }
     sent (.completion 5 .read (.run [.good (some (.user (quad 9)))]))
      (flying (plus (ready.putBuf 0 (loadingBuf 3 0 [k0])) k0 e) .read [.load 0 3 8]))
      = some (.reply k0 1 .ok 4 (.blocks [9#4096, 9#4096, 9#4096, 9#4096])) := by decide +kernel

theorem test_completion_of_an_erase_goes_on_to_write :
    ordered (.completion 5 .erase (.run [.good none]))
      (flying (ready.putBuf 0 { bufIn .opened 3 15 with flush := some (flushIn .erase 8) }) .erase [.phase 0 3 8])
      = some (.write, [.phase 0 3 8]) := by decide +kernel

theorem test_presenceOn_settles : (after (.presenceOn false) (inState .empty)).cart.settleExpiry = some 1000 := by
  decide +kernel

theorem test_presenceOff_empties : (after .presenceOff ready).cart = { CartRecord.powerOn with state := .empty } := by
  decide +kernel

theorem test_ejectButton_of_a_quiet_cartridge : (after .ejectButton ready).cart.state = .ejecting := by decide +kernel

theorem test_fault_halts : (after .fault ready).cart.state = .halted := by decide +kernel

theorem test_spareRequestTaken_grants_the_lowest_spare :
    ordered (.spareRequestTaken 0) (ready.putBuf 0 { bufIn .opened 3 15 with
      flush := some { flushIn .remap 8 with phase := .remap, stage := none, request := some (.replace 8) } })
      = some (.erase, [.phase 0 3 39]) := by decide +kernel

/-- A bridge that power-on holds its downstream link in reset of until 20 ms, at a moment. -/
def powerHeld (t : Clock) : Bridge := atClock { ready with thru := { ready.thru with powerHold := some 20 } } t

theorem test_downstreamResetRelease :
    (after .downstreamResetRelease (powerHeld 20)).thru.powerHold = none
    ∧ after .downstreamResetRelease (powerHeld 19) = powerHeld 19 := by decide +kernel

/-! ### Witnesses: for each statement with hypotheses, a state and operands that meet all of them, clause by clause -/

/-- A frame in transmission upstream. -/
def sending (b : Bridge) (f : OutFrame) : Bridge := { b with link := { b.link with tx := some f } }

/-- A frame in transmission downstream. -/
def forwarding (b : Bridge) (f : FwdFrame) : Bridge := { b with thru := { b.thru with tx := some f } }

/-- The upstream link reset condition is held. -/
def heldReset (b : Bridge) : Bridge := { b with link := { b.link with resetHeld := true } }

/-- The cartridge record with another field. -/
def cartOf (b : Bridge) (f : CartRecord → CartRecord) : Bridge := { b with cart := f b.cart }

/-- The settings with another field. -/
def setting (b : Bridge) (f : Settings → Settings) : Bridge := { b with mgmt := { b.mgmt with settings := f b.mgmt.settings } }

/-- The attention originator is 2, with every event selected. -/
def attending : Bridge := setting ready fun st => { st with attnOrig := some 2, attnEvents := 63 }

/-- The state of the buffers: the laws that a statement may ask for, on `ready` with one buffer more. -/
theorem pool_ready : PoolOk ready := by unfold PoolOk; decide +kernel

/-- Every buffer CLEAN for LSN 10 and up, and three of them in the eviction order. -/
def cleanPool : Bridge :=
  { ready with pool := { ready.pool with
      buffers := Vector.ofFn fun i : Fin 32 => bufIn .clean (i + 10) 0, evict := [3, 1, 2] } }

/-- Eight buffers STRANDED. -/
def strandedPool (n : Nat) : Bridge :=
  { ready with pool := { ready.pool with
      buffers := Vector.ofFn fun i : Fin 32 => if i.val < n then bufIn .stranded (i + 10) 15 else Buffer.free } }

/-- A job in a phase on its home PSA 8, in buffer 0, which is OPEN for LSN 3. -/
def jobIn (f : Flush) : Bridge := ready.putBuf 0 { bufIn .opened 3 15 with flush := some f }

/-- The held map in a write state, with the time of its last change. -/
def withMap (b : Bridge) (writeState : MapWriteState) (lastChange : Option Clock) : Bridge :=
  { b with dm := { b.dm with map := some { acceptedMap map3 9 with writeState, lastChange } } }

theorem witness_StepTakesTheFrontCommandOrPassesAMillisecond : State.reset.pending = [] := rfl

theorem witness_LinkResetEmptiesTheTableAndTheQueues :
    ((linkReset (flying (ready.putBuf 0 (loadingBuf 3 0 [k0])) .read [.load 0 3 8])).buf 0).load.isSome = true := by
  decide +kernel

theorem witness_LinkConditionsEndAndDiscardedFramesAreCounted :
    ready.link.resetHeld = false ∧ (heldReset ready).link.resetHeld = true
    ∧ (powerHeld 20).thru.powerHold = some 20 ∧ reached (powerHeld 20).clock 20 = true
    ∧ reached (powerHeld 19).clock 20 = false ∧ ready.thru.powerHold = none := by decide +kernel

theorem witness_TransmissionEndsReleaseAndMark :
    ready.link.tx = none ∧ (entryIn .answered .read).state = .answered
    ∧ (let b := sending (plus ready k0 (entryIn .answered .read)) (.reply k0 1 .ok 0 .none)
       b.link.tx = some (.reply k0 1 .ok 0 .none) ∧ b.entry k0 = some (entryIn .answered .read))
    ∧ (let b := sending (plus ready k0 (entryIn .answered .read)) (.relayed k0 [])
       b.link.tx = some (.relayed k0 []) ∧ b.entry k0 = some (entryIn .answered .read))
    ∧ (sending ready (.tagInUse k0 1)).link.tx = some (.tagInUse k0 1)
    ∧ (sending ready (.attention 0 1 0)).link.tx = some (.attention 0 1 0)
    ∧ ready.thru.tx = none
    ∧ (let f : FwdFrame := ⟨hd 0 0 1 12 4, .read, [], 0⟩
       (forwarding ready f).thru.tx = some f
       ∧ (forwarding (plus ready k0 (entryIn .forwarded .read)) f).entry f.header.key = some (entryIn .forwarded .read)
       ∧ (entryIn .forwarded .read).seq = f.seq ∧ (entryIn .forwarded .read).state = .forwarded
       ∧ (forwarding ready f).entry f.header.key = none) := by decide +kernel

/-- A forwarded frame that waits, and a reply that waits. -/
def queued (b : Bridge) : Bridge :=
  { b with link := { b.link with queue := [.tagInUse k0 1] }, thru := { b.thru with fifo := [⟨hd 0 0 1 12 4, .read, [], 0⟩] } }

theorem witness_TransmissionEndsReleaseAndMark_pump :
    (let b := queued ready
     b.link.tx = none ∧ b.link.queue = [.tagInUse k0 1] ∧ b.link.resetHeld = false ∧ b.thru.tx = none ∧ b.thru.fifo.length = 1
     ∧ b.thru.line = .up ∧ b.thru.powerHold = none ∧ b.thru.linkHold = false)
    ∧ (sending ready (.tagInUse k0 1)).link.tx ≠ none ∧ ready.link.queue = [] ∧ (heldReset ready).link.resetHeld = true
    ∧ (forwarding ready ⟨hd 0 0 1 12 4, .read, [], 0⟩).thru.tx ≠ none ∧ ready.thru.fifo = []
    ∧ Bridge.powerOn.thru.line = .down ∧ (powerHeld 0).thru.powerHold ≠ none
    ∧ (linkReset ready).thru.linkHold = true := by decide +kernel

theorem test_a_link_held_in_reset_sends_nothing :
    (pump (queued ready)).thru.tx.isSome = true ∧ (pump (queued ready)).link.tx = some (.tagInUse k0 1)
    ∧ (pump (queued (powerHeld 0))).thru.tx = none
    ∧ (after .downstreamResetRelease (queued (powerHeld 20))).thru.tx.isSome = true := by decide +kernel

theorem witness_DownstreamFramesAndLinkDownAnswerTheForwarded :
    judgeDownstream [1, 2, 3] = .stray ∧ judgeDownstream (requestBytes (hd 0 0 1 0 1) .read []) = .stray
    ∧ judgeDownstream (withCheck [3, 0, 1, 0]) = .attention
    ∧ judgeDownstream (replyBytes k0 1 .ok 3 []) = .reply k0 1 0 3
    ∧ ready.entry k0 = none
    ∧ (entryIn .forwarded .read).sent = false
    ∧ (let e := { entryIn .forwarded .read with sent := true }
       (plus ready k0 e).entry k0 = some e ∧ e.state = .forwarded ∧ e.sent = true ∧ e.unit = 1)
    ∧ (let b := plus (plus ready k0 (entryIn .forwarded .read)) k1 (entryIn .awaitLock .lockRequest)
       b.entry k0 = some (entryIn .forwarded .read) ∧ b.entry k1 = some (entryIn .awaitLock .lockRequest)
       ∧ b.entry ⟨2, 0⟩ = none) := by decide +kernel

theorem witness_ExpiredTimersAnswerTheirEntry :
    (let e := { entryIn .forwarded .read with passExpiry := some (50 : Clock) }
     (plus ready k0 e).entry k0 = some e ∧ e.state = .forwarded ∧ reached 50 50 = true ∧ reached 49 50 = false)
    ∧ (let e := { entryIn .reserving .read with deadline := some (50 : Clock) }
       (plus ready k0 e).entry k0 = some e ∧ e.state = .reserving)
    ∧ (let e := { entryIn .fetching .read with deadline := some (50 : Clock) }
       (plus ready k0 e).entry k0 = some e ∧ e.state = .fetching)
    ∧ (let e := entryIn .awaitCommit .write
       (plus ready k0 e).entry k0 = some e ∧ e.state ≠ .reserving ∧ e.state ≠ .fetching) := by decide +kernel

theorem witness_HeldKeysAndBadContentAreSettledAtAdmission :
    requestOf (.read (hd 0 0 1 12 4)) = some (.read, hd 0 0 1 12 4) ∧ wellFormed (.read (hd 0 0 1 12 4)) = true
    ∧ ((plus ready k0 (entryIn .reserving .read)).entry k0).isSome = true ∧ ready.link.resetHeld = false
    ∧ (heldReset ready).link.resetHeld = true
    ∧ [Instr.unknownOperation (hd 0 0 1 0 0) 0x3F, .read (hd 0 0 1 0 0), .read (hd 0 0 1 0 33), .flush (hd 0 0 1 0 1),
      .abort (hd 0 0 1 16 0), .eject (hd 0 0 14 0 0) [], .sense (hd 0 0 15 0 0),
      .read (hd 0 0 1 16777215 2)].all wellFormed = true
    ∧ contentOk .eject (hd 0 0 14 0 0) = true ∧ contentOk .sense (hd 0 0 15 0 0) = true
    ∧ contentOk .read (hd 0 0 1 16777215 2) = true ∧ (hd 0 0 1 16777215 2).block.toNat + 2 - 1 = 16777216
    ∧ (hd 0 0 1 16 0).block.toNat = 16 ∧ (hd 0 0 1 0 33).count.toNat = 33 := by decide +kernel

/-- Every request is received in `ready`. -/
theorem received_ready (h : Header) : Received ready h := by
  refine ⟨rfl, ?_⟩
  show (Vector.replicate 64 (none : Option Entry))[keyIdx h.key] = none
  simp

/-- Every management request with items of its operation acts in `ready`, where it needs no edit lock. -/
theorem managed_ready (o t : Nat) (op : Op) (items : List Item) (hi : itemsOk op items = true) (hl : needsLock op = false) :
    Managed ready (mh o t) op items :=
  ⟨received_ready _, rfl, rfl, hi, fun h => by simp [hl] at h⟩

/-- A management request of the holder acts. -/
theorem managed_held (op : Op) (items : List Item) (waiting : List Originator) (hi : itemsOk op items = true) :
    Managed (heldBy 0 waiting) (mh 0 0) op items :=
  ⟨received_ready _, rfl, rfl, hi, fun _ => rfl⟩

/-- A management request acts in every state of the cartridge. -/
theorem managed_state (st : CartState) (op : Op) (items : List Item) (hi : itemsOk op items = true)
    (hl : needsLock op = false) : Managed (inState st) (mh 0 0) op items :=
  ⟨received_ready _, rfl, rfl, hi, fun h => by simp [hl] at h⟩

theorem witness_HomePsaAndTranslationFollowTheTables :
    zonesOk label2 = true ∧ label2.zones[1]? = some ⟨53, 17, 1, 1⟩ ∧ firstLsn label2 1 = 32
    ∧ userCount label2 = 49 ∧ isUser label2 4 = false ∧ isUser label2 37 = false ∧ isUser label2 70 = false
    ∧ mapLaws map3 = true ∧ (∀ e ∈ map3, e.defective ≠ 6) ∧ ⟨5, some 37, .factory⟩ ∈ map3 ∧ ⟨7, none, .lost⟩ ∈ map3 := by
  decide +kernel

theorem witness_WindowsClaimAndClassesMatchByIndex :
    window1.gap = some ⟨10, 4⟩ ∧ window0.gap = none ∧ windowInRange window1 = true ∧ windowConsistent window1 = true
    ∧ claims window1 2 9 = true ∧ claims window1 2 14 = true ∧ claimingWindow ready.router 1 300 = some 0
    ∧ claimingWindow ready.router 2 99 = some 1 ∧ claimingWindow ready.router 2 12 = none
    ∧ blockTest ready.router 2 [8, 9] = .claimed 1 ∧ blockTest ready.router 2 [9, 10] = .spans
    ∧ blockTest ready.router 2 [10, 11] = .unclaimed
    ∧ blockTest ready.router (hd 0 0 2 14 32).unit (blockRun (hd 0 0 2 14 32)) = .claimed 1
    ∧ (let c := ready.router.classes[0]
       c.enabled = true ∧ c.origs.getLsbD 2 = true ∧ c.units.getLsbD 14 = true ∧ c.range = some ⟨8, 20⟩)
    ∧ deadlineOf ready.router (hd 2 0 14 8 13) = some 50 ∧ deadlineOf ready.router (hd 2 0 14 8 14) = none := by
  decide +kernel

theorem witness_RefusedBlocksAreAnsweredInTheOrderOfTheChecks :
    blockTest ready.router 2 (blockRun (hd 0 0 2 8 4)) = .spans
    ∧ blockTest ready.router 3 (blockRun (hd 0 0 3 8 4)) = .unclaimed ∧ enabledCount ready.router 3 = 0
    ∧ (setting ready fun st => { st with passUnits := 0 }).mgmt.settings.passUnits.getLsbD 3 = false
    ∧ Bridge.powerOn.thru.line = .down
    ∧ blockTest ready.router 1 (blockRun (hd 0 0 1 196 1)) = .claimed 0
    ∧ ready.router.windows[0].readAllowed = true ∧ (inState .spinup).cart.state = .spinup
    ∧ ready.cart.layout = some label2 ∧ 4 * userCount label2 ≤ cbOf ready.router.windows[0] 196 + 1 - 1
    ∧ ({ window0 with readAllowed := false, writeAllowed := false } : Window).readAllowed = false := by decide +kernel

theorem witness_UnclaimedRequestIsForwarded :
    blockTest ready.router 3 (blockRun (hd 0 0 3 8 4)) = .unclaimed ∧ enabledCount ready.router 3 = 0
    ∧ ready.mgmt.settings.passUnits.getLsbD 3 = true ∧ ready.thru.line = .up ∧ (hd 0 0 3 8 4).unit ≠ 15
    ∧ (hd 0 0 3 8 4).block.toNat + (hd 0 0 3 8 4).count.toNat - 1 ≤ 16777215 := by decide +kernel

/-- What an admitted READ or WRITE of blocks 192 to 195 of unit 1 asks of `ready`: the last blocks of the cartridge. -/
theorem admitted_ready :
    blockTest ready.router (hd 0 0 1 192 4).unit (blockRun (hd 0 0 1 192 4)) = .claimed 0
    ∧ ready.router.windows[0].readAllowed = true ∧ ready.router.windows[0].writeAllowed = true
    ∧ ready.cart.state = .ready ∧ ready.cart.layout = some label2 ∧ ready.cart.writeState = some .writable
    ∧ cbOf ready.router.windows[0] 192 + 4 - 1 < 4 * userCount label2
    ∧ cbOf ready.router.windows[0] 193 + 4 - 1 = 4 * userCount label2 := by decide +kernel

theorem witness_AdmittedReadGetsItsEntryAndSectors :
    Received ready (hd 0 0 1 192 4) ∧ deadlineOf ready.router (hd 0 0 1 192 4) = none
    ∧ deadlineOf ready.router (hd 2 0 1 12 4) = some 50
    ∧ (sectorList 3 32).length = 9 ∧ (sectorList 3 1).length = 1 :=
  ⟨received_ready _, by decide +kernel, by decide +kernel, by decide +kernel, by decide +kernel⟩

theorem witness_ReservationsAreQueuedAndGranted :
    (let stream := fun d : Clock => { entryIn .reserving .read with cls := some .stream, deadline := some d }
     let b := { plus (plus (plus ready k0 (stream 50)) k1 (stream 60)) ⟨2, 0⟩ (entryIn .reserving .read) with
       pool := { ready.pool with resQueue := [k1] } }
     b.entry ⟨2, 0⟩ = some (entryIn .reserving .read) ∧ (entryIn .reserving .read).deadline = none
     ∧ b.entry k0 = some (stream 50) ∧ ahead b.clock 50 = 50
     ∧ failDue b = none ∧ b.pool.pressure = pressureNow b ∧ b.pool.testDue = [] ∧ b.pool.resQueue = k1 :: []
     ∧ newBufferCount b [3] ≤ availableFor b [3])
    ∧ (let b := { cleanPool with pool := { cleanPool.pool with evict := [], pressure := true } }
       failDue b = none ∧ b.pool.pressure = pressureNow b ∧ availableFor b [3] < newBufferCount b [3])
    ∧ (let e := entryIn .reserving .read
       let t := grant (plus ready k0 e) k0
       (plus ready k0 e).entry k0 = some e ∧ e.sectors.Nodup ∧ currentBuf ready 3 = none
       ∧ (t.entry k0).map Entry.state = some .fetching ∧ (t.entry k0).map Entry.pins = some [0]
       ∧ neededQuarters e.cb e.count.toNat 3 &&& ~~~ ((t.buf 0).valid ||| (t.buf 0).lost) ≠ 0)
    ∧ (let e := entryIn .reserving .read
       let b := plus (ready.putBuf 4 { bufIn .opened 3 1 with valid := 1 }) k0 e
       PoolOk b ∧ currentBuf b 3 = some 4 ∧ ((grant b k0).entry k0).map Entry.state = some .fetching) := by
  refine ⟨by decide +kernel, by decide +kernel, by decide +kernel, by unfold PoolOk; decide +kernel, by decide +kernel,
    by decide +kernel⟩

theorem witness_FetchingReadsAreAnsweredFromTheirBuffers :
    (let e := { entryIn .fetching .read with pins := [0] }
     let b := plus (ready.putBuf 0 (bufIn .clean 3 0)) k0 e
     b.entry k0 = some e ∧ e.state = .fetching ∧ (blockPlaces e).length = 4
     ∧ blockPlaces e = [(some 0, 0), (some 0, 1), (some 0, 2), (some 0, 3)]
     ∧ (∀ q : Fin 4, hasQuarter (b.buf 0).valid q = true ∧ hasQuarter (b.buf 0).lost q = false)
     ∧ hasQuarter ((ready.putBuf 0 { bufIn .opened 3 1 with valid := 7, lost := 8 }).buf 0).lost 3 = true
     ∧ (plus (ready.putBuf 0 (loadingBuf 3 0 [k0])) k0 e).entry k0 = some e ∧ (0 : BufIdx) ∈ e.pins
     ∧ (loadingBuf 3 0 [k0]).state = .loading ∧ (loadingBuf 3 0 [k0]).dirty = 0
     ∧ 8 ≤ strandedCount (plus (strandedPool 8) k0 e))
    ∧ (let e := { entryIn .fetching .read with count := 5, sectors := [3, 4], pins := [8, 9] }
       let lost := plus ((ready.putBuf 8 (bufIn .clean 3 0)).putBuf 9 (loadingBuf 4 0 [k0])) k0 e
       let discarded := plus (((strandedPool 8).putBuf 8 (bufIn .clean 3 0)).putBuf 9 (bufIn .committing 4 15)) k0 e
       LoadingOk lost ∧ LoadingOk discarded ∧ 8 ≤ strandedCount discarded
       ∧ (∀ b ∈ [loadLost lost 9, strand discarded 9],
           b.link.queue = [.reply k0 1 .mediaError 4 (.blocks (List.replicate 4 1))])) := by
  unfold LoadingOk
  decide +kernel

theorem witness_WriteAdmissionIsCheckedInOrder :
    (cartOf ready fun c => { c with writeState := some .isProtected }).cart.writeState = some .isProtected
    ∧ (cartOf ready fun c => { c with writeState := some .writeLocked }).cart.writeState = some .writeLocked
    ∧ (let b := setting (plus ready k0 (entryIn .awaitCommit .write)) fun st => { st with confirmedLimit := 1 }
       b.router.windows[1].writeMode = .confirmed ∧ b.mgmt.settings.confirmedLimit ≤ confirmedCount b)
    ∧ (let b := { ready with pool := { ready.pool with
         buffers := Vector.ofFn fun i : Fin 32 => bufIn .opened (i + 10) 15 } }
       availableFor b [3] < ([3].filter (needsBuffer b)).length) := by decide +kernel

theorem witness_AdmittedWriteIsAnsweredOrAwaitsItsBuffers :
    Received ready (hd 0 0 1 192 4)
    ∧ confirmedCount ready < ready.mgmt.settings.confirmedLimit
    ∧ (let lsns := sectorList (cbOf ready.router.windows[0] 192) 4
       (lsns.filter (needsBuffer ready)).length ≤ availableFor ready lsns)
    ∧ ready.router.windows[0].writeMode = .posted ∧ ready.router.windows[1].writeMode = .confirmed
    ∧ blockTest ready.router (hd 0 0 2 4 4).unit (blockRun (hd 0 0 2 4 4)) = .claimed 1
    ∧ ([3].filter (needsBuffer (ready.putBuf 0 (bufIn .stranded 3 15)))).length = 0 :=
  ⟨received_ready _, by decide +kernel, by decide +kernel, by decide +kernel, by decide +kernel, by decide +kernel,
    by decide +kernel⟩

theorem witness_BuffersAreTakenForTheSectorsThatNeedThem :
    (let b := ready.putBuf 0 (bufIn .clean 3 0)
     (b.buf 1).state = .free ∧ ∀ j : BufIdx, j < 1 → (b.buf j).state ≠ .free)
    ∧ (∀ i, (cleanPool.buf i).state ≠ .free) ∧ cleanPool.pool.evict = [3] ++ 1 :: [2]
    ∧ (∀ j ∈ [(3 : BufIdx)], ∃ n ∈ [13], (cleanPool.buf j).lsn = some n) ∧ (∀ n ∈ [13], (cleanPool.buf 1).lsn ≠ some n)
    ∧ (∀ i ∈ cleanPool.pool.evict, ∃ n ∈ [11, 12, 13], (cleanPool.buf i).lsn = some n)
    ∧ (cleanPool.buf 0).state = .clean ∧ 0 ∉ cleanPool.pool.evict ∧ 3 ∈ cleanPool.pool.evict
    ∧ (∀ k e, cleanPool.entry k = some e → (0 : BufIdx) ∉ e.pinned)
    ∧ 1 ≤ availableFor ready [3] ∧ currentBuf ready 3 = none
    ∧ currentBuf (ready.putBuf 0 (bufIn .opened 3 15)) 3 = some 0
    ∧ currentBuf (ready.putBuf 0 (bufIn .committing 3 15)) 3 = some 0
    ∧ PoolOk (ready.putBuf 0 (bufIn .committing 3 15))
    ∧ ((sectorList 11 5).filter (needsBuffer ready)).length ≤ availableFor ready (sectorList 11 5) := by
  refine ⟨by decide +kernel, by decide +kernel, rfl, by decide +kernel, by decide +kernel, by decide +kernel,
    by decide +kernel, by decide +kernel, by decide +kernel, fun k e h => ?_, by decide +kernel, by decide +kernel,
    by decide +kernel, by decide +kernel, by unfold PoolOk; decide +kernel, by decide +kernel⟩
  exact absurd ((received_ready ⟨k.orig, k.tag, 0, 0, 0⟩).2.symm.trans h) (by simp)

theorem witness_MergeWritesItsQuartersOnly :
    currentBuf (ready.putBuf 0 (bufIn .clean 3 0)) 3 = some 0 ∧ currentBuf (ready.putBuf 0 (bufIn .opened 3 2)) 3 = some 0
    ∧ (13 ≤ 4 * 3 + (3 : Fin 4).val ∧ 4 * 3 + (3 : Fin 4).val < 13 + 3)
    ∧ ¬ (13 ≤ 4 * 3 + (0 : Fin 4).val ∧ 4 * 3 + (0 : Fin 4).val < 13 + 3)
    ∧ (let b := ready.putBuf 0 { loadingBuf 3 0 [k0] with load := some (newLoad [k0] false 0) }
       (b.buf 0).state = .loading ∧ ((mergeSector 12 4 [] b 3).buf 0).valid = allQuarters
       ∧ ((b.buf 0).load.map Load.stage) = some .pending ∧ ((mergeSector 12 1 [] b 3).buf 0).valid ≠ allQuarters)
    ∧ (let b := ready.putBuf 0 { bufIn .loading 3 15 with load := some (newLoad [k0] false 0) }
       (b.buf 0).valid = allQuarters ∧ ((mergeSector 12 1 [] b 3).buf 0).state = .opened) := by
  decide +kernel

theorem witness_FlushAwaitsTheDirtyBuffersAndSenseReports :
    Received ready (hd 0 0 1 0 0) ∧ 0 < enabledCount ready.router 1 ∧ flushTargets ready = []
    ∧ flushTargets (ready.putBuf 0 (bufIn .opened 3 15)) ≠ []
    ∧ flushTargets ((inState .halted).putBuf 0 (bufIn .committing 3 15)) ≠ []
    ∧ ready.cart.writeState = some .writable
    ∧ (inState .mounting).cart.state ≠ .ready ∧ Bridge.powerOn.cart.writeState = none :=
  ⟨received_ready _, by decide +kernel, by decide +kernel, by decide +kernel, by decide +kernel, by decide +kernel,
    by decide +kernel, by decide +kernel⟩

theorem witness_NoticesReachTheEntriesThatAwaitTheBuffer :
    (∀ op ∈ [Op.write, .flush], ∀ l ∈ [[(0 : BufIdx)], [0, 1], [0, 2]],
      let e := { entryIn .awaitCommit op with awaited := some l }
      let b := plus (ready.putBuf 0 (bufIn .committing 3 15)) k0 e
      b.entry k0 = some e ∧ e.state = .awaitCommit ∧ (0 : BufIdx) ∈ l ∧ (b.buf 0).lsn = some 3)
    ∧ [(0 : BufIdx)].filter (· != 0) = [] ∧ [(0 : BufIdx), 1].filter (· != 0) ≠ []
    ∧ (entryIn .fetching .read).state ≠ .awaitCommit
    ∧ (∀ l, (entryIn .awaitCommit .write).awaited = some l → (0 : BufIdx) ∉ l) :=
  ⟨by decide +kernel, by decide +kernel, by decide +kernel, by decide +kernel, nofun⟩

theorem witness_AbortAnswersItsTarget :
    Received ready (hd 0 1 1 0 0) ∧ (hd 0 1 1 15 0).block.toNat ≤ 15 ∧ ready.entry k0 = none
    ∧ (∀ st ∈ [EntryState.reserving, .fetching, .awaitCommit, .awaitLock, .awaitEject, .awaitMech, .forwarded, .answered],
        (plus ready k0 (entryIn st .read)).entry k0 = some (entryIn st .read) ∧ (entryIn st .read).state = st)
    ∧ (plus (inState .quiescing) k0 (entryIn .awaitEject .eject)).cart.state = .quiescing
    ∧ (plus (inState .ejecting) k0 (entryIn .awaitEject .eject)).cart.state ≠ .quiescing
    ∧ (plus ready k0 (entryIn .forwarded .read)).entry (hd 0 1 1 0 0).key = none :=
  ⟨received_ready _, by decide +kernel, by decide +kernel, by decide +kernel, by decide +kernel, by decide +kernel,
    by decide +kernel⟩

theorem witness_ManagementItemsAndLockAreCheckedFirst :
    Received ready (mh 0 0) ∧ itemsOk .identify [numItem 1 1 0] = false
    ∧ itemsOk .eject [numItem 2 1 0, numItem 2 1 0] = false ∧ itemsOk .readDefects [numItem 0x90 1 0] = false
    ∧ itemsOk .writeWindow [numItem 1 1 0] = true ∧ needsLock .writeWindow = true
    ∧ (heldBy 1 []).mgmt.holder ≠ some (mh 0 0).orig :=
  ⟨received_ready _, by decide +kernel, by decide +kernel, by decide +kernel, by decide +kernel, by decide +kernel,
    by decide +kernel⟩

theorem witness_ReportsAreAnsweredAtOnceWithTheirItems :
    Managed ready (mh 0 0) .identify [] ∧ Managed ready (mh 0 0) .readCartridge [] ∧ Managed ready (mh 0 0) .readZones []
    ∧ Managed ready (mh 0 0) .readLinkCounts [] ∧ Managed ready (mh 0 0) .lockStatus []
    ∧ Managed ready (mh 0 0) .readPool [] ∧ ready.cart.layout = some label2 ∧ Bridge.powerOn.cart.layout = none := by
  refine ⟨?_, ?_, ?_, ?_, ?_, ?_, rfl, rfl⟩ <;> exact managed_ready 0 0 _ _ (by decide +kernel) (by decide +kernel)

theorem witness_DefectsAndExceptionsAreReported :
    Managed ready (mh 0 0) .readDefects [numItem 0x90 2 1023] ∧ Managed ready (mh 0 0) .readDefects [numItem 0x90 2 1024]
    ∧ Managed ready (mh 0 0) .readExceptions [] ∧ itemNat [numItem 0x90 2 1023] 0x90 = some 1023
    ∧ itemNat [numItem 0x90 2 1024] 0x90 = some 1024 ∧ ready.dm.map.isSome = true ∧ Bridge.powerOn.dm.map = none := by
  refine ⟨?_, ?_, ?_, by decide +kernel, by decide +kernel, by decide +kernel, by decide +kernel⟩
    <;> exact managed_ready 0 0 _ _ (by decide +kernel) (by decide +kernel)

theorem witness_LockRequestsReleasesAndCancelsActOnTheLock :
    Managed ready (mh 0 0) .lockRequest [] ∧ ready.mgmt.holder = none
    ∧ Managed (heldBy 0 []) (mh 0 0) .lockRequest [] ∧ (heldBy 0 []).mgmt.holder = some (mh 0 0).orig
    ∧ (heldBy 1 [0]).mgmt.holder = some 1 ∧ (mh 0 0).orig ∈ (heldBy 1 [0]).mgmt.waiting
    ∧ (mh 0 0).orig ∉ (heldBy 1 [2, 3]).mgmt.waiting
    ∧ Managed (heldBy 0 []) (mh 0 0) .lockRelease [] ∧ Managed ready (mh 0 0) .lockRelease []
    ∧ Managed (heldBy 0 [1, 2]) (mh 0 0) .lockRelease [] ∧ ready.mgmt.holder ≠ some (mh 0 0).orig
    ∧ (heldBy 0 [1, 2]).mgmt.waiting = 1 :: [2] ∧ Managed (heldBy 0 [1]) (mh 0 0) .lockCancel []
    ∧ (mh 0 0).orig ∉ (heldBy 0 [1]).mgmt.waiting ∧ (mh 0 0).orig ∈ (heldBy 1 [2, 0]).mgmt.waiting :=
  ⟨managed_ready 0 0 _ _ (by decide +kernel) (by decide +kernel), by decide +kernel, managed_held _ _ _ (by decide +kernel),
    by decide +kernel, by decide +kernel, by decide +kernel, by decide +kernel,
    managed_held _ _ _ (by decide +kernel), managed_ready 0 0 _ _ (by decide +kernel) (by decide +kernel),
    managed_held _ _ _ (by decide +kernel), by decide +kernel, by decide +kernel, managed_held _ _ _ (by decide +kernel),
    by decide +kernel, by decide +kernel⟩

theorem witness_TablesAreWrittenInOrderAndReported :
    (∀ items ∈ [[], [numItem 1 1 16], [numItem 1 1 15, numItem 0x11 1 15], [numItem 1 1 15, numItem 0x12 3 1],
        [numItem 1 1 15, numItem 0x13 3 16777215]], Managed (heldBy 0 []) (mh 0 0) .writeWindow items)
    ∧ indexOf 16 [] = none ∧ indexOf 16 [numItem 1 1 16] = none ∧ itemNat [numItem 1 1 15] 0x01 = some (15 : Fin 16).val
    ∧ ready.router.windows[15].locked = false ∧ ({ window0 with locked := true } : Window).locked = true
    ∧ windowRangesOk [numItem 0x11 1 15] = false ∧ windowRangesOk [numItem 0x12 3 1] = true
    ∧ windowConsistent (applyWindowItems [numItem 0x12 3 1] ready.router.windows[15]) = false
    ∧ windowConsistent (applyWindowItems [numItem 0x13 3 16777215] ready.router.windows[15]) = true
    ∧ (∀ items ∈ [[numItem 1 1 8], [numItem 1 1 7, numItem 0x24 2 4], [numItem 1 1 7, pairItem 0x23 (some (1, 0))],
        [numItem 1 1 7, numItem 0x24 2 5]], Managed (heldBy 0 []) (mh 0 0) .writeClass items)
    ∧ indexOf 8 [numItem 1 1 8] = none ∧ classRangesOk [numItem 0x24 2 4] = false
    ∧ classConsistent (applyClassItems [pairItem 0x23 (some (1, 0))] ready.router.classes[7]) = false
    ∧ classRangesOk [numItem 0x24 2 5] = true
    ∧ classConsistent (applyClassItems [numItem 0x24 2 5] ready.router.classes[7]) = true
    ∧ Managed ready (mh 0 0) .readWindow [numItem 1 1 15] ∧ Managed ready (mh 0 0) .readWindow [numItem 1 1 16]
    ∧ Managed ready (mh 0 0) .readClass [numItem 1 1 7] ∧ Managed ready (mh 0 0) .readClass []
    ∧ Managed ready (mh 0 0) .readSettings [] ∧ Managed ready (mh 0 0) .readSettings [⟨0x30, []⟩, ⟨0x3E, []⟩] := by
  refine ⟨fun items h => managed_held _ _ _ ?_, by decide +kernel, by decide +kernel, by decide +kernel, by decide +kernel,
    by decide +kernel, by decide +kernel, by decide +kernel, by decide +kernel, by decide +kernel,
    fun items h => managed_held _ _ _ ?_, by decide +kernel, by decide +kernel, by decide +kernel, by decide +kernel,
    by decide +kernel, ?_, ?_, ?_, ?_, ?_, ?_⟩
  · revert items; decide +kernel
  · revert items; decide +kernel
  all_goals exact managed_ready 0 0 _ _ (by decide +kernel) (by decide +kernel)

theorem witness_SetSettingsAppliesAllOrNothing :
    (∀ items ∈ [[numItem 0x30 2 499], [numItem 0x39 1 1], [numItem 0x36 2 10]],
      Managed (heldBy 0 []) (mh 0 0) .setSettings items)
    ∧ settingRangesOk [numItem 0x30 2 499] = false ∧ settingRangesOk [numItem 0x39 1 1] = true
    ∧ 1 < confirmedCount (plus (plus (heldBy 0 []) k0 (entryIn .awaitCommit .write)) k1 (entryIn .awaitCommit .write))
    ∧ settingRangesOk [numItem 0x36 2 10] = true ∧ itemNat [numItem 0x36 2 10] 0x39 = none := by
  refine ⟨fun items h => managed_held _ _ _ ?_, by decide +kernel, by decide +kernel, by decide +kernel, by decide +kernel,
    by decide +kernel⟩
  revert items; decide +kernel

theorem witness_SetSettingsAppliesAllOrNothing_attention :
    ready.mgmt.settings.attnOrig = none ∧ attending.mgmt.settings.attnOrig = some 2
    ∧ attending.mgmt.attnPending &&& attending.mgmt.settings.attnEvents = 0
    ∧ (let b := { attending with mgmt := { attending.mgmt with attnPending := 63 } }
       b.mgmt.attnPending &&& b.mgmt.settings.attnEvents ≠ 0 ∧ attnWaiting b = false
       ∧ attnWaiting (sending b (.attention 2 1 0)) = true
       ∧ (pruneAttention b).link.queue = [.attention 2 b.mgmt.settings.attnEvents 0]) := by decide +kernel

theorem witness_SetSettingsAppliesAllOrNothing_delays :
    (let opened := (atClock ready 200).putBuf 4 (bufIn .opened 3 15)
     let items := [numItem 0x32 2 200]
     (opened.buf 4).state = .opened ∧ (opened.buf 4).lastWrite = some 0
     ∧ opened.mgmt.settings.writeBackDelay ≤ elapsed opened.clock 0
     ∧ (4 : BufIdx) ∈ (settingsAct items opened).pool.testDue ∧ (settingsAct [] opened).pool.testDue = [])
    ∧ (let m := { acceptedMap map3 9 with writeState := .dirty, lastChange := some (0 : Clock) }
       let spinning := cartOf (setting ready fun st => { st with spinDownDelay := 5 }) fun c => { c with spinTimer := some 0 }
       let due := atClock { spinning with dm := { map := some m, staging := unusedStaging } } 5000
       let items := [numItem 0x33 2 5000, numItem 0x36 2 5]
       mapWriteDue due m = true ∧ mapWriteDue (atClock due 4999) m = false
       ∧ spinDownDue due = true ∧ spinDownDue (atClock due 4999) = false
       ∧ (settingsAct items due).arb.life = none
       ∧ (settingsAct items due).dm.map.map HeldMap.writeState = some .saving
       ∧ (settingsAct [numItem 0x36 2 5] due).arb.life = some .spinDown
       ∧ (settingsAct items (atClock spinning 5000)).arb.life = some .spinDown
       ∧ settingsAct items (atClock due 4999) = atClock due 4999) := by decide +kernel

/-- A quiesce under way. -/
def quiescing (q : Quiesce) : Bridge := cartOf (inState .quiescing) fun c => { c with quiesce := some q }

theorem witness_EjectRequestsAreTakenByTheCartridgeState :
    (∀ st, ∀ items ∈ [[], [numItem 2 1 1], [numItem 2 1 2]], Managed (inState st) (mh 0 0) .eject items)
    ∧ itemNat [] 0x02 = none ∧ itemNat [numItem 2 1 1] 0x02 = some 1 ∧ itemNat [numItem 2 1 2] 0x02 = some 2
    ∧ (∀ st, (inState st).cart.state = st ∧ (inState st).cart.ejectWaiting = none ∧ (inState st).arb.order = none
        ∧ (inState st).arb.life ≠ some .recoverSpinUp ∧ (flying (inState st) .read []).arb.order ≠ none)
    ∧ (cartOf (inState .spinup) fun c => { c with ejectWaiting := some .button }).cart.ejectWaiting ≠ none
    ∧ (flying (inState .halted) .spinUp []).arb.order.isSome = true
    ∧ conditionsUnmet (poolSettle (beginQuiesce ready .button false)) = 0
    ∧ conditionsUnmet (poolSettle (beginQuiesce (ready.putBuf 0 (bufIn .opened 3 15)) .button false)) ≠ 0 :=
  ⟨fun st items h => managed_state st _ _ (by revert items; decide +kernel) (by decide +kernel), by decide +kernel,
    by decide +kernel, by decide +kernel, fun _ => ⟨rfl, rfl, rfl, nofun, nofun⟩, nofun, rfl, by decide +kernel,
    by decide +kernel⟩

theorem witness_EjectingIsEnteredWhenAnEjectMayGoOn :
    (let q : Quiesce := ⟨.management, true, 0, true⟩
     let b := quiescing q
     b.cart.state = .quiescing ∧ b.cart.quiesce = some q ∧ q.ending = true ∧ b.arb.order = none
     ∧ (flying b .read []).arb.order ≠ none)
    ∧ conditionsUnmet ((quiescing ⟨.button, false, 0, false⟩).putBuf 0 (bufIn .opened 3 15)) ≠ 0
    ∧ (cartOf (inState .mounting) fun c => { c with ejectWaiting := some .button }).cart.ejectWaiting ≠ none
    ∧ ready.cart.ejectBegun = false ∧ (cartOf ready fun c => { c with ejectBegun := true }).cart.ejectBegun = true
    ∧ (plus ready k0 (entryIn .reserving .read)).entry k0 = some (entryIn .reserving .read)
    ∧ (plus ready k0 (entryIn .awaitEject .eject)).entry k0 = some (entryIn .awaitEject .eject)
    ∧ (bufIn .opened 3 15).state = .opened ∧ (cleanPool.buf 1).state = .clean ∧ ready.mgmt.exceptions.length < 31
    ∧ ready.dm.map = some (acceptedMap map3 9) := by decide +kernel

theorem witness_RecoverAndDiscardStrandedAreTaken :
    (∀ st, Managed (inState st) (mh 0 0) .recover []) ∧ (inState .ready).cart.state ≠ .halted
    ∧ (flying (inState .halted) .spinUp []).arb.order.isSome = true ∧ (inState .halted).arb.order.isSome = false
    ∧ (inState .halted).arb.life = none
    ∧ Managed (heldBy 0 []) (mh 0 0) .discardStranded []
    ∧ (let b := plus ((heldBy 0 []).putBuf 0 (bufIn .stranded 3 15)) k1 { entryIn .fetching .read with pins := [0] }
       (b.buf 0).state = .stranded ∧ pinCount b 0 ≠ 0)
    ∧ (let b := (heldBy 0 []).putBuf 0 (bufIn .stranded 3 15)
       ∀ i, (b.buf i).state = .stranded → pinCount b i = 0)
    ∧ (let b := (strandedPool 2).putBuf 5 { bufIn .opened 3 15 with successor := some 1 }
       (b.buf 1).state = .stranded ∧ (b.buf 5).state ≠ .stranded
       ∧ (b.buf 5).successor.filter (fun j => (b.buf j).state != .stranded) = none) :=
  ⟨fun st => managed_state st _ _ (by decide +kernel) (by decide +kernel), nofun, rfl, rfl, rfl,
    managed_held _ _ _ (by decide +kernel), by decide +kernel, by decide +kernel, by decide +kernel⟩

theorem witness_SettleAndTimersStartTheirWork :
    (inState .empty).cart.state = .empty ∧ (inState .ready).cart.state ≠ .empty ∧ (inState .ready).cart.state ≠ .settling
    ∧ (cartOf (inState .settling) fun c => { c with settleExpiry := some 7 }).cart.settleExpiry = some 7
    ∧ reached 7 7 = true ∧ reached 6 7 = false
    ∧ (let b := (atClock ready 200).putBuf 4 (bufIn .opened 3 15)
       (b.buf 4).state = .opened ∧ (b.buf 4).lastWrite = some 0 ∧ b.mgmt.settings.writeBackDelay ≤ elapsed b.clock 0
       ∧ ¬ b.mgmt.settings.writeBackDelay ≤ elapsed 199 0)
    ∧ (let m := { acceptedMap map3 9 with writeState := .dirty, lastChange := some (0 : Clock) }
       let b := atClock { ready with dm := { map := some m, staging := unusedStaging } } 5000
       b.dm.map = some m ∧ m.writeState = .dirty ∧ b.cart.state = .ready
       ∧ b.mgmt.settings.mapWriteDelay ≤ elapsed b.clock 0 ∧ ¬ b.mgmt.settings.mapWriteDelay ≤ elapsed 4999 0)
    ∧ (let b := atClock (setting (cartOf ready fun c => { c with spinTimer := some 0 }) fun st => { st with spinDownDelay := 10 })
         10000
       b.mgmt.settings.spinDownDelay ≠ 0 ∧ b.cart.spinTimer = some 0
       ∧ 1000 * b.mgmt.settings.spinDownDelay ≤ elapsed b.clock 0 ∧ ¬ 1000 * b.mgmt.settings.spinDownDelay ≤ elapsed 9999 0) := by
  decide +kernel

theorem witness_SettleAndTimersStartTheirWork_spinDownTimer :
    (let b := atClock (setting ready fun st => { st with spinDownDelay := 10 }) 200
     let runs := fun t : Bridge => t.cart.state == .ready && t.cart.spindle == .spinning && t.arb.order == none
       && (pendingWork t).isEmpty && t.mgmt.settings.spinDownDelay != 0
     let since := cartOf b fun c => { c with spinTimer := some 3 }
     let worked := testLater (since.putBuf 0 { bufIn .opened 2 1 with valid := 1 }) 0
     runs (finish b) = true ∧ (finish b).arb.stamps = b.arb.stamps ∧ (finish b).cart.spinTimer = some 200
     ∧ runs (finish since) = true ∧ (finish since).arb.stamps = since.arb.stamps ∧ (finish since).cart.spinTimer = some 3
     ∧ runs (finish worked) = true ∧ (finish worked).arb.stamps ≠ worked.arb.stamps
     ∧ (finish worked).cart.spinTimer = some 200
     ∧ runs (finish (setting since fun st => { st with spinDownDelay := 0 })) = false
     ∧ runs (finish (cartOf since fun c => { c with spindle := .parked })) = false) := by decide +kernel

theorem witness_PresenceOffTakesTheCartridgeAway :
    (∀ st, (inState st).cart.state = st ∧ (inState st).mgmt.exceptions.length < 31
      ∧ (inState st).dm.map = some (acceptedMap map3 9))
    ∧ (∀ st, PoolOk (inState st))
    ∧ (plus (inState .ejecting) k0 (entryIn .awaitEject .eject)).entry k0 = some (entryIn .awaitEject .eject)
    ∧ (entryIn .awaitEject .eject).op = .eject
    ∧ (plus (inState .halted) k0 (entryIn .awaitMech .recover)).entry k0 = some (entryIn .awaitMech .recover)
    ∧ (plus ready k0 (entryIn .awaitCommit .flush)).entry k0 = some (entryIn .awaitCommit .flush)
    ∧ 1 ≤ dirtyCount (ready.putBuf 0 (bufIn .opened 3 15)) ∧ dirtyCount ready = 0 :=
  ⟨fun _ => ⟨rfl, Nat.succ_pos 30, rfl⟩, fun _ => pool_ready, by decide +kernel, by decide +kernel, by decide +kernel,
    by decide +kernel, by decide +kernel, by decide +kernel⟩

theorem witness_FaultHaltsTheMechanism :
    (∀ st, (inState st).cart.state = st)
    ∧ (plus (inState .halted) k0 (entryIn .awaitMech .recover)).entry k0 = some (entryIn .awaitMech .recover)
    ∧ (plus ready k0 (entryIn .reserving .read)).entry k0 = some (entryIn .reserving .read)
    ∧ ready.dm.map = some (acceptedMap map3 9) ∧ PoolOk (jobIn (flushIn .erase 8))
    ∧ ((jobIn (flushIn .erase 8)).buf 0).flush = some (flushIn .erase 8) ∧ ((jobIn (flushIn .erase 8)).buf 0).state = .opened
    ∧ ({ loadingBuf 3 0 [] with dirty := 1, valid := 1 } : Buffer).state = .loading :=
  ⟨fun _ => rfl, by decide +kernel, by decide +kernel, rfl, by unfold PoolOk; decide +kernel, by decide +kernel,
    by decide +kernel, rfl⟩

theorem witness_QuiesceExpiryForcesOrRefusesTheEject :
    (quiescing ⟨.management, true, 0, false⟩).cart.quiesce = some ⟨.management, true, 0, false⟩
    ∧ (quiescing ⟨.button, false, 0, false⟩).cart.state = .quiescing
    ∧ (quiescing ⟨.button, false, 0, false⟩).mgmt.settings.buttonForced = false
    ∧ (setting (quiescing ⟨.button, false, 0, false⟩) fun st => { st with buttonForced := true }).mgmt.settings.buttonForced = true
    ∧ reached (quiescing ⟨.button, false, 0, false⟩).clock 0 = true ∧ reached 0 1 = false
    ∧ (quiescing ⟨.button, false, 0, false⟩).arb.order = none
    ∧ (flying (quiescing ⟨.management, true, 0, false⟩) .read []).arb.order ≠ none
    ∧ ((jobIn (flushIn .erase 8)).buf 0).flush = some (flushIn .erase 8)
    ∧ (quiescing ⟨.button, false, 0, false⟩).dm.map = some (acceptedMap map3 9)
    ∧ (plus (quiescing ⟨.management, false, 0, false⟩) k0 (entryIn .awaitEject .eject)).entry k0
        = some (entryIn .awaitEject .eject) := by decide +kernel

/-- The expiry acts where only an order in flight keeps the quiesce from ending (log entry 41). -/
theorem test_quiesceExpiry_with_the_conditions_met :
    (let b := flying (quiescing ⟨.button, false, 0, false⟩) .read []
     conditionsUnmet b = 0 ∧ (after .quiesceExpiry b).cart.state = .ready) := by decide +kernel

/-- A pending load of LSN 3 or another, for a reader. -/
def pendingBuf (lsn : Nat) (k : Key) : Buffer := { loadingBuf lsn 0 [k] with load := some (newLoad [k] false 0) }

theorem witness_GrantsFollowTheCartridgeState :
    (flying ready .spinDown []).arb.order.isSome = true
    ∧ (∀ st, (inState st).cart.state = st ∧ (inState st).arb.order = none ∧ (inState st).cart.mountStep = none)
    ∧ (∀ st, (cartOf (inState .mounting) fun c => { c with mountStep := some st }).cart.mountStep = some st)
    ∧ (quiescing ⟨.management, true, 0, true⟩).cart.quiesce.any Quiesce.ending = true
    ∧ pendingWork ready = []
    ∧ (∀ l, ({ ready with arb := { ready.arb with life := l } } : Bridge).arb.life = l)
    ∧ (let b := cartOf (ready.putBuf 0 (pendingBuf 3 k0)) fun c => { c with spindle := .parked }
       pendingWork b ≠ [] ∧ b.cart.spindle = .parked)
    ∧ (let b := ready.putBuf 0 (pendingBuf 3 k0)
       pendingWork b = [.load 0] ∧ b.cart.spindle = .spinning ∧ (workOrder (b.forBufs endLostLoad) (.load 0)).isSome = true)
    ∧ (let b := ready.putBuf 0 (pendingBuf 2 k0)
       pendingWork b = [.load 0] ∧ translate b 2 = some .lost ∧ workOrder (b.forBufs endLostLoad) (.load 0) = none)
    ∧ (let b := jobIn { flushIn .erase 8 with stage := some .pending }
       pendingWork b = [.phase 0] ∧ chooseWork b (pendingWork b) = some (.phase 0)) :=
  ⟨rfl, fun _ => ⟨rfl, rfl, rfl⟩, fun _ => rfl, by decide +kernel, by decide +kernel, fun _ => rfl, by decide +kernel,
    by decide +kernel, by decide +kernel, by decide +kernel⟩

theorem witness_GrantsFollowTheCartridgeState_endOfStep :
    ready.cart.ejectWaiting = none ∧ ready.cart.state ≠ .quiescing
    ∧ (let b := (quiescing ⟨.button, false, 0, false⟩).putBuf 0 (bufIn .stranded 3 15)
       b.cart.state = .quiescing ∧ b.cart.quiesce = some ⟨.button, false, 0, false⟩ ∧ conditionsUnmet b ≠ 0)
    ∧ ((headStep (poolSettle (ready.putBuf 0 (pendingBuf 3 k0)))).bind fun c => c.arb.order).isSome = true
    ∧ (headStep (poolSettle ready)).isNone = true := by decide +kernel

theorem witness_TheArbiterChoosesByClassAndStamp :
    (let stream := { entryIn .fetching .read with cls := some .stream, deadline := some (50 : Clock), pins := [0] }
     let job := bufIn .opened 1 15
     let b := plus ((ready.putBuf 0 (pendingBuf 3 k0)).putBuf 1 { job with
       flush := some { flushIn .erase 6 with stage := some .pending, causes := { Causes.none with confirmed := true } } }) k0 stream
     (b.buf 0).load = some (newLoad [k0] false 0) ∧ workClass b (.load 0) = 1 ∧ workClass b (.phase 1) = 2
     ∧ k0 ∈ (newLoad [k0] false 0).readers ∧ b.entry k0 = some stream ∧ stream.cls = some .stream
     ∧ pendingWork b = [.load 0, .phase 1] ∧ chooseWork b (pendingWork b) = some (.load 0)
     ∧ nextStreak b (pendingWork b) (.load 0) = 1
     ∧ (let b8 := { b with arb := { b.arb with streak := 8 } }
        b8.arb.streak = 8 ∧ chooseWork b8 (pendingWork b8) = some (.phase 1)))
    ∧ workClass (ready.putBuf 0 (pendingBuf 3 k0)) (.load 0) = 3
    ∧ (let f := { flushIn .fill 8 with stage := none, causes := { Causes.none with pressure := true } }
       workClass (ready.putBuf 0 { bufIn .opened 3 1 with load := some (newLoad [] true 0), flush := some f }) (.load 0) = 2)
    ∧ workClass (jobIn (flushIn .erase 8)) (.phase 0) = 4 := by decide +kernel

theorem witness_OrdersAreRunsOfPendingWork :
    (let b := (ready.putBuf 0 (pendingBuf 3 k0)).putBuf 1 (pendingBuf 4 k0)
     Work.load 0 ∈ pendingWork b ∧ workOrder b (.load 0) = some (.read, 8) ∧ b.cart.layout = some label2
     ∧ orderPieces b .read 8 (.load 0) = [.load 0 3 8, .load 1 4 9] ∧ (b.buf 1).load = some (newLoad [k0] false 0))
    ∧ (let f := { flushIn .write 8 with stage := some .pending }
       let b := jobIn f
       Work.phase 0 ∈ pendingWork b ∧ workOrder b (.phase 0) = some (.write, 8) ∧ (b.buf 0).flush = some f
       ∧ orderPieces b .write 8 (.phase 0) = [.phase 0 3 8] ∧ (b.buf 0).state = .opened)
    ∧ (let st : MapStep := ⟨.erase, false, 0, 9⟩
       let b := { ready with dm := { ready.dm with map := some { acceptedMap map3 9 with step := some st } } }
       Work.map ∈ pendingWork b ∧ workOrder b .map = some (.erase, 1)) := by decide +kernel

theorem witness_CompletionIsMatchedToTheOrderInFlight :
    ready.arb.order = none ∧ (flying ready .read [.load 0 3 8]).arb.order = some (orderOf .read [.load 0 3 8])
    ∧ (orderOf .read [.load 0 3 8]).number ≠ 4 ∧ (orderOf .read [.load 0 3 8]).number = 5
    ∧ (orderOf .read [.load 0 3 8]).kind = .read ∧ (orderOf .read [.load 0 3 8]).pieces.length = 1
    ∧ (orderOf .spinDown []).kind = .spinDown
    ∧ (orderOf .read [.mount 0]).pieces = .mount 0 :: []
    ∧ (orderOf .erase [.map 1, .map 2, .map 3, .map 4]).pieces = .map 1 :: [.map 2, .map 3, .map 4]
    ∧ (cartOf (inState .mounting) fun c => { c with ejectWaiting := some .button }).cart.ejectWaiting ≠ none := by
  decide +kernel

theorem witness_LifeOrdersEndByTheCartridgeState :
    (∀ st kind, (flying (inState st) kind []).arb.order = some (orderOf kind []) ∧ (orderOf kind []).kind = kind
      ∧ (flying (inState st) kind []).cart.state = st ∧ (inState st).cart.ejectWaiting = none
      ∧ (inState st).cart.ejectBegun = false ∧ (inState st).dm.map.isSome = true)
    ∧ (plus (inState .halted) k0 (entryIn .awaitMech .recover)).entry k0 = some (entryIn .awaitMech .recover)
    ∧ (plus (inState .ejecting) k0 (entryIn .awaitEject .eject)).entry k0 = some (entryIn .awaitEject .eject)
    ∧ (cartOf (inState .halted) fun c => { c with ejectBegun := true }).cart.ejectBegun = true
    ∧ ({ inState .halted with dm := { map := none, staging := unusedStaging } } : Bridge).dm.map = none :=
  ⟨fun _ _ => ⟨rfl, rfl, rfl, rfl, rfl, rfl⟩, by decide +kernel, by decide +kernel, rfl, rfl⟩

/-- An eject waits in SPINUP and in MOUNTING, a map is DIRTY with its delay run out or not, a job has QUIESCE alone, and the
commands that wait for the mechanism. -/
theorem witness_LifeOrdersEndByTheCartridgeState_waiting :
    (∀ st ∈ [CartState.spinup, .mounting], ∀ kind pieces,
      let b := flying (cartOf (inState st) fun c => { c with ejectWaiting := some .button }) kind pieces
      b.arb.order = some (orderOf kind pieces) ∧ b.cart.state = st ∧ b.cart.ejectWaiting ≠ none)
    ∧ [SectorOutcome.noId].length = (orderOf .read [.mount 0]).pieces.length
    ∧ (∀ st ∈ [EntryState.reserving, .fetching, .awaitCommit], awaitsMechanism (entryIn st .write))
    ∧ awaitsMechanism (entryIn .awaitEject .eject) ∧ ¬ awaitsMechanism (entryIn .awaitMech .recover)
    ∧ ((withMap (inState .halted) .dirty (some 0)).dm.map.map HeldMap.writeState) = some .dirty
    ∧ ready.mgmt.settings.mapWriteDelay = 5000 ∧ elapsed 4999 0 = 4999 ∧ elapsed 5000 0 = 5000
    ∧ (let f := { flushIn .erase 8 with causes := { Causes.none with quiesce := true } }
       ((jobIn f).buf 0).flush = some f ∧ { f.causes with quiesce := false } = Causes.none) := by
  refine ⟨fun st h _ _ => ?_, by decide +kernel, ?_, .inr (.inr (.inr ⟨rfl, rfl⟩)), ?_, rfl, rfl, by decide, by decide,
    by decide +kernel⟩
  · simp only [List.mem_cons, List.not_mem_nil, or_false] at h
    rcases h with rfl | rfl <;> exact ⟨rfl, rfl, nofun⟩
  · unfold awaitsMechanism
    decide +kernel
  · unfold awaitsMechanism
    decide +kernel

/-- The end of a life-cycle order raises the event that the state it leads to asks for, and no other (R142, R152, R154 to
R156); where an eject waits, and where a mount read is followed by another, it raises none (R143, R147). -/
theorem test_life_orders_raise_attention :
    (let ends := fun (st : CartState) (kind : OrderKind) (good : Bool) (f : CartRecord → CartRecord) =>
       let b := after (.completion 5 kind (.life good)) (flying (cartOf attending fun c => f { c with state := st }) kind [])
       (b.cart.state, b.cart.spindle, b.link.tx)
     let waits := fun c : CartRecord => { c with ejectWaiting := some .management, spindle := .parked }
     ends .spinup .spinUp false id = (.unusable, .spinning, some (.attention 2 4 0))
     ∧ ends .spinup .spinUp true id = (.mounting, .spinning, none)
     ∧ ends .spinup .spinUp true waits = (.ejecting, .spinning, none)
     ∧ ends .spinup .spinUp false waits = (.ejecting, .parked, none)
     ∧ ends .ready .spinUp false id = (.halted, .spinning, some (.attention 2 32 0))
     ∧ ends .ejecting .eject true id = (.empty, .parked, some (.attention 2 2 0))
     ∧ ends .halted .spinUp true id = (.ready, .spinning, some (.attention 2 1 0))
     ∧ ends .halted .spinUp true (fun c => { c with ejectBegun := true }) = (.ejecting, .spinning, none)
     ∧ ends .halted .spinUp false id = (.halted, .spinning, none)) := by decide +kernel

theorem witness_MountReadsAreJudged :
    (∀ st, (cartOf (inState .mounting) fun c => { c with mountStep := some st }).cart.mountStep = some st)
    ∧ (∀ d, SectorOutcome.noId ≠ .good d) ∧ labelOk { label2 with sectorSize := 512 } = false
    ∧ labelOk { label2 with zones := [] } = true ∧ zonesOk { label2 with zones := [] } = false
    ∧ labelOk label2 = true ∧ zonesOk label2 = true ∧ (inState .mounting).cart.layout = some label2
    ∧ judgeMap label2 (unusedStaging.toList.map asMapSector) = none
    ∧ judgeMap label2 ((snapshotSectors map3 9).toList.map asMapSector) = some map3 :=
  ⟨fun _ => rfl, nofun, by decide +kernel, by decide +kernel, by decide +kernel, by decide +kernel,
    by decide +kernel, rfl, by decide +kernel, by decide +kernel⟩

/-- The ends of a mount: what each raises (R143, R144, R156). -/
theorem test_mount_reads_raise_attention :
    (let ends := fun (read : MountRead) (attempt : Nat) (outcomes : List SectorOutcome) =>
       let b := mountReadEnded (cartOf attending fun c =>
         { c with state := .mounting, mountStep := some ⟨read, attempt⟩ }) outcomes
       (b.cart.state, b.cart.reason, b.link.queue)
     let map := fun l : List MapEntry => (snapshotSectors l 9).toList.map fun d => SectorOutcome.good (some d)
     ends .label 3 [.noId] = (.mounting, none, [])
     ∧ ends .label 4 [.noId] = (.unusable, some .badLabel, [.attention 2 4 0])
     ∧ ends .map 4 [.dataError] = (.unusable, some .mapUnreadable, [.attention 2 4 0])
     ∧ ends .label 1 [.good (some (.label { label2 with sectorSize := 512 }))]
       = (.unusable, some .badLabel, [.attention 2 4 0])
     ∧ ends .label 1 [.good (some (.label { label2 with zones := [] }))]
       = (.unusable, some .badZones, [.attention 2 4 0])
     ∧ ends .label 1 [.good (some (.label label2))] = (.mounting, none, [])
     ∧ ends .map 1 (map [⟨7, some 8, .factory⟩]) = (.unusable, some .badMap, [.attention 2 4 0])
     ∧ ends .map 1 (map map3) = (.ready, none, [.attention 2 1 0])) := by decide +kernel

theorem witness_GoodLoadFillsTheSector :
    (let b := ready.putBuf 0 (loadingBuf 3 1 [k0])
     (b.buf 0).lsn = some 3 ∧ (b.buf 0).state = .loading ∧ ((b.buf 0).load.map Load.stage) = some .inFlight
     ∧ ((b.buf 0).load.map Load.retries) = some 1 ∧ 1 < b.mgmt.settings.relocThreshold
     ∧ b.mgmt.settings.relocThreshold ≤ 2 ∧ b.cart.writeState = some .writable)
    ∧ ({ loadingBuf 3 0 [k0] with state := .opened, valid := 1, dirty := 1 } : Buffer).state ≠ .loading := by decide +kernel

theorem witness_FailedLoadsAreRetriedWithdrawnOrLost :
    (∀ retries ∈ [2, 3], ∀ readers ∈ [[k0], []],
      let b := ready.putBuf 0 (loadingBuf 3 retries readers)
      ∃ l, (b.buf 0).load = some l ∧ (b.buf 0).lsn = some 3 ∧ l.stage = .inFlight ∧ l.retries = retries
        ∧ l.readers = readers ∧ b.mgmt.settings.retryLimit = 3 ∧ b.mgmt.exceptions.length < 31)
    ∧ ({ loadingBuf 3 3 [] with state := .opened, valid := 1, dirty := 1 } : Buffer).state ≠ .loading
    ∧ (∀ l, (ready.buf 0).load = some l → l.stage ≠ .inFlight)
    ∧ (let b := ready.putBuf 0 (pendingBuf 3 k0)
       (b.buf 0).load = some (newLoad [k0] false 0) ∧ [k0].filter (· != k0) = [] ∧ [k0, k1].filter (· != k0) ≠ []) :=
  ⟨fun _ _ _ _ => ⟨_, rfl, rfl, rfl, rfl, rfl, rfl, Nat.succ_pos 30⟩, by decide +kernel, nofun, by decide +kernel⟩

theorem witness_OrderTimeoutCountsAndHalts :
    (∀ st kind, (flying (atClock (inState st) 3000) kind []).arb.order = some (orderOf kind [])
      ∧ (flying (atClock (inState st) 3000) kind []).cart.state = st ∧ (inState st).cart.ejectWaiting = none
      ∧ (inState st).arb.timeouts = 0 ∧ (inState st).mgmt.exceptions.length < 32)
    ∧ (cartOf (inState .mounting) fun c => { c with ejectWaiting := some .button }).cart.ejectWaiting ≠ none
    ∧ reached 3000 (orderOf .read []).expiry = true ∧ reached 2999 (orderOf .read []).expiry = false
    ∧ 1 ≤ ({ ready with arb := { ready.arb with timeouts := 1 } } : Bridge).arb.timeouts
    ∧ PoolOk (flying (ready.putBuf 0 (loadingBuf 3 0 [k0])) .read [.load 0 3 8])
    ∧ .load 0 3 8 ∈ (orderOf .read [.load 0 3 8]).pieces ∧ ((loadingBuf 3 0 [k0]).load.map Load.stage) = some .inFlight
    ∧ PoolOk (flying (jobIn (flushIn .erase 8)) .erase [.phase 0 3 8]) ∧ (flushIn .erase 8).stage = some .inFlight
    ∧ (∀ st, (cartOf (inState .mounting) fun c => { c with mountStep := some st }).cart.mountStep = some st)
    ∧ (plus (inState .halted) k0 (entryIn .awaitMech .recover)).entry k0 = some (entryIn .awaitMech .recover) :=
  ⟨fun _ _ => ⟨rfl, rfl, rfl, rfl, Nat.succ_pos 31⟩, nofun, by decide +kernel, by decide +kernel, by decide +kernel,
    by unfold PoolOk; decide +kernel, by decide +kernel, by decide +kernel, by unfold PoolOk; decide +kernel,
    by decide +kernel, fun _ => rfl, by decide +kernel⟩

/-- The end of an order by its timeout raises the event of the state it leads to; an eject that waits in SPINUP or at a mount
read's first timeout begins, and at the second HALTED ends it (R143, R147, R154, R156). -/
theorem test_order_timeouts_raise_attention :
    (let ends := fun (st : CartState) (timeouts : Nat) (f : CartRecord → CartRecord) =>
       let b := after .orderTimeout (flying (cartOf { atClock attending 3000 with
         arb := { attending.arb with timeouts }, mgmt := { attending.mgmt with settings := { attending.mgmt.settings with
           attnEvents := 36 } } } fun c => f { c with state := st }) .read [])
       (b.cart.state, b.link.tx)
     let attempt := fun (n : Nat) (c : CartRecord) => { c with mountStep := some ⟨.label, n⟩ }
     let waits := fun c : CartRecord => { c with ejectWaiting := some .button }
     ends .spinup 0 id = (.unusable, some (.attention 2 4 1)) ∧ ends .spinup 0 waits = (.ejecting, none)
     ∧ ends .mounting 0 (attempt 4) = (.unusable, some (.attention 2 4 1))
     ∧ ends .mounting 0 (attempt 3) = (.mounting, none) ∧ ends .mounting 0 waits = (.ejecting, none)
     ∧ ends .mounting 1 waits = (.halted, some (.attention 2 32 1))
     ∧ ends .ejecting 0 id = (.halted, some (.attention 2 32 1)) ∧ ends .ready 0 id = (.ready, none)
     ∧ ends .quiescing 1 id = (.halted, some (.attention 2 32 1))) := by decide +kernel

theorem witness_JobsFollowTheirConditions :
    PoolOk ready ∧ PoolOk (jobIn (flushIn .erase 8))
    ∧ ((jobIn (flushIn .erase 8)).buf 0).flush = some (flushIn .erase 8)
    ∧ (let b := jobIn { flushIn .fill 8 with stage := none }
       PoolOk b ∧ (b.buf 0).valid ||| (b.buf 0).lost = allQuarters)
    ∧ (let b := { (atClock ready 200).putBuf 0 (bufIn .opened 3 15) with pool :=
         { ((atClock ready 200).putBuf 0 (bufIn .opened 3 15)).pool with testDue := [0] } }
       (b.buf 0).flush = none ∧ (b.buf 0).state = .opened ∧ 0 ∈ b.pool.testDue
       ∧ b.mgmt.settings.writeBackDelay ≤ elapsed b.clock 0)
    ∧ ({ bufIn .opened 3 1 with valid := 1 } : Buffer).valid ||| ({ bufIn .opened 3 1 with valid := 1 } : Buffer).lost
        ≠ allQuarters
    ∧ (let b := (ready.putBuf 0 { bufIn .committing 3 15 with successor := some 1 }).putBuf 1 (bufIn .opened 3 15)
       (b.buf 0).state = .committing ∧ (b.buf 0).successor = some 1 ∧ (b.buf 1).state = .opened)
    ∧ (let f := { flushIn .remap 8 with stage := none }
       ((jobIn f).buf 0).flush = some f ∧ f.phase = .remap ∧ f.request = none) := by
  refine ⟨pool_ready, by unfold PoolOk; decide +kernel, by decide +kernel, by unfold PoolOk; decide +kernel,
    by decide +kernel, by decide +kernel, by decide +kernel, by decide +kernel⟩

theorem witness_FlushPhasesFollowTheirOutcomes :
    (∀ p ∈ [Phase.erase, .write, .verify],
      (let b := jobIn (flushIn p 8)
       (b.buf 0).flush = some (flushIn p 8) ∧ (flushIn p 8).stage = some .inFlight ∧ (flushIn p 8).target = some 8
       ∧ (flushIn p 8).phase = p ∧ (flushIn p 8).attempts < 3 ∧ b.cart.writeState = some .writable))
    ∧ (flushIn .erase 8).target ≠ some 9 := by decide +kernel

theorem witness_VerifyCommitsTheJobOrFailsItsTarget :
    (let b := ready.putBuf 0 { bufIn .committing 3 15 with flush := some (flushIn .verify 8) }
     (b.buf 0).flush = some (flushIn .verify 8) ∧ (flushIn .verify 8).stage = some .inFlight
     ∧ (flushIn .verify 8).target = some 8 ∧ (flushIn .verify 8).phase = .verify ∧ (flushIn .verify 8).attempts < 3
     ∧ b.cart.writeState = some .writable
     ∧ PoolOk b ∧ (b.buf 0).successor = none ∧ (quad 2)[0] ≠ (quad 1)[0])
    ∧ ¬ (({ flushIn .verify 8 with attempts := 3 } : Flush).attempts < 3)
    ∧ (let e := { entryIn .awaitCommit .flush with awaited := some [0] }
       (plus ready k0 e).entry k0 = some e ∧ e.state = .awaitCommit)
    ∧ ({ bufIn .committing 3 15 with successor := some 1 } : Buffer).successor = some 1 := by
  refine ⟨⟨by decide +kernel, by decide +kernel, by decide +kernel, by decide +kernel, by decide +kernel, by decide +kernel,
    by unfold PoolOk; decide +kernel, by decide +kernel, by decide +kernel⟩, by decide +kernel, by decide +kernel,
    by decide +kernel⟩

theorem witness_PermanentFailureStrandsDiscardsOrLeavesToTheSuccessor :
    (∀ n ∈ [7, 8], let b := (strandedPool n).putBuf 9 { bufIn .committing 3 15 with flush := some (flushIn .write 8) }
      PoolOk b ∧ (b.buf 9).flush = some (flushIn .write 8) ∧ (b.buf 9).lsn = some 3 ∧ b.cart.layout = some label2
      ∧ homePsa label2 3 = some 8 ∧ b.dm.map = some (acceptedMap map3 9) ∧ (b.buf 9).successor = none
      ∧ strandedCount b = n ∧ b.mgmt.exceptions.length < 31 ∧ (lostEntries map3 8).isSome = true)
    ∧ lostEntries map3 7 = none
    ∧ ({ bufIn .committing 3 15 with successor := some 1 } : Buffer).successor = some 1 := by
  refine ⟨?_, by decide +kernel, by decide +kernel⟩
  unfold PoolOk
  decide +kernel

/-- A spare request taken, and a job failed for good, with the map in a write state, the cartridge in a state and a delay. -/
def mapsChanged (st : CartState) (delay : Nat) (w : MapWriteState) : List (Option HeldMap) :=
  let request := { flushIn .remap 8 with stage := none, request := some (.replace 8) }
  let b := setting (cartOf (withMap (jobIn request) w (some 0)) fun c => { c with state := st }) fun x =>
    { x with mapWriteDelay := delay }
  [(takeSpareRequest b 0).dm.map, (permanentFailure b 0 none).dm.map]

/-- A map change makes a CLEAN map DIRTY, and SAVING in QUIESCING and without a delay; another state stays (R132, R133). -/
theorem test_map_changes_dirty_the_map :
    (∀ x ∈ [(CartState.ready, 5000, MapWriteState.clean, MapWriteState.dirty), (.ready, 5000, .dirty, .dirty),
        (.ready, 5000, .saving, .saving), (.ready, 5000, .unsavable, .unsavable), (.ready, 0, .clean, .saving),
        (.quiescing, 5000, .clean, .saving), (.quiescing, 5000, .unsavable, .unsavable), (.halted, 0, .clean, .dirty)],
      ∀ m ∈ mapsChanged x.1 x.2.1 x.2.2.1,
        m.map HeldMap.writeState = some x.2.2.2 ∧ m.map HeldMap.generation = some 10
        ∧ m.map HeldMap.saved = some 9 ∧ m.map HeldMap.lastChange = some (some 0)) := by decide +kernel

theorem witness_SpareSearchFollowsTheZones :
    zoneOf label2 8 = some 0 ∧ zoneOf label2 53 = some 1 ∧ findSpare label2 map3 8 = some 39
    ∧ findSpare label2 map3 53 = some 70 ∧ findSpare { label2 with zones := [⟨5, 16, 2, 0⟩] } [] 8 = none
    ∧ zoneOf { label2 with zones := [⟨5, 16, 2, 0⟩] } 8 = some 0 := by decide +kernel

theorem witness_GrantsAndMarksChangeOneTranslation :
    mapLaws map3 = true ∧ (∀ u ∈ [5, 7, 8], ∀ e ∈ map3, e.spare ≠ some u) ∧ appears map3 39 = false ∧ map3.length < 1024
    ∧ (lostEntries map3 5).isSome = true ∧ (lostEntries map3 8).isSome = true ∧ lostEntries map3 7 = none := by
  decide +kernel

theorem witness_SpareRequestIsGrantedOrRefused :
    (let f := { flushIn .remap 8 with stage := none, request := some (.replace 8) }
     let b := jobIn f
     (b.buf 0).flush = some f ∧ (b.buf 0).lsn = some 3 ∧ b.cart.layout = some label2 ∧ homePsa label2 3 = some 8
     ∧ b.dm.map = some (acceptedMap map3 9) ∧ b.cart.writeState = some .writable ∧ findSpare label2 map3 8 = some 39)
    ∧ (flushIn .erase 8).request = none
    ∧ (cartOf ready fun c => { c with writeState := some .writeLocked }).cart.writeState ≠ some .writable := by decide +kernel

theorem witness_SpareRequestIsGrantedOrRefused_relocation :
    (let moving := { flushIn .remap 8 with
       stage := none, request := some .first, causes := { Causes.none with relocate := true } }
     let b := ready.putBuf 0 { bufIn .opened 3 15 with relocate := true, flush := some moving }
     let locked := cartOf b fun c => { c with writeState := some .writeLocked }
     let full := { b with mgmt := { b.mgmt with exceptions := List.replicate 32 { kind := .mechTimeout, time := 1 } } }
     let relocated := takeSpareRequest b 0
     let refused := takeSpareRequest locked 0
     b.mgmt.exceptions.length < 32 ∧ 32 ≤ full.mgmt.exceptions.length
     ∧ relocated.mgmt.exceptions = [{ kind := .relocated, time := 0, lsn := some 3, psa := some 39 }]
     ∧ (takeSpareRequest full 0).mgmt.overflow = 1
     ∧ (refused.buf 0).relocate = false ∧ (refused.buf 0).flush.map Flush.target = some (some 8)
     ∧ (refused.buf 0).flush.map (fun f => f.causes) = some { Causes.none with aged := true }
     ∧ refused.mgmt.exceptions = []) := by decide +kernel

theorem witness_MapWriteBackGoesByItsSteps :
    (∀ (pass : MapPass) (generation : BitVec 32) (attempt : Nat),
      let st : MapStep := ⟨pass, true, 0, generation⟩
      let m := { acceptedMap map3 9 with writeState := .saving, attempt := some attempt, step := some st }
      let b := { ready with dm := { map := some m, staging := snapshotSectors map3 9 } }
      b.dm.map = some m ∧ m.step = some st ∧ m.attempt = some attempt ∧ b.cart.state = .ready
      ∧ b.mgmt.exceptions.length < 32)
    ∧ ¬ ready.mgmt.settings.mapWriteDelay ≤ elapsed 4999 0 ∧ ready.mgmt.settings.mapWriteDelay ≤ elapsed 5000 0
    ∧ (inState .quiescing).cart.state = .quiescing :=
  ⟨fun _ _ _ => ⟨rfl, rfl, rfl, rfl, Nat.succ_pos 31⟩, by decide +kernel, by decide +kernel, rfl⟩

theorem witness_ExceptionsAndAttentionEventsAreKept :
    ready.mgmt.exceptions.length < 32
    ∧ 32 ≤ ({ ready.mgmt with exceptions := List.replicate 32 { kind := .mechTimeout, time := 1 } } : Management).exceptions.length
    ∧ ready.mgmt.settings.attnOrig = none ∧ attending.mgmt.settings.attnOrig = some 2
    ∧ attending.mgmt.settings.attnEvents.getLsbD AttnEvent.exceptionAdded.bit = true
    ∧ attending.link.queue = [] ∧ attending.link.tx = none
    ∧ (sending attending (.attention 2 1 0)).link.tx = some (.attention 2 1 0)
    ∧ ({ attending.mgmt with attnPending := 1 } : Management).attnPending ≠ 0 ∧ attending.mgmt.attnPending = 0 := by
  decide +kernel

/-- Originator 1 waits for the lock that originator 0 holds. -/
def lockWaited : Bridge := plus (heldBy 0 [1]) k1 (entryIn .awaitLock .lockRequest)

theorem lock_lockWaited : LockOk lockWaited := by
  have here : lockWaited.entry k1 = some (entryIn .awaitLock .lockRequest) := by decide +kernel
  have other : ∀ k e, lockWaited.entry k = some e → k = k1 := by
    rintro ⟨o, t⟩ e h
    have key : ∀ o t, (lockWaited.entry ⟨o, t⟩).isSome = true → (⟨o, t⟩ : Key) = k1 := by decide +kernel
    exact key o t (by rw [h]; rfl)
  refine ⟨⟨by decide +kernel, by decide +kernel, by decide +kernel⟩, fun k e he _ => ?_, fun o ho => ?_,
    fun j k e f he hf _ _ _ => (other j e he).trans (other k f hf).symm⟩
  · obtain rfl := other k e he
    rw [here] at he
    cases he
    exact ⟨rfl, by decide +kernel⟩
  · exact ⟨k1, _, (List.mem_singleton.1 ho).symm, here, rfl⟩

/-- The laws of the state hold in `ready`, which holds a layout and a map, and those of the lock with an originator waiting. -/
theorem witness_invariants :
    TablesOk ready ∧ LockOk lockWaited ∧ CountsOk ready ∧ StrandedOk ready ∧ PoolOk ready ∧ MapOk ready
    ∧ (LoadingOk (ready.putBuf 0 (loadingBuf 3 0 [k0])) ∧ PoolOk (ready.putBuf 0 (loadingBuf 3 0 [k0])))
    ∧ (∃ t, step (idle ready) = .next t) ∧ ∃ t, step (idle lockWaited) = .next t := by
  refine ⟨⟨by decide +kernel, by decide +kernel, by decide +kernel⟩, lock_lockWaited,
    by unfold CountsOk; decide +kernel, by unfold StrandedOk; decide +kernel, pool_ready, ⟨?_, ?_, by decide +kernel⟩,
    by unfold LoadingOk PoolOk; decide +kernel, ⟨_, rfl⟩, _, rfl⟩
  · intro l h
    obtain rfl : label2 = l := Option.some.inj h
    decide +kernel
  · intro m h
    obtain rfl : acceptedMap map3 9 = m := Option.some.inj h
    refine ⟨by decide +kernel, fun l hl => ?_⟩
    obtain rfl : label2 = l := Option.some.inj hl
    decide +kernel

end Sys2Proof.Tests
end

section
/-! PROOFS. The laws of the state at power-on, and that every step keeps them: each meaning of `exec` is made of operations
that are `Lawful` (Laws/Lawful.lean). -/

namespace Sys2Proof.Machine

/-! ### The bridge after power-on -/

@[simp] theorem powerOn_buf (i : BufIdx) : Bridge.powerOn.buf i = Buffer.free := by
  simp [Bridge.buf, Bridge.powerOn]

@[simp] theorem powerOn_entry (k : Key) : Bridge.powerOn.entry k = none := by
  simp [Bridge.entry, Bridge.powerOn]

theorem tablesOk_powerOn : TablesOk Bridge.powerOn := by
  refine ⟨fun i => ?_, fun i => ?_, by decide⟩
  · rw [show Bridge.powerOn.router.windows[i] = Window.powerOn by simp [Bridge.powerOn]]
    decide
  · rw [show Bridge.powerOn.router.classes[i] = ClassEntry.powerOn by simp [Bridge.powerOn]]
    decide

theorem lockListOk_powerOn : LockListOk Bridge.powerOn :=
  ⟨List.nodup_nil, fun _ _ => List.not_mem_nil, fun _ => rfl⟩

/-- With no entry and no pending originator, nobody waits for the lock. -/
theorem lockWaitsOk_powerOn : LockWaitsOk Bridge.powerOn := by
  refine ⟨fun k e he _ => ?_, fun o ho => absurd ho List.not_mem_nil, fun j k e f he _ _ _ _ => ?_⟩
  · simp at he
  · simp at he

theorem countsOk_powerOn : CountsOk Bridge.powerOn := by
  unfold CountsOk
  decide

/-- Neither a layout nor a map is held. -/
theorem mapOk_powerOn : MapOk Bridge.powerOn := by
  refine ⟨fun l hl => ?_, fun m hm => ?_, fun h => ?_⟩
  · cases hl
  · cases hm
  · cases h

theorem strandedOk_powerOn : StrandedOk Bridge.powerOn := by
  have none_stranded : strandedCount Bridge.powerOn = 0 := by simp [strandedCount, Buffer.free]
  rw [StrandedOk, none_stranded]
  exact Nat.zero_le 8

theorem poolOk_powerOn : PoolOk Bridge.powerOn :=
  ⟨fun i _ => powerOn_buf i, fun i h => by simp [Buffer.free] at h, List.nodup_nil,
    fun _ h => absurd h List.not_mem_nil⟩

theorem loadingOk_powerOn : LoadingOk Bridge.powerOn := fun i h => by simp [Buffer.free] at h

/-- Settles O56: every table holds its power-on entry, every buffer is FREE, and nothing else is held. -/
theorem resetObeysTheLawsOfTheState : Obligations.ResetObeysTheLawsOfTheState :=
  ⟨tablesOk_powerOn, ⟨lockListOk_powerOn, lockWaitsOk_powerOn⟩, countsOk_powerOn, mapOk_powerOn, strandedOk_powerOn,
    poolOk_powerOn, loadingOk_powerOn⟩

/-! ### The last operations of a step -/

theorem Lawful.thenFinish {b t : Bridge} (h : Lawful b t) : Lawful b (finish t) := h.trans (finish_lawful t)

theorem Lawful.thenPump {b t : Bridge} (h : Lawful b t) : Lawful b (pump t) := h.trans (pump_lawful t)

/-- An event that acts only where its condition holds. -/
theorem Lawful.onlyIf {b t : Bridge} {p : Prop} [Decidable p] (h : p → Lawful b t) : Lawful b (if p then t else b) := by
  split
  · rename_i hp
    exact h hp
  · exact .refl b

/-- A command keeps the laws where the effect that its meaning gives it keeps them. -/
theorem become_lawful {s t : State} {f : Bridge → Bridge} (hf : ∀ b, Lawful b (f b)) (h : s.become f = .next t) :
    Lawful s.bridge t.bridge := by
  cases h
  exact hf s.bridge

/-! ### Requests -/

theorem execWrite_lawful {hd : Header} {data : List Block} {s t : State} (h : execWrite hd data s = .next t) :
    Lawful s.bridge t.bridge := by
  refine become_lawful (fun b => ?_) h
  split
  · exact (takeRequest_lawful b hd .write (routeBlocks_lawful hd .write data (admitWriteRequest_lawful hd data))).thenFinish
  · exact countMalformed_lawful b

/-- A management request that changes nothing but its own entry: it is answered with a report. -/
theorem manageReport_lawful (h : Header) (op : Op) (items : List Item) (report : Bridge → List Item) (b : Bridge) :
    Lawful b (pump (manage h op items (fun b => answerItems b h.key (report b)) b)) :=
  (manage_lawful h op items (fun b => answer_lawful b h.key .ok 0 (.items (report b))) b).thenPump

/-! ### The links -/

/-- A change of what the Through Port holds, but for its count of stray frames. -/
theorem thru_lawful (b : Bridge) (p : ThroughPort) (hp : p.stray = b.thru.stray) : Lawful b { b with thru := p } :=
  table_lawful b b.table b.link p ⟨rfl, rfl, rfl⟩ hp

theorem execBadCheckFrame_lawful (frame : List Byte) {s t : State} (h : execBadCheckFrame frame s = .next t) :
    Lawful s.bridge t.bridge := by
  refine become_lawful (fun b => ?_) h
  split
  · exact .refl b
  · exact linkCounts_lawful b _ satInc_keeps id id

theorem execDownstreamFrame_lawful {frame : List Byte} {s t : State} (h : execDownstreamFrame frame s = .next t) :
    Lawful s.bridge t.bridge := by
  refine become_lawful (fun b => ?_) h
  exact ((thru_lawful b { b.thru with partialRx := [] } rfl).trans (takeDownstream_lawful _ frame)).thenPump

theorem execDownstreamLinkDown_lawful {s t : State} (h : execDownstreamLinkDown s = .next t) :
    Lawful s.bridge t.bridge := by
  refine become_lawful (fun b => ?_) h
  have down := thru_lawful b { b.thru with line := .down, partialRx := [], tx := none } rfl
  have answered := down.trans (answerAll_lawful _ isForwarded .passTimeout)
  dsimp only
  generalize answerAll _ isForwarded .passTimeout = c at answered ⊢
  exact (answered.trans (thru_lawful c { c.thru with fifo := [] } rfl)).thenPump

theorem execDownstreamLinkUp_lawful {s t : State} (h : execDownstreamLinkUp s = .next t) : Lawful s.bridge t.bridge :=
  become_lawful (fun b => (thru_lawful b { b.thru with line := .up } rfl).thenPump) h

theorem execPassThroughTimeout_lawful {key : Key} {s t : State} (h : execPassThroughTimeout key s = .next t) :
    Lawful s.bridge t.bridge :=
  become_lawful (fun b => .onlyIf fun _ => (answerStatus_lawful b key .passTimeout).thenPump) h

theorem execLinkReset_lawful {s t : State} (h : execLinkReset s = .next t) : Lawful s.bridge t.bridge :=
  become_lawful (fun b => ((resetOwners_lawful b).trans (linkReset_moves b).lawful).thenFinish) h

theorem execLinkResetEnd_lawful {s t : State} (h : execLinkResetEnd s = .next t) : Lawful s.bridge t.bridge :=
  become_lawful (fun b => (table_lawful b b.table { b.link with resetHeld := false } { b.thru with linkHold := false }
    ⟨rfl, rfl, rfl⟩ rfl).thenPump) h

/-- The values of power-on are lawful whatever was before, and a presence that is on starts a settle. -/
theorem execPowerOnReset_lawful {presence : Option Bool} {line : LineState} {s t : State}
    (h : execPowerOnReset presence line s = .next t) : Lawful s.bridge t.bridge := by
  refine become_lawful (fun b => ?_) h
  have values : Lawful b Bridge.powerOn :=
    ⟨fun _ => tablesOk_powerOn, fun _ => lockListOk_powerOn, fun _ => countsOk_powerOn, fun _ => strandedOk_powerOn,
      fun _ => mapOk_powerOn⟩
  have lines := values.trans (thru_lawful Bridge.powerOn
    { Bridge.powerOn.thru with line, powerHold := powerHoldEnd line } rfl)
  unfold powerOnBridge
  cases presence with
  | none => exact lines
  | some tab => exact lines.trans (presenceArrives_lawful _ tab)

theorem execDownstreamResetRelease_lawful {s t : State} (h : execDownstreamResetRelease s = .next t) :
    Lawful s.bridge t.bridge :=
  become_lawful (fun b => .onlyIf fun _ => (thru_lawful b { b.thru with powerHold := none } rfl).thenPump) h

/-! ### The mechanism and the timers -/

theorem execCompletion_lawful {number : BitVec 8} {kind : OrderKind} {result : CompletionResult} {s t : State}
    (h : execCompletion number kind result s = .next t) : Lawful s.bridge t.bridge := by
  refine become_lawful (fun b => ?_) h
  unfold takeCompletion
  split
  · exact .refl b
  · rename_i o _
    split
    · exact .refl b
    · split
      · exact (completionTaken_lawful b o result).thenFinish
      · exact (takeFault_lawful b).thenFinish

theorem execOrderTimeout_lawful {s t : State} (h : execOrderTimeout s = .next t) : Lawful s.bridge t.bridge := by
  refine become_lawful (fun b => ?_) h
  split
  · exact .refl b
  · rename_i o _
    exact .onlyIf fun _ => ((timeOutOrder_lawful b o).trans (timeoutFollows_lawful _ o)).thenFinish

theorem execEjectButton_lawful {s t : State} (h : execEjectButton s = .next t) : Lawful s.bridge t.bridge := by
  refine become_lawful (fun b => ?_) h
  split
  · rename_i b' hb
    exact (requestEject_lawful hb).thenFinish
  · exact .refl b

theorem execDeadlineExpiry_lawful {key : Key} {s t : State} (h : execDeadlineExpiry key s = .next t) :
    Lawful s.bridge t.bridge :=
  become_lawful (fun b => .onlyIf fun _ => (answerStatus_lawful b key .deadlineMissed).thenFinish) h

theorem execAgingExpiry_lawful {i : BufIdx} {s t : State} (h : execAgingExpiry i s = .next t) :
    Lawful s.bridge t.bridge :=
  become_lawful (fun b => .onlyIf fun _ => (testLater_moves b i).lawful.thenFinish) h

theorem execMapWriteDelayExpiry_lawful {s t : State} (h : execMapWriteDelayExpiry s = .next t) :
    Lawful s.bridge t.bridge :=
  become_lawful (fun b => .onlyIf fun _ => (tryMapWrite_moves b).lawful.thenFinish) h

/-- A settle ends in SETTLING alone, where no map is held. -/
theorem execSettleExpiry_lawful {s t : State} (h : execSettleExpiry s = .next t) : Lawful s.bridge t.bridge := by
  refine become_lawful (fun b => .onlyIf fun due => ?_) h
  have settling : b.cart.state = .settling := by
    simp only [settleDue, Bool.and_eq_true, beq_iff_eq] at due
    exact due.1
  exact (endSettle_lawful b settling).thenFinish

theorem execQuiesceExpiry_lawful {s t : State} (h : execQuiesceExpiry s = .next t) : Lawful s.bridge t.bridge := by
  refine become_lawful (fun b => ?_) h
  split
  · exact .refl b
  · exact .onlyIf fun _ => (quiesceExpires_lawful b _).thenFinish

theorem execSpinDownTimerExpiry_lawful {s t : State} (h : execSpinDownTimerExpiry s = .next t) :
    Lawful s.bridge t.bridge :=
  become_lawful (fun b => .onlyIf fun _ => (askLife_course b .spinDown).lawful.thenFinish) h

/-! ### Every command and every step -/

theorem exec_lawful {c : Instr} {s t : State} (h : exec c s = .next t) : Lawful s.bridge t.bridge := by
  cases c with
  | powerOnReset presence line => exact execPowerOnReset_lawful h
  | linkReset => exact execLinkReset_lawful h
  | linkResetEnd => exact execLinkResetEnd_lawful h
  | badCheckFrame frame => exact execBadCheckFrame_lawful frame h
  | malformedFrame frame => exact become_lawful countMalformed_lawful h
  | unknownOperation hd code =>
    exact become_lawful (fun b => (takeRequest_lawful b hd (.other code) .refl).thenPump) h
  | read hd =>
    exact become_lawful (fun b => (takeRequest_lawful b hd .read
      (routeBlocks_lawful hd .read [] (admitRead_lawful hd))).thenFinish) h
  | write hd data => exact execWrite_lawful h
  | flush hd =>
    exact become_lawful (fun b => (takeRequest_lawful b hd .flush
      (routeLocal_lawful hd .flush (flushLocal_lawful hd))).thenFinish) h
  | sense hd =>
    exact become_lawful (fun b => (takeRequest_lawful b hd .sense
      (routeLocal_lawful hd .sense (senseLocal_lawful hd))).thenPump) h
  | abort hd => exact become_lawful (fun b => (takeRequest_lawful b hd .abort (routeAbort_lawful hd)).thenFinish) h
  | identify hd items => exact become_lawful (manageReport_lawful hd .identify items identityItems) h
  | readSettings hd items =>
    exact become_lawful (manageReport_lawful hd .readSettings items fun b => readSettingItems b items) h
  | setSettings hd items =>
    exact become_lawful (fun b => (manage_lawful hd .setSettings items (setSettings_lawful hd items) b).thenFinish) h
  | readWindow hd items =>
    exact become_lawful (fun b => (manage_lawful hd .readWindow items (readWindow_lawful hd items) b).thenPump) h
  | writeWindow hd items =>
    exact become_lawful (fun b => (manage_lawful hd .writeWindow items (writeWindow_lawful hd items) b).thenPump) h
  | readClass hd items =>
    exact become_lawful (fun b => (manage_lawful hd .readClass items (readClass_lawful hd items) b).thenPump) h
  | writeClass hd items =>
    exact become_lawful (fun b => (manage_lawful hd .writeClass items (writeClass_lawful hd items) b).thenPump) h
  | lockRequest hd items =>
    exact become_lawful (fun b => (manage_lawful hd .lockRequest items (lockRequest_lawful hd) b).thenPump) h
  | lockRelease hd items =>
    exact become_lawful (fun b => (manage_lawful hd .lockRelease items (lockRelease_lawful hd) b).thenPump) h
  | lockCancel hd items =>
    exact become_lawful (fun b => (manage_lawful hd .lockCancel items (lockCancel_lawful hd) b).thenPump) h
  | lockStatus hd items => exact become_lawful (manageReport_lawful hd .lockStatus items lockStatusItems) h
  | readCartridge hd items => exact become_lawful (manageReport_lawful hd .readCartridge items cartridgeItems) h
  | readZones hd items => exact become_lawful (manageReport_lawful hd .readZones items zoneItems) h
  | readDefects hd items =>
    exact become_lawful (fun b => (manage_lawful hd .readDefects items (readDefects_lawful hd items) b).thenPump) h
  | readExceptions hd items =>
    exact become_lawful (fun b => (manage_lawful hd .readExceptions items (readExceptions_lawful hd) b).thenPump) h
  | readPool hd items => exact become_lawful (manageReport_lawful hd .readPool items (poolItems hd.key)) h
  | readLinkCounts hd items => exact become_lawful (manageReport_lawful hd .readLinkCounts items linkItems) h
  | eject hd items =>
    exact become_lawful (fun b => (manage_lawful hd .eject items (eject_lawful hd items) b).thenFinish) h
  | recover hd items =>
    exact become_lawful (fun b => (manage_lawful hd .recover items (recover_lawful hd) b).thenFinish) h
  | discardStranded hd items =>
    exact become_lawful (fun b => (manage_lawful hd .discardStranded items (discardStranded_lawful hd) b).thenFinish) h
  | transmissionEnd => exact become_lawful (fun b => (endTransmission_lawful b).thenPump) h
  | forwardTransmissionEnd => exact become_lawful (fun b => (endForward_lawful b).thenPump) h
  | downstreamFrame frame => exact execDownstreamFrame_lawful h
  | downstreamLinkDown => exact execDownstreamLinkDown_lawful h
  | downstreamLinkUp => exact execDownstreamLinkUp_lawful h
  | deadlineExpiry key => exact execDeadlineExpiry_lawful h
  | passThroughTimeout key => exact execPassThroughTimeout_lawful h
  | orderTimeout => exact execOrderTimeout_lawful h
  | agingExpiry i => exact execAgingExpiry_lawful h
  | mapWriteDelayExpiry => exact execMapWriteDelayExpiry_lawful h
  | settleExpiry => exact execSettleExpiry_lawful h
  | quiesceExpiry => exact execQuiesceExpiry_lawful h
  | spinDownTimerExpiry => exact execSpinDownTimerExpiry_lawful h
  | completion number kind result => exact execCompletion_lawful h
  | presenceOn tab => exact become_lawful (presenceArrives_lawful · tab) h
  | presenceOff => exact become_lawful (fun b => (presenceLeaves_lawful b).thenFinish) h
  | ejectButton => exact execEjectButton_lawful h
  | fault => exact become_lawful (fun b => (takeFault_lawful b).thenFinish) h
  | spareRequestTaken i => exact become_lawful (fun b => (takeSpareRequest_moves b i).lawful.thenFinish) h
  | downstreamResetRelease => exact execDownstreamResetRelease_lawful h

/-- Every step keeps every law of the state that `Lawful` names: a command by its meaning, and a millisecond because no law
speaks of the clock. -/
theorem step_lawful {s t : State} (h : step s = .next t) : Lawful s.bridge t.bridge := by
  unfold step at h
  split at h
  · cases h
    exact ⟨id, id, id, id, id⟩
  · rename_i c rest _
    exact exec_lawful (s := { s with pending := rest }) h

/-- Settles O59: the law of the map is one of those that every step keeps. -/
theorem everyStepKeepsTheMapLawful : Obligations.EveryStepKeepsTheMapLawful :=
  fun _ _ h => (step_lawful h).mapOk

end Sys2Proof.Machine
end

section
/-! PROOFS. The zone arithmetic of R8 over contiguous zones, and the translation of R15 over a lawful map. -/

namespace Sys2Proof.Machine

/-! ### From an LSN to its home PSA (R8) -/

/-- The number of user sectors in the first `z` zones, C(z) (R8). -/
def userBefore (zs : List ZoneEntry) (z : Nat) : Nat := ((zs.take z).map zoneUser).sum

theorem firstLsn_eq (l : Label) (z : Nat) : firstLsn l z = userBefore l.zones z := rfl

@[simp] theorem userBefore_zero (zs : List ZoneEntry) : userBefore zs 0 = 0 := rfl

@[simp] theorem userBefore_succ (z0 : ZoneEntry) (zs : List ZoneEntry) (z : Nat) :
    userBefore (z0 :: zs) (z + 1) = zoneUser z0 + userBefore zs z := rfl

/-- The zone of an LSN is the one whose user sectors it is counted in. -/
theorem homePsaIn_of_zone : ∀ {zs : List ZoneEntry} {z n : Nat} {e : ZoneEntry}, zs[z]? = some e →
    userBefore zs z ≤ n → n < userBefore zs z + zoneUser e → homePsaIn zs n = some (e.first + (n - userBefore zs z))
  | [], _, _, _, hz, _, _ => by simp at hz
  | z0 :: zs, 0, n, e, hz, _, hlt => by
    obtain rfl : z0 = e := by simpa using hz
    rw [userBefore_zero, Nat.zero_add] at hlt
    rw [homePsaIn, if_pos hlt, userBefore_zero, Nat.sub_zero]
  | z0 :: zs, z + 1, n, e, hz, hle, hlt => by
    rw [userBefore_succ] at hle hlt
    have ih := homePsaIn_of_zone (zs := zs) (n := n - zoneUser z0) (by simpa using hz) (by omega) (by omega)
    rw [homePsaIn, if_neg (by omega), ih, userBefore_succ, Nat.sub_sub]

/-- An LSN past the user sectors of every zone has no home PSA. -/
theorem homePsaIn_beyond : ∀ {zs : List ZoneEntry} {n : Nat}, (zs.map zoneUser).sum ≤ n → homePsaIn zs n = none
  | [], _, _ => rfl
  | z0 :: zs, n, h => by
    rw [List.map_cons, List.sum_cons] at h
    rw [homePsaIn, if_neg (by omega), homePsaIn_beyond (by omega)]

/-! ### From a user PSA to its LSN (R8) -/

theorem isUserOf_iff (z : ZoneEntry) (p : Nat) : isUserOf z p = true ↔ z.first ≤ p ∧ p < z.first + zoneUser z := by
  simp [isUserOf]

/-- Contiguous zones: the first begins where the layout does, and the others where it ends. -/
theorem zonesFrom_cons {z : ZoneEntry} {zs : List ZoneEntry} {p : Nat} (h : zonesFrom (z :: zs) p = true) :
    z.first = p ∧ zonesFrom zs (p + zoneSize z) = true := by
  simp only [zonesFrom, Bool.and_eq_true, beq_iff_eq] at h
  obtain ⟨⟨⟨⟨⟨first, _⟩, _⟩, _⟩, _⟩, rest⟩ := h
  exact ⟨first, rest⟩

/-- No zone before that of a user PSA holds it, since the zones ascend. -/
theorem homeLsnIn_of_zone : ∀ {zs : List ZoneEntry} {start c z p : Nat} {e : ZoneEntry}, zonesFrom zs start = true →
    zs[z]? = some e → isUserOf e p = true → homeLsnIn zs c p = some (c + userBefore zs z + (p - e.first))
  | [], _, _, _, _, _, _, hz, _ => by simp at hz
  | z0 :: zs, _, c, 0, p, e, _, hz, hp => by
    obtain rfl : z0 = e := by simpa using hz
    rw [homeLsnIn, if_pos hp, userBefore_zero, Nat.add_zero]
  | z0 :: zs, start, c, z + 1, p, e, ok, hz, hp => by
    obtain ⟨first, rest⟩ := zonesFrom_cons ok
    have hz' : zs[z]? = some e := by simpa using hz
    have notHere : ¬ isUserOf z0 p = true := by
      have := zonesFrom_le rest e (List.mem_of_getElem? hz')
      have := zoneUser_le z0
      have := (isUserOf_iff e p).1 hp
      rw [isUserOf_iff]
      omega
    rw [homeLsnIn, if_neg notHere, homeLsnIn_of_zone rest hz' hp, userBefore_succ, Nat.add_assoc c]

/-- A PSA that is a user PSA of no zone has no LSN. -/
theorem homeLsnIn_none : ∀ {zs : List ZoneEntry} {c p : Nat}, zs.any (fun z => isUserOf z p) = false →
    homeLsnIn zs c p = none
  | [], _, _, _ => rfl
  | z0 :: zs, c, p, h => by
    rw [List.any_cons, Bool.or_eq_false_iff] at h
    obtain ⟨here, later⟩ := h
    rw [homeLsnIn, if_neg (by simp [here]), homeLsnIn_none later]

/-! ### The zone arithmetic of a label -/

theorem homePsa_of_zone {l : Label} {z n : Nat} {e : ZoneEntry} (hz : l.zones[z]? = some e) (hle : firstLsn l z ≤ n)
    (hlt : n < firstLsn l z + zoneUser e) : homePsa l n = some (e.first + (n - firstLsn l z)) := by
  rw [firstLsn_eq] at hle hlt ⊢
  exact homePsaIn_of_zone hz hle hlt

theorem homePsa_beyond {l : Label} {n : Nat} (h : userCount l ≤ n) : homePsa l n = none := homePsaIn_beyond h

theorem zonesOk_zonesFrom {l : Label} (ok : zonesOk l = true) : zonesFrom l.zones l.controlCount = true := by
  simp only [zonesOk, Bool.and_eq_true] at ok
  obtain ⟨⟨⟨_, contiguous⟩, _⟩, _⟩ := ok
  exact contiguous

theorem homeLsn_of_zone {l : Label} {z p : Nat} {e : ZoneEntry} (ok : zonesOk l = true) (hz : l.zones[z]? = some e)
    (hp : isUserOf e p = true) : homeLsn l p = some (firstLsn l z + (p - e.first)) := by
  rw [homeLsn, homeLsnIn_of_zone (zonesOk_zonesFrom ok) hz hp, firstLsn_eq, Nat.zero_add]

/-- The home PSA of the LSN that the arithmetic gives a user PSA is that PSA. -/
theorem homePsa_of_user {l : Label} {z p : Nat} {e : ZoneEntry} (hz : l.zones[z]? = some e) (hp : isUserOf e p = true) :
    homePsa l (firstLsn l z + (p - e.first)) = some p := by
  obtain ⟨hle, hlt⟩ := (isUserOf_iff e p).1 hp
  rw [homePsa_of_zone hz (Nat.le_add_right _ _) (by omega), Nat.add_sub_cancel_left, Nat.add_sub_of_le hle]

/-- Control and spare PSAs are the home PSA of no LSN. -/
theorem homePsa_ne_of_not_user {l : Label} {p : Nat} (h : isUser l p = false) (n : Nat) : homePsa l n ≠ some p := by
  intro hn
  rw [homePsa_user hn] at h
  cases h

/-! ### Translation (R15) -/

theorem translatePsa_home {m : List MapEntry} {p : Nat} (h : ∀ e ∈ m, e.defective ≠ p) : translatePsa m p = .home p := by
  have noEntry : entryOf m p = none := List.find?_eq_none.2 fun e he => by simpa using h e he
  rw [translatePsa, noEntry]

/-- A lawful map has one entry for a defective PSA, so that it is the entry found. -/
theorem entryOf_eq {m : List MapEntry} {e : MapEntry} (laws : mapLaws m = true) (he : e ∈ m) :
    entryOf m e.defective = some e := by
  obtain ⟨_, unordered, _⟩ := (mapLaws_iff m).1 laws
  cases found : entryOf m e.defective with
  | none => exact absurd rfl (entryOf_none found e he)
  | some f =>
    obtain ⟨same, hf⟩ := entryOf_defective found
    rw [List.inj_on_of_nodup_map unordered.defectives hf he same]

theorem translatePsa_spare {m : List MapEntry} {e : MapEntry} {s : Nat} (laws : mapLaws m = true) (he : e ∈ m)
    (hs : e.spare = some s) : translatePsa m e.defective = .spare s := by
  rw [translatePsa, entryOf_eq laws he]
  simp only [hs]

theorem translatePsa_lost {m : List MapEntry} {e : MapEntry} (laws : mapLaws m = true) (he : e ∈ m)
    (hs : e.spare = none) : translatePsa m e.defective = .lost := by
  rw [translatePsa, entryOf_eq laws he]
  simp only [hs]

/-- The spare of an entry is defective in none, so that a translation is made once. -/
theorem translatePsa_of_spare {m : List MapEntry} {e : MapEntry} {s : Nat} (laws : mapLaws m = true) (he : e ∈ m)
    (hs : e.spare = some s) : translatePsa m s = .home s := by
  obtain ⟨_, unordered, _⟩ := (mapLaws_iff m).1 laws
  exact translatePsa_home (unordered.apart e he s hs)

/-- Settles O11: by induction over the zones, and because a lawful map names each defective PSA once and no spare as
defective. -/
theorem homePsaAndTranslationFollowTheTables : Obligations.HomePsaAndTranslationFollowTheTables := by
  refine ⟨fun l ok => ⟨fun z e n hz hle hlt => homePsa_of_zone hz hle hlt, fun n => homePsa_beyond,
    fun z e p hz hle hlt => ?_, fun p hp => ⟨homeLsnIn_none hp, homePsa_ne_of_not_user hp⟩⟩,
    fun m p laws => ⟨translatePsa_home, ?_⟩⟩
  · have hp : isUserOf e p = true := (isUserOf_iff e p).2 ⟨hle, hlt⟩
    exact ⟨homeLsn_of_zone ok hz hp, homePsa_of_user hz hp⟩
  · rintro e he rfl
    exact ⟨fun s hs => ⟨translatePsa_spare laws he hs, translatePsa_of_spare laws he hs⟩, translatePsa_lost laws he⟩

end Sys2Proof.Machine
end

section
/-! PROOFS. The end of a mount read (R143): what each way out leaves of the bridge whose cartridge is mounting. -/

namespace Sys2Proof.Machine

/-! ### The staging area (R3, R93) -/

theorem stageRead_good {b : Bridge} {outcomes : List SectorOutcome} {k : Fin 4} {d : SectorData}
    (h : outcomes[k.val]? = some (.good (some d))) : (stageRead b outcomes).dm.staging[k] = d := by
  simp [stageRead, h]

theorem stageRead_failed {b : Bridge} {outcomes : List SectorOutcome} {k : Fin 4}
    (h : ∀ d, outcomes[k.val]? ≠ some (.good d)) : (stageRead b outcomes).dm.staging[k] = b.dm.staging[k] := by
  simp only [stageRead, Fin.getElem_fin, Vector.getElem_ofFn]
  split
  · rename_i d hd
    exact absurd hd (h d)
  all_goals rfl

/-! ### What the ways out leave alone -/

theorem raiseEvent_dm (b : Bridge) (ev : AttnEvent) : (raiseEvent b ev).dm = b.dm := (raiseEvent_mapKept b ev).dm

theorem attnTest_cart (b : Bridge) : (attnTest b).cart = b.cart := by
  unfold attnTest
  split
  · rfl
  · split
    · rfl
    · rfl

theorem raiseEvent_cart (b : Bridge) (ev : AttnEvent) : (raiseEvent b ev).cart = b.cart := by
  unfold raiseEvent
  split
  · exact attnTest_cart _
  · rfl

theorem enterUnusable_dm (b : Bridge) (r : Reason) : (enterUnusable b r).dm = b.dm := raiseEvent_dm _ _

theorem askMount_dm (b : Bridge) (st : MountStep) : (askMount b st).dm = b.dm := rfl

/-- The cartridge of `b` is refused with a reason: what else `t` holds differs from `b` in the staging area, the life-cycle
order that was asked for, and what CARTRIDGE_UNUSABLE brings about (R142, R143, R156). -/
def Refused (b t : Bridge) (r : Reason) : Prop :=
  t.cart.state = .unusable ∧ t.cart.reason = some r ∧ t.cart.mountStep = none ∧ t.dm.map = b.dm.map
    ∧ t = raiseEvent { b with
        dm := t.dm, arb := { b.arb with life := none }
        cart := { b.cart with state := .unusable, reason := some r, mountStep := none } } .cartridgeUnusable

/-- The mount goes on with a read, and nothing is raised (R143). -/
def ReadsNext (b t : Bridge) (st : MountStep) : Prop :=
  t.cart.mountStep = some st ∧ t.cart.state = b.cart.state ∧ t.link = b.link ∧ t.mgmt = b.mgmt

/-- The map is accepted: it is held as it was read, the counters are at 0, and CARTRIDGE_READY is raised (R126, R144, R156). -/
def Accepted (b t : Bridge) (entries : List MapEntry) (generation : BitVec 32) : Prop :=
  t.cart.state = .ready ∧ t.cart.mountStep = none
    ∧ (t.cart.soft, t.cart.hard, t.cart.remaps, t.cart.relocations, t.cart.deferred) = (0, 0, 0, 0, 0)
    ∧ t.dm.map = some (acceptedMap entries generation)
    ∧ t = raiseEvent { b with
        dm := t.dm
        cart := { b.cart with
          state := .ready, soft := 0, hard := 0, remaps := 0, relocations := 0, deferred := 0, mountStep := none } }
        .cartridgeReady

theorem enterUnusable_refused (b : Bridge) (outcomes : List SectorOutcome) (r : Reason) :
    Refused b (enterUnusable (stageRead b outcomes) r) r := by
  have cart := raiseEvent_cart { stageRead b outcomes with
    cart := { b.cart with state := .unusable, reason := some r, mountStep := none }
    arb := { b.arb with life := none } } .cartridgeUnusable
  have dm := enterUnusable_dm (stageRead b outcomes) r
  unfold Refused
  rw [dm]
  refine ⟨?_, ?_, ?_, rfl, rfl⟩
  · exact congrArg CartRecord.state cart
  · exact congrArg CartRecord.reason cart
  · exact congrArg CartRecord.mountStep cart

theorem askMount_readsNext (b : Bridge) (outcomes : List SectorOutcome) (st : MountStep) :
    ReadsNext b (askMount (stageRead b outcomes) st) st := ⟨rfl, rfl, rfl, rfl⟩

theorem acceptMount_accepted (b : Bridge) (outcomes : List SectorOutcome) (entries : List MapEntry) (g : BitVec 32) :
    Accepted b (acceptMount (stageRead b outcomes) entries g) entries g := by
  have cart : (acceptMount (stageRead b outcomes) entries g).cart = _ := raiseEvent_cart _ _
  have dm : (acceptMount (stageRead b outcomes) entries g).dm = _ := raiseEvent_dm _ _
  unfold Accepted
  rw [dm, cart]
  exact ⟨rfl, rfl, rfl, rfl, rfl⟩

/-! ### The ways out (R143) -/

theorem outcomeGood_iff (o : SectorOutcome) : outcomeGood o = true ↔ ∃ d, o = .good d := by
  cases o with
  | good d => exact ⟨fun _ => ⟨d, rfl⟩, fun _ => rfl⟩
  | noId => simp [outcomeGood]
  | dataError => simp [outcomeGood]
  | writeFault => simp [outcomeGood]

theorem mountReadEnded_failed {b : Bridge} {st : MountStep} {outcomes : List SectorOutcome}
    (hst : b.cart.mountStep = some st) (bad : ¬ ∀ o ∈ outcomes, ∃ d, o = .good d) :
    mountReadEnded b outcomes = mountFailed (stageRead b outcomes) st := by
  have notAll : ¬ outcomes.all outcomeGood = true := by simpa only [List.all_eq_true, outcomeGood_iff] using bad
  unfold mountReadEnded
  rw [hst]
  exact if_neg notAll

theorem mountReadEnded_label {b : Bridge} {attempt : Nat} {outcomes : List SectorOutcome}
    (hst : b.cart.mountStep = some ⟨.label, attempt⟩) (good : outcomes.all outcomeGood = true) :
    mountReadEnded b outcomes = judgeLabel (stageRead b outcomes) := by
  unfold mountReadEnded
  rw [hst]
  exact if_pos good

theorem mountReadEnded_map {b : Bridge} {attempt : Nat} {outcomes : List SectorOutcome}
    (hst : b.cart.mountStep = some ⟨.map, attempt⟩) (good : outcomes.all outcomeGood = true) :
    mountReadEnded b outcomes = judgeMapRead (stageRead b outcomes) := by
  unfold mountReadEnded
  rw [hst]
  exact if_pos good

/-! ### What was read stays in the staging area -/

theorem mountFailed_staging (b : Bridge) (st : MountStep) : (mountFailed b st).dm.staging = b.dm.staging := by
  unfold mountFailed
  split
  · rw [askMount_dm]
  · rw [enterUnusable_dm]

theorem judgeLabel_staging (b : Bridge) : (judgeLabel b).dm.staging = b.dm.staging := by
  unfold judgeLabel
  dsimp only
  split
  · rw [enterUnusable_dm]
  · split
    · rw [enterUnusable_dm]
    · rfl

theorem acceptMount_staging (b : Bridge) (entries : List MapEntry) (g : BitVec 32) :
    (acceptMount b entries g).dm.staging = b.dm.staging := by
  rw [acceptMount, raiseEvent_dm]

theorem judgeMapRead_staging (b : Bridge) : (judgeMapRead b).dm.staging = b.dm.staging := by
  unfold judgeMapRead
  split
  · rw [enterUnusable_dm]
  · split
    · rw [enterUnusable_dm]
    · exact acceptMount_staging ..

theorem mountReadEnded_staging {b : Bridge} {st : MountStep} (outcomes : List SectorOutcome)
    (hst : b.cart.mountStep = some st) :
    (mountReadEnded b outcomes).dm.staging = (stageRead b outcomes).dm.staging := by
  unfold mountReadEnded
  rw [hst]
  dsimp only
  split
  · split
    · exact judgeLabel_staging _
    · exact judgeMapRead_staging _
  · exact mountFailed_staging _ _

/-! ### The judgements -/

theorem failed_readsNext {b : Bridge} {st : MountStep} {outcomes : List SectorOutcome} (hst : b.cart.mountStep = some st)
    (bad : ¬ ∀ o ∈ outcomes, ∃ d, o = .good d) (below : st.attempt < 4) :
    ReadsNext b (mountReadEnded b outcomes) ⟨st.read, st.attempt + 1⟩ := by
  rw [mountReadEnded_failed hst bad, mountFailed, if_pos below]
  exact askMount_readsNext ..

theorem failed_refused {b : Bridge} {st : MountStep} {outcomes : List SectorOutcome} (hst : b.cart.mountStep = some st)
    (bad : ¬ ∀ o ∈ outcomes, ∃ d, o = .good d) (last : 4 ≤ st.attempt) :
    Refused b (mountReadEnded b outcomes) (failReason st.read) := by
  rw [mountReadEnded_failed hst bad, mountFailed, if_neg (Nat.not_lt.2 last)]
  exact enterUnusable_refused ..

/-- The outcome of a label read in which the label came. -/
def labelRead (l : Label) : List SectorOutcome := [.good (some (.label l))]

/-- The outcomes of a map read in which the four map sectors came. -/
def mapRead (m : Fin 4 → MapSector) : List SectorOutcome :=
  [.good (some (.map (m 0))), .good (some (.map (m 1))), .good (some (.map (m 2))), .good (some (.map (m 3)))]

theorem asLabel_stageRead (b : Bridge) (l : Label) : asLabel (stageRead b (labelRead l)).dm.staging[0] = l := rfl

theorem asMapSector_stageRead (b : Bridge) (m : Fin 4 → MapSector) :
    (stageRead b (mapRead m)).dm.staging.toList.map asMapSector = [m 0, m 1, m 2, m 3] := rfl

section Label
variable {b : Bridge} {l : Label} {attempt : Nat}

theorem mountReadEnded_labelRead (hst : b.cart.mountStep = some ⟨.label, attempt⟩) :
    mountReadEnded b (labelRead l) = judgeLabel (stageRead b (labelRead l)) := mountReadEnded_label hst rfl

theorem badLabel_refused (hst : b.cart.mountStep = some ⟨.label, attempt⟩) (bad : labelOk l = false) :
    Refused b (mountReadEnded b (labelRead l)) .badLabel := by
  rw [mountReadEnded_labelRead hst, judgeLabel, asLabel_stageRead, bad]
  exact enterUnusable_refused ..

theorem badZones_refused (hst : b.cart.mountStep = some ⟨.label, attempt⟩) (ok : labelOk l = true)
    (bad : zonesOk l = false) : Refused b (mountReadEnded b (labelRead l)) .badZones := by
  rw [mountReadEnded_labelRead hst, judgeLabel, asLabel_stageRead, ok, bad]
  exact enterUnusable_refused ..

theorem goodLabel_readsMap (hst : b.cart.mountStep = some ⟨.label, attempt⟩) (ok : labelOk l = true)
    (zones : zonesOk l = true) :
    (mountReadEnded b (labelRead l)).cart.layout = some l
    ∧ ReadsNext b (mountReadEnded b (labelRead l)) ⟨.map, 1⟩ := by
  rw [mountReadEnded_labelRead hst, judgeLabel, asLabel_stageRead, ok, zones]
  exact ⟨rfl, rfl, rfl, rfl, rfl⟩

end Label

section Map
variable {b : Bridge} {l : Label} {m : Fin 4 → MapSector} {attempt : Nat}

theorem mountReadEnded_mapRead (hst : b.cart.mountStep = some ⟨.map, attempt⟩) :
    mountReadEnded b (mapRead m) = judgeMapRead (stageRead b (mapRead m)) := mountReadEnded_map hst rfl

theorem badMap_refused (hst : b.cart.mountStep = some ⟨.map, attempt⟩) (held : b.cart.layout = some l)
    (bad : judgeMap l [m 0, m 1, m 2, m 3] = none) : Refused b (mountReadEnded b (mapRead m)) .badMap := by
  rw [mountReadEnded_mapRead hst, judgeMapRead, stageRead_cart, held]
  dsimp only
  rw [asMapSector_stageRead, bad]
  exact enterUnusable_refused ..

theorem goodMap_accepted {entries : List MapEntry} (hst : b.cart.mountStep = some ⟨.map, attempt⟩)
    (held : b.cart.layout = some l) (good : judgeMap l [m 0, m 1, m 2, m 3] = some entries) :
    Accepted b (mountReadEnded b (mapRead m)) entries (m 0).generation := by
  rw [mountReadEnded_mapRead hst, judgeMapRead, stageRead_cart, held]
  dsimp only
  rw [asMapSector_stageRead, good]
  exact acceptMount_accepted ..

end Map

/-- Settles O43: each way out of a mount read is that of `mountFailed`, `judgeLabel` or `judgeMapRead` after the staging. -/
theorem mountReadsAreJudged : Obligations.MountReadsAreJudged := by
  rintro b ⟨read, attempt⟩ outcomes hst
  refine ⟨fun k => ?_, fun bad => ⟨failed_readsNext hst bad, fun last => ?_⟩, ?_, ?_⟩
  · rw [mountReadEnded_staging outcomes hst]
    exact ⟨fun d => stageRead_good, stageRead_failed⟩
  · cases read with
    | label => exact failed_refused hst bad last
    | map => exact failed_refused hst bad last
  · rintro l rfl rfl
    exact ⟨badLabel_refused hst, badZones_refused hst, goodLabel_readsMap hst⟩
  · rintro l m rfl held rfl
    exact ⟨badMap_refused hst held, fun entries => goodMap_accepted hst held⟩

end Sys2Proof.Machine
end


section
/-! PROOFS. The edit lock at every step: each command's meaning is made of operations that keep the laws of the lock
(Laws/Lock.lean). The tables and the settings stand in `Lawful`. -/

namespace Sys2Proof.Machine

/-- The laws of the edit lock hold after the operation where they held before it. -/
def KeepsLock (f : Bridge → Bridge) : Prop := ∀ b, LockOk b → LockOk (f b)

theorem KeepsLock.thenFinish {f : Bridge → Bridge} (h : KeepsLock f) : KeepsLock fun b => finish (f b) :=
  fun b ok => (finish_lockKept (f b)).lockOk (h b ok)

theorem KeepsLock.thenPump {f : Bridge → Bridge} (h : KeepsLock f) : KeepsLock fun b => pump (f b) :=
  fun b ok => (pump_lockKept (f b)).lockOk (h b ok)

/-- An event that acts only where its condition holds. -/
theorem LockKept.onlyIf {b t : Bridge} {p : Prop} [Decidable p] (h : p → LockKept b t) : LockKept b (if p then t else b) := by
  split
  · rename_i hp
    exact h hp
  · exact .refl b

theorem LockKept.thenFinish {b t : Bridge} (h : LockKept b t) : LockKept b (finish t) := h.trans (finish_lockKept t)

theorem LockKept.thenPump {b t : Bridge} (h : LockKept b t) : LockKept b (pump t) := h.trans (pump_lockKept t)

theorem become_lockOk {s t : State} {f : Bridge → Bridge} (hf : KeepsLock f) (h : s.become f = .next t)
    (ok : LockOk s.bridge) : LockOk t.bridge := by
  cases h
  exact hf s.bridge ok

theorem become_lockKept {s t : State} {f : Bridge → Bridge} (hf : ∀ b, LockKept b (f b)) (h : s.become f = .next t) :
    LockKept s.bridge t.bridge := by
  cases h
  exact hf s.bridge

/-! ### Requests -/

/-- A request frame whose routing leaves the lock alone where its key does not wait for it. -/
theorem takeRequest_keepsLock {h : Header} (op : Op) {route : Bridge → Bridge}
    (hr : ∀ c, NotWaiting c h.key → LockKept c (route c)) : KeepsLock fun b => takeRequest b h op route :=
  fun _ ok => takeRequest_lockOk (fun c hk ok => (hr c hk).lockOk ok) ok

/-- A management request whose operation leaves the lock alone. -/
theorem manage_keepsLock {h : Header} {op : Op} {items : List Item} {act : Bridge → Bridge}
    (ha : ∀ c, NotWaiting c h.key → LockKept c (act c)) : KeepsLock (manage h op items act) :=
  fun _ ok => manage_lockOk_of ha ok

theorem manageReport_keepsLock (h : Header) (op : Op) (items : List Item) (report : Bridge → List Item) :
    KeepsLock fun b => pump (manage h op items (fun b => answerItems b h.key (report b)) b) :=
  (manage_keepsLock fun c hk => answerItems_lockKept hk (report c)).thenPump

theorem manage_lockRequest_keepsLock (h : Header) (items : List Item) :
    KeepsLock (manage h .lockRequest items (lockRequest h)) :=
  fun _ ok => manage_lockOk (fun _ _ he ho hs ok => lockRequest_lockOk he ho hs ok) ok

/-- The operations of the lock other than LOCK_REQUEST ask only that their own entry does not wait for it. -/
theorem manage_keepsLock_at {h : Header} {op : Op} {items : List Item} {act : Bridge → Bridge}
    (ha : ∀ c, NotWaiting c h.key → LockOk c → LockOk (act c)) : KeepsLock (manage h op items act) :=
  fun _ ok => manage_lockOk (fun c e he _ hs ok => ha c (fun f hf => by rw [he] at hf; cases hf; simp [hs]) ok) ok

theorem execWrite_lockOk {hd : Header} {data : List Block} {s t : State} (h : execWrite hd data s = .next t)
    (ok : LockOk s.bridge) : LockOk t.bridge := by
  refine become_lockOk (fun b ok => ?_) h ok
  split
  · have routed := takeRequest_keepsLock .write fun _ hk =>
      routeBlocks_lockKept (h := hd) .write data (fun i cb _ => admitWriteRequest_lockKept data i cb) hk
    exact routed.thenFinish b ok
  · exact (countMalformed_lockKept b).lockOk ok

/-! ### The links -/

theorem execBadCheckFrame_lockKept (frame : List Byte) {s t : State} (h : execBadCheckFrame frame s = .next t) :
    LockKept s.bridge t.bridge := by
  refine become_lockKept (fun b => ?_) h
  split
  · exact .refl b
  · exact link_lockKept b _

theorem execDownstreamFrame_lockKept {frame : List Byte} {s t : State} (h : execDownstreamFrame frame s = .next t) :
    LockKept s.bridge t.bridge :=
  become_lockKept (fun b => ((thru_lockKept b _).trans (takeDownstream_lockKept _ frame)).thenPump) h

theorem isForwarded_notWaiting {e : Entry} (h : isForwarded e = true) : e.state ≠ .awaitLock := by
  intro hs
  simp [isForwarded, hs] at h

theorem execDownstreamLinkDown_lockKept {s t : State} (h : execDownstreamLinkDown s = .next t) :
    LockKept s.bridge t.bridge :=
  become_lockKept (fun b => (((thru_lockKept b _).trans
    (answerAll_lockKept _ (fun _ => isForwarded_notWaiting) .passTimeout)).trans (thru_lockKept _ _)).thenPump) h

theorem execDownstreamLinkUp_lockKept {s t : State} (h : execDownstreamLinkUp s = .next t) :
    LockKept s.bridge t.bridge := become_lockKept (fun b => (thru_lockKept b _).thenPump) h

theorem passDue_notWaiting {b : Bridge} {e : Entry} (h : passDue b e = true) : e.state ≠ .awaitLock := by
  intro hs
  simp [passDue, hs] at h

theorem execPassThroughTimeout_lockKept {key : Key} {s t : State} (h : execPassThroughTimeout key s = .next t) :
    LockKept s.bridge t.bridge :=
  become_lockKept (fun _ => .onlyIf fun due => (answerDue_lockKept due (fun _ => passDue_notWaiting) _).thenPump) h

theorem linkReset_lockOk (b : Bridge) : LockOk (linkReset b) :=
  (linkReset_moves b).lockKept.lockOk (resetOwners_lockOk b)

theorem execLinkResetEnd_lockKept {s t : State} (h : execLinkResetEnd s = .next t) : LockKept s.bridge t.bridge :=
  become_lockKept (fun b => ((link_lockKept b { b.link with resetHeld := false }).trans
    (thru_lockKept _ { b.thru with linkHold := false })).thenPump) h

theorem execPowerOnReset_lockOk {presence : Option Bool} {line : LineState} {s t : State}
    (h : execPowerOnReset presence line s = .next t) : LockOk t.bridge := by
  cases h
  have lines := (thru_lockKept Bridge.powerOn { Bridge.powerOn.thru with line, powerHold := powerHoldEnd line }).lockOk
    ⟨lockListOk_powerOn, lockWaitsOk_powerOn⟩
  cases presence with
  | none => exact lines
  | some tab => exact (presenceArrives_lockKept _ tab).lockOk lines

theorem execDownstreamResetRelease_lockKept {s t : State} (h : execDownstreamResetRelease s = .next t) :
    LockKept s.bridge t.bridge :=
  become_lockKept (fun b => .onlyIf fun _ => (thru_lockKept b _).thenPump) h

/-! ### The mechanism and the timers -/

theorem execOrderTimeout_lockKept {s t : State} (h : execOrderTimeout s = .next t) : LockKept s.bridge t.bridge := by
  refine become_lockKept (fun b => ?_) h
  split
  · exact .refl b
  · rename_i o _
    exact .onlyIf fun _ => ((timeOutOrder_lockKept b o).trans (timeoutFollows_lockKept _ o)).thenFinish

theorem execEjectButton_lockKept {s t : State} (h : execEjectButton s = .next t) : LockKept s.bridge t.bridge := by
  refine become_lockKept (fun b => ?_) h
  split
  · rename_i b' hb
    exact (requestEject_lockKept hb).thenFinish
  · exact .refl b

theorem deadlineDue_notWaiting {b : Bridge} {e : Entry} (h : deadlineDue b e = true) : e.state ≠ .awaitLock := by
  intro hs
  simp [deadlineDue, hs] at h

theorem execDeadlineExpiry_lockKept {key : Key} {s t : State} (h : execDeadlineExpiry key s = .next t) :
    LockKept s.bridge t.bridge :=
  become_lockKept (fun _ => .onlyIf fun due => (answerDue_lockKept due (fun _ => deadlineDue_notWaiting) _).thenFinish) h

theorem execAgingExpiry_lockKept {i : BufIdx} {s t : State} (h : execAgingExpiry i s = .next t) :
    LockKept s.bridge t.bridge :=
  become_lockKept (fun b => .onlyIf fun _ => (testLater_moves b i).lockKept.thenFinish) h

theorem execMapWriteDelayExpiry_lockKept {s t : State} (h : execMapWriteDelayExpiry s = .next t) :
    LockKept s.bridge t.bridge :=
  become_lockKept (fun b => .onlyIf fun _ => (tryMapWrite_moves b).lockKept.thenFinish) h

theorem execSettleExpiry_lockKept {s t : State} (h : execSettleExpiry s = .next t) : LockKept s.bridge t.bridge :=
  become_lockKept (fun b => .onlyIf fun _ => (endSettle_lockKept b).thenFinish) h

theorem execQuiesceExpiry_lockKept {s t : State} (h : execQuiesceExpiry s = .next t) : LockKept s.bridge t.bridge := by
  refine become_lockKept (fun b => ?_) h
  split
  · exact .refl b
  · exact .onlyIf fun _ => (quiesceExpires_lockKept b _).thenFinish

theorem execSpinDownTimerExpiry_lockKept {s t : State} (h : execSpinDownTimerExpiry s = .next t) :
    LockKept s.bridge t.bridge :=
  become_lockKept (fun b => .onlyIf fun _ => (askLife_course b .spinDown).lockKept.thenFinish) h

/-! ### Every command and every step -/

theorem exec_lockOk {c : Instr} {s t : State} (h : exec c s = .next t) (ok : LockOk s.bridge) : LockOk t.bridge := by
  cases c with
  | powerOnReset presence line => exact execPowerOnReset_lockOk h
  | linkReset => exact become_lockOk (KeepsLock.thenFinish fun b _ => linkReset_lockOk b) h ok
  | linkResetEnd => exact (execLinkResetEnd_lockKept h).lockOk ok
  | badCheckFrame frame => exact (execBadCheckFrame_lockKept frame h).lockOk ok
  | malformedFrame frame => exact (become_lockKept countMalformed_lockKept h).lockOk ok
  | unknownOperation hd code => exact become_lockOk (takeRequest_keepsLock _ fun c _ => .refl c).thenPump h ok
  | read hd =>
    exact become_lockOk (takeRequest_keepsLock .read fun _ hk =>
      routeBlocks_lockKept .read [] (fun i cb _ => admitRead_lockKept i cb) hk).thenFinish h ok
  | write hd data => exact execWrite_lockOk h ok
  | flush hd =>
    exact become_lockOk (takeRequest_keepsLock .flush fun _ hk =>
      routeLocal_lockKept .flush (fun _ => flushLocal_lockKept) hk).thenFinish h ok
  | sense hd =>
    exact become_lockOk (takeRequest_keepsLock .sense fun _ hk =>
      routeLocal_lockKept .sense (fun _ => senseLocal_lockKept) hk).thenPump h ok
  | abort hd =>
    exact become_lockOk (KeepsLock.thenFinish fun _ ok => takeRequest_lockOk (fun _ => routeAbort_lockOk) ok) h ok
  | identify hd items => exact become_lockOk (manageReport_keepsLock hd .identify items identityItems) h ok
  | readSettings hd items =>
    exact become_lockOk (manageReport_keepsLock hd .readSettings items fun b => readSettingItems b items) h ok
  | setSettings hd items =>
    exact become_lockOk (manage_keepsLock fun _ => setSettings_lockKept items).thenFinish h ok
  | readWindow hd items => exact become_lockOk (manage_keepsLock fun _ => readWindow_lockKept items).thenPump h ok
  | writeWindow hd items => exact become_lockOk (manage_keepsLock fun _ => writeWindow_lockKept items).thenPump h ok
  | readClass hd items => exact become_lockOk (manage_keepsLock fun _ => readClass_lockKept items).thenPump h ok
  | writeClass hd items => exact become_lockOk (manage_keepsLock fun _ => writeClass_lockKept items).thenPump h ok
  | lockRequest hd items => exact become_lockOk (manage_lockRequest_keepsLock hd items).thenPump h ok
  | lockRelease hd items => exact become_lockOk (manage_keepsLock_at fun _ => lockRelease_lockOk).thenPump h ok
  | lockCancel hd items => exact become_lockOk (manage_keepsLock_at fun _ => lockCancel_lockOk).thenPump h ok
  | lockStatus hd items => exact become_lockOk (manageReport_keepsLock hd .lockStatus items lockStatusItems) h ok
  | readCartridge hd items => exact become_lockOk (manageReport_keepsLock hd .readCartridge items cartridgeItems) h ok
  | readZones hd items => exact become_lockOk (manageReport_keepsLock hd .readZones items zoneItems) h ok
  | readDefects hd items => exact become_lockOk (manage_keepsLock fun _ => readDefects_lockKept items).thenPump h ok
  | readExceptions hd items => exact become_lockOk (manage_keepsLock fun _ => readExceptions_lockKept).thenPump h ok
  | readPool hd items => exact become_lockOk (manageReport_keepsLock hd .readPool items (poolItems hd.key)) h ok
  | readLinkCounts hd items => exact become_lockOk (manageReport_keepsLock hd .readLinkCounts items linkItems) h ok
  | eject hd items => exact become_lockOk (manage_keepsLock fun _ => eject_lockKept items).thenFinish h ok
  | recover hd items => exact become_lockOk (manage_keepsLock fun _ => recover_lockKept).thenFinish h ok
  | discardStranded hd items =>
    exact become_lockOk (manage_keepsLock fun _ => discardStranded_lockKept).thenFinish h ok
  | transmissionEnd => exact (become_lockKept (fun b => (endTransmission_lockKept b).thenPump) h).lockOk ok
  | forwardTransmissionEnd => exact (become_lockKept (fun b => (endForward_lockKept b).thenPump) h).lockOk ok
  | downstreamFrame frame => exact (execDownstreamFrame_lockKept h).lockOk ok
  | downstreamLinkDown => exact (execDownstreamLinkDown_lockKept h).lockOk ok
  | downstreamLinkUp => exact (execDownstreamLinkUp_lockKept h).lockOk ok
  | deadlineExpiry key => exact (execDeadlineExpiry_lockKept h).lockOk ok
  | passThroughTimeout key => exact (execPassThroughTimeout_lockKept h).lockOk ok
  | orderTimeout => exact (execOrderTimeout_lockKept h).lockOk ok
  | agingExpiry i => exact (execAgingExpiry_lockKept h).lockOk ok
  | mapWriteDelayExpiry => exact (execMapWriteDelayExpiry_lockKept h).lockOk ok
  | settleExpiry => exact (execSettleExpiry_lockKept h).lockOk ok
  | quiesceExpiry => exact (execQuiesceExpiry_lockKept h).lockOk ok
  | spinDownTimerExpiry => exact (execSpinDownTimerExpiry_lockKept h).lockOk ok
  | completion number kind result =>
    exact (become_lockKept (fun b => takeCompletion_lockKept b number kind result) h).lockOk ok
  | presenceOn tab => exact (become_lockKept (presenceArrives_lockKept · tab) h).lockOk ok
  | presenceOff => exact (become_lockKept (fun b => (presenceLeaves_lockKept b).thenFinish) h).lockOk ok
  | ejectButton => exact (execEjectButton_lockKept h).lockOk ok
  | fault => exact (become_lockKept (fun b => (takeFault_lockKept b).thenFinish) h).lockOk ok
  | spareRequestTaken i =>
    exact (become_lockKept (fun b => (takeSpareRequest_moves b i).lockKept.thenFinish) h).lockOk ok
  | downstreamResetRelease => exact (execDownstreamResetRelease_lockKept h).lockOk ok

/-- A command keeps the lock by its meaning, and a millisecond changes neither the lock nor an entry. -/
theorem step_lockOk {s t : State} (h : step s = .next t) (ok : LockOk s.bridge) : LockOk t.bridge := by
  unfold step at h
  split at h
  · cases h
    exact (LockKept.of_entries (b := s.bridge) rfl rfl rfl).lockOk ok
  · rename_i c rest _
    exact exec_lockOk (s := { s with pending := rest }) h ok

/-- Settles O57: the tables by the law that `Lawful` names, and the lock because every command keeps it. -/
theorem everyStepKeepsTheTablesAndTheLock : Obligations.EveryStepKeepsTheTablesAndTheLock :=
  ⟨fun _ _ h => (step_lawful h).tables, fun _ _ => step_lockOk⟩

end Sys2Proof.Machine
end


section
/-! PROOFS. The machine after power-on (R171), by State.reset and by POWER_ON_RESET. -/

namespace Sys2Proof.Machine

theorem powerOn_window (i : Fin 16) : Bridge.powerOn.router.windows[i] = Window.powerOn := by
  simp [Bridge.powerOn]

theorem powerOn_class (i : Fin 8) : Bridge.powerOn.router.classes[i] = ClassEntry.powerOn := by
  simp [Bridge.powerOn]

/-- Every buffer is FREE, so all 32 are available (R64). -/
theorem powerOn_availableCount : availableCount Bridge.powerOn = 32 := by
  have all_free : freeBufs Bridge.powerOn = allBufs := List.filter_eq_self.2 fun i _ => by simp [Buffer.free]
  rw [availableCount, all_free]
  simp [allBufs, Bridge.powerOn]

/-- Settles O4: the fields of `Bridge.powerOn`, and the settle that a presence starts from it. -/
theorem powerOnResetTakesTheValuesOfPowerOn : Obligations.PowerOnResetTakesTheValuesOfPowerOn := by
  refine ⟨⟨rfl, powerOn_window, fun i => congrArg ClassEntry.enabled (powerOn_class i), powerOn_entry, powerOn_buf, rfl,
    rfl, powerOn_availableCount, ?_⟩, fun s line => ⟨rfl, fun tab => rfl⟩⟩
  and_intros
  all_goals rfl

end Sys2Proof.Machine
end


section
/-! PROOFS. The Router's tables in the order of their indices: claims and cartridge blocks (R19, R20), the block test (R22)
and the class of a READ (R32). -/

namespace Sys2Proof.Machine

/-! ### Searching a table in index order -/

theorem find?_finRange_eq_some_iff {n : Nat} {p : Fin n → Bool} {i : Fin n} :
    (List.finRange n).find? p = some i ↔ p i = true ∧ ∀ j, j < i → p j = false := by
  rw [← Fin.find?_eq_find?_finRange, Fin.find?_eq_some_iff]

theorem find?_finRange_eq_none_iff {n : Nat} {p : Fin n → Bool} :
    (List.finRange n).find? p = none ↔ ∀ i, p i = false := by
  rw [← Fin.find?_eq_find?_finRange, Fin.find?_eq_none_iff]

/-! ### Claims and cartridge blocks (R19) -/

theorem inGap_false_iff (w : Window) (x : Nat) :
    inGap w x = false ↔ ∀ g, w.gap = some g → ¬ (g.first ≤ x ∧ x ≤ g.first + g.count - 1) := by
  unfold inGap
  cases w.gap with
  | none => simp
  | some g => simp

theorem claims_iff (w : Window) (u x : Nat) :
    claims w u x = true ↔ w.enabled = true ∧ w.unit = u ∧ w.first ≤ x ∧ x ≤ w.last
      ∧ ∀ g, w.gap = some g → ¬ (g.first ≤ x ∧ x ≤ g.first + g.count - 1) := by
  rw [← inGap_false_iff]
  simp [claims, and_assoc]

theorem cbOf_noGap {w : Window} (x : Nat) (hg : w.gap = none) : cbOf w x = w.start + (x - w.first) := by
  simp only [cbOf, hg]

/-- Past the gap its blocks are left out of the count. -/
theorem cbOf_gap {w : Window} {g : Gap} (x : Nat) (hg : w.gap = some g) :
    cbOf w x = w.start + (x - w.first) - if g.first + g.count ≤ x then g.count else 0 := by
  simp only [cbOf, hg]
  split <;> rfl

theorem cbOf_belowGap {w : Window} {g : Gap} {x : Nat} (hg : w.gap = some g) (hx : x < g.first) :
    cbOf w x = w.start + (x - w.first) := by
  rw [cbOf_gap x hg, if_neg (by omega), Nat.sub_zero]

theorem cbOf_aboveGap {w : Window} {g : Gap} {x : Nat} (hg : w.gap = some g) (hx : g.first + g.count ≤ x) :
    cbOf w x = w.start + (x - w.first) - g.count := by
  rw [cbOf_gap x hg, if_pos hx]

theorem windowConsistent_gap {w : Window} {g : Gap} (ok : windowConsistent w = true) (hg : w.gap = some g) :
    w.first < g.first ∧ g.first + g.count - 1 ≤ w.last := by
  simp only [windowConsistent, hg, Bool.and_eq_true, Option.all_some, decide_eq_true_eq] at ok
  exact ok.1.2

theorem windowConsistent_length {w : Window} (ok : windowConsistent w = true) :
    w.start + claimedLength w - 1 ≤ 67108863 := by
  simp only [windowConsistent, Bool.and_eq_true, decide_eq_true_eq] at ok
  exact ok.2

theorem windowInRange_gapCount {w : Window} {g : Gap} (ok : windowInRange w = true) (hg : w.gap = some g) :
    1 ≤ g.count := by
  simp only [windowInRange, hg, Bool.and_eq_true, Option.all_some, decide_eq_true_eq] at ok
  exact ok.2.1.2

/-- A cartridge block that a window gives is within the claimed length, which ends at the top cartridge block (R17). -/
theorem cbOf_le {w : Window} {u x : Nat} (range : windowInRange w = true) (ok : windowConsistent w = true)
    (hc : claims w u x = true) : cbOf w x ≤ 67108863 := by
  obtain ⟨-, -, first, last, outside⟩ := (claims_iff w u x).1 hc
  have length := windowConsistent_length ok
  unfold claimedLength at length
  cases hg : w.gap with
  | none =>
    rw [cbOf_noGap x hg]
    simp only [hg, Option.map_none, Option.getD_none] at length
    omega
  | some g =>
    obtain ⟨above, below⟩ := windowConsistent_gap ok hg
    have count := windowInRange_gapCount range hg
    have := outside g hg
    simp only [hg, Option.map_some, Option.getD_some] at length
    rw [cbOf_gap x hg]
    split <;> omega

/-! ### The claiming window (R20) -/

theorem claimingWindow_eq_some_iff {r : Router} {u x : Nat} {i : Fin 16} :
    claimingWindow r u x = some i
      ↔ claims r.windows[i] u x = true ∧ ∀ j : Fin 16, j < i → claims r.windows[j] u x = false :=
  find?_finRange_eq_some_iff

theorem claimingWindow_eq_none_iff {r : Router} {u x : Nat} :
    claimingWindow r u x = none ↔ ∀ i : Fin 16, claims r.windows[i] u x = false := find?_finRange_eq_none_iff

/-! ### The block test (R22) -/

/-- The block test of a run that begins with a claimed block. -/
theorem blockTest_cons_some {r : Router} {u x : Nat} {i : Fin 16} (xs : List Nat) (hx : claimingWindow r u x = some i) :
    blockTest r u (x :: xs) = if xs.all (fun y => claimingWindow r u y == some i) then .claimed i else .spans := by
  simp [blockTest, hx]

/-- The block test of a run that begins with an unclaimed block. -/
theorem blockTest_cons_none {r : Router} {u x : Nat} (xs : List Nat) (hx : claimingWindow r u x = none) :
    blockTest r u (x :: xs) = if xs.all (fun y => (claimingWindow r u y).isNone) then .unclaimed else .spans := by
  simp [blockTest, hx]

/-- The blocks are claimed by a window when it is the claiming window of each. -/
theorem blockTest_eq_claimed_iff {r : Router} {u : Nat} {blocks : List Nat} {i : Fin 16} (hb : blocks ≠ []) :
    blockTest r u blocks = .claimed i ↔ ∀ x ∈ blocks, claimingWindow r u x = some i := by
  cases blocks with
  | nil => exact absurd rfl hb
  | cons x xs =>
    cases hx : claimingWindow r u x with
    | none => rw [blockTest_cons_none xs hx]; split <;> simp [hx]
    | some j =>
      rw [blockTest_cons_some xs hx]
      by_cases hj : j = i
      · subst hj; simp [hx]
      · split <;> simp [hx, hj]

theorem blockTest_eq_unclaimed_iff {r : Router} {u : Nat} {blocks : List Nat} (hb : blocks ≠ []) :
    blockTest r u blocks = .unclaimed ↔ ∀ x ∈ blocks, claimingWindow r u x = none := by
  cases blocks with
  | nil => exact absurd rfl hb
  | cons x xs =>
    cases hx : claimingWindow r u x with
    | none => rw [blockTest_cons_none xs hx]; simp [hx]
    | some j => rw [blockTest_cons_some xs hx]; split <;> simp [hx]

theorem blockTest_eq_spans_iff {r : Router} {u : Nat} {blocks : List Nat} (hb : blocks ≠ []) :
    blockTest r u blocks = .spans
      ↔ (∃ x ∈ blocks, claimingWindow r u x ≠ none) ∧ ∀ i, blockTest r u blocks ≠ .claimed i := by
  have some_claimed : (∃ x ∈ blocks, claimingWindow r u x ≠ none) ↔ blockTest r u blocks ≠ .unclaimed := by
    rw [Ne, blockTest_eq_unclaimed_iff hb]
    push Not
    rfl
  rw [some_claimed]
  cases blockTest r u blocks <;> simp

theorem mem_blockRun {h : Header} {x : Nat} :
    x ∈ blockRun h ↔ h.block.toNat ≤ x ∧ x < h.block.toNat + h.count.toNat := by
  simp [blockRun, List.mem_range'_1]

/-- Blocks that a consistent window claims from `a` to `x` lie on one side of its gap, so their cartridge blocks are
consecutive. -/
theorem cbOf_consecutive {w : Window} {u a x : Nat} (ok : windowConsistent w = true) (hax : a ≤ x)
    (hc : ∀ y, a ≤ y → y ≤ x → claims w u y = true) : cbOf w x = cbOf w a + (x - a) := by
  obtain ⟨-, -, first, -⟩ := (claims_iff w u a).1 (hc a (Nat.le_refl a) hax)
  cases hg : w.gap with
  | none => rw [cbOf_noGap x hg, cbOf_noGap a hg]; omega
  | some g =>
    obtain ⟨above, -⟩ := windowConsistent_gap ok hg
    have outside : ∀ y, a ≤ y → y ≤ x → ¬ (g.first ≤ y ∧ y ≤ g.first + g.count - 1) := fun y h1 h2 =>
      ((claims_iff w u y).1 (hc y h1 h2)).2.2.2.2 g hg
    have at_a := outside a (Nat.le_refl a) hax
    have at_first : a ≤ g.first → g.first ≤ x → g.count = 0 := fun h1 h2 => by
      have := outside g.first h1 h2
      omega
    rw [cbOf_gap x hg, cbOf_gap a hg]
    split <;> split <;> omega

theorem claimed_consecutive {r : Router} {h : Header} {i : Fin 16}
    (ht : blockTest r h.unit (blockRun h) = .claimed i) (ok : windowConsistent r.windows[i] = true) {x : Nat}
    (hx : x ∈ blockRun h) : cbOf r.windows[i] x = cbOf r.windows[i] h.block.toNat + (x - h.block.toNat) := by
  obtain ⟨low, high⟩ := mem_blockRun.1 hx
  have each := (blockTest_eq_claimed_iff (List.ne_nil_of_mem hx)).1 ht
  exact cbOf_consecutive ok low fun y h1 h2 =>
    (claimingWindow_eq_some_iff.1 (each y (mem_blockRun.2 ⟨h1, by omega⟩))).1

/-! ### The class of a READ (R32) -/

theorem classMatches_iff (c : ClassEntry) (h : Header) :
    classMatches c h = true ↔ c.enabled = true ∧ c.origs.getLsbD h.orig = true ∧ c.units.getLsbD h.unit = true
      ∧ ∀ g, c.range = some g → g.first ≤ h.block.toNat ∧ h.block.toNat + h.count.toNat - 1 ≤ g.last := by
  unfold classMatches
  cases c.range with
  | none => simp [and_assoc]
  | some g => simp [and_assoc]

theorem deadlineOf_eq_some {r : Router} {h : Header} {i : Fin 8} (hi : classMatches r.classes[i] h = true)
    (hj : ∀ j : Fin 8, j < i → classMatches r.classes[j] h = false) : deadlineOf r h = some r.classes[i].deadline := by
  rw [deadlineOf, find?_finRange_eq_some_iff.2 ⟨hi, hj⟩, Option.map_some]

theorem deadlineOf_eq_none {r : Router} {h : Header} (hi : ∀ i : Fin 8, classMatches r.classes[i] h = false) :
    deadlineOf r h = none := by
  rw [deadlineOf, find?_finRange_eq_none_iff.2 hi, Option.map_none]

/-- Settles O12: each search runs over the indices in ascending order, and a gap is never within a claimed run. -/
theorem windowsClaimAndClassesMatchByIndex : Obligations.WindowsClaimAndClassesMatchByIndex := by
  refine ⟨fun w u x => ⟨claims_iff w u x, cbOf_noGap x, fun g hg => ⟨cbOf_belowGap hg, cbOf_aboveGap hg⟩, cbOf_le⟩,
    fun r u x => ⟨fun i => claimingWindow_eq_some_iff, claimingWindow_eq_none_iff⟩,
    fun r u blocks hb => ⟨fun i => ?_, blockTest_eq_unclaimed_iff hb, blockTest_eq_spans_iff hb⟩,
    fun r h i ht ok x hx => claimed_consecutive ht ok hx, fun r h => ⟨fun i hi hj => ?_, fun hi => ?_⟩⟩
  · rw [blockTest_eq_claimed_iff hb]
    simp only [claimingWindow_eq_some_iff]
    exact forall₂_and
  · simp only [← classMatches_iff, Bool.not_eq_true] at hi hj
    exact deadlineOf_eq_some hi hj
  · simp only [← classMatches_iff, Bool.not_eq_true] at hi
    exact deadlineOf_eq_none hi

end Sys2Proof.Machine
end


section
/-! PROOFS. A request frame whose key is held or whose content fails (R21, R37, R38), and the routes of the others (R22 to
R25): each refusal leaves the state of `answeredAtOnce`, and a forwarding that of `forwarded`. -/

namespace Sys2Proof.Machine

/-- The bridge once a request frame was taken whole: no byte of a frame is left over. -/
def frameTaken (b : Bridge) : Bridge := { b with link := { b.link with partialRx := [] } }

theorem refuse_frameTaken (b : Bridge) (h : Header) (op : Op) (st : Status) :
    refuse (frameTaken b) h op st = answeredAtOnce b h op none st .none := refuse_eq b h op st

/-! ### Held keys (R37) -/

/-- The bridge after a request whose key is held: a TAG_IN_USE reply waits, where no frame for the key waited (R37). -/
theorem keyHeld_frameTaken (b : Bridge) (h : Header) :
    keyHeld (frameTaken b) h = { b with link := { b.link with
      partialRx := []
      queue := if b.link.queue.any (fun f => f.key == some h.key) then b.link.queue
        else b.link.queue ++ [.tagInUse h.key h.unit] } } := by
  have queue : (frameTaken b).link.queue = b.link.queue := rfl
  rw [keyHeld, queue]
  split
  · rfl
  · rfl

/-! ### Content that fails (R21, R38) -/

theorem contentOk_blocks_iff {op : Op} (h : Header) (ho : op = .read ∨ op = .write) :
    contentOk op h = true ↔ 1 ≤ h.count.toNat ∧ h.count.toNat ≤ 32 := by
  rcases ho with rfl | rfl <;> simp [contentOk, countOk]

theorem contentOk_count {op : Op} {h : Header} (hr : op ≠ .read) (hw : op ≠ .write) (ok : contentOk op h = true) :
    h.count = 0 := by
  cases op <;> simp_all [contentOk, countOk, ← BitVec.toNat_inj]

theorem contentOk_abort_iff (h : Header) : contentOk .abort h = true ↔ h.count = 0 ∧ h.block.toNat ≤ 15 := by
  simp [contentOk, countOk, ← BitVec.toNat_inj]

/-- The unit of a request does not fit its operation, or the last block of a READ or WRITE is beyond the last unit block
(R21). -/
def Misfits (op : Op) (h : Header) : Prop :=
  (op.isManagement = true ∧ h.unit ≠ 15)
  ∨ ((op = .read ∨ op = .write ∨ op = .flush ∨ op = .sense) ∧ h.unit = 15)
  ∨ ((op = .read ∨ op = .write) ∧ 16777215 < h.block.toNat + h.count.toNat - 1)

/-- What a request frame that is received and refused leaves, but for the end of its step. -/
def RefusedAtOnce (c : Instr) (op : Op) (h : Header) (st : Status) (s : State) : Prop :=
  ∃ ending, EndsStep ending ∧ exec c s = .next (s.withBridge (ending (answeredAtOnce s.bridge h op none st .none)))

theorem refusedAtOnce_of_finish {c : Instr} {op : Op} {h : Header} {st : Status} {s : State} {t : Bridge}
    (hx : exec c s = .next (s.withBridge (finish t))) (ht : t = answeredAtOnce s.bridge h op none st .none) :
    RefusedAtOnce c op h st s := ⟨finish, .inl rfl, ht ▸ hx⟩

theorem refusedAtOnce_of_pump {c : Instr} {op : Op} {h : Header} {st : Status} {s : State} {t : Bridge}
    (hx : exec c s = .next (s.withBridge (pump t))) (ht : t = answeredAtOnce s.bridge h op none st .none) :
    RefusedAtOnce c op h st s := ⟨pump, .inr rfl, ht ▸ hx⟩

section Routes
variable {b : Bridge} {h : Header} {op : Op}

theorem manage_misfit {items : List Item} {act : Bridge → Bridge} (r : Received b h) (ok : contentOk op h = true)
    (hu : h.unit ≠ 15) : manage h op items act b = answeredAtOnce b h op none .badRequest .none := by
  rw [manage, takeRequest_received _ r ok]
  exact (if_pos hu).trans (refuse_frameTaken b h op _)

theorem routeBlocks_misfit (data : List Block) (accept : Fin 16 → Nat → Bridge → Bridge)
    (hm : h.unit = 15 ∨ topBlock < h.block.toNat + h.count.toNat - 1) :
    routeBlocks h op data accept b = refuse b h op .badRequest := if_pos hm

theorem routeLocal_misfit (act : Bridge → Bridge) (hu : h.unit = 15) :
    routeLocal h op act b = refuse b h op .badRequest := if_pos hu

theorem takeRequest_blocks_misfit (data : List Block) (accept : Fin 16 → Nat → Bridge → Bridge) (r : Received b h)
    (ok : contentOk op h = true) (hm : h.unit = 15 ∨ topBlock < h.block.toNat + h.count.toNat - 1) :
    takeRequest b h op (routeBlocks h op data accept) = answeredAtOnce b h op none .badRequest .none := by
  rw [takeRequest_received _ r ok, routeBlocks_misfit data accept hm]
  exact refuse_frameTaken b h op _

theorem takeRequest_local_misfit (act : Bridge → Bridge) (r : Received b h) (ok : contentOk op h = true)
    (hu : h.unit = 15) :
    takeRequest b h op (routeLocal h op act) = answeredAtOnce b h op none .badRequest .none := by
  rw [takeRequest_received _ r ok, routeLocal_misfit act hu]
  exact refuse_frameTaken b h op _

end Routes

theorem misfits_blocks {op : Op} {h : Header} (ho : op = .read ∨ op = .write) (m : Misfits op h) :
    h.unit = 15 ∨ topBlock < h.block.toNat + h.count.toNat - 1 := by
  rcases m with ⟨hm, -⟩ | ⟨-, hu⟩ | ⟨-, hb⟩
  · rcases ho with rfl | rfl <;> cases hm
  · exact .inl hu
  · exact .inr hb

theorem misfits_local {op : Op} {h : Header} (ho : op = .flush ∨ op = .sense) (m : Misfits op h) : h.unit = 15 := by
  rcases m with ⟨hm, -⟩ | ⟨-, hu⟩ | ⟨hb, -⟩
  · rcases ho with rfl | rfl <;> cases hm
  · exact hu
  · rcases ho with rfl | rfl <;> simp at hb

theorem misfits_management {op : Op} {h : Header} (ho : op.isManagement = true) (m : Misfits op h) : h.unit ≠ 15 := by
  rcases m with ⟨-, hu⟩ | ⟨hb, -⟩ | ⟨hb, -⟩
  · exact hu
  · rcases hb with rfl | rfl | rfl | rfl <;> cases ho
  · rcases hb with rfl | rfl <;> cases ho

theorem not_misfits_abort (h : Header) : ¬ Misfits .abort h := by
  simp [Misfits, Op.isManagement]

/-- A request whose content passes R38 and fails R21 is refused by its route. -/
theorem exec_misfits {c : Instr} {op : Op} {h : Header} {s : State} (hc : requestOf c = some (op, h))
    (hw : wellFormed c = true) (r : Received s.bridge h) (ok : contentOk op h = true) (m : Misfits op h) :
    RefusedAtOnce c op h .badRequest s := by
  cases c <;> simp only [requestOf, Option.some.injEq, Prod.mk.injEq, reduceCtorEq] at hc
  all_goals obtain ⟨rfl, rfl⟩ := hc
  case unknownOperation => cases ok
  case read => exact refusedAtOnce_of_finish rfl (takeRequest_blocks_misfit _ _ r ok (misfits_blocks (.inl rfl) m))
  case write =>
    exact refusedAtOnce_of_finish (exec_write s (writeFormOk_of_wellFormed hw))
      (takeRequest_blocks_misfit _ _ r ok (misfits_blocks (.inr rfl) m))
  case flush => exact refusedAtOnce_of_finish rfl (takeRequest_local_misfit _ r ok (misfits_local (.inl rfl) m))
  case sense => exact refusedAtOnce_of_pump rfl (takeRequest_local_misfit _ r ok (misfits_local (.inr rfl) m))
  case abort => exact absurd m (not_misfits_abort _)
  case setSettings | eject | recover | discardStranded =>
    exact refusedAtOnce_of_finish rfl (manage_misfit r ok (misfits_management rfl m))
  all_goals exact refusedAtOnce_of_pump rfl (manage_misfit r ok (misfits_management rfl m))

/-- A request whose content fails R38 is refused before it is routed. -/
theorem exec_badContent {c : Instr} {op : Op} {h : Header} {s : State} (hc : requestOf c = some (op, h))
    (hw : wellFormed c = true) (r : Received s.bridge h) (bad : contentOk op h = false) :
    RefusedAtOnce c op h .badRequest s := by
  obtain ⟨ending, route, he, hx⟩ := exec_request s hc hw
  rw [takeRequest_badContent route r bad] at hx
  exact ⟨ending, he, (refuse_eq s.bridge h op .badRequest) ▸ hx⟩

/-- The content tests of R38, as the statement lists them. -/
theorem contentOk_false {op : Op} {h : Header}
    (bad : (∃ code, op = .other code) ∨ ((op = .read ∨ op = .write) ∧ (h.count.toNat = 0 ∨ 32 < h.count.toNat))
      ∨ (op ≠ .read ∧ op ≠ .write ∧ h.count ≠ 0) ∨ (op = .abort ∧ 15 < h.block.toNat)) : contentOk op h = false := by
  rw [← Bool.not_eq_true]
  intro ok
  rcases bad with ⟨code, rfl⟩ | ⟨ho, bad⟩ | ⟨hr, hw, bad⟩ | ⟨rfl, bad⟩
  · cases ok
  · have := (contentOk_blocks_iff h ho).1 ok
    omega
  · exact bad (contentOk_count hr hw ok)
  · have := (contentOk_abort_iff h).1 ok
    omega

theorem exec_keyHeld {c : Instr} {op : Op} {h : Header} {s : State} (hc : requestOf c = some (op, h))
    (hw : wellFormed c = true) (hr : s.bridge.link.resetHeld = false) (hk : (s.bridge.entry h.key).isSome = true) :
    ∃ ending, EndsStep ending ∧ exec c s = .next (s.withBridge (ending (keyHeld (frameTaken s.bridge) h))) := by
  obtain ⟨e, he⟩ := Option.isSome_iff_exists.1 hk
  obtain ⟨ending, route, hend, hx⟩ := exec_request s hc hw
  rw [takeRequest_held route hr he] at hx
  exact ⟨ending, hend, hx⟩

theorem exec_resetHeld {c : Instr} {op : Op} {h : Header} {s : State} (hc : requestOf c = some (op, h))
    (hw : wellFormed c = true) (hr : s.bridge.link.resetHeld = true) :
    ∃ ending, EndsStep ending ∧ exec c s = .next (s.withBridge (ending s.bridge)) := by
  obtain ⟨ending, route, hend, hx⟩ := exec_request s hc hw
  rw [takeRequest_resetHeld route hr] at hx
  exact ⟨ending, hend, hx⟩

/-- Settles O10: `takeRequest` decides the first two and the content tests, and the route of the operation the rest. -/
theorem heldKeysAndBadContentAreSettledAtAdmission : Obligations.HeldKeysAndBadContentAreSettledAtAdmission := by
  refine ⟨fun c op h s hc hw hr hk => ?_, fun c op h s hc hw hr => ?_, fun c op h s hc hw r bad => ?_⟩
  · obtain ⟨ending, hend, hx⟩ := exec_keyHeld hc hw hr hk
    rw [keyHeld_frameTaken] at hx
    exact ⟨_, hx, rfl, hend.apply _⟩
  · obtain ⟨ending, hend, hx⟩ := exec_resetHeld hc hw hr
    exact ⟨_, hx, rfl, hend.apply _⟩
  · have refused : RefusedAtOnce c op h .badRequest s := by
      rcases bad with bad | bad | bad | bad | ⟨ok, misfit⟩
      · exact exec_badContent hc hw r (contentOk_false (.inl bad))
      · exact exec_badContent hc hw r (contentOk_false (.inr (.inl bad)))
      · exact exec_badContent hc hw r (contentOk_false (.inr (.inr (.inl bad))))
      · exact exec_badContent hc hw r (contentOk_false (.inr (.inr (.inr bad))))
      · exact exec_misfits hc hw r ok misfit
    obtain ⟨ending, hend, hx⟩ := refused
    exact ⟨_, hx, rfl, hend.apply _, (answeredAtOnce_isAnswered ..).endStep hend⟩

end Sys2Proof.Machine
end


section
/-! PROOFS. The routes of READ, WRITE, FLUSH and SENSE (R22 to R25): refused in the order of the checks, or forwarded. -/

namespace Sys2Proof.Machine

/-! ### A request of a data unit, taken in -/

/-- A READ or WRITE whose content and unit blocks pass R21 and R38. -/
structure BlocksFit (h : Header) : Prop where
  some_block : 1 ≤ h.count.toNat
  at_most    : h.count.toNat ≤ 32
  unit       : h.unit ≠ 15
  top        : h.block.toNat + h.count.toNat - 1 ≤ 16777215

theorem BlocksFit.contentOk {h : Header} (fit : BlocksFit h) {op : Op} (ho : op = .read ∨ op = .write) :
    contentOk op h = true := (contentOk_blocks_iff h ho).2 ⟨fit.some_block, fit.at_most⟩

theorem BlocksFit.routed {h : Header} (fit : BlocksFit h) :
    ¬ (h.unit = 15 ∨ topBlock < h.block.toNat + h.count.toNat - 1) := by
  rintro (hu | ht)
  · exact fit.unit hu
  · exact absurd fit.top (Nat.not_le.2 ht)

theorem contentOk_noBlocks {h : Header} (hc : h.count = 0) : contentOk .flush h = true ∧ contentOk .sense h = true := by
  simp [contentOk, countOk, hc]

section Received
variable {h : Header} {s : State}

theorem exec_read_received (r : Received s.bridge h) (fit : BlocksFit h) :
    exec (.read h) s
      = .next (s.withBridge (finish (routeBlocks h .read [] (admitRead h) (frameTaken s.bridge)))) :=
  congrArg (fun b => Host.Outcome.next (s.withBridge (finish b)))
    (takeRequest_received _ r (fit.contentOk (.inl rfl)))

theorem exec_write_received {data : List Block} (r : Received s.bridge h) (fit : BlocksFit h)
    (hd : data.length = h.count.toNat) :
    exec (.write h data) s
      = .next (s.withBridge (finish (routeBlocks h .write data (admitWriteRequest h data) (frameTaken s.bridge)))) := by
  rw [exec_write s (by simp [writeFormOk, hd]), takeRequest_received _ r (fit.contentOk (.inr rfl))]
  rfl

theorem exec_flush_received (r : Received s.bridge h) (hc : h.count = 0) :
    exec (.flush h) s
      = .next (s.withBridge (finish (routeLocal h .flush (flushLocal h) (frameTaken s.bridge)))) :=
  congrArg (fun b => Host.Outcome.next (s.withBridge (finish b)))
    (takeRequest_received _ r (contentOk_noBlocks hc).1)

theorem exec_sense_received (r : Received s.bridge h) (hc : h.count = 0) :
    exec (.sense h) s
      = .next (s.withBridge (pump (routeLocal h .sense (senseLocal h) (frameTaken s.bridge)))) :=
  congrArg (fun b => Host.Outcome.next (s.withBridge (pump b)))
    (takeRequest_received _ r (contentOk_noBlocks hc).2)

end Received

/-! ### The pass-through test (R24) -/

/-- The unit of the request is in the pass-through unit set, and the downstream link is UP (R24). -/
def Passes (b : Bridge) (h : Header) : Prop :=
  b.mgmt.settings.passUnits.getLsbD h.unit = true ∧ b.thru.line = .up

/-- The bridge after a request was forwarded: its entry waits with its timer, and its frame is the last of the forward FIFO
(R56, R163, R168). -/
def forwarded (b : Bridge) (h : Header) (op : Op) (data : List Block) : Bridge :=
  let c := withEntry b h { newEntry b h op (some .pass) with
    state := .forwarded
    passExpiry := some (b.clock + BitVec.ofNat 32 b.mgmt.settings.passTimeout) }
  { c with thru := { c.thru with fifo := c.thru.fifo ++ [⟨h, op, data, b.table.nextSeq⟩] } }

theorem forward_frameTaken (b : Bridge) (h : Header) (op : Op) (data : List Block) :
    forward (frameTaken b) h op data = forwarded b h op data := rfl

theorem passOrRefuse_refused {b : Bridge} {h : Header} (op : Op) (data : List Block)
    (hp : b.mgmt.settings.passUnits.getLsbD h.unit = false ∨ b.thru.line = .down) :
    passOrRefuse (frameTaken b) h op data = answeredAtOnce b h op none .notMapped .none := by
  have no : mayPass (frameTaken b) h.unit = false := by
    show (b.mgmt.settings.passUnits.getLsbD h.unit && b.thru.line == .up) = false
    rcases hp with hp | hp <;> simp [hp]
  rw [passOrRefuse, no]
  exact refuse_frameTaken b h op _

theorem passOrRefuse_forwarded {b : Bridge} {h : Header} (op : Op) (data : List Block) (p : Passes b h) :
    passOrRefuse (frameTaken b) h op data = forwarded b h op data := by
  have yes : mayPass (frameTaken b) h.unit = true := by
    show (b.mgmt.settings.passUnits.getLsbD h.unit && b.thru.line == .up) = true
    simp [p.1, p.2]
  rw [passOrRefuse, yes]
  exact forward_frameTaken b h op data

/-! ### The block test (R22) -/

section Blocks
variable {b : Bridge} {h : Header} {op : Op} {data : List Block} {accept : Fin 16 → Nat → Bridge → Bridge}

theorem routeBlocks_spans (fit : BlocksFit h) (ht : blockTest b.router h.unit (blockRun h) = .spans) :
    routeBlocks h op data accept (frameTaken b) = answeredAtOnce b h op none .spansBoundary .none := by
  have ht' : blockTest (frameTaken b).router h.unit (blockRun h) = .spans := ht
  rw [routeBlocks, if_neg fit.routed, ht']
  exact refuse_frameTaken b h op _

theorem routeBlocks_unclaimed (fit : BlocksFit h) (ht : blockTest b.router h.unit (blockRun h) = .unclaimed) :
    routeBlocks h op data accept (frameTaken b) = passOrRefuse (frameTaken b) h op data := by
  have ht' : blockTest (frameTaken b).router h.unit (blockRun h) = .unclaimed := ht
  rw [routeBlocks, if_neg fit.routed, ht']

/-- A claimed request is refused by the first check that fails, and otherwise accepted (R23). -/
theorem routeBlocks_claimed {i : Fin 16} (fit : BlocksFit h)
    (ht : blockTest b.router h.unit (blockRun h) = .claimed i) :
    routeBlocks h op data accept (frameTaken b) =
      match claimedRefusal b b.router.windows[i] op (cbOf b.router.windows[i] h.block.toNat) h.count.toNat with
      | some st => answeredAtOnce b h op none st .none
      | none => accept i (cbOf b.router.windows[i] h.block.toNat) (frameTaken b) := by
  have ht' : blockTest (frameTaken b).router h.unit (blockRun h) = .claimed i := ht
  have same : claimedRefusal (frameTaken b) = claimedRefusal b := rfl
  have router : (frameTaken b).router = b.router := rfl
  rw [routeBlocks, if_neg fit.routed, ht']
  dsimp only
  rw [same, router]
  cases claimedRefusal b b.router.windows[i] op (cbOf b.router.windows[i] h.block.toNat) h.count.toNat with
  | none => rfl
  | some st => exact refuse_frameTaken b h op st

end Blocks

/-! ### The checks of a claimed request (R23) -/

/-- The cartridge refuses a claimed request that its window allows, with a status: its state, or its capacity (R23). -/
def CartRefuses (b : Bridge) (cb n : Nat) (st : Status) : Prop :=
  (stateRefusal b.cart.state).or (if beyondCapacity b cb n then some .outOfMedia else none) = some st

theorem cartRefuses_of_state {b : Bridge} {st : Status} (cb n : Nat) (hs : stateRefusal b.cart.state = some st) :
    CartRefuses b cb n st := by
  rw [CartRefuses, hs, Option.some_or]

theorem cartRefuses_beyond {b : Bridge} {cb n : Nat} (hs : b.cart.state = .ready)
    (hl : ∃ l, b.cart.layout = some l ∧ 4 * userCount l ≤ cb + n - 1) : CartRefuses b cb n .outOfMedia := by
  obtain ⟨l, hl, hle⟩ := hl
  have beyond : beyondCapacity b cb n = true := by simpa [beyondCapacity, hl] using hle
  rw [CartRefuses, hs, beyond]
  rfl

/-- The refusals of the cartridge, state by state (R23, checks 2 and 3). -/
theorem cartRefuses {b : Bridge} {cb n : Nat} {st : Status}
    (h : ((b.cart.state = .empty ∨ b.cart.state = .settling ∨ b.cart.state = .spinup ∨ b.cart.state = .mounting)
          ∧ st = .notReady)
      ∨ ((b.cart.state = .quiescing ∨ b.cart.state = .ejecting) ∧ st = .mediaChanging)
      ∨ (b.cart.state = .unusable ∧ st = .mediaUnusable)
      ∨ (b.cart.state = .halted ∧ st = .mechFault)
      ∨ (b.cart.state = .ready ∧ st = .outOfMedia
          ∧ ∃ l, b.cart.layout = some l ∧ 4 * userCount l ≤ cb + n - 1)) : CartRefuses b cb n st := by
  rcases h with ⟨hs, rfl⟩ | ⟨hs, rfl⟩ | ⟨hs, rfl⟩ | ⟨hs, rfl⟩ | ⟨hs, rfl, hl⟩
  · rcases hs with hs | hs | hs | hs <;> exact cartRefuses_of_state cb n (by rw [hs, stateRefusal])
  · rcases hs with hs | hs <;> exact cartRefuses_of_state cb n (by rw [hs, stateRefusal])
  · exact cartRefuses_of_state cb n (by rw [hs, stateRefusal])
  · exact cartRefuses_of_state cb n (by rw [hs, stateRefusal])
  · exact cartRefuses_beyond hs hl

theorem claimedRefusal_read {b : Bridge} {w : Window} {cb n : Nat} {st : Status}
    (h : (w.readAllowed = false ∧ st = .readProhibited) ∨ (w.readAllowed = true ∧ CartRefuses b cb n st)) :
    claimedRefusal b w .read cb n = some st := by
  rcases h with ⟨hw, rfl⟩ | ⟨hw, hc⟩
  · exact if_pos ⟨rfl, hw⟩
  · rw [claimedRefusal, if_neg (by simp [hw]), if_neg (by simp)]
    exact hc

theorem claimedRefusal_write {b : Bridge} {w : Window} {cb n : Nat} {st : Status}
    (h : (w.writeAllowed = false ∧ st = .writeProhibited) ∨ (w.writeAllowed = true ∧ CartRefuses b cb n st)) :
    claimedRefusal b w .write cb n = some st := by
  rw [claimedRefusal, if_neg (by simp)]
  rcases h with ⟨hw, rfl⟩ | ⟨hw, hc⟩
  · exact if_pos ⟨rfl, hw⟩
  · rw [if_neg (by simp [hw])]
    exact hc

/-! ### Refused in the order of the checks (R22 to R25) -/

theorem finish_answeredAtOnce {c : Instr} {s : State} {b : Bridge} {h : Header} {op : Op} {st : Status}
    (hx : exec c s = .next (s.withBridge (finish b))) (hb : b = answeredAtOnce s.bridge h op none st .none) :
    exec c s = .next (s.withBridge (finish (answeredAtOnce s.bridge h op none st .none)))
      ∧ IsAnswered (finish (answeredAtOnce s.bridge h op none st .none)) h.key st 0 .none :=
  ⟨hb ▸ hx, (answeredAtOnce_isAnswered ..).finish⟩

/-- A READ or WRITE that no window claims as a whole, and that is not forwarded, is refused. -/
theorem routeBlocks_notClaimed {b : Bridge} {h : Header} {op : Op} {data : List Block}
    {accept : Fin 16 → Nat → Bridge → Bridge} {st : Status} (fit : BlocksFit h)
    (hst : (blockTest b.router h.unit (blockRun h) = .spans ∧ st = .spansBoundary)
      ∨ (blockTest b.router h.unit (blockRun h) = .unclaimed
          ∧ (b.mgmt.settings.passUnits.getLsbD h.unit = false ∨ b.thru.line = .down) ∧ st = .notMapped)) :
    routeBlocks h op data accept (frameTaken b) = answeredAtOnce b h op none st .none := by
  rcases hst with ⟨ht, rfl⟩ | ⟨ht, hp, rfl⟩
  · exact routeBlocks_spans fit ht
  · rw [routeBlocks_unclaimed fit ht, passOrRefuse_refused op data hp]

theorem routeBlocks_refused {b : Bridge} {h : Header} {op : Op} {data : List Block}
    {accept : Fin 16 → Nat → Bridge → Bridge} {i : Fin 16} {st : Status} (fit : BlocksFit h)
    (ht : blockTest b.router h.unit (blockRun h) = .claimed i)
    (hst : claimedRefusal b b.router.windows[i] op (cbOf b.router.windows[i] h.block.toNat) h.count.toNat = some st) :
    routeBlocks h op data accept (frameTaken b) = answeredAtOnce b h op none st .none := by
  rw [routeBlocks_claimed fit ht, hst]

theorem routeLocal_noWindow {b : Bridge} {h : Header} {op : Op} {act : Bridge → Bridge} (hu : h.unit ≠ 15)
    (hn : enabledCount b.router h.unit = 0) :
    routeLocal h op act (frameTaken b) = passOrRefuse (frameTaken b) h op [] := by
  have hn' : enabledCount (frameTaken b).router h.unit = 0 := hn
  rw [routeLocal, if_neg hu, hn', if_neg (Nat.lt_irrefl 0)]

theorem routeLocal_window {b : Bridge} {h : Header} {op : Op} {act : Bridge → Bridge} (hu : h.unit ≠ 15)
    (hn : 0 < enabledCount b.router h.unit) : routeLocal h op act (frameTaken b) = act (frameTaken b) := by
  have hn' : 0 < enabledCount (frameTaken b).router h.unit := hn
  rw [routeLocal, if_neg hu, if_pos hn']

/-- Settles O13: the block test, then the pass-through test or the checks of a claimed request. -/
theorem refusedBlocksAreAnsweredInTheOrderOfTheChecks : Obligations.RefusedBlocksAreAnsweredInTheOrderOfTheChecks := by
  refine ⟨fun h data s r n1 n2 hu top hd st hst => ?_, fun h s r hc hu hn hp => ?_,
    fun h data s i r n1 n2 hu top hd ht => ⟨fun st hst => ?_, fun st hst => ?_⟩⟩
  · have fit : BlocksFit h := ⟨n1, n2, hu, top⟩
    exact and_assoc.1 ⟨finish_answeredAtOnce (exec_read_received r fit) (routeBlocks_notClaimed fit hst),
      finish_answeredAtOnce (exec_write_received r fit hd) (routeBlocks_notClaimed fit hst)⟩
  · refine and_assoc.1 ⟨finish_answeredAtOnce (exec_flush_received r hc) ?_, ?_,
      (answeredAtOnce_isAnswered ..).pump⟩
    · rw [routeLocal_noWindow hu hn, passOrRefuse_refused _ _ hp]
    · rw [exec_sense_received r hc, routeLocal_noWindow hu hn, passOrRefuse_refused _ _ hp]
  · have fit : BlocksFit h := ⟨n1, n2, hu, top⟩
    exact finish_answeredAtOnce (exec_read_received r fit)
      (routeBlocks_refused fit ht (claimedRefusal_read (hst.imp_right (And.imp_right cartRefuses))))
  · have fit : BlocksFit h := ⟨n1, n2, hu, top⟩
    exact finish_answeredAtOnce (exec_write_received r fit hd)
      (routeBlocks_refused fit ht (claimedRefusal_write (hst.imp_right (And.imp_right cartRefuses))))

/-! ### Forwarded (R24, R25, R56) -/

/-- An entry that waits for no buffer is as it was after the consequences of an event. -/
theorem Steady.idle_entry {b t : Bridge} (h : Steady b t) {k : Key} {e : Entry} (he : b.entry k = some e)
    (idle : isActive e = false) : t.entry k = some e := by
  obtain ⟨e', he', -, same⟩ := h.requests.2 k e he
  rw [he', same idle]

theorem EndsStep.steady {f : Bridge → Bridge} (hf : EndsStep f) (b : Bridge) : Steady b (f b) := by
  rcases hf with rfl | rfl
  · exact (finish_course b).steady
  · exact (pump_course b).steady

/-- A request that is forwarded, but for the end of its step. -/
def ForwardedAtOnce (c : Instr) (op : Op) (h : Header) (data : List Block) (s : State) : Prop :=
  ∃ ending, EndsStep ending ∧ exec c s = .next (s.withBridge (ending (forwarded s.bridge h op data)))

section Forwarded
variable {h : Header} {s : State}

theorem read_forwarded (r : Received s.bridge h) (fit : BlocksFit h)
    (ht : blockTest s.bridge.router h.unit (blockRun h) = .unclaimed) (p : Passes s.bridge h) :
    ForwardedAtOnce (.read h) .read h [] s := by
  refine ⟨finish, .inl rfl, ?_⟩
  rw [exec_read_received r fit, routeBlocks_unclaimed fit ht, passOrRefuse_forwarded _ _ p]

theorem write_forwarded {data : List Block} (r : Received s.bridge h) (fit : BlocksFit h)
    (hd : data.length = h.count.toNat) (ht : blockTest s.bridge.router h.unit (blockRun h) = .unclaimed)
    (p : Passes s.bridge h) : ForwardedAtOnce (.write h data) .write h data s := by
  refine ⟨finish, .inl rfl, ?_⟩
  rw [exec_write_received r fit hd, routeBlocks_unclaimed fit ht, passOrRefuse_forwarded _ _ p]

theorem flush_forwarded (r : Received s.bridge h) (hc : h.count = 0) (hu : h.unit ≠ 15)
    (hn : enabledCount s.bridge.router h.unit = 0) (p : Passes s.bridge h) :
    ForwardedAtOnce (.flush h) .flush h [] s := by
  refine ⟨finish, .inl rfl, ?_⟩
  rw [exec_flush_received r hc, routeLocal_noWindow hu hn, passOrRefuse_forwarded _ _ p]

theorem sense_forwarded (r : Received s.bridge h) (hc : h.count = 0) (hu : h.unit ≠ 15)
    (hn : enabledCount s.bridge.router h.unit = 0) (p : Passes s.bridge h) :
    ForwardedAtOnce (.sense h) .sense h [] s := by
  refine ⟨pump, .inr rfl, ?_⟩
  rw [exec_sense_received r hc, routeLocal_noWindow hu hn, passOrRefuse_forwarded _ _ p]

end Forwarded

/-- Settles O14: the four operations reach the same forwarding, and its entry waits for no buffer. -/
theorem unclaimedRequestIsForwarded : Obligations.UnclaimedRequestIsForwarded := by
  intro c op h data s hop r hu hblocks hlocal hp hl
  have fwd : ForwardedAtOnce c op h data s := by
    rcases hop with ⟨rfl, rfl, rfl, n1, n2⟩ | ⟨rfl, rfl, hd, n1, n2⟩ | ⟨rfl, rfl, rfl, hc⟩ | ⟨rfl, rfl, rfl, hc⟩
    · obtain ⟨top, ht⟩ := hblocks (.inl rfl)
      exact read_forwarded r ⟨n1, n2, hu, top⟩ ht ⟨hp, hl⟩
    · obtain ⟨top, ht⟩ := hblocks (.inr rfl)
      exact write_forwarded r ⟨n1, n2, hu, top⟩ hd ht ⟨hp, hl⟩
    · exact flush_forwarded r hc hu (hlocal (.inl rfl)) ⟨hp, hl⟩
    · exact sense_forwarded r hc hu (hlocal (.inr rfl)) ⟨hp, hl⟩
  obtain ⟨ending, hend, hx⟩ := fwd
  exact ⟨_, hx, rfl, hend.apply _, (hend.steady _).idle_entry (withEntry_entry_self ..) rfl⟩

end Sys2Proof.Machine
end


section
/-! PROOFS. FLUSH and SENSE on a unit that has an enabled window (R50, R51). -/

namespace Sys2Proof.Machine

/-- A change of the entry that was just made is as if it had been made so. -/
theorem editEntry_withEntry (b : Bridge) (h : Header) (e : Entry) (f : Entry → Entry) :
    editEntry (withEntry b h e) h.key f = withEntry b h (f e) := by
  rw [editEntry, withEntry_entry_self]
  simp [withEntry, Bridge.putEntry]

/-! ### FLUSH (R50) -/

section Flush
variable {b : Bridge} {h : Header}

theorem flushLocal_clean (hn : flushTargets b = []) :
    flushLocal h (frameTaken b) = answeredAtOnce b h .flush (some (.onBridge none)) .ok .none := by
  rw [flushLocal]
  exact (if_pos hn).trans (answerStatus_withEntry ..)

theorem flushLocal_halted (hn : flushTargets b ≠ []) (hs : b.cart.state = .halted) :
    flushLocal h (frameTaken b) = answeredAtOnce b h .flush (some (.onBridge none)) .mechFault .none := by
  rw [flushLocal]
  exact (if_neg hn).trans ((if_pos hs).trans (answerStatus_withEntry ..))

theorem flushLocal_waits (hn : flushTargets b ≠ []) (hs : b.cart.state ≠ .halted) :
    flushLocal h (frameTaken b) = withEntry b h { newEntry b h .flush (some (.onBridge none)) with
      state := .awaitCommit, awaited := some (flushTargets b) } := by
  rw [flushLocal]
  exact (if_neg hn).trans ((if_neg hs).trans (editEntry_withEntry b h _ _))

end Flush

/-! ### SENSE (R51) -/

theorem senseLocal_frameTaken (b : Bridge) (h : Header) :
    senseLocal h (frameTaken b)
      = answeredAtOnce b h .sense (some (.onBridge none)) .ok (.items (senseItems b h.unit)) :=
  answerItems_withEntry b h .sense (some (.onBridge none)) (senseItems b h.unit)

/-- The cartridge states in which the write state is reported (R51). -/
def ShowsWriteState (b : Bridge) : Prop :=
  b.cart.state = .ready ∨ b.cart.state = .quiescing ∨ b.cart.state = .ejecting ∨ b.cart.state = .halted

theorem reportedWriteState_shown {b : Bridge} (hs : ShowsWriteState b) : reportedWriteState b = b.cart.writeState := by
  rcases hs with hs | hs | hs | hs <;> rw [reportedWriteState, hs]

theorem reportedWriteState_hidden {b : Bridge} (hs : ¬ ShowsWriteState b) : reportedWriteState b = none := by
  unfold ShowsWriteState at hs
  unfold reportedWriteState
  cases hc : b.cart.state <;> simp [hc] at hs ⊢

/-- The dirty buffers, as R51 lists their states. -/
theorem dirtyCount_eq (b : Bridge) :
    dirtyCount b = (allBufs.filter fun i => (b.buf i).state == .opened || (b.buf i).state == .committing
      || (b.buf i).state == .stranded || ((b.buf i).state == .loading && (b.buf i).dirty != 0)).length := by
  have same : ∀ i, isDirty (b.buf i) = ((b.buf i).state == .opened || (b.buf i).state == .committing
      || (b.buf i).state == .stranded || ((b.buf i).state == .loading && (b.buf i).dirty != 0)) := fun i => by
    unfold isDirty isUnsaved
    exact Bool.or_right_comm ..
  simp only [dirtyCount, same]

theorem senseItems_shown {b : Bridge} {st : WriteState} (u : Nat) (h : reportedWriteState b = some st) :
    senseItems b u = [numItem 0x60 1 b.cart.state.code, numItem 0x61 1 st.code, numItem 0x62 1 (enabledCount b.router u),
      numItem 0x63 1 b.cart.deferred, numItem 0x64 1 (dirtyCount b)] := by
  rw [senseItems, h]
  rfl

theorem senseItems_hidden {b : Bridge} (u : Nat) (h : reportedWriteState b = none) :
    senseItems b u = [numItem 0x60 1 b.cart.state.code, numItem 0x62 1 (enabledCount b.router u),
      numItem 0x63 1 b.cart.deferred, numItem 0x64 1 (dirtyCount b)] := by
  rw [senseItems, h]
  rfl

theorem exec_flush_local {s : State} {h : Header} (r : Received s.bridge h) (hc : h.count = 0) (hu : h.unit ≠ 15)
    (hn : 0 < enabledCount s.bridge.router h.unit) :
    exec (.flush h) s = .next (s.withBridge (finish (flushLocal h (frameTaken s.bridge)))) := by
  rw [exec_flush_received r hc, routeLocal_window hu hn]

theorem exec_sense_local {s : State} {h : Header} (r : Received s.bridge h) (hc : h.count = 0) (hu : h.unit ≠ 15)
    (hn : 0 < enabledCount s.bridge.router h.unit) :
    exec (.sense h) s = .next (s.withBridge (pump (answeredAtOnce s.bridge h .sense (some (.onBridge none)) .ok
      (.items (senseItems s.bridge h.unit))))) := by
  rw [exec_sense_received r hc, routeLocal_window hu hn, senseLocal_frameTaken]

/-- Settles O22: the three ways of a FLUSH, and the report of a SENSE with and without its write state. -/
theorem flushAwaitsTheDirtyBuffersAndSenseReports : Obligations.FlushAwaitsTheDirtyBuffersAndSenseReports := by
  refine ⟨fun h s r hc hu hn => ⟨fun hd => ?_, fun hd hs => ?_, fun hd hs => ?_⟩, fun h s r hc hu hn => ?_⟩
  · rw [exec_flush_local r hc hu hn, flushLocal_clean hd]
    exact ⟨rfl, (answeredAtOnce_isAnswered ..).finish⟩
  · rw [exec_flush_local r hc hu hn, flushLocal_halted hd hs]
    exact ⟨rfl, (answeredAtOnce_isAnswered ..).finish⟩
  · rw [exec_flush_local r hc hu hn, flushLocal_waits hd hs]
    exact ⟨rfl, withEntry_entry_self .., fun j => withEntry_entry_ne s.bridge _, (finish_course _).steady⟩
  · refine ⟨senseItems s.bridge h.unit, _, exec_sense_local r hc hu hn, rfl, (answeredAtOnce_isAnswered ..).pump,
      fun st shown hst => ?_, fun hidden => ?_⟩
    · rw [senseItems_shown h.unit ((reportedWriteState_shown shown).trans hst), dirtyCount_eq]
    · have none_reported : reportedWriteState s.bridge = none := by
        by_cases shown : ShowsWriteState s.bridge
        · exact (reportedWriteState_shown shown).trans (hidden.resolve_left (not_not_intro shown))
        · exact reportedWriteState_hidden shown
      rw [senseItems_hidden h.unit none_reported, dirtyCount_eq]

end Sys2Proof.Machine
end


section
/-! PROOFS. WRITE_WINDOW, WRITE_CLASS and the reports of the tables and settings (R27 to R29, R34, R181). -/

namespace Sys2Proof.Machine

/-! ### The index that a request carries (R27, R29, R34) -/

theorem indexOf_eq_some {n : Nat} {items : List Item} {i : Fin n} (h : itemNat items 0x01 = some i.val) :
    indexOf n items = some i := by
  rw [indexOf, h, Option.bind_some, dif_pos i.isLt]

theorem indexOf_eq_none {n : Nat} {items : List Item} (h : ∀ i : Fin n, itemNat items 0x01 ≠ some i.val) :
    indexOf n items = none := by
  unfold indexOf
  cases hv : itemNat items 0x01 with
  | none => rfl
  | some v => exact dif_neg fun hlt => h ⟨v, hlt⟩ hv

/-- The bridge with the entry of a management request that its operation acts on. -/
def managing (b : Bridge) (h : Header) (op : Op) : Bridge := withEntry b h (newEntry b h op (some .management))

theorem answerStatus_managing (b : Bridge) (h : Header) (op : Op) (st : Status) :
    answerStatus (managing b h op) h.key st = answeredAtOnce b h op (some .management) st .none :=
  answerStatus_withEntry ..

/-! ### WRITE_WINDOW (R27) -/

section WriteWindow
variable {b : Bridge} {h : Header} {items : List Item} {op : Op} {i : Fin 16}

/-- A window entry is replaced, and the request answered OK. -/
def windowWritten (b : Bridge) (h : Header) (op : Op) (i : Fin 16) (w : Window) : Bridge :=
  closedWith (putWindow (managing b h op) i w) h.key (newEntry b h op (some .management)) .ok 0 .none

theorem writeWindow_noIndex (hi : indexOf 16 items = none) :
    writeWindow h items (managing b h op) = answeredAtOnce b h op (some .management) .outOfRange .none := by
  rw [writeWindow, hi]
  exact answerStatus_managing ..

theorem writeWindow_locked (hi : indexOf 16 items = some i) (hl : b.router.windows[i].locked = true) :
    writeWindow h items (managing b h op) = answeredAtOnce b h op (some .management) .lockedEntry .none := by
  rw [writeWindow, hi]
  exact (if_pos hl).trans (answerStatus_managing ..)

theorem writeWindow_ranges (hi : indexOf 16 items = some i) (hl : b.router.windows[i].locked = false)
    (hr : windowRangesOk items = false) :
    writeWindow h items (managing b h op) = answeredAtOnce b h op (some .management) .outOfRange .none := by
  rw [writeWindow, hi, hr]
  exact (if_neg (Bool.eq_false_iff.1 hl)).trans (answerStatus_managing ..)

theorem writeWindow_inconsistent (hi : indexOf 16 items = some i) (hl : b.router.windows[i].locked = false)
    (hr : windowRangesOk items = true) (hc : windowConsistent (applyWindowItems items b.router.windows[i]) = false) :
    writeWindow h items (managing b h op) = answeredAtOnce b h op (some .management) .inconsistent .none := by
  have hc' : (!windowConsistent (applyWindowItems items b.router.windows[i])) = true := by rw [hc]; rfl
  rw [writeWindow, hi, hr]
  exact (if_neg (Bool.eq_false_iff.1 hl)).trans ((if_pos hc').trans (answerStatus_managing ..))

theorem writeWindow_written (hi : indexOf 16 items = some i) (hl : b.router.windows[i].locked = false)
    (hr : windowRangesOk items = true) (hc : windowConsistent (applyWindowItems items b.router.windows[i]) = true) :
    writeWindow h items (managing b h op) = windowWritten b h op i (applyWindowItems items b.router.windows[i]) := by
  have hc' : ¬ (!windowConsistent (applyWindowItems items b.router.windows[i])) = true := by rw [hc]; decide
  rw [writeWindow, hi, hr]
  refine (if_neg (Bool.eq_false_iff.1 hl)).trans ((if_neg hc').trans (answer_new (b := b) .ok 0 .none ?_))
  exact withEntry_entry_self b h (newEntry b h op (some .management))

theorem windowWritten_windows (w : Window) (j : Fin 16) :
    (windowWritten b h op i w).router.windows[j] = if j = i then w else b.router.windows[j] := by
  show (b.router.windows.set i w)[j] = _
  simp only [Fin.getElem_fin, Vector.getElem_set, Fin.ext_iff, eq_comm]

end WriteWindow

/-! ### WRITE_CLASS (R34) -/

section WriteClass
variable {b : Bridge} {h : Header} {items : List Item} {op : Op} {i : Fin 8}

/-- A class entry is replaced, and the request answered OK. -/
def classWritten (b : Bridge) (h : Header) (op : Op) (i : Fin 8) (c : ClassEntry) : Bridge :=
  closedWith (putClass (managing b h op) i c) h.key (newEntry b h op (some .management)) .ok 0 .none

theorem writeClass_noIndex (hi : indexOf 8 items = none) :
    writeClass h items (managing b h op) = answeredAtOnce b h op (some .management) .outOfRange .none := by
  rw [writeClass, hi]
  exact answerStatus_managing ..

theorem writeClass_ranges (hi : indexOf 8 items = some i) (hr : classRangesOk items = false) :
    writeClass h items (managing b h op) = answeredAtOnce b h op (some .management) .outOfRange .none := by
  rw [writeClass, hi, hr]
  exact answerStatus_managing ..

theorem writeClass_inconsistent (hi : indexOf 8 items = some i) (hr : classRangesOk items = true)
    (hc : classConsistent (applyClassItems items b.router.classes[i]) = false) :
    writeClass h items (managing b h op) = answeredAtOnce b h op (some .management) .inconsistent .none := by
  have hc' : (!classConsistent (applyClassItems items b.router.classes[i])) = true := by rw [hc]; rfl
  rw [writeClass, hi, hr]
  exact (if_pos hc').trans (answerStatus_managing ..)

theorem writeClass_written (hi : indexOf 8 items = some i) (hr : classRangesOk items = true)
    (hc : classConsistent (applyClassItems items b.router.classes[i]) = true) :
    writeClass h items (managing b h op) = classWritten b h op i (applyClassItems items b.router.classes[i]) := by
  have hc' : ¬ (!classConsistent (applyClassItems items b.router.classes[i])) = true := by rw [hc]; decide
  rw [writeClass, hi, hr]
  refine (if_neg hc').trans (answer_new (b := b) .ok 0 .none ?_)
  exact withEntry_entry_self b h (newEntry b h op (some .management))

theorem classWritten_classes (c : ClassEntry) (j : Fin 8) :
    (classWritten b h op i c).router.classes[j] = if j = i then c else b.router.classes[j] := by
  show (b.router.classes.set i c)[j] = _
  simp only [Fin.getElem_fin, Vector.getElem_set, Fin.ext_iff, eq_comm]

end WriteClass

/-! ### The reports (R29, R34) -/

section Reports
variable {b : Bridge} {h : Header} {items : List Item} {op : Op}

theorem readWindow_reported {i : Fin 16} (hi : indexOf 16 items = some i) :
    readWindow h items (managing b h op)
      = answeredAtOnce b h op (some .management) .ok (.items (windowItems b.router.windows[i])) := by
  rw [readWindow, hi]
  exact answerItems_withEntry ..

theorem readWindow_noIndex (hi : indexOf 16 items = none) :
    readWindow h items (managing b h op) = answeredAtOnce b h op (some .management) .outOfRange .none := by
  rw [readWindow, hi]
  exact answerStatus_managing ..

theorem readClass_reported {i : Fin 8} (hi : indexOf 8 items = some i) :
    readClass h items (managing b h op)
      = answeredAtOnce b h op (some .management) .ok (.items (classItems b.router.classes[i])) := by
  rw [readClass, hi]
  exact answerItems_withEntry ..

theorem readClass_noIndex (hi : indexOf 8 items = none) :
    readClass h items (managing b h op) = answeredAtOnce b h op (some .management) .outOfRange .none := by
  rw [readClass, hi]
  exact answerStatus_managing ..

end Reports

/-! ### The commands -/

section Commands
variable {h : Header} {items : List Item} {s : State}

theorem exec_writeWindow_managed (m : Managed s.bridge h .writeWindow items) :
    exec (.writeWindow h items) s
      = .next (s.withBridge (pump (writeWindow h items (managing s.bridge h .writeWindow)))) :=
  exec_managed (writeWindow h items) pump rfl m

theorem exec_writeClass_managed (m : Managed s.bridge h .writeClass items) :
    exec (.writeClass h items) s
      = .next (s.withBridge (pump (writeClass h items (managing s.bridge h .writeClass)))) :=
  exec_managed (writeClass h items) pump rfl m

theorem exec_readWindow_managed (m : Managed s.bridge h .readWindow items) :
    exec (.readWindow h items) s
      = .next (s.withBridge (pump (readWindow h items (managing s.bridge h .readWindow)))) :=
  exec_managed (readWindow h items) pump rfl m

theorem exec_readClass_managed (m : Managed s.bridge h .readClass items) :
    exec (.readClass h items) s
      = .next (s.withBridge (pump (readClass h items (managing s.bridge h .readClass)))) :=
  exec_managed (readClass h items) pump rfl m

theorem exec_readSettings_managed (m : Managed s.bridge h .readSettings items) :
    exec (.readSettings h items) s = .next (s.withBridge (pump
      (answeredAtOnce s.bridge h .readSettings (some .management) .ok (.items (readSettingItems s.bridge items))))) := by
  rw [← answerItems_withEntry]
  exact exec_managed (fun b => answerItems b h.key (readSettingItems b items)) pump rfl m

end Commands

/-- WRITE_WINDOW from the holder (R27, R28). -/
theorem exec_writeWindow_written {h : Header} {items : List Item} {s : State} {i : Fin 16}
    (m : Managed s.bridge h .writeWindow items) (hi : indexOf 16 items = some i)
    (hl : s.bridge.router.windows[i].locked = false) (hr : windowRangesOk items = true)
    (hc : windowConsistent (applyWindowItems items s.bridge.router.windows[i]) = true) :
    let w' := applyWindowItems items s.bridge.router.windows[i]
    let b := pump (windowWritten s.bridge h .writeWindow i w')
    exec (.writeWindow h items) s = .next (s.withBridge b) ∧ IsAnswered b h.key .ok 0 .none
      ∧ b.router.windows[i] = w' ∧ ∀ j : Fin 16, j ≠ i → b.router.windows[j] = s.bridge.router.windows[j] := by
  intro w' b
  refine ⟨by rw [exec_writeWindow_managed m, writeWindow_written hi hl hr hc], (closedWith_isAnswered ..).pump, ?_,
    fun j hj => ?_⟩
  · rw [pump_router, windowWritten_windows, if_pos rfl]
  · rw [pump_router, windowWritten_windows, if_neg hj]

/-- WRITE_CLASS from the holder (R34). -/
theorem exec_writeClass_written {h : Header} {items : List Item} {s : State} {i : Fin 8}
    (m : Managed s.bridge h .writeClass items) (hi : indexOf 8 items = some i) (hr : classRangesOk items = true)
    (hc : classConsistent (applyClassItems items s.bridge.router.classes[i]) = true) :
    let c' := applyClassItems items s.bridge.router.classes[i]
    let b := pump (classWritten s.bridge h .writeClass i c')
    exec (.writeClass h items) s = .next (s.withBridge b) ∧ IsAnswered b h.key .ok 0 .none
      ∧ b.router.classes[i] = c' ∧ ∀ j : Fin 8, j ≠ i → b.router.classes[j] = s.bridge.router.classes[j] := by
  intro c' b
  refine ⟨by rw [exec_writeClass_managed m, writeClass_written hi hr hc], (closedWith_isAnswered ..).pump, ?_,
    fun j hj => ?_⟩
  · rw [pump_router, classWritten_classes, if_pos rfl]
  · rw [pump_router, classWritten_classes, if_neg hj]

/-- Settles O29: each write by the first of its checks that fails, or as written, and each report by its index. -/
theorem tablesAreWrittenInOrderAndReported : Obligations.TablesAreWrittenInOrderAndReported := by
  refine ⟨⟨fun h items s m => ⟨fun hn => ?_, fun i hi => ⟨fun hl => ?_, fun hl hr => ?_, fun hl hr hc => ?_,
      fun hl hr hc => exec_writeWindow_written m (indexOf_eq_some hi) hl hr hc⟩⟩,
    fun h items s m => ⟨fun hn => ?_, fun i hi => ⟨fun hr => ?_, fun hr hc => ?_,
      fun hr hc => exec_writeClass_written m (indexOf_eq_some hi) hr hc⟩⟩⟩,
    fun h items s => ⟨fun m => ⟨fun i hi => ?_, fun hn => ?_⟩, fun m => ⟨fun i hi => ?_, fun hn => ?_⟩⟩,
    fun h items s m => ⟨exec_readSettings_managed m, (answeredAtOnce_isAnswered ..).pump⟩⟩
  · rw [exec_writeWindow_managed m, writeWindow_noIndex hn]
  · rw [exec_writeWindow_managed m, writeWindow_locked (indexOf_eq_some hi) hl]
  · rw [exec_writeWindow_managed m, writeWindow_ranges (indexOf_eq_some hi) hl hr]
  · rw [exec_writeWindow_managed m, writeWindow_inconsistent (indexOf_eq_some hi) hl hr hc]
  · rw [exec_writeClass_managed m, writeClass_noIndex hn]
  · rw [exec_writeClass_managed m, writeClass_ranges (indexOf_eq_some hi) hr]
  · rw [exec_writeClass_managed m, writeClass_inconsistent (indexOf_eq_some hi) hr hc]
  · rw [exec_readWindow_managed m, readWindow_reported (indexOf_eq_some hi)]
  · rw [exec_readWindow_managed m, readWindow_noIndex (indexOf_eq_none hn)]
  · rw [exec_readClass_managed m, readClass_reported (indexOf_eq_some hi)]
  · rw [exec_readClass_managed m, readClass_noIndex (indexOf_eq_none hn)]

end Sys2Proof.Machine
end


section
/-! PROOFS. An admitted READ (R31, R32, R42): the entry it gets, and the sectors and quarters of its blocks. -/

namespace Sys2Proof.Machine

/-! ### The checks of a claimed request, all passed (R23) -/

/-- The cartridge is READY, and a request of `n` blocks from cartridge block `cb` lies within its capacity (R23, checks 2
and 3). -/
def CartTakes (b : Bridge) (cb n : Nat) : Prop :=
  b.cart.state = .ready ∧ ∃ l, b.cart.layout = some l ∧ cb + n - 1 < 4 * userCount l

theorem cartTakes_noRefusal {b : Bridge} {cb n : Nat} (h : CartTakes b cb n) :
    (stateRefusal b.cart.state).or (if beyondCapacity b cb n then some .outOfMedia else none) = none := by
  obtain ⟨hs, l, hl, hlt⟩ := h
  have within : beyondCapacity b cb n = false := by simpa [beyondCapacity, hl] using hlt
  rw [hs, within]
  rfl

theorem claimedRefusal_read_none {b : Bridge} {w : Window} {cb n : Nat} (hw : w.readAllowed = true)
    (hc : CartTakes b cb n) : claimedRefusal b w .read cb n = none := by
  rw [claimedRefusal, if_neg (by simp [hw]), if_neg (by simp)]
  exact cartTakes_noRefusal hc

theorem claimedRefusal_write_none {b : Bridge} {w : Window} {cb n : Nat} (hw : w.writeAllowed = true)
    (hc : CartTakes b cb n) : claimedRefusal b w .write cb n = none := by
  rw [claimedRefusal, if_neg (by simp), if_neg (by simp [hw])]
  exact cartTakes_noRefusal hc

theorem routeBlocks_accepted {b : Bridge} {h : Header} {op : Op} {data : List Block}
    {accept : Fin 16 → Nat → Bridge → Bridge} {i : Fin 16} (fit : BlocksFit h)
    (ht : blockTest b.router h.unit (blockRun h) = .claimed i)
    (hn : claimedRefusal b b.router.windows[i] op (cbOf b.router.windows[i] h.block.toNat) h.count.toNat = none) :
    routeBlocks h op data accept (frameTaken b)
      = accept i (cbOf b.router.windows[i] h.block.toNat) (frameTaken b) := by
  rw [routeBlocks_claimed fit ht, hn]

/-! ### The entry of a READ (R31, R32, R42) -/

/-- The entry of an admitted READ (R31, R32). -/
def readEntry (b : Bridge) (h : Header) (i : Fin 16) (cb : Nat) : Entry :=
  { newEntry b h .read (some (.window i cb)) with
    state := .reserving
    sectors := sectorList cb h.count.toNat
    cls := some (if deadlineOf b.router h = none then .normal else .stream)
    deadline := (deadlineOf b.router h).map fun d => b.clock + BitVec.ofNat 32 d }

theorem admitRead_frameTaken (b : Bridge) (h : Header) (i : Fin 16) (cb : Nat) :
    admitRead h i cb (frameTaken b) = insertReservation (withEntry b h (readEntry b h i cb)) h.key := by
  have cls : (if (deadlineOf b.router h).isSome then ReadClass.stream else .normal)
      = if deadlineOf b.router h = none then .normal else .stream := by
    cases deadlineOf b.router h with
    | none => rfl
    | some d => rfl
  rw [readEntry, ← cls]
  rfl

theorem admittedRead_course (b : Bridge) (h : Header) (e : Entry) :
    Course (withEntry b h e) (finish (insertReservation (withEntry b h e) h.key)) :=
  (insertReservation_moves _ _).course.trans (finish_course _)

/-! ### Sectors and quarters (R4, R31, R42) -/

theorem mem_sectorList {cb n lsn : Nat} : lsn ∈ sectorList cb n ↔ cb / 4 ≤ lsn ∧ lsn ≤ (cb + n - 1) / 4 := by
  simp only [sectorList, lsnOf, List.mem_range'_1]
  omega

theorem sectorList_ascending (cb n : Nat) : (sectorList cb n).Pairwise (· < ·) := List.pairwise_lt_range'

theorem sectorList_length {cb n : Nat} (hn : 1 ≤ n) (h32 : n ≤ 32) :
    1 ≤ (sectorList cb n).length ∧ (sectorList cb n).length ≤ 9 := by
  simp only [sectorList, lsnOf, List.length_range']
  omega

/-- The quarters that satisfy a test, gathered one by one. -/
theorem getLsbD_foldl_quarters (p : Nat → Prop) [DecidablePred p] (q : Fin 4) : ∀ (l : List Nat) (acc : QSet),
    (l.foldl (fun acc q => if p q then acc ||| (1#4 <<< q) else acc) acc).getLsbD q
      = (acc.getLsbD q || decide (q.val ∈ l ∧ p q))
  | [], acc => by simp
  | x :: l, acc => by
    have here : (1#4 <<< x : QSet).getLsbD q = decide (q.val = x) := by
      rw [← BitVec.twoPow_eq, BitVec.getLsbD_twoPow]
      have := q.isLt
      by_cases hx : q.val = x
      · simp [← hx]
      · simp [hx, Ne.symm hx]
    rw [List.foldl_cons, getLsbD_foldl_quarters p q l]
    by_cases hp : p x
    · rw [if_pos hp, BitVec.getLsbD_or, here]
      by_cases hx : q.val = x
      · simp [hx, hp]
      · simp [hx]
    · rw [if_neg hp]
      by_cases hx : q.val = x
      · simp [hx, hp]
      · simp [hx]

theorem hasQuarter_neededQuarters (cb n lsn : Nat) (q : Fin 4) :
    hasQuarter (neededQuarters cb n lsn) q = true ↔ cb ≤ 4 * lsn + q.val ∧ 4 * lsn + q.val < cb + n := by
  have mem : q.val ∈ List.range 4 := List.mem_range.2 q.isLt
  rw [hasQuarter, neededQuarters,
    getLsbD_foldl_quarters (fun q => cb ≤ 4 * lsn + q ∧ 4 * lsn + q < cb + n) q (List.range 4) 0]
  simp [mem]

/-- Settles O15: the checks that pass, the entry as it is made, and what the reservation and the event keep of it. -/
theorem admittedReadGetsItsEntryAndSectors : Obligations.AdmittedReadGetsItsEntryAndSectors := by
  refine ⟨fun h s i r n1 n2 hu top ht hw hs hl => ?_, fun cb n hn =>
    ⟨fun _ => mem_sectorList, sectorList_ascending cb n, sectorList_length hn, hasQuarter_neededQuarters cb n⟩⟩
  have fit : BlocksFit h := ⟨n1, n2, hu, top⟩
  have hx : exec (.read h) s = .next (s.withBridge (finish (insertReservation
      (withEntry s.bridge h (readEntry s.bridge h i (cbOf s.bridge.router.windows[i] h.block.toNat))) h.key))) := by
    rw [exec_read_received r fit, routeBlocks_accepted fit ht (claimedRefusal_read_none hw ⟨hs, hl⟩), admitRead_frameTaken]
  obtain ⟨e', he', same, -⟩ := (admittedRead_course s.bridge h _).steady.requests.2 h.key _ (withEntry_entry_self ..)
  refine ⟨_, hx, ?_⟩
  rw [withBridge_pending, withBridge_bridge]
  exact ⟨rfl, rfl, e', he', same⟩

end Sys2Proof.Machine
end


section
/-! PROOFS. An admitted WRITE (R31, R46, R47, R49): the entry that its merge leaves it, and the answers that follow. -/

namespace Sys2Proof.Machine

/-! ### What stays but for one key -/

/-- The bridge without the entry of a key and without its admission number: what a relation between states says of the rest. -/
def forgetKey (k : Key) (b : Bridge) : Bridge :=
  { b with table := { entries := b.table.entries.set (keyIdx k) none, nextSeq := 0 } }

theorem forgetKey_entry (k : Key) (b : Bridge) (j : Key) :
    (forgetKey k b).entry j = if j = k then none else b.entry j := entry_putEntry b k j none

/-- `Steady`, with nothing said of the entry of one key. -/
structure SteadyBut (k : Key) (b t : Bridge) : Prop where
  rest    : Steady (forgetKey k b) (forgetKey k t)
  nextSeq : t.table.nextSeq = b.table.nextSeq

theorem SteadyBut.refl (k : Key) (b : Bridge) : SteadyBut k b b := ⟨.refl _, rfl⟩

theorem SteadyBut.trans {k : Key} {a b c : Bridge} (h : SteadyBut k a b) (h' : SteadyBut k b c) : SteadyBut k a c :=
  ⟨h.rest.trans h'.rest, h'.nextSeq.trans h.nextSeq⟩

theorem RequestsKept.forgetKey {b t : Bridge} (h : RequestsKept b t) (k : Key) :
    RequestsKept (forgetKey k b) (forgetKey k t) := by
  refine ⟨fun j hj => ?_, fun j e hj => ?_⟩
  · rw [forgetKey_entry] at hj ⊢
    split at hj
    · rename_i hjk; rw [if_pos hjk]
    · rename_i hjk; rw [if_neg hjk, h.1 j hj]
  · rw [forgetKey_entry] at hj ⊢
    split at hj
    · cases hj
    · rename_i hjk; rw [if_neg hjk]; exact h.2 j e hj

theorem Steady.but {b t : Bridge} (h : Steady b t) (k : Key) : SteadyBut k b t :=
  ⟨⟨h.clock, h.router, h.mgmt, h.link, h.thru, rfl, h.requests.forgetKey k, h.replies, h.exceptions, h.timeouts, h.cart,
    h.mapHeld, h.life⟩, h.nextSeq⟩

/-- An answer to the entry of the key. -/
theorem Closes.but {b t : Bridge} {k : Key} (h : Closes b t) (others : ∀ j, j ≠ k → t.entry j = b.entry j) :
    SteadyBut k b t := by
  have same : ∀ j, (forgetKey k t).entry j = (forgetKey k b).entry j := fun j => by
    rw [forgetKey_entry, forgetKey_entry]
    split
    · rfl
    · rename_i hj; exact others j hj
  have requests : RequestsKept (forgetKey k b) (forgetKey k t) :=
    ⟨fun j hj => (same j).trans hj, fun j e hj => ⟨e, (same j).trans hj, .refl e, fun _ => rfl⟩⟩
  have replies := fun f hf ht => h.outFrames (f := f) hf ht
  obtain ⟨queue, fifo, entries, pool, ht⟩ : ∃ queue fifo entries pool, t = { b with
      link := { b.link with queue }, thru := { b.thru with fifo }, table := { b.table with entries }, pool } :=
    ⟨_, _, _, _, h.rest⟩
  subst ht
  exact ⟨⟨rfl, rfl, rfl, rfl, rfl, rfl, requests, replies, ⟨[], (List.append_nil _).symm⟩, rfl, ⟨rfl, rfl, rfl, rfl⟩, rfl,
    .inl ⟨rfl, rfl, rfl, rfl, rfl⟩⟩, rfl⟩

/-- With its own entry of the key, the whole bridge is steady. -/
theorem SteadyBut.steady {b t : Bridge} {k : Key} {e e' : Entry} (h : SteadyBut k b t) (he : b.entry k = some e)
    (he' : t.entry k = some e') (same : SameRequest e e') (idle : isActive e = false → e' = e) : Steady b t := by
  obtain ⟨r, nextSeq⟩ := h
  have free := r.requests.1
  have held := r.requests.2
  simp only [forgetKey_entry] at free held
  refine ⟨r.clock, r.router, r.mgmt, r.link, r.thru, nextSeq, ⟨fun j hj => ?_, fun j f hj => ?_⟩, r.replies, r.exceptions,
    r.timeouts, r.cart, r.mapHeld, r.life⟩
  · have hjk : j ≠ k := fun hjk => by rw [hjk, he] at hj; cases hj
    have := free j
    rw [if_neg hjk, if_neg hjk] at this
    exact this hj
  · by_cases hjk : j = k
    · subst hjk
      rw [he] at hj
      cases hj
      exact ⟨e', he', same, idle⟩
    · have := held j f
      rw [if_neg hjk, if_neg hjk] at this
      exact this hj

/-! ### Answers in key order, one of them the request's own -/

/-- A loop over the keys reaches one key with the entry it began with, where the others keep what idle entries hold, and what
it brings about there stays. -/
theorem foldl_reaches {f : Bridge → Key → Bridge} {k : Key} {e : Entry} {Q : Bridge → Prop} (idle : isActive e = false)
    (others : ∀ b j, j ≠ k → Moves b (f b j)) (reached : ∀ b, b.entry k = some e → Q (f b k))
    (stays : ∀ b t, Moves b t → Q b → Q t) :
    ∀ (l : List Key) (b : Bridge), l.Nodup → k ∈ l → b.entry k = some e → Q (l.foldl f b)
  | [], _, _, hk, _ => absurd hk List.not_mem_nil
  | j :: l, b, nodup, hk, he => by
    rw [List.nodup_cons] at nodup
    rw [List.foldl_cons]
    by_cases hj : j = k
    · subst hj
      have rest : ∀ (l : List Key) (c : Bridge), j ∉ l → Q c → Q (l.foldl f c) := by
        intro l
        induction l with
        | nil => exact fun _ _ hq => hq
        | cons i l ih =>
          intro c hn hq
          rw [List.mem_cons, not_or] at hn
          exact ih _ hn.2 (stays _ _ (others c i (Ne.symm hn.1)) hq)
      exact rest l _ nodup.1 (reached b he)
    · exact foldl_reaches idle others reached stays l _ nodup.2 ((List.mem_cons.1 hk).resolve_left (Ne.symm hj))
        ((others b j hj).steady.idle_entry he idle)

/-! ### The awaited buffers and the failed sectors of a confirmed WRITE (R47, R49) -/

/-- The merged buffer of a sector is STRANDED. -/
def mergedStranded (b : Bridge) (lsn : Nat) : Bool := (currentBuf b lsn).any fun j => (b.buf j).state == .stranded

/-- The merged buffers that a confirmed WRITE of these sectors awaits (R47). -/
def mergedAwaited (b : Bridge) (lsns : List Nat) : List BufIdx :=
  (lsns.filter fun lsn => !mergedStranded b lsn).filterMap (currentBuf b)

theorem mergedAwaited_cons (b : Bridge) (lsn : Nat) (lsns : List Nat) :
    mergedAwaited b (lsn :: lsns) = mergedAwaited b [lsn] ++ mergedAwaited b lsns := by
  unfold mergedAwaited
  rw [← List.filterMap_append, ← List.filter_append, List.singleton_append]

theorem awaitMerged_eq (b : Bridge) {e : Entry} (lsn : Nat) {l : List BufIdx} (ho : e.op = .write)
    (ha : e.awaited = some l) :
    awaitMerged b e lsn = { e with
      awaited := some (l ++ mergedAwaited b [lsn])
      blocksDone := if mergedStranded b lsn then min e.blocksDone (blocksBefore e (e.sectors.idxOf lsn))
        else e.blocksDone } := by
  unfold awaitMerged mergedAwaited mergedStranded
  cases hc : currentBuf b lsn with
  | none => simp [hc, ← ha]
  | some i =>
    by_cases hs : (b.buf i).state = .stranded
    · simp [hc, hs, Entry.failSector, ho, ← ha]
    · simp [hc, hs, ha]

/-- The sectors one after the other: the awaited buffers are appended, and each failed sector lowers blocks done. -/
theorem foldl_awaitMerged (b : Bridge) : ∀ (lsns : List Nat) {e : Entry} {l : List BufIdx}, e.op = .write →
    e.awaited = some l →
    lsns.foldl (awaitMerged b) e = { e with
      awaited := some (l ++ mergedAwaited b lsns)
      blocksDone := (lsns.filter (mergedStranded b)).foldl
        (fun d lsn => min d (blocksBefore e (e.sectors.idxOf lsn))) e.blocksDone }
  | [], e, l, ho, ha => by
    rw [show mergedAwaited b [] = [] from rfl, List.append_nil, ← ha]
    rfl
  | lsn :: lsns, e, l, ho, ha => by
    rw [List.foldl_cons, awaitMerged_eq b lsn ho ha, mergedAwaited_cons b lsn lsns, ← List.append_assoc]
    refine (foldl_awaitMerged b lsns (by exact ho) rfl).trans ?_
    by_cases hs : mergedStranded b lsn = true
    · rw [if_pos hs, List.filter_cons_of_pos hs]
      rfl
    · rw [if_neg hs, List.filter_cons_of_neg hs]
      rfl

theorem foldl_min_of_le {α : Type} {g : α → Nat} : ∀ (l : List α) {d : Nat}, (∀ x ∈ l, d ≤ g x) →
    l.foldl (fun d x => min d (g x)) d = d
  | [], _, _ => rfl
  | x :: l, d, h => by
    rw [List.foldl_cons, Nat.min_eq_left (h x List.mem_cons_self)]
    exact foldl_min_of_le l fun y hy => h y (List.mem_cons_of_mem x hy)

/-- Of the bounds that the elements chosen from a list give by their places, a bound that grows with the place leaves the
first. -/
theorem foldl_min_idxOf {p : Nat → Bool} : ∀ (l : List Nat) {g : Nat → Nat} (d : Nat), l.Nodup → Monotone g →
    (l.filter p).foldl (fun d x => min d (g (l.idxOf x))) d
      = match l.findIdx? p with
        | none => d
        | some j => min d (g j)
  | [], _, _, _, _ => rfl
  | x :: l, g, d, nodup, mono => by
    rw [List.nodup_cons] at nodup
    have shifted : ∀ y ∈ l, (x :: l).idxOf y = l.idxOf y + 1 := fun y hy =>
      List.idxOf_cons_ne l fun h => nodup.1 (h ▸ hy)
    rw [List.findIdx?_cons]
    by_cases hx : p x = true
    · rw [List.filter_cons_of_pos hx, List.foldl_cons, List.idxOf_cons_self, if_pos hx]
      exact foldl_min_of_le _ fun y _ => (Nat.min_le_right _ _).trans (mono (Nat.zero_le _))
    · have ih := foldl_min_idxOf (p := p) l (g := fun j => g (j + 1)) d nodup.2 fun a b hab => mono (Nat.succ_le_succ hab)
      rw [List.filter_cons_of_neg hx, if_neg hx]
      refine (List.foldl_ext _ _ d fun a y hy => ?_).trans (ih.trans ?_)
      · rw [shifted y (List.mem_filter.1 hy).1]
      · cases l.findIdx? p with
        | none => rfl
        | some j => rfl

theorem blocksBefore_monotone (e : Entry) : Monotone (blocksBefore e) := by
  intro j k hjk
  unfold blocksBefore
  split
  · exact Nat.zero_le _
  · rw [if_neg (by omega)]
    omega

/-! ### The entry of a WRITE (R31, R46, R47) -/

/-- The pool after the blocks of a WRITE that was taken in are merged (R74). -/
def mergedWrite (b : Bridge) (h : Header) (cb : Nat) (data : List Block) : Bridge :=
  admitWrite (frameTaken b) cb h.count.toNat data

/-- The entry of an admitted WRITE, but for what it awaits and its blocks done. -/
def writeRequest (b : Bridge) (h : Header) (i : Fin 16) (cb : Nat) (mode : WriteMode) : Entry :=
  { newEntry b h .write (some (.window i cb)) with
    writeMode := some mode, sectors := sectorList cb h.count.toNat, state := .awaitCommit }

/-- The bridge with the blocks of a WRITE merged and its entry made. -/
def enteredWrite (b : Bridge) (h : Header) (i : Fin 16) (cb : Nat) (mode : WriteMode) (data : List Block) : Bridge :=
  makeEntry (mergedWrite b h cb data) h .write (writeEntry (mergedWrite b h cb data) i cb mode)

/-- The blocks done that the first of the failed sectors leaves (R49). -/
def blocksDoneAt (cb n : Nat) : Option Nat → Nat
  | none => n
  | some 0 => 0
  | some (j + 1) => min (4 - cb % 4 + 4 * j) n

section Write
variable (b : Bridge) (h : Header) (i : Fin 16) (cb : Nat) (mode : WriteMode) (data : List Block)

theorem mergedWrite_steady : Steady (frameTaken b) (mergedWrite b h cb data) := (admitWrite_moves ..).steady

theorem enteredWrite_entry : (enteredWrite b h i cb mode data).entry h.key
    = some (writeEntry (mergedWrite b h cb data) i cb mode (newEntry b h .write none)) := by
  have seq : (mergedWrite b h cb data).table.nextSeq = b.table.nextSeq := (mergedWrite_steady b h cb data).nextSeq
  rw [enteredWrite, makeEntry_entry, seq]
  rfl

/-- Neither the merge nor the making of the entry touches more than `Steady` allows, but at the key of the WRITE. -/
theorem enteredWrite_but (e : Entry) :
    SteadyBut h.key (withEntry b h e) (enteredWrite b h i cb mode data) := by
  have before : forgetKey h.key (withEntry b h e) = forgetKey h.key (frameTaken b) := by
    simp [forgetKey, withEntry, frameTaken]
  have after : forgetKey h.key (enteredWrite b h i cb mode data) = forgetKey h.key (mergedWrite b h cb data) := by
    simp [forgetKey, enteredWrite, makeEntry, Bridge.putEntry]
  refine ⟨?_, congrArg (· + 1) (mergedWrite_steady b h cb data).nextSeq⟩
  rw [before, after]
  exact ((mergedWrite_steady b h cb data).but h.key).rest

theorem writeEntry_posted : writeEntry (mergedWrite b h cb data) i cb .posted (newEntry b h .write none)
    = { writeRequest b h i cb .posted with state := .awaitMech, blocksDone := h.count.toNat } := rfl

/-- The entry of a confirmed WRITE (R47, R49). -/
theorem writeEntry_confirmed : writeEntry (mergedWrite b h cb data) i cb .confirmed (newEntry b h .write none)
    = { writeRequest b h i cb .confirmed with
        awaited := some (mergedAwaited (mergedWrite b h cb data) (sectorList cb h.count.toNat))
        blocksDone := blocksDoneAt cb h.count.toNat
          ((sectorList cb h.count.toNat).findIdx? (mergedStranded (mergedWrite b h cb data))) } := by
  have nodup : (sectorList cb h.count.toNat).Nodup := (sectorList_ascending cb h.count.toNat).imp Nat.ne_of_lt
  refine (foldl_awaitMerged _ (sectorList cb h.count.toNat) rfl rfl).trans ?_
  rw [List.nil_append]
  congr 1
  refine (foldl_min_idxOf (sectorList cb h.count.toNat) h.count.toNat nodup (blocksBefore_monotone _)).trans ?_
  cases (sectorList cb h.count.toNat).findIdx? (mergedStranded (mergedWrite b h cb data)) with
  | none => rfl
  | some j =>
    cases j with
    | zero => exact Nat.min_zero _
    | succ j => exact Nat.min_eq_right (Nat.min_le_right _ _)

end Write

/-! ### The answers (R40, R43, R46, R49) -/

theorem answerMerged_confirmed_moves (k : Key) (n : Nat) (b : Bridge) : Moves b (answerMerged k .confirmed n b) := by
  refine .forKeys (fun b j => ?_) b
  split
  · exact finishAwait_moves b k
  · exact testRead_moves b j

theorem answerMerged_posted_but (k : Key) (n : Nat) (b : Bridge) : SteadyBut k b (answerMerged k .posted n b) := by
  unfold answerMerged Bridge.forKeys
  refine foldl_rel (SteadyBut.refl k) (fun h h' => h.trans h') (fun b j => ?_) allKeys b
  split
  · exact (answer_closes ..).but fun j hj => (answer_entry ..).trans (if_neg hj)
  · exact (testRead_moves b j).steady.but k

/-- The POSTED WRITE is answered in its place among the READs. -/
theorem answerMerged_posted {b : Bridge} {k : Key} {e : Entry} (n : Nat) (he : b.entry k = some e)
    (hs : e.state = .awaitMech) :
    IsAnswered (answerMerged k .posted n b) k .ok n .none
      ∧ (answerMerged k .posted n b).entry k = some (e.close .ok n) := by
  have waits : e.state ≠ .answered := by simp [hs]
  refine foldl_reaches (Q := fun c => IsAnswered c k .ok n .none ∧ c.entry k = some (e.close .ok n))
    (by simp [isActive, hs]) (fun b j hj => ?_) (fun b hb => ?_) (fun b t m q => ?_) allKeys b allKeys_nodup
    (mem_allKeys k) he
  · rw [if_neg hj]
    exact testRead_moves b j
  · rw [if_pos rfl]
    exact ⟨answer_isAnswered .ok n .none hb waits, by rw [answer_entry, if_pos rfl, hb]; simp [waits]⟩
  · exact ⟨q.1.steady m.steady, m.steady.idle_entry q.2 rfl⟩

/-! ### The command -/

theorem writeRefusal_none {b : Bridge} {mode : WriteMode} {lsns : List Nat} (hw : b.cart.writeState = some .writable)
    (hm : mode = .confirmed → confirmedCount b < b.mgmt.settings.confirmedLimit)
    (hf : (lsns.filter (needsBuffer b)).length ≤ availableFor b lsns) : writeRefusal b mode lsns = none := by
  have few : ¬ (mode = .confirmed ∧ b.mgmt.settings.confirmedLimit ≤ confirmedCount b) := fun h =>
    Nat.not_le.2 (hm h.1) h.2
  have fits : writeFits b lsns = true := decide_eq_true hf
  unfold writeRefusal
  rw [hw]
  exact (if_neg few).trans (if_pos fits)

theorem admitWriteRequest_admitted {b : Bridge} {h : Header} {data : List Block} {i : Fin 16} {cb : Nat}
    (hn : writeRefusal b b.router.windows[i].writeMode (sectorList cb h.count.toNat) = none) :
    admitWriteRequest h data i cb (frameTaken b) = answerMerged h.key b.router.windows[i].writeMode h.count.toNat
      (enteredWrite b h i cb b.router.windows[i].writeMode data) := by
  have same : writeRefusal (frameTaken b) = writeRefusal b := rfl
  have router : (frameTaken b).router = b.router := rfl
  rw [admitWriteRequest, same, router]
  dsimp only
  rw [hn]
  rfl

/-- What an admitted WRITE leaves, by the mode of its window. -/
theorem answerMerged_entered (b : Bridge) (h : Header) (i : Fin 16) (cb : Nat) (mode : WriteMode) (data : List Block) :
    let t := finish (answerMerged h.key mode h.count.toNat (enteredWrite b h i cb mode data))
    Steady (withEntry b h (writeRequest b h i cb mode)) t
      ∧ (mode = .posted → IsAnswered t h.key .ok h.count.toNat .none)
      ∧ (mode = .confirmed → ∃ e', t.entry h.key = some e' ∧ SameRequest (writeRequest b h i cb mode) e'
          ∧ (e'.state = .awaitCommit ∨ e'.state = .answered)) := by
  have own := withEntry_entry_self b h (writeRequest b h i cb mode)
  have entered := enteredWrite_but b h i cb mode data (writeRequest b h i cb mode)
  have made := enteredWrite_entry b h i cb mode data
  have ends := fun c => (finish_course c).steady
  cases mode with
  | posted =>
    rw [writeEntry_posted] at made
    obtain ⟨answered, closed⟩ := answerMerged_posted h.count.toNat made rfl
    have but := (entered.trans (answerMerged_posted_but h.key h.count.toNat _)).trans ((ends _).but h.key)
    refine ⟨but.steady own ((ends _).idle_entry closed rfl) ⟨rfl, .inr (.inl rfl)⟩ nofun,
      fun _ => answered.finish, nofun⟩
  | confirmed =>
    rw [writeEntry_confirmed] at made
    have course := (answerMerged_confirmed_moves h.key h.count.toNat (enteredWrite b h i cb .confirmed data)).steady.trans
      (ends _)
    obtain ⟨e', he', same, -⟩ := course.requests.2 h.key _ made
    have same' : SameRequest (writeRequest b h i cb .confirmed) e' := SameRequest.trans ⟨rfl, .inl rfl⟩ same
    refine ⟨(entered.trans (course.but h.key)).steady own he' same' nofun,
      nofun, fun _ => ⟨e', he', same', ?_⟩⟩
    rcases same.2 with hs | hs | ⟨hs, -⟩
    · exact .inl hs
    · exact .inr hs
    · cases hs

theorem exec_write_admitted {h : Header} {data : List Block} {s : State} {i : Fin 16} (r : Received s.bridge h)
    (fit : BlocksFit h) (hd : data.length = h.count.toNat)
    (ht : blockTest s.bridge.router h.unit (blockRun h) = .claimed i)
    (hw : s.bridge.router.windows[i].writeAllowed = true)
    (hc : CartTakes s.bridge (cbOf s.bridge.router.windows[i] h.block.toNat) h.count.toNat)
    (hn : writeRefusal s.bridge s.bridge.router.windows[i].writeMode
      (sectorList (cbOf s.bridge.router.windows[i] h.block.toNat) h.count.toNat) = none) :
    exec (.write h data) s = .next (s.withBridge (finish (answerMerged h.key s.bridge.router.windows[i].writeMode
      h.count.toNat (enteredWrite s.bridge h i (cbOf s.bridge.router.windows[i] h.block.toNat)
        s.bridge.router.windows[i].writeMode data)))) := by
  rw [exec_write_received r fit hd, routeBlocks_accepted fit ht (claimedRefusal_write_none hw hc),
    admitWriteRequest_admitted hn]

/-- Settles O19: the checks that pass, the entry as the merge leaves it, and the answers in key order. -/
theorem admittedWriteIsAnsweredOrAwaitsItsBuffers : Obligations.AdmittedWriteIsAnsweredOrAwaitsItsBuffers := by
  intro h data s i r n1 n2 hu top hd ht hw hs hl hws w cb lsns hm hf
  have hx := exec_write_admitted r ⟨n1, n2, hu, top⟩ hd ht hw ⟨hs, hl⟩ (writeRefusal_none hws hm hf)
  obtain ⟨steady, posted, confirmed⟩ := answerMerged_entered s.bridge h i cb w.writeMode data
  refine ⟨_, hx, ?_⟩
  rw [withBridge_pending, withBridge_bridge]
  refine ⟨rfl, rfl, steady, posted, fun mode => ⟨?_, confirmed mode⟩⟩
  have made := enteredWrite_entry s.bridge h i cb w.writeMode data
  rw [mode, writeEntry_confirmed] at made
  rw [mode]
  exact made

end Sys2Proof.Machine
end


section
/-! PROOFS. ABORT (R26, R52, R56, R150): its own answer and its target's in key order, or its forwarding after a FORWARDED
target. -/

namespace Sys2Proof.Machine

/-! ### Answers that leave the buffers alone -/

/-- Only a READ in FETCHING reads loads: any other answer changes no buffer. -/
theorem answerStatus_buf {b : Bridge} {k : Key} {e : Entry} (st : Status) (he : b.entry k = some e)
    (hf : e.state ≠ .fetching) (i : BufIdx) : (answerStatus b k st).buf i = b.buf i := by
  refine buf_congr ?_ i
  unfold answerStatus answer
  rw [he]
  dsimp only
  by_cases hs : e.state = .answered
  · rw [answerFrame_not _ _ _ fun e' h' => by rw [he] at h'; cases h'; exact hs]
  · rw [answerFrame_given _ _ _ he hs, letGo, if_neg hf]
    exact foldl_joinEvict_buffers _ _

/-- An answer stays where the table and the outgoing queue stay. -/
theorem IsAnswered.congr {b t : Bridge} {k : Key} {st : Status} {done : Nat} {p : Payload} (h : IsAnswered b k st done p)
    (table : t.table = b.table) (link : t.link = b.link) : IsAnswered t k st done p := by
  unfold IsAnswered outFrames at h ⊢
  rwa [entry_of_table table, link]

/-! ### The end of a quiesce without an eject (R123, R150) -/

/-- The job of a buffer, if it has one, has no cause QUIESCE, and some cause. -/
def Unquiesced (b : Bridge) (i : BufIdx) : Prop :=
  ∀ f, (b.buf i).flush = some f → f.causes.quiesce = false ∧ f.causes ≠ Causes.none

theorem orAged_unquiesced (c : Causes) :
    ({ c with quiesce := false } : Causes).orAged.quiesce = false
      ∧ ({ c with quiesce := false } : Causes).orAged ≠ Causes.none := by
  unfold Causes.orAged
  split
  · exact ⟨rfl, fun h => by cases congrArg Causes.aged h⟩
  · rename_i h
    exact ⟨rfl, h⟩

theorem dropQuiesceAt_buf_ne (b : Bridge) {i j : BufIdx} (h : i ≠ j) : (dropQuiesceAt b j).buf i = b.buf i := by
  unfold dropQuiesceAt
  split
  · rfl
  · exact buf_putBuf_ne b _ h

theorem dropQuiesceAt_unquiesced (b : Bridge) (i : BufIdx) : Unquiesced (dropQuiesceAt b i) i := by
  unfold dropQuiesceAt
  split
  · rename_i none_held
    intro f hf
    rw [none_held] at hf
    cases hf
  · intro f hf
    rw [putFlush, buf_putBuf_self] at hf
    cases hf
    exact orAged_unquiesced _

theorem foldl_dropQuiesceAt_unquiesced (i : BufIdx) : ∀ (l : List BufIdx) (b : Bridge), i ∈ l ∨ Unquiesced b i →
    Unquiesced (l.foldl dropQuiesceAt b) i
  | [], _, h => h.resolve_left List.not_mem_nil
  | j :: l, b, h => by
    rw [List.foldl_cons]
    refine foldl_dropQuiesceAt_unquiesced i l _ ?_
    by_cases hij : i = j
    · subst hij
      exact .inr (dropQuiesceAt_unquiesced b i)
    · refine h.imp (fun hm => (List.mem_cons.1 hm).resolve_left hij) fun hu => ?_
      unfold Unquiesced
      rwa [dropQuiesceAt_buf_ne b hij]

theorem dropQuiesce_unquiesced (b : Bridge) (i : BufIdx) : Unquiesced (dropQuiesce b) i :=
  foldl_dropQuiesceAt_unquiesced i allBufs b (.inl (mem_allBufs i))

theorem dropQuiesce_poolOnly (b : Bridge) : PoolOnly b (dropQuiesce b) := by
  refine .forBufs (fun b i => ?_) b
  unfold dropQuiesceAt
  split
  · exact .refl b
  · exact putBuf_poolOnly b i _ id

/-- A write-back that starts changes the map, the stamps and the spin-down timer. -/
theorem tryMapWrite_rest (b : Bridge) :
    (tryMapWrite b).table = b.table ∧ (tryMapWrite b).link = b.link ∧ (tryMapWrite b).router = b.router
      ∧ (tryMapWrite b).mgmt = b.mgmt ∧ (tryMapWrite b).cart.state = b.cart.state
      ∧ (tryMapWrite b).cart.quiesce = b.cart.quiesce := by
  unfold tryMapWrite
  split
  · exact ⟨rfl, rfl, rfl, rfl, rfl, rfl⟩
  · split
    · exact ⟨rfl, rfl, rfl, rfl, rfl, rfl⟩
    · exact ⟨rfl, rfl, rfl, rfl, rfl, rfl⟩

theorem leaveQuiesce_rest (b : Bridge) :
    (leaveQuiesce b).table = b.table ∧ (leaveQuiesce b).link = b.link ∧ (leaveQuiesce b).router = b.router
      ∧ (leaveQuiesce b).mgmt = b.mgmt ∧ (leaveQuiesce b).cart.state = .ready ∧ (leaveQuiesce b).cart.quiesce = none := by
  unfold leaveQuiesce
  have pool := (dropQuiesce_poolOnly (withCart b fun c => { c with state := .ready, quiesce := none })).1
  generalize dropQuiesce (withCart b fun c => { c with state := .ready, quiesce := none }) = d at pool ⊢
  obtain ⟨table, link, router, mgmt, state, quiesce⟩ := tryMapWrite_rest d
  rw [table, link, router, mgmt, state, quiesce, pool]
  exact ⟨rfl, rfl, rfl, rfl, rfl, rfl⟩

theorem leaveQuiesce_unquiesced (b : Bridge) (i : BufIdx) : Unquiesced (leaveQuiesce b) i := by
  unfold Unquiesced
  rw [leaveQuiesce, buf_congr (congrArg Pool.buffers (tryMapWrite_pool _))]
  exact dropQuiesce_unquiesced _ i

/-- A READY cartridge stays so after an event, and no quiesce begins. -/
theorem Steady.stays_ready {b t : Bridge} (h : Steady b t) (ready : b.cart.state = .ready) :
    t.cart.state = .ready ∧ t.cart.quiesce = b.cart.quiesce := by
  rcases h.life with ⟨state, -, quiesce, -⟩ | ⟨-, waits | quiescing⟩
  · exact ⟨state.trans ready, quiesce⟩
  · simp [ejectWaits, ready] at waits
  · rw [ready] at quiescing
    cases quiescing

/-! ### What an ABORT does to a target that waits (R52) -/

/-- The target waits for something that an ABORT calls off. -/
def Abortable (b : Bridge) (e : Entry) : Prop :=
  e.state = .reserving ∨ e.state = .fetching ∨ e.state = .awaitCommit ∨ e.state = .awaitLock
    ∨ (e.state = .awaitEject ∧ b.cart.state = .quiescing)

theorem Abortable.not_idle {b : Bridge} {e : Entry} (ha : Abortable b e) : e.state ≠ .answered ∧ e.state ≠ .forwarded := by
  rcases ha with hs | hs | hs | hs | ⟨hs, -⟩ <;> simp [hs]

/-- A key with an entry is not that of a request that is taken in. -/
theorem Received.key_ne {b : Bridge} {h : Header} {k : Key} {e : Entry} (r : Received b h) (he : b.entry k = some e) :
    k ≠ h.key := fun hk => by
  rw [hk, r.2] at he
  cases he

/-- The bridge once the target has let go of the lock or of the quiesce that it waits for. -/
def letTargetGo (b : Bridge) (t : Key) (e : Entry) : Bridge :=
  match e.state with
  | .awaitLock => leavePending b t.orig
  | .awaitEject => leaveQuiesce b
  | .reserving | .fetching | .awaitCommit | .awaitMech | .forwarded | .answered => b

theorem abortEffect_eq {b : Bridge} {t : Key} {e : Entry} (he : b.entry t = some e) (ha : Abortable b e) :
    abortEffect t b = answerStatus (letTargetGo b t e) t .aborted := by
  unfold abortEffect letTargetGo
  rw [he]
  dsimp only
  rcases ha with hs | hs | hs | hs | ⟨hs, hq⟩
  · rw [hs]
  · rw [hs]
  · rw [hs]
  · rw [hs]
  · rw [hs]
    exact if_pos hq

/-- What a target lets go of: its place in the pending list, or the quiesce. Everything that an answer speaks of stays. -/
structure LetsGo (t : Key) (e : Entry) (b c : Bridge) : Prop where
  table   : c.table = b.table
  link    : c.link = b.link
  router  : c.router = b.router
  mgmt    : c.mgmt = { b.mgmt with
              waiting := if e.state = .awaitLock then b.mgmt.waiting.filter (· != t.orig) else b.mgmt.waiting }
  quiesce : e.state = .awaitEject → c.cart.state = .ready ∧ c.cart.quiesce = none ∧ ∀ i, Unquiesced c i

theorem letTargetGo_letsGo {b : Bridge} {e : Entry} (t : Key) : LetsGo t e b (letTargetGo b t e) := by
  have unchanged : e.state ≠ .awaitLock → e.state ≠ .awaitEject → LetsGo t e b b := fun h1 h2 =>
    ⟨rfl, rfl, rfl, by rw [if_neg h1], fun h => absurd h h2⟩
  unfold letTargetGo
  split
  · rename_i hs
    exact ⟨rfl, rfl, rfl, by rw [if_pos hs]; rfl, fun h => by rw [hs] at h; cases h⟩
  · rename_i hs
    obtain ⟨table, link, router, mgmt, state, quiesce⟩ := leaveQuiesce_rest b
    exact ⟨table, link, router, by rw [mgmt, hs]; rfl, fun _ => ⟨state, quiesce, leaveQuiesce_unquiesced b⟩⟩
  all_goals
    rename_i hs
    exact unchanged (by simp [hs]) (by simp [hs])

/-- From `b` to `c` an ABORT was answered OK and its target ABORTED, and nothing else but what the target waited for
changed. -/
structure AbortDone (own t : Key) (e : Entry) (b c : Bridge) : Prop where
  ok      : IsAnswered c own .ok 0 .none
  aborted : IsAnswered c t .aborted 0 .none
  others  : ∀ j, j ≠ own → j ≠ t → c.entry j = b.entry j
  router  : c.router = b.router
  mgmt    : c.mgmt = { b.mgmt with
              waiting := if e.state = .awaitLock then b.mgmt.waiting.filter (· != t.orig) else b.mgmt.waiting }
  quiesce : e.state = .awaitEject → c.cart.state = .ready ∧ c.cart.quiesce = none ∧ ∀ i, Unquiesced c i

theorem answerStatus_entry_ne (b : Bridge) {k j : Key} (st : Status) (h : j ≠ k) :
    (answerStatus b k st).entry j = b.entry j := (answer_entry ..).trans (if_neg h)

theorem unquiesced_answerStatus {b : Bridge} {k : Key} {e : Entry} (st : Status) (he : b.entry k = some e)
    (hf : e.state ≠ .fetching) (h : ∀ i, Unquiesced b i) (i : BufIdx) : Unquiesced (answerStatus b k st) i := by
  unfold Unquiesced
  rw [answerStatus_buf st he hf]
  exact h i

section Orders
variable {b : Bridge} {own t : Key} {e o : Entry}

/-- The ABORT has the lower key: its own answer comes first. -/
theorem abortDone_ownFirst (hne : t ≠ own) (ho : b.entry own = some o) (hos : o.state = .awaitMech)
    (he : b.entry t = some e) (ha : Abortable b e) :
    AbortDone own t e b (abortEffect t (answerStatus b own .ok)) := by
  have first := answerStatus_closes b own .ok
  have answered : IsAnswered (answerStatus b own .ok) own .ok 0 .none := answer_isAnswered .ok 0 .none ho (by simp [hos])
  have target : (answerStatus b own .ok).entry t = some e := (answerStatus_entry_ne b .ok hne).trans he
  have others : ∀ j, j ≠ own → (answerStatus b own .ok).entry j = b.entry j := fun j => answerStatus_entry_ne b .ok
  rw [abortEffect_eq target (by unfold Abortable; rwa [first.cart])]
  generalize answerStatus b own .ok = c at first answered target others
  have go := letTargetGo_letsGo (b := c) (e := e) t
  generalize letTargetGo c t e = d at go
  have last := answerStatus_closes d t .aborted
  have held : d.entry t = some e := (entry_of_table go.table t).trans target
  refine ⟨(answered.congr go.table go.link).closes last (answerStatus_entry_ne d .aborted hne.symm),
    answer_isAnswered .aborted 0 .none held ha.not_idle.1, fun j hj hjt => ?_, ?_, ?_, fun hs => ?_⟩
  · rw [answerStatus_entry_ne d .aborted hjt, entry_of_table go.table, others j hj]
  · rw [last.router, go.router, first.router]
  · rw [last.mgmt, go.mgmt, first.mgmt]
  · obtain ⟨state, quiesce, jobs⟩ := go.quiesce hs
    rw [last.cart]
    exact ⟨state, quiesce, unquiesced_answerStatus .aborted held (by simp [hs]) jobs⟩

/-- The target has the lower key: its answer comes first. -/
theorem abortDone_targetFirst (hne : t ≠ own) (ho : b.entry own = some o) (hos : o.state = .awaitMech)
    (he : b.entry t = some e) (ha : Abortable b e) :
    AbortDone own t e b (answerStatus (abortEffect t b) own .ok) := by
  rw [abortEffect_eq he ha]
  have go := letTargetGo_letsGo (b := b) (e := e) t
  generalize letTargetGo b t e = d at go
  have first := answerStatus_closes d t .aborted
  have held : d.entry t = some e := (entry_of_table go.table t).trans he
  have waiting : (answerStatus d t .aborted).entry own = some o :=
    (answerStatus_entry_ne d .aborted hne.symm).trans ((entry_of_table go.table own).trans ho)
  have answered : IsAnswered (answerStatus d t .aborted) t .aborted 0 .none :=
    answer_isAnswered .aborted 0 .none held ha.not_idle.1
  have last := answerStatus_closes (answerStatus d t .aborted) own .ok
  refine ⟨answer_isAnswered .ok 0 .none waiting (by simp [hos]),
    answered.closes last (answerStatus_entry_ne _ .ok hne), fun j hj hjt => ?_, ?_, ?_, fun hs => ?_⟩
  · rw [answerStatus_entry_ne _ .ok hj, answerStatus_entry_ne d .aborted hjt, entry_of_table go.table]
  · rw [last.router, first.router, go.router]
  · rw [last.mgmt, first.mgmt, go.mgmt]
  · obtain ⟨state, quiesce, jobs⟩ := go.quiesce hs
    rw [last.cart, first.cart]
    exact ⟨state, quiesce, unquiesced_answerStatus .ok waiting (by simp [hos])
      (unquiesced_answerStatus .aborted held (by simp [hs]) jobs)⟩

theorem inKeyOrder_abortDone (hne : t ≠ own) (ho : b.entry own = some o) (hos : o.state = .awaitMech)
    (he : b.entry t = some e) (ha : Abortable b e) :
    AbortDone own t e b (inKeyOrder own t (answerStatus · own .ok) (abortEffect t) b) := by
  unfold inKeyOrder
  split
  · exact abortDone_ownFirst hne ho hos he ha
  · exact abortDone_targetFirst hne ho hos he ha

end Orders

/-! ### The route of an ABORT (R26) -/

/-- The bridge with the entry of an ABORT that is handled on the bridge. -/
def aborting (b : Bridge) (h : Header) : Bridge :=
  withEntry b h (newEntry b h .abort (some (.onBridge (some (abortTarget h).tag))))

theorem routeAbort_local {b : Bridge} {h : Header}
    (hn : ∀ e, b.entry (abortTarget h) = some e → e.state ≠ .forwarded) :
    routeAbort h (frameTaken b) = abortLocal h (frameTaken b) := by
  have same : (frameTaken b).entry (abortTarget h) = b.entry (abortTarget h) := rfl
  rw [routeAbort, same]
  refine if_neg ?_
  cases he : b.entry (abortTarget h) with
  | none => simp
  | some e => simpa using hn e he

theorem exec_abort_received {h : Header} {s : State} (r : Received s.bridge h) (hc : h.count = 0)
    (ht : h.block.toNat ≤ 15) :
    exec (.abort h) s = .next (s.withBridge (finish (routeAbort h (frameTaken s.bridge)))) :=
  congrArg (fun b => Host.Outcome.next (s.withBridge (finish b)))
    (takeRequest_received _ r ((contentOk_abort_iff h).2 ⟨hc, ht⟩))

/-! ### ABORT on the bridge (R52) -/

theorem abortStatus_notFound {b : Bridge} {x : Option Entry} (h : x = none ∨ ∃ e, x = some e ∧ e.state = .answered) :
    abortStatus b x = .notFound := by
  unfold abortStatus
  rcases h with rfl | ⟨e, rfl, hs⟩
  · rfl
  · dsimp only
    rw [hs]

theorem abortStatus_tooLate {b : Bridge} {e : Entry}
    (h : e.state = .awaitMech ∨ (e.state = .awaitEject ∧ b.cart.state ≠ .quiescing)) :
    abortStatus b (some e) = .tooLate := by
  unfold abortStatus
  dsimp only
  rcases h with hs | ⟨hs, hq⟩
  · rw [hs]
  · rw [hs]
    exact if_neg hq

theorem abortStatus_ok {b : Bridge} {e : Entry} (ha : Abortable b e) : abortStatus b (some e) = .ok := by
  unfold abortStatus
  dsimp only
  rcases ha with hs | hs | hs | hs | ⟨hs, hq⟩
  · rw [hs]
  · rw [hs]
  · rw [hs]
  · rw [hs]
  · rw [hs]
    exact if_pos hq

section Local
variable {b : Bridge} {h : Header}

theorem abortLocal_refused {st : Status} (hst : abortStatus b (b.entry (abortTarget h)) = st) (hn : st ≠ .ok) :
    abortLocal h (frameTaken b)
      = answeredAtOnce b h .abort (some (.onBridge (some (abortTarget h).tag))) st .none := by
  have same : abortStatus (frameTaken b) ((frameTaken b).entry (abortTarget h)) = st := hst
  rw [abortLocal, same, if_neg hn]
  exact answerStatus_withEntry ..

theorem abortLocal_ok (hst : abortStatus b (b.entry (abortTarget h)) = .ok) :
    abortLocal h (frameTaken b)
      = inKeyOrder h.key (abortTarget h) (answerStatus · h.key .ok) (abortEffect (abortTarget h)) (aborting b h) := by
  have same : abortStatus (frameTaken b) ((frameTaken b).entry (abortTarget h)) = .ok := hst
  rw [abortLocal, same]
  exact if_pos rfl

/-- An ABORT that waits for nothing leaves its target (R52). -/
theorem exec_abort_refused {s : State} {st : Status} (r : Received s.bridge h) (hc : h.count = 0)
    (ht : h.block.toNat ≤ 15) (hn : ∀ e, s.bridge.entry (abortTarget h) = some e → e.state ≠ .forwarded)
    (hst : abortStatus s.bridge (s.bridge.entry (abortTarget h)) = st) (hok : st ≠ .ok) :
    let own := finish (answeredAtOnce s.bridge h .abort (some (.onBridge (some (abortTarget h).tag))) st .none)
    exec (.abort h) s = .next (s.withBridge own) ∧ IsAnswered own h.key st 0 .none := by
  refine ⟨?_, (answeredAtOnce_isAnswered ..).finish⟩
  rw [exec_abort_received r hc ht, routeAbort_local hn, abortLocal_refused hst hok]

/-- What an ABORT that reaches its target leaves before the consequences of the event. -/
theorem exec_abort_done {s : State} {e : Entry} (r : Received s.bridge h) (hc : h.count = 0) (ht : h.block.toNat ≤ 15)
    (he : s.bridge.entry (abortTarget h) = some e) (ha : Abortable s.bridge e) :
    ∃ c, exec (.abort h) s = .next (s.withBridge (finish c))
      ∧ AbortDone h.key (abortTarget h) e (aborting s.bridge h) c := by
  have hne : abortTarget h ≠ h.key := r.key_ne he
  have hn : ∀ f, s.bridge.entry (abortTarget h) = some f → f.state ≠ .forwarded := fun f hf => by
    rw [he] at hf
    cases hf
    exact ha.not_idle.2
  refine ⟨_, ?_, inKeyOrder_abortDone hne (withEntry_entry_self ..) rfl ((withEntry_entry_ne _ _ hne).trans he) ha⟩
  rw [exec_abort_received r hc ht, routeAbort_local hn, abortLocal_ok (by rw [he]; exact abortStatus_ok ha)]

end Local

/-! ### ABORT forwarded after its target (R26, R56) -/

/-- The target of an ABORT that is forwarded is abort-pending. -/
def abortPendingAt (b : Bridge) (t : Key) (e : Entry) : Bridge := b.putEntry t (some { e with abortPending := true })

theorem routeAbort_forwarded {b : Bridge} {h : Header} {e : Entry} (he : b.entry (abortTarget h) = some e)
    (hs : e.state = .forwarded) :
    routeAbort h (frameTaken b) = forwarded (abortPendingAt b (abortTarget h) e) h .abort [] := by
  have held : (frameTaken b).entry (abortTarget h) = some e := he
  have edited : editEntry (frameTaken b) (abortTarget h) (fun e => { e with abortPending := true })
      = frameTaken (abortPendingAt b (abortTarget h) e) := by
    rw [editEntry, held]
    rfl
  rw [routeAbort, held, forwardAbort, edited, forward_frameTaken]
  exact if_pos (by simp [hs])

/-- The entries after an ABORT was forwarded, but for the consequences of the event. -/
theorem forwardedAbort_entry_ne {b : Bridge} {h : Header} {e : Entry} {t j : Key} (hj : j ≠ h.key) :
    (forwarded (abortPendingAt b t e) h .abort []).entry j
      = if j = t then some { e with abortPending := true } else b.entry j :=
  (withEntry_entry_ne _ _ hj).trans (entry_putEntry ..)

/-- An ABORT of a FORWARDED target (R26, R56). -/
theorem exec_abort_forwarded {h : Header} {s : State} {e : Entry} (r : Received s.bridge h) (hc : h.count = 0)
    (ht : h.block.toNat ≤ 15) (he : s.bridge.entry (abortTarget h) = some e) (hs : e.state = .forwarded) :
    let t := finish (forwarded (abortPendingAt s.bridge (abortTarget h) e) h .abort [])
    exec (.abort h) s = .next (s.withBridge t)
      ∧ t.entry (abortTarget h) = some { e with abortPending := true }
      ∧ t.entry h.key = some { newEntry s.bridge h .abort (some .pass) with
          state := .forwarded
          passExpiry := some (s.bridge.clock + BitVec.ofNat 32 s.bridge.mgmt.settings.passTimeout) }
      ∧ ∀ j x, j ≠ h.key → j ≠ abortTarget h → s.bridge.entry j = some x → isActive x = false →
          t.entry j = some x := by
  have hne : abortTarget h ≠ h.key := r.key_ne he
  have ends := (finish_course (forwarded (abortPendingAt s.bridge (abortTarget h) e) h .abort [])).steady
  refine ⟨?_, ends.idle_entry ?_ (by simp [isActive, hs]), ends.idle_entry (withEntry_entry_self ..) rfl,
    fun j x hj hjt hx idle => ends.idle_entry ?_ idle⟩
  · rw [exec_abort_received r hc ht, routeAbort_forwarded he hs]
  · exact (forwardedAbort_entry_ne hne).trans (if_pos rfl)
  · exact (forwardedAbort_entry_ne hj).trans ((if_neg hjt).trans hx)

/-- Settles O24: an ABORT is handled by the state of its target. -/
theorem abortAnswersItsTarget : Obligations.AbortAnswersItsTarget := by
  intro h s r hc ht target own
  refine ⟨fun hx => ?_, fun e he hx => ?_, fun e he hx => ?_,
    fun e he hs => exec_abort_forwarded r hc ht he hs⟩
  · refine exec_abort_refused r hc ht (fun f hf hs => ?_) (abortStatus_notFound hx) (by simp)
    rcases hx with hx | ⟨g, hg, hgs⟩
    · exact absurd (hx.symm.trans hf) (by simp)
    · cases hg.symm.trans hf
      rw [hs] at hgs
      cases hgs
  · refine exec_abort_refused r hc ht (fun f hf hs => ?_) (he ▸ abortStatus_tooLate hx) (by simp)
    cases he.symm.trans hf
    rcases hx with hx | ⟨hx, -⟩ <;> rw [hs] at hx <;> cases hx
  · obtain ⟨c, hexec, done⟩ := exec_abort_done r hc ht he hx
    have ends := (finish_course c).steady
    have mgmt := ends.mgmt
    rw [done.mgmt] at mgmt
    refine ⟨_, hexec, ?_⟩
    rw [withBridge_pending, withBridge_bridge]
    refine ⟨rfl, done.ok.finish, done.aborted.finish, fun hs => ?_, fun hs => ?_, by rw [mgmt]; rfl,
      ends.router.trans done.router, fun hs => ?_, fun j f hj hjt hf idle => ?_⟩
    · rw [mgmt, hs]; rfl
    · rw [mgmt, if_neg hs]; rfl
    · obtain ⟨ready, quiesce, jobs⟩ := done.quiesce hs
      obtain ⟨ready', quiesce'⟩ := ends.stays_ready ready
      exact ⟨ready', quiesce'.trans quiesce, c, rfl, by rw [done.mgmt]; rfl, jobs⟩
    · refine ends.idle_entry ?_ idle
      rw [done.others j hj hjt, aborting, withEntry_entry_ne _ _ hj, hf]

end Sys2Proof.Machine
end


section
/-! PROOFS. What the end of a step leaves alone, and the admission checks of a WRITE (R39). -/

namespace Sys2Proof.Machine

/-- Settles O3: the consequences of an event and the transmissions run a `Course`. -/
theorem consequencesLeaveAloneWhatTheyMayNotTouch : Obligations.ConsequencesLeaveAloneWhatTheyMayNotTouch :=
  fun b => ⟨(finish_course b).steady, (pump_course b).steady⟩

/-! ### The admission checks of a WRITE (R39) -/

/-- A WRITE through a window of this mode finds the confirmed write limit reached (R39). -/
def AtConfirmedLimit (b : Bridge) (mode : WriteMode) : Prop :=
  mode = .confirmed ∧ b.mgmt.settings.confirmedLimit ≤ confirmedCount b

/-- The first admission check that fails gives the status: the write state, the confirmed write limit, the buffers. -/
theorem writeRefusal_refused {b : Bridge} {mode : WriteMode} {lsns : List Nat} {st : Status}
    (hst : (b.cart.writeState = some .isProtected ∧ st = .writeProtected)
      ∨ (b.cart.writeState = some .writeLocked ∧ st = .mediaLocked)
      ∨ (b.cart.writeState = some .writable ∧ AtConfirmedLimit b mode ∧ st = .retryLater)
      ∨ (b.cart.writeState = some .writable ∧ ¬ AtConfirmedLimit b mode ∧ st = .retryLater
          ∧ availableFor b lsns < (lsns.filter (needsBuffer b)).length)) :
    writeRefusal b mode lsns = some st := by
  rcases hst with ⟨hw, rfl⟩ | ⟨hw, rfl⟩ | ⟨hw, full, rfl⟩ | ⟨hw, room, rfl, few⟩
  · rw [writeRefusal, hw]
  · rw [writeRefusal, hw]
  · rw [writeRefusal, hw]
    exact if_pos full
  · have unfit : ¬ writeFits b lsns = true := by simpa [writeFits] using few
    rw [writeRefusal, hw]
    exact (if_neg room).trans (if_neg unfit)

/-- The refused entry holds no routing (log entry 17). -/
theorem admitWriteRequest_refused {b : Bridge} {h : Header} {data : List Block} {i : Fin 16} {cb : Nat} {st : Status}
    (hst : writeRefusal b b.router.windows[i].writeMode (sectorList cb h.count.toNat) = some st) :
    admitWriteRequest h data i cb (frameTaken b) = answeredAtOnce b h .write none st .none := by
  have same : writeRefusal (frameTaken b) (frameTaken b).router.windows[i].writeMode (sectorList cb h.count.toNat)
      = some st := hst
  unfold admitWriteRequest
  dsimp only
  rw [same]
  exact refuse_frameTaken b h .write st

/-- Settles O18: the Router hands the WRITE on, and the first admission check that fails refuses it. -/
theorem writeAdmissionIsCheckedInOrder : Obligations.WriteAdmissionIsCheckedInOrder := by
  intro h data s i r n1 n2 hu top hd ht hw hs hl lsns full st hst
  have fit : BlocksFit h := ⟨n1, n2, hu, top⟩
  have refused := admitWriteRequest_refused (data := data) (writeRefusal_refused hst)
  refine finish_answeredAtOnce ?_ refused
  rw [exec_write_received r fit hd, routeBlocks_accepted fit ht (claimedRefusal_write_none hw ⟨hs, hl⟩)]

end Sys2Proof.Machine
end


section
/-! PROOFS. The two links: what leaves at the end of a step (R160, R163), the end of a transmission (R41, R160, R163),
downstream frames and the downstream line condition (R164 to R167), and the two timers of the entries (R45, R168). -/

namespace Sys2Proof.Machine

/-! ### What leaves at the end of a step (R160, R163, R164, R169 to R171) -/

theorem pumpUp_rest (b : Bridge) : pumpUp b = { b with link := (pumpUp b).link } := by
  unfold pumpUp
  split
  · split
    · rfl
    · rfl
  · rfl

theorem pumpDown_rest (b : Bridge) : pumpDown b = { b with thru := (pumpDown b).thru } := by
  unfold pumpDown
  split
  · split
    · rfl
    · rfl
  · rfl

theorem pumpUp_thru (b : Bridge) : (pumpUp b).thru = b.thru := by rw [pumpUp_rest]

theorem pump_link (b : Bridge) : (pump b).link = (pumpUp b).link := by rw [pump, pumpDown_rest]

theorem pump_rest (b : Bridge) : pump b = { b with link := (pump b).link, thru := (pump b).thru } := by
  rw [pump_link, pump, pumpDown_rest, pumpUp_rest]

section Upstream
variable {b : Bridge}

theorem pump_link_sends {f : OutFrame} {rest : List OutFrame} (idle : b.link.tx = none) (hq : b.link.queue = f :: rest)
    (open_ : b.link.resetHeld = false) : (pump b).link = { b.link with tx := some f, queue := rest } := by
  rw [pump_link, pumpUp, idle, hq]
  dsimp only
  rw [open_]
  rfl

theorem pump_link_stays (h : b.link.tx ≠ none ∨ b.link.queue = [] ∨ b.link.resetHeld = true) :
    (pump b).link = b.link := by
  rw [pump_link, pumpUp]
  split
  · rename_i f rest idle hq
    rcases h with busy | empty | held
    · exact absurd idle busy
    · rw [empty] at hq
      cases hq
    · rw [held]
      rfl
  · rfl

end Upstream

section Downstream
variable {b : Bridge}

/-- The downstream link is UP, and held in reset by neither power-on nor a link reset (R163, R170, R171). -/
def DownstreamOpen (p : ThroughPort) : Prop := p.line = .up ∧ p.powerHold = none ∧ p.linkHold = false

theorem pump_thru_sends {f : FwdFrame} {rest : List FwdFrame} (idle : b.thru.tx = none) (hq : b.thru.fifo = f :: rest)
    (open_ : DownstreamOpen b.thru) : (pump b).thru = { b.thru with tx := some f, fifo := rest } := by
  rw [pump, pumpDown, pumpUp_thru, idle, hq]
  exact congrArg Bridge.thru (if_pos open_)

theorem pump_thru_stays (h : b.thru.tx ≠ none ∨ b.thru.fifo = [] ∨ ¬ DownstreamOpen b.thru) :
    (pump b).thru = b.thru := by
  rw [pump, pumpDown]
  split
  · rename_i f rest idle hq
    rw [pumpUp_thru] at idle hq
    rcases h with busy | empty | shut
    · exact absurd idle busy
    · rw [empty] at hq
      cases hq
    · rw [pumpUp_thru]
      exact (congrArg Bridge.thru (if_neg shut)).trans (pumpUp_thru b)
  · exact pumpUp_thru b

theorem not_downstreamOpen {p : ThroughPort} (h : p.line = .down ∨ p.powerHold ≠ none ∨ p.linkHold = true) :
    ¬ DownstreamOpen p := by
  rintro ⟨up, noPower, noLink⟩
  rcases h with down | power | link
  · rw [up] at down
    cases down
  · exact power noPower
  · rw [noLink] at link
    cases link

/-- A frame leaves the forward FIFO at its head alone. -/
theorem pump_fifo_subset {f : FwdFrame} (hf : f ∈ (pump b).thru.fifo) : f ∈ b.thru.fifo := by
  by_cases sends : (b.thru.tx = none ∧ b.thru.fifo ≠ []) ∧ DownstreamOpen b.thru
  · obtain ⟨⟨idle, waiting⟩, open_⟩ := sends
    obtain ⟨g, rest, hq⟩ := List.exists_cons_of_ne_nil waiting
    rw [pump_thru_sends idle hq open_] at hf
    rw [hq]
    exact List.mem_cons_of_mem g hf
  · rwa [pump_thru_stays (by tauto)] at hf

end Downstream

/-! ### The end of a transmission (R41, R160, R163) -/

theorem endTransmission_idle {b : Bridge} (h : b.link.tx = none) : endTransmission b = b := by
  rw [endTransmission, h]

theorem endTransmission_sent {b : Bridge} {f : OutFrame} (h : b.link.tx = some f) :
    endTransmission b = reportSent { b with link := { b.link with tx := none } } f := by
  rw [endTransmission, h]

theorem releaseEntry_answered {b : Bridge} {k : Key} {e : Entry} (he : b.entry k = some e) (hs : e.state = .answered) :
    releaseEntry b k = b.putEntry k none := by
  rw [releaseEntry, he]
  exact if_pos (by simp [hs])

theorem pump_released (b : Bridge) (k : Key) : (pump (b.putEntry k none)).entry k = none := by
  rw [pump_entry, entry_putEntry_self]

theorem endForward_idle {b : Bridge} (h : b.thru.tx = none) : endForward b = b := by
  rw [endForward, h]

theorem endForward_sent {b : Bridge} {f : FwdFrame} (h : b.thru.tx = some f) :
    endForward b = markSent { b with thru := { b.thru with tx := none } } f := by
  rw [endForward, h]

theorem markSent_marks {b : Bridge} {f : FwdFrame} {e : Entry} (he : b.entry f.header.key = some e) (hq : e.seq = f.seq)
    (hs : e.state = .forwarded) : markSent b f = b.putEntry f.header.key (some { e with sent := true }) := by
  rw [markSent, he]
  exact if_pos ⟨hq, hs⟩

theorem markSent_not {b : Bridge} {f : FwdFrame}
    (h : ∀ e, b.entry f.header.key = some e → e.seq ≠ f.seq ∨ e.state ≠ .forwarded) : markSent b f = b := by
  unfold markSent
  split
  · rfl
  · rename_i e he
    rw [if_neg]
    rintro ⟨hq, hs⟩
    exact (h e he).elim (· hq) (· hs)

/-- A command whose effect is known by an equation. -/
theorem become_next {s : State} {f : Bridge → Bridge} {b : Bridge} (h : f s.bridge = b) :
    s.become f = .next (s.withBridge b) := by
  rw [become_eq, h]

/-- A command that leaves the bridge as it is. -/
theorem become_same {s : State} {f : Bridge → Bridge} (h : f s.bridge = s.bridge) : s.become f = .next s := by
  rw [become_eq, h]
  rfl

theorem exec_transmissionEnd {s : State} {b : Bridge} (h : endTransmission s.bridge = b) :
    exec .transmissionEnd s = .next (s.withBridge (pump b)) :=
  become_next (f := fun b => pump (endTransmission b)) (congrArg pump h)

theorem exec_forwardTransmissionEnd {s : State} {b : Bridge} (h : endForward s.bridge = b) :
    exec .forwardTransmissionEnd s = .next (s.withBridge (pump b)) :=
  become_next (f := fun b => pump (endForward b)) (congrArg pump h)

/-- Settles O7: the report of each kind of frame, the mark of a forwarded one, and what `pump` sends. -/
theorem transmissionEndsReleaseAndMark : Obligations.TransmissionEndsReleaseAndMark := by
  refine ⟨fun s => ?_, fun s => ?_, fun b => ?_⟩
  · refine ⟨fun idle => exec_transmissionEnd (endTransmission_idle idle), fun k e u st done p sent he hs => ?_,
      fun k e frame sent he hs => ?_, fun k u sent => exec_transmissionEnd (endTransmission_sent sent),
      fun o ev n sent => exec_transmissionEnd (endTransmission_sent sent)⟩
    · exact ⟨exec_transmissionEnd ((endTransmission_sent sent).trans (releaseEntry_answered he hs)), pump_released _ k⟩
    · exact ⟨exec_transmissionEnd ((endTransmission_sent sent).trans (releaseEntry_answered he hs)), pump_released _ k⟩
  · refine ⟨fun idle => exec_forwardTransmissionEnd (endForward_idle idle), fun f sent => ⟨fun e he hq hs => ?_,
      fun gone => ?_⟩⟩
    · exact exec_forwardTransmissionEnd ((endForward_sent sent).trans (markSent_marks he hq hs))
    · exact exec_forwardTransmissionEnd ((endForward_sent sent).trans (markSent_not gone))
  · exact ⟨pump_rest b, fun f rest => pump_link_sends, pump_link_stays,
      fun f rest idle hq up power link => pump_thru_sends idle hq ⟨up, power, link⟩,
      fun h => pump_thru_stays (h.imp_right fun h => h.imp_right not_downstreamOpen)⟩

/-! ### The timers of the entries (R45, R168) -/

theorem passDue_iff {b : Bridge} {k : Key} : (b.entry k).any (passDue b) = true ↔
    ∃ e x, b.entry k = some e ∧ e.state = .forwarded ∧ e.passExpiry = some x ∧ reached b.clock x = true := by
  simp only [Option.any_eq_true, passDue, Bool.and_eq_true, beq_iff_eq]
  constructor
  · rintro ⟨e, he, hs, x, hx, due⟩
    exact ⟨e, x, he, hs, hx, due⟩
  · rintro ⟨e, x, he, hs, hx, due⟩
    exact ⟨e, he, hs, x, hx, due⟩

theorem deadlineDue_iff {b : Bridge} {k : Key} : (b.entry k).any (deadlineDue b) = true ↔
    ∃ e x, b.entry k = some e ∧ (e.state = .reserving ∨ e.state = .fetching) ∧ e.deadline = some x
      ∧ reached b.clock x = true := by
  simp only [Option.any_eq_true, deadlineDue, Bool.and_eq_true, Bool.or_eq_true, beq_iff_eq]
  constructor
  · rintro ⟨e, he, hs, x, hx, due⟩
    exact ⟨e, x, he, hs, hx, due⟩
  · rintro ⟨e, x, he, hs, hx, due⟩
    exact ⟨e, he, hs, x, hx, due⟩

/-- The answer of an entry takes its frame from the forward FIFO, and no other frame joins it (R163). -/
theorem answerStatus_fifo {b : Bridge} {k : Key} {e : Entry} (st : Status) (he : b.entry k = some e)
    (hs : e.state ≠ .answered) : (answerStatus b k st).thru.fifo = b.thru.fifo.filter fun f => f.seq != e.seq := by
  unfold answerStatus answer
  rw [he]
  exact (answerFrame_reply _ st 0 he hs).2

theorem exec_passThroughTimeout_due {s : State} {k : Key} (h : (s.bridge.entry k).any (passDue s.bridge) = true) :
    exec (.passThroughTimeout k) s = .next (s.withBridge (pump (answerStatus s.bridge k .passTimeout))) :=
  become_next (if_pos h)

theorem exec_passThroughTimeout_not {s : State} {k : Key} (h : ¬ (s.bridge.entry k).any (passDue s.bridge) = true) :
    exec (.passThroughTimeout k) s = .next s := become_same (if_neg h)

theorem exec_deadlineExpiry_due {s : State} {k : Key} (h : (s.bridge.entry k).any (deadlineDue s.bridge) = true) :
    exec (.deadlineExpiry k) s = .next (s.withBridge (finish (answerStatus s.bridge k .deadlineMissed))) :=
  become_next (if_pos h)

theorem exec_deadlineExpiry_not {s : State} {k : Key} (h : ¬ (s.bridge.entry k).any (deadlineDue s.bridge) = true) :
    exec (.deadlineExpiry k) s = .next s := become_same (if_neg h)

/-- What the pass-through timeout of a FORWARDED entry leaves. -/
theorem pump_passTimeout {b : Bridge} {k : Key} {e : Entry} (he : b.entry k = some e) (hs : e.state = .forwarded) :
    let t := pump (answerStatus b k .passTimeout)
    IsAnswered t k .passTimeout 0 .none ∧ (∀ j, j ≠ k → t.entry j = b.entry j)
      ∧ (∀ f ∈ t.thru.fifo, f.seq ≠ e.seq) ∧ ∀ f ∈ t.thru.fifo, f ∈ b.thru.fifo := by
  have waits : e.state ≠ .answered := by simp [hs]
  have kept : ∀ f ∈ (pump (answerStatus b k .passTimeout)).thru.fifo, f ∈ b.thru.fifo ∧ f.seq ≠ e.seq := by
    intro f hf
    have left := pump_fifo_subset hf
    rw [answerStatus_fifo _ he waits, List.mem_filter, bne_iff_ne] at left
    exact left
  refine ⟨(answer_isAnswered .passTimeout 0 .none he waits).pump, fun j hj => ?_, fun f hf => (kept f hf).2,
    fun f hf => (kept f hf).1⟩
  rw [pump_entry, answerStatus_entry_ne b _ hj]

/-- What the deadline of a READ that waits leaves. -/
theorem finish_deadlineMissed {b : Bridge} {k : Key} {e : Entry} (he : b.entry k = some e)
    (hs : e.state = .reserving ∨ e.state = .fetching) :
    Steady b (finish (answerStatus b k .deadlineMissed))
      ∧ IsAnswered (finish (answerStatus b k .deadlineMissed)) k .deadlineMissed 0 .none := by
  have active : isActive e = true := by rcases hs with hs | hs <;> simp [isActive, hs]
  have waits : e.state ≠ .answered := by rcases hs with hs | hs <;> simp [hs]
  have moves : Moves b (answerStatus b k .deadlineMissed) := answerStatus_moves _ fun e' he' _ => by
    obtain rfl : e = e' := Option.some.inj (he.symm.trans he')
    exact active
  exact ⟨moves.steady.trans (finish_course _).steady, (answer_isAnswered .deadlineMissed 0 .none he waits).finish⟩

/-- Settles O9: a timer that is due answers its entry, and any other does nothing. -/
theorem expiredTimersAnswerTheirEntry : Obligations.ExpiredTimersAnswerTheirEntry := by
  refine ⟨fun s k => ⟨fun e x he hs hx due => ?_, fun idle => exec_passThroughTimeout_not ?_⟩,
    fun s k => ⟨fun e x he hs hx due => ?_, fun idle => exec_deadlineExpiry_not ?_⟩⟩
  · refine ⟨_, exec_passThroughTimeout_due (passDue_iff.2 ⟨e, x, he, hs, hx, due⟩), ?_⟩
    rw [withBridge_pending, withBridge_bridge]
    exact ⟨rfl, pump_passTimeout he hs⟩
  · rw [passDue_iff]
    rintro ⟨e, x, he, hs, hx, due⟩
    rcases idle e he with other | notYet
    · exact other hs
    · rw [notYet x hx] at due
      cases due
  · refine ⟨_, exec_deadlineExpiry_due (deadlineDue_iff.2 ⟨e, x, he, hs, hx, due⟩), ?_⟩
    rw [withBridge_pending, withBridge_bridge]
    exact ⟨rfl, finish_deadlineMissed he hs⟩
  · rw [deadlineDue_iff]
    rintro ⟨e, x, he, hs, hx, due⟩
    rcases idle e he with ⟨notReserving, notFetching⟩ | notYet
    · exact hs.elim notReserving notFetching
    · rw [notYet x hx] at due
      cases due

/-! ### Judging a downstream frame (R165, R172) -/

/-- The form of a downstream reply (R165, R172): its length within R175 (log entry 36), its fields within their ranges, and
its payload as long as it says. -/
def ReplyForm (frame : List Byte) : Prop :=
  10 ≤ frame.length ∧ frame.length ≤ 16394 ∧ (byteAt frame 1).toNat ≤ 3 ∧ (byteAt frame 2).toNat ≤ 15
    ∧ (byteAt frame 3).toNat ≤ 15 ∧ natOfBytes ((frame.drop 6).take 2) = frame.length - 10

/-- The reply that the fields of a frame spell (R172). -/
def replyIn (frame : List Byte) : DownFrame :=
  .reply ⟨Fin.ofNat 4 (byteAt frame 1).toNat, Fin.ofNat 16 (byteAt frame 2).toNat⟩
    (Fin.ofNat 16 (byteAt frame 3).toNat) (byteAt frame 4) (byteAt frame 5).toNat

section Judged
variable {frame : List Byte}

theorem judgeDownstream_badCheck (h : checkOk frame = false) : judgeDownstream frame = .stray := by
  rw [judgeDownstream, h]
  rfl

theorem judgeDownstream_reply (check : checkOk frame = true) (kind : byteAt frame 0 = 0x02) (form : ReplyForm frame) :
    judgeDownstream frame = replyIn frame := by
  obtain ⟨short, long, orig, tag, unit, len⟩ := form
  unfold judgeDownstream replyIn
  simp [check, kind, short, long, orig, tag, unit, len]

theorem judgeDownstream_badReply (check : checkOk frame = true) (kind : byteAt frame 0 = 0x02)
    (form : ¬ ReplyForm frame) : judgeDownstream frame = .stray := by
  have misfit : (10 ≤ frame.length && frame.length ≤ 16394 && (byteAt frame 1).toNat ≤ 3 && (byteAt frame 2).toNat ≤ 15
      && (byteAt frame 3).toNat ≤ 15 && natOfBytes ((frame.drop 6).take 2) == frame.length - 10) = false := by
    rw [Bool.eq_false_iff]
    simpa only [ReplyForm, ne_eq, Bool.and_eq_true, decide_eq_true_eq, beq_iff_eq, and_assoc] using form
  unfold judgeDownstream
  simp [check, kind, misfit]

theorem judgeDownstream_other (check : checkOk frame = true) (kind : byteAt frame 0 ≠ 0x02) :
    judgeDownstream frame = if byteAt frame 0 = 0x03 ∧ frame.length = 6 then .attention else .stray := by
  have other : (byteAt frame 0 == 0x02) = false := beq_eq_false_iff_ne.2 kind
  rw [judgeDownstream, check, other]
  simp

end Judged

theorem judgeDownstream_reply_iff (frame : List Byte) (f : DownFrame) (hf : f ≠ .stray) (ha : f ≠ .attention) :
    judgeDownstream frame = f ↔ checkOk frame = true ∧ byteAt frame 0 = 0x02 ∧ ReplyForm frame ∧ replyIn frame = f := by
  constructor
  · intro judged
    by_cases check : checkOk frame = true
    · by_cases kind : byteAt frame 0 = 0x02
      · by_cases form : ReplyForm frame
        · exact ⟨check, kind, form, (judgeDownstream_reply check kind form).symm.trans judged⟩
        · exact absurd ((judgeDownstream_badReply check kind form).symm.trans judged).symm hf
      · rw [judgeDownstream_other check kind] at judged
        split at judged
        · exact absurd judged.symm ha
        · exact absurd judged.symm hf
    · exact absurd ((judgeDownstream_badCheck (Bool.eq_false_iff.2 check)).symm.trans judged).symm hf
  · rintro ⟨check, kind, form, rfl⟩
    exact judgeDownstream_reply check kind form

theorem judgeDownstream_attention_iff (frame : List Byte) :
    judgeDownstream frame = .attention ↔ checkOk frame = true ∧ byteAt frame 0 = 0x03 ∧ frame.length = 6 := by
  constructor
  · intro judged
    by_cases check : checkOk frame = true
    · by_cases kind : byteAt frame 0 = 0x02
      · by_cases form : ReplyForm frame
        · rw [judgeDownstream_reply check kind form] at judged
          cases judged
        · rw [judgeDownstream_badReply check kind form] at judged
          cases judged
      · rw [judgeDownstream_other check kind] at judged
        split at judged
        · rename_i h
          exact ⟨check, h⟩
        · cases judged
    · rw [judgeDownstream_badCheck (Bool.eq_false_iff.2 check)] at judged
      cases judged
  · rintro ⟨check, kind, len⟩
    rw [judgeDownstream_other check (by rw [kind]; decide), if_pos ⟨kind, len⟩]

/-! ### Downstream frames (R165 to R167) -/

section Frames
variable {b : Bridge} {frame : List Byte}

theorem takeDownstream_stray (h : judgeDownstream frame = .stray) : takeDownstream b frame = countStray b := by
  rw [takeDownstream, h]

theorem takeDownstream_attention (h : judgeDownstream frame = .attention) : takeDownstream b frame = b := by
  rw [takeDownstream, h]

variable {k : Key} {u : Fin 16} {st : Byte} {done : Nat}

theorem takeDownstream_unmatched (h : judgeDownstream frame = .reply k u st done)
    (none_ : ∀ e, b.entry k = some e → e.state ≠ .forwarded ∨ e.sent = false ∨ e.unit ≠ u) :
    takeDownstream b frame = countStray b := by
  have unmatched : ¬ (b.entry k).any (fun e => repliesTo e u) = true := by
    simp only [Option.any_eq_true, repliesTo, Bool.and_eq_true, beq_iff_eq]
    rintro ⟨e, he, ⟨hs, sent⟩, unit⟩
    rcases none_ e he with h | h | h
    · exact h hs
    · rw [sent] at h
      cases h
    · exact h unit
  rw [takeDownstream, h]
  exact if_neg unmatched

theorem takeDownstream_matched {e : Entry} (h : judgeDownstream frame = .reply k u st done) (he : b.entry k = some e)
    (hs : e.state = .forwarded) (sent : e.sent = true) (unit : e.unit = u) :
    takeDownstream b frame = answerFrame b k (.relayed k frame) (statusOfCode st) done := by
  rw [takeDownstream, h]
  exact if_pos (by simp [he, repliesTo, hs, sent, unit])

end Frames

theorem exec_downstreamFrame {s : State} {frame : List Byte} {b : Bridge}
    (h : takeDownstream { s.bridge with thru := { s.bridge.thru with partialRx := [] } } frame = b) :
    exec (.downstreamFrame frame) s = .next (s.withBridge (pump b)) :=
  become_next (f := fun b => pump (takeDownstream { b with thru := { b.thru with partialRx := [] } } frame))
    (congrArg pump h)

/-- What a reply that matches leaves: the entry is answered with what the frame says, and the frame is relayed. -/
theorem pump_relayed {b : Bridge} {k : Key} {e : Entry} (frame : List Byte) (st : Status) (done : Nat)
    (he : b.entry k = some e) (hs : e.state = .forwarded) :
    let t := pump (answerFrame b k (.relayed k frame) st done)
    (∃ e', t.entry k = some e' ∧ e'.state = .answered ∧ e'.status = some st ∧ e'.blocksDone = done)
      ∧ .relayed k frame ∈ outFrames t ∧ (∀ j, j ≠ k → t.entry j = b.entry j) ∧ t.thru.stray = b.thru.stray := by
  have waits : e.state ≠ .answered := by simp [hs]
  have closed := answerFrame_entry b k (.relayed k frame) st done
  have stray : (pump (answerFrame b k (.relayed k frame) st done)).thru.stray = b.thru.stray := by
    rw [(pump_course _).steady.thru, (answerFrame_closes ..).thru]
  refine ⟨⟨e.close st done, ?_, rfl, rfl, rfl⟩, ?_, fun j hj => ?_, stray⟩
  · rw [pump_entry, closed, if_pos rfl, he]
    simp [waits]
  · rw [outFrames_pump]
    exact List.mem_append_right _ (answerFrame_reply _ st done he waits).1
  · rw [pump_entry, closed, if_neg hj]

/-! ### The downstream link goes DOWN (R56, R164) -/

/-- The bridge once the line condition is down, with no frame in transmission downstream. -/
def lineDown (b : Bridge) : Bridge := { b with thru := { b.thru with line := .down, partialRx := [], tx := none } }

/-- Nothing waits to be forwarded any more. -/
def dropFifo (b : Bridge) : Bridge := { b with thru := { b.thru with fifo := [] } }

theorem dropFifo_table (b : Bridge) : (dropFifo b).table = b.table := rfl

theorem dropFifo_link (b : Bridge) : (dropFifo b).link = b.link := rfl

/-- Every FORWARDED entry is answered, and nothing waits to be forwarded. -/
def forwardedGone (b : Bridge) : Bridge := dropFifo (answerAll (lineDown b) isForwarded .passTimeout)

theorem exec_downstreamLinkDown (s : State) :
    exec .downstreamLinkDown s = .next (s.withBridge (pump (forwardedGone s.bridge))) := by
  show execDownstreamLinkDown s = _
  unfold execDownstreamLinkDown forwardedGone lineDown dropFifo
  exact become_eq ..

theorem forwardedGone_thru (b : Bridge) :
    (forwardedGone b).thru = { b.thru with line := .down, partialRx := [], tx := none, fifo := [] } := by
  have thru := (answerAll_closes (lineDown b) isForwarded .passTimeout).thru
  unfold forwardedGone
  generalize answerAll (lineDown b) isForwarded .passTimeout = t at thru
  unfold dropFifo
  dsimp only
  rw [thru]
  rfl

theorem forwardedGone_entry {b : Bridge} {k : Key} (h : ∀ e, b.entry k = some e → e.state ≠ .forwarded) :
    (forwardedGone b).entry k = b.entry k :=
  (entry_of_table (dropFifo_table _) k).trans <| answerAll_entry (b := lineDown b) .passTimeout fun e he hp => by
    rw [isForwarded, beq_iff_eq] at hp
    exact absurd hp (h e he)

theorem forwardedGone_isAnswered {b : Bridge} {k : Key} {e : Entry} (he : b.entry k = some e)
    (hs : e.state = .forwarded) : IsAnswered (forwardedGone b) k .passTimeout 0 .none :=
  (answerAll_isAnswered (b := lineDown b) .passTimeout he (by simp [isForwarded, hs]) (by simp [hs])).congr
    (dropFifo_table _) (dropFifo_link _)

/-- What the end of the downstream link leaves. -/
theorem pump_forwardedGone (b : Bridge) :
    let t := pump (forwardedGone b)
    t.thru = { b.thru with line := .down, partialRx := [], tx := none, fifo := [] }
      ∧ (∀ k e, b.entry k = some e → e.state = .forwarded → IsAnswered t k .passTimeout 0 .none)
      ∧ (∀ k e, b.entry k = some e → e.state ≠ .forwarded → t.entry k = some e)
      ∧ ∀ k, b.entry k = none → t.entry k = none := by
  have quiet : (forwardedGone b).thru.fifo = [] := by rw [forwardedGone_thru]
  have thru := (pump_thru_stays (.inr (.inl quiet))).trans (forwardedGone_thru b)
  refine ⟨thru, fun k e he hs => (forwardedGone_isAnswered he hs).pump, fun k e he hs => ?_, fun k hk => ?_⟩
  · refine (pump_entry _ k).trans ((forwardedGone_entry fun e' he' => ?_).trans he)
    obtain rfl : e = e' := Option.some.inj (he.symm.trans he')
    exact hs
  · refine (pump_entry _ k).trans ((forwardedGone_entry fun e' he' => ?_).trans hk)
    rw [hk] at he'
    cases he'

/-- Settles O8: a frame by what it is judged to be, the link's end by the state of each entry, and the judgement by the
form. -/
theorem downstreamFramesAndLinkDownAnswerTheForwarded : Obligations.DownstreamFramesAndLinkDownAnswerTheForwarded := by
  refine ⟨fun s frame => ⟨fun judged => ?_, fun judged => ?_, fun k u st done judged => ⟨fun unmatched => ?_,
    fun e he hs sent unit => ?_⟩⟩, fun s => ?_, fun frame => ⟨?_, judgeDownstream_attention_iff frame, ?_⟩⟩
  · exact exec_downstreamFrame (takeDownstream_stray judged)
  · exact exec_downstreamFrame (takeDownstream_attention judged)
  · exact exec_downstreamFrame (takeDownstream_unmatched judged unmatched)
  · refine ⟨_, exec_downstreamFrame (takeDownstream_matched judged he hs sent unit), ?_⟩
    rw [withBridge_pending, withBridge_bridge]
    exact ⟨rfl, pump_relayed frame _ done he hs⟩
  · refine ⟨_, exec_downstreamLinkDown s, ?_⟩
    rw [withBridge_pending, withBridge_bridge]
    exact ⟨rfl, pump_forwardedGone s.bridge⟩
  · constructor
    · rintro ⟨k, u, st, done, judged⟩
      obtain ⟨check, kind, form, -⟩ :=
      (judgeDownstream_reply_iff frame (.reply k u st done) nofun nofun).1 judged
      exact ⟨check, kind, form⟩
    · rintro ⟨check, kind, form⟩
      exact ⟨_, _, _, _, judgeDownstream_reply check kind form⟩
  · intro k u st done judged
    obtain ⟨-, -, ⟨-, -, orig, tag, unit, -⟩, spelled⟩ :=
      (judgeDownstream_reply_iff frame (.reply k u st done) nofun nofun).1 judged
    cases spelled
    exact ⟨Nat.mod_eq_of_lt (Nat.lt_succ_of_le orig), Nat.mod_eq_of_lt (Nat.lt_succ_of_le tag),
      Nat.mod_eq_of_lt (Nat.lt_succ_of_le unit), rfl, rfl⟩

end Sys2Proof.Machine
end


section
/-! PROOFS. Link reset (R57, R82, R104, R124, R169, R170, R187): what its owners forget, and what becomes of the loads. -/

namespace Sys2Proof.Machine

/-! ### Loads that go (R70, R100) -/

/-- Loads are withdrawn and buffers join the eviction order: the pool changes alone, its reservation queue stays, and no load
is made or changed. -/
structure Withdraws (b t : Bridge) : Prop where
  pool  : PoolOnly b t
  queue : t.pool.resQueue = b.pool.resQueue
  loads : ∀ i, (t.buf i).load = (b.buf i).load ∨ (t.buf i).load = none

theorem Withdraws.refl (b : Bridge) : Withdraws b b := ⟨.refl b, rfl, fun _ => .inl rfl⟩

theorem Withdraws.trans {a b c : Bridge} (h : Withdraws a b) (h' : Withdraws b c) : Withdraws a c := by
  refine ⟨h.pool.trans h'.pool, h'.queue.trans h.queue, fun i => ?_⟩
  rcases h'.loads i with same | gone
  · rw [same]
    exact h.loads i
  · exact .inr gone

theorem Withdraws.forBufs {f : Bridge → BufIdx → Bridge} (h : ∀ b i, Withdraws b (f b i)) (b : Bridge) :
    Withdraws b (b.forBufs f) := foldl_rel .refl .trans h allBufs b

theorem putBuf_withdraws (b : Bridge) (i : BufIdx) (x : Buffer) (hs : x.state = .stranded → (b.buf i).state = .stranded)
    (hl : x.load = (b.buf i).load ∨ x.load = none) : Withdraws b (b.putBuf i x) := by
  refine ⟨putBuf_poolOnly b i x hs, rfl, fun j => ?_⟩
  rw [buf_putBuf]
  split
  · rename_i here
    rwa [here]
  · exact .inl rfl

theorem joinEvict_withdraws (b : Bridge) (i : BufIdx) : Withdraws b (joinEvict b i) := by
  refine ⟨joinEvict_poolOnly b i, ?_, fun j => .inl ?_⟩
  · unfold joinEvict
    split
    · rfl
    · rfl
  · exact congrArg Buffer.load (buf_congr (foldl_joinEvict_buffers [i] b) j)

theorem unlink_withdraws (i : BufIdx) (b : Bridge) (j : BufIdx) : Withdraws b (unlink i b j) := by
  unfold unlink
  split
  · exact putBuf_withdraws b j _ id (.inl rfl)
  · exact .refl b

theorem leaveEvict_withdraws (b : Bridge) (i : BufIdx) : Withdraws b (leaveEvict b i) :=
  ⟨leaveEvict_poolOnly b i, rfl, fun _ => .inl rfl⟩

theorem freeBuf_withdraws (b : Bridge) (i : BufIdx) : Withdraws b (freeBuf b i) := by
  exact ((Withdraws.forBufs (unlink_withdraws i) b).trans
    (putBuf_withdraws _ i Buffer.free (by simp [Buffer.free]) (.inr rfl))).trans (leaveEvict_withdraws _ i)

theorem withdrawLoad_withdraws (b : Bridge) (i : BufIdx) : Withdraws b (withdrawLoad b i) := by
  unfold withdrawLoad
  dsimp only
  split
  · split
    · exact freeBuf_withdraws b i
    · refine (putBuf_withdraws b i { b.buf i with state := .opened, load := none } (by simp) (.inr rfl)).trans ?_
      exact ⟨⟨rfl, fun _ h => h⟩, rfl, fun _ => .inl rfl⟩
  · exact putBuf_withdraws b i _ id (.inr rfl)

theorem sweepLoads_withdraws (b : Bridge) : Withdraws b (sweepLoads b) := by
  refine .forBufs (fun b i => ?_) b
  unfold withdrawUnneeded
  split
  · exact .refl b
  · split
    · exact withdrawLoad_withdraws b i
    · exact .refl b

/-! ### Readers (R82) -/

/-- No reader waits for the load of the buffer. -/
def NoReaders (x : Buffer) : Prop := ∀ l, x.load = some l → l.readers = []

/-- An operation on each buffer in turn leaves at each what it leaves where it acts. -/
theorem forBufs_each {f : Bridge → BufIdx → Bridge} {P : Buffer → Prop} (here : ∀ b i, P ((f b i).buf i))
    (others : ∀ b i j, j ≠ i → (f b i).buf j = b.buf j) (b : Bridge) (i : BufIdx) : P ((b.forBufs f).buf i) := by
  have each : ∀ (l : List BufIdx) (b : Bridge), i ∈ l ∨ P (b.buf i) → P ((l.foldl f b).buf i) := by
    intro l
    induction l with
    | nil => exact fun b h => h.resolve_left List.not_mem_nil
    | cons j l ih =>
      intro b h
      refine ih (f b j) ?_
      by_cases hij : i = j
      · subst hij
        exact .inr (here b i)
      · rw [others b j i hij]
        exact h.imp_left fun hm => (List.mem_cons.1 hm).resolve_left hij
  exact each allBufs b (.inl (mem_allBufs i))

theorem dropReadersAt_self (b : Bridge) (i : BufIdx) : NoReaders ((dropReadersAt b i).buf i) := by
  unfold dropReadersAt
  split
  · rename_i noLoad
    intro l hl
    rw [noLoad] at hl
    cases hl
  · intro l hl
    rw [buf_putBuf_self] at hl
    cases hl
    rfl

theorem dropReadersAt_ne (b : Bridge) (i j : BufIdx) (h : j ≠ i) : (dropReadersAt b i).buf j = b.buf j := by
  unfold dropReadersAt
  split
  · rfl
  · exact buf_putBuf_ne b _ h

theorem dropReadersAt_rest (b : Bridge) (i : BufIdx) :
    PoolOnly b (dropReadersAt b i) ∧ (dropReadersAt b i).pool.resQueue = b.pool.resQueue := by
  unfold dropReadersAt
  split
  · exact ⟨.refl b, rfl⟩
  · exact ⟨putBuf_poolOnly b i _ id, rfl⟩

/-! ### Link reset -/

theorem linkReset_eq (b : Bridge) :
    linkReset b = sweepLoads (((resetOwners b).forBufs dropReadersAt).forBufs joinEvict) := rfl

theorem linkReset_rest (b : Bridge) :
    PoolOnly (resetOwners b) (linkReset b) ∧ (linkReset b).pool.resQueue = [] := by
  have dropped : PoolOnly (resetOwners b) ((resetOwners b).forBufs dropReadersAt)
      ∧ ((resetOwners b).forBufs dropReadersAt).pool.resQueue = (resetOwners b).pool.resQueue := by
    unfold Bridge.forBufs
    exact foldl_rel (R := fun b t => PoolOnly b t ∧ t.pool.resQueue = b.pool.resQueue) (fun b => ⟨.refl b, rfl⟩)
      (fun h h' => ⟨h.1.trans h'.1, h'.2.trans h.2⟩) dropReadersAt_rest allBufs (resetOwners b)
  have swept := (Withdraws.forBufs joinEvict_withdraws ((resetOwners b).forBufs dropReadersAt)).trans
    (sweepLoads_withdraws _)
  rw [← linkReset_eq] at swept
  exact ⟨dropped.1.trans swept.pool, swept.queue.trans dropped.2⟩

theorem linkReset_noReaders (b : Bridge) (i : BufIdx) : NoReaders ((linkReset b).buf i) := by
  have dropped := forBufs_each dropReadersAt_self dropReadersAt_ne (resetOwners b) i
  have swept := (Withdraws.forBufs joinEvict_withdraws ((resetOwners b).forBufs dropReadersAt)).trans
    (sweepLoads_withdraws _)
  rw [← linkReset_eq] at swept
  intro l hl
  rcases swept.loads i with same | gone
  · exact dropped l (same.symm.trans hl)
  · rw [gone] at hl
    cases hl

theorem resetOwners_entry (b : Bridge) (k : Key) : (resetOwners b).entry k = none := by
  simp [Bridge.entry, resetOwners]

/-- The consequences of a link reset keep what its owners hold then. -/
theorem finish_linkReset_steady (b : Bridge) : Steady (resetOwners b) (finish (linkReset b)) :=
  (linkReset_moves b).steady.trans (finish_course _).steady

/-- Settles O5: what the owners forget, what the pool does with the loads, and that the consequences change neither. -/
theorem linkResetEmptiesTheTableAndTheQueues : Obligations.LinkResetEmptiesTheTableAndTheQueues := by
  intro s
  obtain ⟨pool, queue⟩ := linkReset_rest s.bridge
  have steady := finish_linkReset_steady s.bridge
  have mgmt := steady.mgmt
  have link := steady.link
  have thru := steady.thru
  have owners := pool.1
  refine ⟨_, become_eq s fun b => finish (linkReset b), ?_⟩
  rw [withBridge_pending, withBridge_bridge]
  refine ⟨rfl, rfl, fun k => steady.requests.1 k (resetOwners_entry s.bridge k), ?_, ?_, ?_, ?_, steady.router, ?_, ?_, ?_,
    steady.exceptions, ?_, ?_, ?_, ?_, queue, ?_, ?_, ?_, linkReset_noReaders s.bridge⟩
  · rw [link]; rfl
  · rw [link]; rfl
  · rw [thru]; rfl
  · rw [thru]; rfl
  · rw [mgmt]; rfl
  · rw [mgmt]; rfl
  · rw [mgmt]; rfl
  all_goals rw [owners]; rfl

end Sys2Proof.Machine
end


section
/-! PROOFS. Notices (R48 to R50): each entry that awaits the buffer is reached once, and is answered where it awaits nothing
more. -/

namespace Sys2Proof.Machine

/-! ### One key among all -/

theorem foldl_keys_entry_ne {g : Bridge → Key → Bridge} {j : Key}
    (others : ∀ b k j, j ≠ k → (g b k).entry j = b.entry j) :
    ∀ (l : List Key) (b : Bridge), j ∉ l → (l.foldl g b).entry j = b.entry j
  | [], _, _ => rfl
  | k :: l, b, h => by
    rw [List.mem_cons, not_or] at h
    rw [List.foldl_cons, foldl_keys_entry_ne others l _ h.2, others b k j h.1]

/-- An operation on each key in turn, which touches no entry but its own, reaches an entry once: what comes before leaves it
as it was, and what comes after leaves it as the operation made it. -/
theorem foldl_keys_reaches {g : Bridge → Key → Bridge} {R : Bridge → Bridge → Prop} {b : Bridge} {k : Key} {e : Entry}
    (others : ∀ b k j, j ≠ k → (g b k).entry j = b.entry j) (refl : ∀ b, R b b)
    (trans : ∀ {a b c}, R a b → R b c → R a c) (each : ∀ b k, R b (g b k)) (he : b.entry k = some e) :
    ∃ c, c.entry k = some e ∧ R b c ∧ R (g c k) (allKeys.foldl g b)
      ∧ (allKeys.foldl g b).entry k = (g c k).entry k := by
  obtain ⟨before, after, split⟩ := List.append_of_mem (mem_allKeys k)
  have nodup := allKeys_nodup
  rw [split, List.nodup_append, List.nodup_cons] at nodup
  obtain ⟨-, ⟨notAfter, -⟩, apart⟩ := nodup
  have notBefore : k ∉ before := fun hk => apart k hk k List.mem_cons_self rfl
  refine ⟨before.foldl g b, (foldl_keys_entry_ne others before b notBefore).trans he, foldl_rel refl trans each before b, ?_⟩
  rw [split, List.foldl_append, List.foldl_cons]
  exact ⟨foldl_rel refl trans each after _, foldl_keys_entry_ne others after _ notAfter⟩

/-! ### One entry that awaits (R49, R50) -/

/-- How an entry that awaits nothing more is answered: a FLUSH OK, a confirmed WRITE OK with its count, or WRITE_FAILED with
the blocks done (R49, R50). -/
def AnsweredAsDone (t : Bridge) (k : Key) (e : Entry) (done : Nat) : Prop :=
  (e.op = .write → done < e.count.toNat → IsAnswered t k .writeFailed done .none)
    ∧ (e.op = .write → e.count.toNat ≤ done → IsAnswered t k .ok e.count.toNat .none)
    ∧ (e.op ≠ .write → IsAnswered t k .ok 0 .none)

theorem finishAwait_waits {b : Bridge} {k : Key} {e : Entry} (he : b.entry k = some e) (hw : e.awaited ≠ some []) :
    finishAwait b k = b := by
  rw [finishAwait, he]
  exact if_neg fun h => hw h.2

theorem finishAwait_done {b : Bridge} {k : Key} {e : Entry} (he : b.entry k = some e) (hs : e.state = .awaitCommit)
    (hw : e.awaited = some []) : AnsweredAsDone (finishAwait b k) k e e.blocksDone := by
  have waits : e.state ≠ .answered := by simp [hs]
  have ends : finishAwait b k = if e.op = .write then
      (if e.blocksDone < e.count.toNat then answer b k .writeFailed e.blocksDone .none
        else answer b k .ok e.count.toNat .none)
      else answer b k .ok 0 .none := by
    rw [finishAwait, he]
    exact if_pos ⟨hs, hw⟩
  rw [ends]
  refine ⟨fun write few => ?_, fun write all => ?_, fun other => ?_⟩
  · rw [if_pos write, if_pos few]
    exact answer_isAnswered _ _ _ he waits
  · rw [if_pos write, if_neg (Nat.not_lt.2 all)]
    exact answer_isAnswered _ _ _ he waits
  · rw [if_neg other]
    exact answer_isAnswered _ _ _ he waits

theorem finishAwait_entry_ne (b : Bridge) {k j : Key} (h : j ≠ k) : (finishAwait b k).entry j = b.entry j := by
  unfold finishAwait
  split
  · rfl
  · split
    · split
      · split
        · exact (answer_entry ..).trans (if_neg h)
        · exact (answer_entry ..).trans (if_neg h)
      · exact (answer_entry ..).trans (if_neg h)
    · rfl

/-! ### A notice in ascending order of key (R40, R48) -/

/-- A notice at one key. -/
def noticeAt (i : BufIdx) (f : Entry → Entry) (b : Bridge) (k : Key) : Bridge :=
  match b.entry k with
  | none => b
  | some e => if awaits e i then finishAwait (b.putEntry k (some (f e))) k else b

theorem notice_eq (b : Bridge) (i : BufIdx) (f : Entry → Entry) : notice b i f = allKeys.foldl (noticeAt i f) b := by
  unfold notice Bridge.forKeys
  rfl

section At
variable {i : BufIdx} {f : Entry → Entry} {b : Bridge} {k j : Key} {e : Entry}

theorem noticeAt_closes (i : BufIdx) (f : Entry → Entry) (b : Bridge) (k : Key) : Closes b (noticeAt i f b k) := by
  unfold noticeAt
  split
  · exact .refl b
  · split
    · exact (putEntry_closes ..).trans (finishAwait_closes _ k)
    · exact .refl b

theorem noticeAt_entry_ne (h : j ≠ k) : (noticeAt i f b k).entry j = b.entry j := by
  unfold noticeAt
  split
  · rfl
  · split
    · rw [finishAwait_entry_ne _ h, entry_putEntry_ne _ _ h]
    · rfl

theorem noticeAt_awaits (he : b.entry k = some e) (hw : awaits e i = true) :
    noticeAt i f b k = finishAwait (b.putEntry k (some (f e))) k := by
  rw [noticeAt, he]
  exact if_pos hw

theorem noticeAt_not (he : b.entry k = some e) (hw : awaits e i = false) : noticeAt i f b k = b := by
  rw [noticeAt, he]
  exact if_neg (by simp [hw])

end At

/-- The notice reaches an entry once, and the others do not touch it. -/
theorem notice_reaches {b : Bridge} {k : Key} {e : Entry} (i : BufIdx) (f : Entry → Entry) (he : b.entry k = some e) :
    ∃ c, c.entry k = some e ∧ Closes (noticeAt i f c k) (notice b i f)
      ∧ (notice b i f).entry k = (noticeAt i f c k).entry k := by
  obtain ⟨c, hc, -, after, same⟩ := foldl_keys_reaches (fun _ _ _ => noticeAt_entry_ne) Closes.refl Closes.trans
    (noticeAt_closes i f) he
  rw [notice_eq]
  exact ⟨c, hc, after, same⟩

section Notice
variable {b : Bridge} {k : Key} {e e' : Entry} {i : BufIdx} {f : Entry → Entry}

theorem notice_entry_of_not (he : b.entry k = some e) (hw : awaits e i = false) :
    (notice b i f).entry k = some e := by
  obtain ⟨c, hc, -, same⟩ := notice_reaches i f he
  rw [same, noticeAt_not hc hw, hc]

theorem notice_entry_of_awaits (he : b.entry k = some e) (hw : awaits e i = true) (hf : f e = e')
    (more : e'.awaited ≠ some []) : (notice b i f).entry k = some e' := by
  subst hf
  obtain ⟨c, hc, -, same⟩ := notice_reaches i f he
  rw [same, noticeAt_awaits hc hw, finishAwait_waits (entry_putEntry_self ..) more, entry_putEntry_self]

theorem notice_done (he : b.entry k = some e) (hw : awaits e i = true) (hf : f e = e') (hs : e'.state = .awaitCommit)
    (last : e'.awaited = some []) : AnsweredAsDone (notice b i f) k e' e'.blocksDone := by
  subst hf
  obtain ⟨c, hc, closes, same⟩ := notice_reaches i f he
  rw [noticeAt_awaits hc hw] at closes same
  obtain ⟨failed, good, flushed⟩ := finishAwait_done (entry_putEntry_self c k (some (f e))) hs last
  exact ⟨fun write few => (failed write few).closes closes same, fun write all => (good write all).closes closes same,
    fun other => (flushed other).closes closes same⟩

end Notice

/-! ### What each notice makes of the entry (R48, R49) -/

/-- The blocks of a request in the sectors before the one that failed, no more than the count (R49). -/
def blocksUpTo (e : Entry) (lsn : Nat) : Nat :=
  match e.sectors.idxOf lsn with
  | 0 => 0
  | n + 1 => min (4 - e.cb % 4 + 4 * n) e.count.toNat

/-- Blocks done as a failed sector leaves them (R49). -/
def loweredDone (e : Entry) (lsn : Nat) : Nat :=
  if e.op = .write then min e.blocksDone (blocksUpTo e lsn) else e.blocksDone

theorem blocksBefore_idxOf (e : Entry) (lsn : Nat) : blocksBefore e (e.sectors.idxOf lsn) = blocksUpTo e lsn := by
  unfold blocksBefore blocksUpTo
  cases e.sectors.idxOf lsn with
  | zero => rfl
  | succ n => rw [if_neg (Nat.succ_ne_zero n), Nat.add_sub_cancel]

section Changes
variable {e : Entry} {l : List BufIdx} {i j : BufIdx}

theorem awaits_of_mem (hs : e.state = .awaitCommit) (hl : e.awaited = some l) (hi : i ∈ l) : awaits e i = true := by
  simp [awaits, hs, hl, hi]

theorem awaits_of_not (h : e.state ≠ .awaitCommit ∨ ∀ l, e.awaited = some l → i ∉ l) : awaits e i = false := by
  rcases h with other | absent
  · simp [awaits, other]
  · cases hl : e.awaited with
    | none => simp [awaits, hl]
    | some l => simp [awaits, hl, absent l hl]

theorem unawait_eq (hl : e.awaited = some l) :
    Entry.unawait i e = { e with awaited := some (l.filter (· != i)) } := by
  rw [Entry.unawait, hl]
  rfl

theorem failSector_unawait (lsn : Nat) (hl : e.awaited = some l) : (Entry.unawait i e).failSector lsn
    = { e with awaited := some (l.filter (· != i)), blocksDone := loweredDone e lsn } := by
  rw [unawait_eq hl, Entry.failSector, loweredDone, ← blocksBefore_idxOf]
  by_cases write : e.op = .write
  · rw [if_pos write, if_pos write]
    rfl
  · rw [if_neg write, if_neg write]

theorem awaitInstead_there (hl : e.awaited = some l) (hj : j ∈ l) :
    Entry.awaitInstead i j e = { e with awaited := some (l.filter (· != i)) } := by
  simp [Entry.awaitInstead, hl, hj]

theorem awaitInstead_new (hl : e.awaited = some l) (hj : j ∉ l) :
    Entry.awaitInstead i j e = { e with awaited := some (l.map fun a => if a = i then j else a) } := by
  simp [Entry.awaitInstead, hl, hj]

end Changes

/-- Settles O23: each notice reaches the entry once, and what it makes of the awaited set decides its answer. -/
theorem noticesReachTheEntriesThatAwaitTheBuffer : Obligations.NoticesReachTheEntriesThatAwaitTheBuffer := by
  intro b i k e he
  refine ⟨fun j idle => ?_, fun l lsn hs hl hi hn => ?_⟩
  · have not := awaits_of_not idle
    exact ⟨notice_entry_of_not he not, notice_entry_of_not he not, notice_entry_of_not he not⟩
  have waits : awaits e i = true := awaits_of_mem hs hl hi
  have left := unawait_eq (i := i) hl
  have named : (b.buf i).lsn.getD 0 = lsn := by rw [hn]; rfl
  have failed : (Entry.unawait i e).failSector ((b.buf i).lsn.getD 0)
      = { e with awaited := some (l.filter (· != i)), blocksDone := loweredDone e lsn } := by
    rw [named]
    exact failSector_unawait lsn hl
  refine ⟨fun more => ?_, fun last => ?_, fun j hj => ⟨fun there => ?_, fun new => ?_⟩⟩
  · have waiting : (some (l.filter (· != i))) ≠ some [] := fun h => more (Option.some.inj h)
    exact ⟨notice_entry_of_awaits he waits left waiting, notice_entry_of_awaits he waits failed waiting⟩
  · have ended : (some (l.filter (· != i))) = some [] := congrArg some last
    have committed : AnsweredAsDone (noticeCommitted b i) k _ _ := notice_done he waits left hs ended
    have lost : AnsweredAsDone (noticeFailed b i) k { e with awaited := _, blocksDone := loweredDone e lsn } _ :=
      notice_done he waits failed hs ended
    exact ⟨committed, lost⟩
  · have stays : j ∈ l.filter (· != i) := List.mem_filter.2 ⟨there, bne_iff_ne.2 hj⟩
    exact notice_entry_of_awaits he waits (awaitInstead_there hl there) fun h =>
      List.ne_nil_of_mem stays (Option.some.inj h)
  · have moved : (l.map fun a => if a = i then j else a) ≠ [] := fun h => List.ne_nil_of_mem hi (List.map_eq_nil_iff.1 h)
    exact notice_entry_of_awaits he waits (awaitInstead_new hl new) fun h => moved (Option.some.inj h)

end Sys2Proof.Machine
end


section
/-! PROOFS. READs in FETCHING (R43, R44, R72, R79): what they are answered from the buffers they pin. -/

namespace Sys2Proof.Machine

/-! ### The quarters of a READ -/

theorem blockPlaces_length (e : Entry) : (blockPlaces e).length = e.count.toNat := by
  rw [blockPlaces, List.length_map, List.length_range]

theorem placeGood_iff {b : Bridge} {p : Option BufIdx × Fin 4} : placeGood b p = true ↔
    ∃ i, p.1 = some i ∧ hasQuarter (b.buf i).valid p.2 = true ∧ hasQuarter (b.buf i).lost p.2 = false := by
  simp [placeGood, Option.any_eq_true]

theorem placeLost_iff {b : Bridge} {p : Option BufIdx × Fin 4} :
    placeLost b p = true ↔ ∃ i, p.1 = some i ∧ hasQuarter (b.buf i).lost p.2 = true := by
  simp [placeLost, Option.any_eq_true]

theorem placeLost_of_good {b : Bridge} {p : Option BufIdx × Fin 4} (h : placeGood b p = true) : placeLost b p = false := by
  obtain ⟨i, hi, -, kept⟩ := placeGood_iff.1 h
  simp [placeLost, hi, kept]

/-- The leading good blocks of a READ, with the choice of each block written out. -/
theorem leadingGood_eq (c : Bridge) (e : Entry) : leadingGood c e
    = ((blockPlaces e).takeWhile fun p => match p.1 with
        | some j => hasQuarter (c.buf j).valid p.2 && !hasQuarter (c.buf j).lost p.2
        | none => false).map fun p => match p.1 with | some j => (c.buf j).data[p.2] | none => 0 := by
  have good : placeGood c = fun p => match p.1 with
      | some j => hasQuarter (c.buf j).valid p.2 && !hasQuarter (c.buf j).lost p.2
      | none => false := by
    funext ⟨place, q⟩
    cases place with
    | none => rfl
    | some j => rfl
  have data : placeData c = fun p => match p.1 with | some j => (c.buf j).data[p.2] | none => 0 := by
    funext ⟨place, q⟩
    cases place with
    | none => rfl
    | some j => rfl
  rw [leadingGood, good, data]

theorem leadingGood_length_lt {b : Bridge} {e : Entry} {p : Option BufIdx × Fin 4} (hp : p ∈ blockPlaces e)
    (bad : placeGood b p = false) : (leadingGood b e).length < e.count.toNat := by
  rw [leadingGood, List.length_map, ← blockPlaces_length e]
  refine Nat.lt_of_le_of_ne (List.takeWhile_prefix _).length_le fun same => ?_
  have all := (List.takeWhile_prefix (placeGood b)).eq_of_length same
  rw [List.takeWhile_eq_self_iff] at all
  rw [all p hp] at bad
  cases bad

/-! ### The answers (R43, R44) -/

section Answers
variable {b : Bridge} {k : Key} {e : Entry}

theorem answerMediaError_eq (he : b.entry k = some e) :
    answerMediaError b k = answer b k .mediaError (leadingGood b e).length (.blocks (leadingGood b e)) := by
  rw [answerMediaError, he, leadingGood, List.length_map]

theorem answerMediaError_isAnswered (he : b.entry k = some e) (hs : e.state = .fetching) :
    IsAnswered (answerMediaError b k) k .mediaError (leadingGood b e).length (.blocks (leadingGood b e)) := by
  rw [answerMediaError_eq he]
  exact answer_isAnswered _ _ _ he (by simp [hs])

theorem testRead_lost (he : b.entry k = some e) (hs : e.state = .fetching)
    (lost : (blockPlaces e).any (placeLost b) = true) : testRead b k = answerMediaError b k := by
  rw [testRead, he]
  exact (if_pos hs).trans (if_pos lost)

theorem testRead_good (he : b.entry k = some e) (hs : e.state = .fetching)
    (good : ∀ p ∈ blockPlaces e, placeGood b p = true) : testRead b k
      = answer b k .ok (blockPlaces e).length (.blocks ((blockPlaces e).map (placeData b))) := by
  have noneLost : ¬ (blockPlaces e).any (placeLost b) = true := by
    rw [Bool.not_eq_true, List.any_eq_false]
    exact fun p hp => by simp [placeLost_of_good (good p hp)]
  rw [testRead, he]
  exact (if_pos hs).trans ((if_neg noneLost).trans (if_pos (List.all_eq_true.2 good)))

theorem answerMediaError_entry_ne (b : Bridge) (k j : Key) (h : j ≠ k) :
    (answerMediaError b k).entry j = b.entry j := by
  cases he : b.entry k with
  | none => rw [answerMediaError, he]
  | some e => rw [answerMediaError_eq he, answer_entry, if_neg h]

end Answers

/-! ### READs that fail with their buffer (R44, R72, R79) -/

/-- A READ that pins the buffer is answered MEDIA_ERROR. -/
def failReaderAt (i : BufIdx) (b : Bridge) (k : Key) : Bridge :=
  if (b.entry k).any (fun e => e.state == .fetching && e.pins.contains i) then answerMediaError b k else b

theorem failReaders_eq (b : Bridge) (i : BufIdx) : failReaders b i = allKeys.foldl (failReaderAt i) b := by
  unfold failReaders Bridge.forKeys
  rfl

theorem failReaderAt_entry_ne (i : BufIdx) (b : Bridge) (k j : Key) (h : j ≠ k) :
    (failReaderAt i b k).entry j = b.entry j := by
  unfold failReaderAt
  split
  · exact answerMediaError_entry_ne b k j h
  · rfl

theorem failReaderAt_leaves (i : BufIdx) (b : Bridge) (k : Key) :
    Closes b (failReaderAt i b k) ∧ Serves b (failReaderAt i b k) := by
  unfold failReaderAt
  split
  · exact ⟨answerMediaError_closes b k, answerMediaError_serves b k⟩
  · exact ⟨.refl b, .refl b⟩

/-- Each READ that pins the buffer is answered MEDIA_ERROR, with the leading good blocks that it had before any of them was
answered. -/
theorem failReaders_isAnswered {b : Bridge} {i : BufIdx} {k : Key} {e : Entry} (he : b.entry k = some e)
    (hs : e.state = .fetching) (hi : i ∈ e.pins) :
    ∃ data, IsAnswered (failReaders b i) k .mediaError data.length (.blocks data)
      ∧ ((∀ j, Fine (b.buf j)) → data = leadingGood b e) := by
  obtain ⟨c, hc, ⟨-, served⟩, ⟨closes, -⟩, same⟩ := foldl_keys_reaches
    (R := fun b t => Closes b t ∧ Serves b t) (failReaderAt_entry_ne i) (fun b => ⟨.refl b, .refl b⟩)
    (fun h h' => ⟨h.1.trans h'.1, h.2.trans h'.2⟩) (failReaderAt_leaves i) he
  have reached : failReaderAt i c k = answerMediaError c k := by
    rw [failReaderAt, hc]
    exact if_pos (by simp [hs, hi])
  rw [reached] at closes same
  rw [failReaders_eq]
  exact ⟨leadingGood c e, (answerMediaError_isAnswered hc hs).closes closes same, fun fine => served.leadingGood fine e⟩

/-- A buffer whose load is gone is fine, and the others are by the sets of a LOADING buffer (R60). -/
theorem LoadingOk.fine_putBuf {b : Bridge} {i : BufIdx} {x : Buffer} (ok : LoadingOk b) (hx : x.load = none) (j : BufIdx) :
    Fine ((b.putBuf i x).buf j) := by
  rw [buf_putBuf]
  split
  · exact .inl hx
  · exact .inr (ok j)

section Failed
variable {b : Bridge} {i : BufIdx} {k : Key} {e : Entry}

theorem loadLost_failsReaders (he : b.entry k = some e) (hs : e.state = .fetching) (hi : i ∈ e.pins)
    (loading : (b.buf i).state = .loading) (clean : (b.buf i).dirty = 0) :
    ∃ data, IsAnswered (loadLost b i) k .mediaError data.length (.blocks data)
      ∧ (LoadingOk b → data = leadingGood (b.putBuf i { b.buf i with load := none }) e) := by
  have lost : loadLost b i = freeBuf (failReaders (b.putBuf i { b.buf i with load := none }) i) i := by
    unfold loadLost
    exact if_pos ⟨loading, clean⟩
  obtain ⟨data, answered, kept⟩ := failReaders_isAnswered (b := b.putBuf i { b.buf i with load := none }) he hs hi
  rw [lost]
  exact ⟨data, answered.steady (freeBuf_moves _ i).steady, fun ok => kept (ok.fine_putBuf rfl)⟩

theorem strand_failsReaders (he : b.entry k = some e) (hs : e.state = .fetching) (hi : i ∈ e.pins)
    (full : 8 ≤ strandedCount b) :
    ∃ data, IsAnswered (strand b i) k .mediaError data.length (.blocks data)
      ∧ (LoadingOk b → data = leadingGood (b.putBuf i { b.buf i with valid := 0, load := none, flush := none }) e) := by
  obtain ⟨data, answered, kept⟩ := failReaders_isAnswered
    (b := b.putBuf i { b.buf i with valid := 0, load := none, flush := none }) he hs hi
  refine ⟨data, ?_, fun ok => kept (ok.fine_putBuf rfl)⟩
  unfold strand
  dsimp only
  rw [if_neg (Nat.not_lt.2 full)]
  generalize failReaders (b.putBuf i { b.buf i with valid := 0, load := none, flush := none }) i = c at answered
  exact answered.steady ((record_moves c _).andDeferred.trans (freeBuf_moves _ i)).steady

end Failed

/-- Settles O17: a READ is tested against its places, and those that fail with a buffer have the leading good blocks that
the answers of the others leave. -/
theorem fetchingReadsAreAnsweredFromTheirBuffers : Obligations.FetchingReadsAreAnsweredFromTheirBuffers := by
  unfold Obligations.FetchingReadsAreAnsweredFromTheirBuffers
  intro leading
  have named : ∀ c e, leading c e = leadingGood c e := fun c e => (leadingGood_eq c e).symm
  simp only [named]
  refine ⟨fun b k e he hs good => ?_, fun b k e he hs => ⟨answerMediaError_isAnswered he hs, ?_⟩,
    fun b i k e he hs hi => ⟨loadLost_failsReaders he hs hi, strand_failsReaders he hs hi⟩⟩
  · have answered := answer_isAnswered .ok (blockPlaces e).length (.blocks ((blockPlaces e).map (placeData b))) he
      (by simp [hs])
    rw [← testRead_good he hs fun p hp => placeGood_iff.2 (good p hp), blockPlaces_length] at answered
    exact answered
  · intro p i hp hi lost
    have bad : placeLost b p = true := placeLost_iff.2 ⟨i, hi, lost⟩
    refine ⟨testRead_lost he hs (List.any_eq_true.2 ⟨p, hp, bad⟩), leadingGood_length_lt hp ?_⟩
    rw [Bool.eq_false_iff]
    intro good
    rw [placeLost_of_good good] at bad
    cases bad

end Sys2Proof.Machine
end


section
/-! PROOFS. FAULT (R85, R99, R154): the order in flight is abandoned, the cartridge halts, and what the buffers and
jobs keep. -/

namespace Sys2Proof.Machine

/-! ### A head that grants nothing (R88) -/

/-- No order is in flight, and the state of the cartridge lets the arbiter grant nothing. -/
def HeadAtRest (b : Bridge) : Prop :=
  b.arb.order = none ∧ (b.cart.state = .empty ∨ b.cart.state = .settling ∨ b.cart.state = .unusable
    ∨ (b.cart.state = .halted ∧ b.arb.life ≠ some .recoverSpinUp))

theorem fixed_life {b t : Bridge} (h : t.fixed = b.fixed) : t.arb.life = b.arb.life := by
  have arb : t.fixed.arb.life = b.fixed.arb.life := by rw [h]
  exact arb

theorem HeadAtRest.moves {b t : Bridge} (h : HeadAtRest b) (m : Moves b t) : HeadAtRest t := by
  unfold HeadAtRest
  rw [(fixed_cart m.fixed).2.2, fixed_cartState m.fixed, fixed_life m.fixed]
  exact h

theorem HeadAtRest.noEject {b : Bridge} (h : HeadAtRest b) : ¬ (ejectWaits b = true ∨ b.cart.state = .quiescing) := by
  rcases h.2 with hs | hs | hs | ⟨hs, -⟩ <;> simp [ejectWaits, hs]

theorem HeadAtRest.headStep {b : Bridge} (h : HeadAtRest b) : Machine.headStep b = none := by
  obtain ⟨order, hs⟩ := h
  have quiet : arbiterStep b = none := by
    unfold arbiterStep
    rw [order]
    rcases hs with hs | hs | hs | ⟨hs, life⟩
    · rw [hs]; rfl
    · rw [hs]; rfl
    · rw [hs]; rfl
    · rw [hs]
      exact if_neg life
  unfold Machine.headStep
  rw [if_neg, quiet]
  rcases hs with hs | hs | hs | ⟨hs, -⟩ <;> simp [ejectWaits, quiesceEnds, hs]

/-- The consequences of an event grant nothing then, and the cartridge stays in its state. -/
theorem HeadAtRest.finish {b : Bridge} (h : HeadAtRest b) :
    (Machine.finish b).arb.order = none ∧ (Machine.finish b).cart.state = b.cart.state := by
  have rest : HeadAtRest (poolSettle b) := h.moves (poolSettle_moves b)
  refine ⟨?_, ?_⟩
  · unfold Machine.finish
    rw [pump_arb, settle_of_none rest.headStep]
    generalize poolSettle b = c at rest
    exact rest.1
  · rcases (finish_course b).steady.life with ⟨same, -⟩ | ⟨-, ejects⟩
    · exact same
    · exact absurd ejects h.noEject

/-! ### What is left of buffers and jobs (R54, R81, R154) -/

/-- A buffer record `x` becomes `y` when loads are withdrawn and an order is abandoned: a record that is not LOADING keeps
its data and sets, a LOADING one with dirty quarters keeps them too and may be OPEN, and a job stays, its stage in flight
going back to PENDING. -/
structure WorkKept (x y : Buffer) : Prop where
  record : x.state ≠ .loading → y = { x with flush := y.flush, load := y.load, successor := y.successor }
  merged : x.state = .loading → x.dirty ≠ 0 →
    y = { x with state := y.state, flush := y.flush, load := y.load, successor := y.successor }
      ∧ (y.state = .loading ∨ y.state = .opened)
  job    : x.state ≠ .loading → ∀ f, x.flush = some f → y.flush = some f
    ∨ (f.stage = some .inFlight ∧ y.flush = some { f with stage := some .pending })
  noJob  : x.flush = none → y.flush = none
  dirty  : isDirty y = isDirty x

/-- The record changes in its load and its successor link alone. -/
theorem WorkKept.of_links {x y : Buffer} (h : y = { x with load := y.load, successor := y.successor }) : WorkKept x y := by
  have flush : y.flush = x.flush := by rw [h]
  have state : y.state = x.state := by rw [h]
  refine ⟨fun _ => ?_, fun hs _ => ⟨?_, .inl (state.trans hs)⟩, fun _ f hf => .inl (flush.trans hf), flush.trans, ?_⟩
  · rw [flush]; exact h
  · rw [flush, state]; exact h
  · rw [h]; rfl

theorem WorkKept.refl (x : Buffer) : WorkKept x x := .of_links rfl

theorem WorkKept.trans {x y z : Buffer} (h : WorkKept x y) (h' : WorkKept y z) : WorkKept x z := by
  have state : x.state ≠ .loading → y.state ≠ .loading := fun hs => by
    rw [h.record hs]
    exact hs
  refine ⟨fun hs => ?_, fun hs hd => ?_, fun hs f hf => ?_, fun hf => h'.noJob (h.noJob hf),
    h'.dirty.trans h.dirty⟩
  · rw [h'.record (state hs), h.record hs]
  · obtain ⟨same, was⟩ := h.merged hs hd
    have dirty : y.dirty ≠ 0 := by rw [same]; exact hd
    rcases was with loading | opened
    · obtain ⟨same', is⟩ := h'.merged loading dirty
      exact ⟨by rw [same', same], is⟩
    · have same' := h'.record (by rw [opened]; simp)
      exact ⟨by rw [same', same], .inr (by rw [same']; exact opened)⟩
  · rcases h.job hs f hf with kept | ⟨flight, back⟩
    · exact h'.job (state hs) f kept
    · rcases h'.job (state hs) _ back with kept' | ⟨flight', -⟩
      · exact .inr ⟨flight, kept'⟩
      · cases flight'

/-- A LOADING record without dirty quarters holds no work: whatever becomes of it, no job is made. -/
theorem WorkKept.of_clean {x y : Buffer} (hs : x.state = .loading) (hd : x.dirty = 0) (job : y.flush = none)
    (dirty : isDirty y = false) : WorkKept x y :=
  ⟨fun h => absurd hs h, fun _ h => absurd hd h, fun h => absurd hs h, fun _ => job,
    dirty.trans (by simp [isDirty, isUnsaved, hs, hd])⟩

/-- What a record keeps where only OPEN and COMMITTING ones hold jobs. -/
theorem WorkKept.clauses {x y : Buffer} (h : WorkKept x y)
    (holds : x.flush.isSome = true → x.state = .opened ∨ x.state = .committing) :
    (x.state = .opened ∨ x.state = .committing ∨ x.state = .stranded ∨ x.state = .clean →
      y = { x with flush := y.flush, load := y.load, successor := y.successor })
    ∧ (x.state = .loading → x.dirty ≠ 0 →
      y = { x with state := y.state, load := y.load, successor := y.successor } ∧ (y.state = .loading ∨ y.state = .opened))
    ∧ ∀ f, x.flush = some f → y.flush = some f
      ∨ (f.stage = some .inFlight ∧ y.flush = some { f with stage := some .pending }) := by
  refine ⟨fun hs => h.record ?_, fun hs hd => ?_, fun f hf => h.job ?_ f hf⟩
  · rcases hs with hs | hs | hs | hs <;> simp [hs]
  · obtain ⟨same, is⟩ := h.merged hs hd
    have jobless : x.flush = none := by
      by_contra job
      rcases holds (Option.isSome_iff_ne_none.2 job) with h' | h' <;> simp [hs] at h'
    refine ⟨?_, is⟩
    rw [h.noJob jobless, ← jobless] at same
    exact same
  · rcases holds (by rw [hf]; rfl) with h' | h' <;> simp [h']

/-- Each buffer keeps its work. -/
structure KeepsWork (b t : Bridge) : Prop where
  each : ∀ i, WorkKept (b.buf i) (t.buf i)

theorem KeepsWork.refl (b : Bridge) : KeepsWork b b := ⟨fun _ => .refl _⟩

theorem KeepsWork.trans {a b c : Bridge} (h : KeepsWork a b) (h' : KeepsWork b c) : KeepsWork a c :=
  ⟨fun i => (h.each i).trans (h'.each i)⟩

theorem KeepsWork.foldl {α : Type} {f : Bridge → α → Bridge} (h : ∀ b x, KeepsWork b (f b x)) (l : List α) (b : Bridge) :
    KeepsWork b (l.foldl f b) := foldl_rel .refl .trans h l b

theorem KeepsWork.forBufs {f : Bridge → BufIdx → Bridge} (h : ∀ b i, KeepsWork b (f b i)) (b : Bridge) :
    KeepsWork b (b.forBufs f) := .foldl h allBufs b

theorem KeepsWork.forKeys {f : Bridge → Key → Bridge} (h : ∀ b k, KeepsWork b (f b k)) (b : Bridge) :
    KeepsWork b (b.forKeys f) := .foldl h allKeys b

theorem KeepsWork.of_buffers {b t : Bridge} (h : t.pool.buffers = b.pool.buffers) : KeepsWork b t := by
  refine ⟨fun i => ?_⟩
  rw [buf_congr h]
  exact .refl _

theorem putBuf_keepsWork {b : Bridge} {i : BufIdx} {x : Buffer} (h : WorkKept (b.buf i) x) :
    KeepsWork b (b.putBuf i x) := by
  refine ⟨fun j => ?_⟩
  rw [buf_putBuf]
  split
  · rename_i here
    rwa [here]
  · exact .refl _

theorem freeBuf_keepsWork {b : Bridge} {i : BufIdx} (hs : (b.buf i).state = .loading) (hd : (b.buf i).dirty = 0) :
    KeepsWork b (freeBuf b i) := by
  refine ⟨fun j => ?_⟩
  rw [freeBuf_buf]
  split
  · rename_i here
    rw [here]
    exact .of_clean hs hd rfl rfl
  · exact .of_links rfl

theorem withdrawLoad_keepsWork (b : Bridge) (i : BufIdx) : KeepsWork b (withdrawLoad b i) := by
  unfold withdrawLoad
  dsimp only
  split
  · rename_i hs
    split
    · rename_i hd
      exact freeBuf_keepsWork hs hd
    · rename_i hd
      refine (putBuf_keepsWork (x := { b.buf i with state := .opened, load := none }) ?_).trans (.of_buffers rfl)
      refine ⟨fun h => absurd hs h, fun _ _ => ⟨rfl, .inr rfl⟩, fun h => absurd hs h, id, ?_⟩
      have merged : ((b.buf i).dirty != 0) = true := bne_iff_ne.2 hd
      simp only [isDirty, isUnsaved, hs, merged]
      rfl
  · exact putBuf_keepsWork (.of_links rfl)

theorem sweepLoads_keepsWork (b : Bridge) : KeepsWork b (sweepLoads b) := by
  refine .forBufs (fun b i => ?_) b
  unfold withdrawUnneeded
  split
  · exact .refl b
  · split
    · exact withdrawLoad_keepsWork b i
    · exact .refl b

theorem dropReaderAt_keepsWork (k : Key) (b : Bridge) (i : BufIdx) : KeepsWork b (dropReaderAt k b i) := by
  unfold dropReaderAt
  split
  · exact .refl b
  · exact putBuf_keepsWork (.of_links rfl)

theorem letGo_keepsWork (b : Bridge) (k : Key) (e : Entry) : KeepsWork b (letGo b k e) := by
  have joined : KeepsWork b (e.pinned.foldl joinEvict b) := .of_buffers (foldl_joinEvict_buffers _ b)
  unfold letGo
  split
  · exact joined.trans ((KeepsWork.forBufs (dropReaderAt_keepsWork k) _).trans (sweepLoads_keepsWork _))
  · exact joined

theorem closedBase_keepsWork (b : Bridge) (k : Key) (e : Entry) (f : OutFrame) (st : Status) (done : Nat) :
    KeepsWork b (closedBase b k e f st done) := .of_buffers rfl

theorem answer_keepsWork (b : Bridge) (k : Key) (st : Status) (done : Nat) (p : Payload) :
    KeepsWork b (answer b k st done p) := by
  unfold answer
  split
  · exact .refl b
  · rename_i e he
    by_cases hs : e.state = .answered
    · rw [answerFrame_not _ _ _ fun e' h' => by rw [he] at h'; cases h'; exact hs]
      exact .refl b
    · rw [answerFrame_given _ _ _ he hs]
      exact (closedBase_keepsWork ..).trans (letGo_keepsWork _ _ _)

theorem answerAll_keepsWork (b : Bridge) (p : Entry → Bool) (st : Status) : KeepsWork b (answerAll b p st) := by
  refine .forKeys (fun b k => ?_) b
  split
  · exact answer_keepsWork ..
  · exact .refl b

/-! ### The order is abandoned (R97, R99) -/

/-- A write-back step in flight is pending again, and the map is held as it was otherwise (R134). -/
def StepReturned (b t : Bridge) : Prop :=
  ∀ m, b.dm.map = some m → ∃ step, t.dm = { b.dm with map := some { m with step } }
    ∧ (step = m.step ∨ ∃ st, m.step = some st ∧ step = some { st with inFlight := false })

theorem StepReturned.of_eq {b t : Bridge} (h : t.dm = b.dm) : StepReturned b t := fun m hm =>
  ⟨m.step, by rw [h, ← hm], .inl rfl⟩

theorem StepReturned.trans {a b c : Bridge} (h : StepReturned a b) (h' : StepReturned b c) : StepReturned a c := by
  intro m hm
  obtain ⟨step, same, was⟩ := h m hm
  obtain ⟨step', same', is⟩ := h' { m with step } (by rw [same])
  refine ⟨step', by rw [same', same], ?_⟩
  rcases is with rfl | ⟨st, hst, rfl⟩
  · exact was
  · rcases was with rfl | ⟨st', hst', rfl⟩
    · exact .inr ⟨st, hst, rfl⟩
    · cases hst
      exact .inr ⟨st', hst', rfl⟩

theorem mapStepReturned_stepReturned (b : Bridge) : StepReturned b (mapStepReturned b) := by
  intro m hm
  rw [mapStepReturned, hm]
  refine ⟨m.step.map fun st => { st with inFlight := false }, rfl, ?_⟩
  cases m.step with
  | none => exact .inl rfl
  | some st => exact .inr ⟨st, rfl, rfl⟩

/-- An order is given up: the pool and the map change alone, the buffers keep their work, and a write-back step is pending
again. -/
structure GivesUp (b t : Bridge) : Prop where
  rest : t = { b with pool := t.pool, dm := t.dm }
  step : StepReturned b t
  work : KeepsWork b t

theorem GivesUp.refl (b : Bridge) : GivesUp b b := ⟨rfl, .of_eq rfl, .refl b⟩

theorem GivesUp.trans {a b c : Bridge} (h : GivesUp a b) (h' : GivesUp b c) : GivesUp a c :=
  ⟨by rw [h'.rest, h.rest], h.step.trans h'.step, h.work.trans h'.work⟩

theorem PoolOnly.givesUp {b t : Bridge} (h : PoolOnly b t) (w : KeepsWork b t) : GivesUp b t :=
  ⟨by rw [h.1], .of_eq (by rw [h.1]), w⟩

/-- A stage in flight goes back to PENDING. -/
theorem workKept_returned (x : Buffer) : WorkKept x { x with flush := x.flush.map fun f =>
    (if f.stage = some Stage.inFlight then { f with stage := some .pending } else f) } := by
  refine ⟨fun _ => rfl, fun hs _ => ⟨rfl, .inl hs⟩, fun _ f hf => ?_, fun hf => by simp [hf], rfl⟩
  by_cases flight : f.stage = some .inFlight
  · exact .inr ⟨flight, by simp [hf, flight]⟩
  · exact .inl (by simp [hf, flight])

theorem putBuf_givesUp {b : Bridge} {i : BufIdx} {x : Buffer} (h : x.state = .stranded → (b.buf i).state = .stranded)
    (w : WorkKept (b.buf i) x) : GivesUp b (b.putBuf i x) := (putBuf_poolOnly b i x h).givesUp (putBuf_keepsWork w)

theorem returnPiece_givesUp (b : Bridge) (p : Piece) : GivesUp b (returnPiece b p) := by
  unfold returnPiece
  split
  · exact putBuf_givesUp id (.of_links rfl)
  · exact putBuf_givesUp id (workKept_returned _)
  · refine ⟨?_, mapStepReturned_stepReturned b, .of_buffers (by rw [mapStepReturned_pool])⟩
    unfold mapStepReturned
    split
    · rfl
    · rfl
  · exact .refl b

theorem abandonOrder_givesUp (b : Bridge) (o : Order) :
    GivesUp { b with arb := { b.arb with order := none } } (abandonOrder b o) := by
  unfold abandonOrder
  refine GivesUp.trans ?_ ((sweepLoads_poolOnly _).givesUp (sweepLoads_keepsWork _))
  exact foldl_rel .refl .trans returnPiece_givesUp o.pieces _

theorem abandonByFault_givesUp (b : Bridge) :
    GivesUp { b with arb := { b.arb with order := none } } (abandonByFault b) := by
  unfold abandonByFault
  split
  · rename_i idle
    rw [← idle]
    exact .refl b
  · exact abandonOrder_givesUp b _

/-! ### A FAULT by the state of the cartridge (R154) -/

/-- The cartridge has a mechanism that a FAULT halts: from SPINUP to EJECTING (R154). -/
def Haltable (s : CartState) : Prop :=
  s = .spinup ∨ s = .mounting ∨ s = .ready ∨ s = .quiescing ∨ s = .ejecting

/-- The cartridge has none: EMPTY, SETTLING and UNUSABLE (R154). -/
def Unhaltable (s : CartState) : Prop := s = .empty ∨ s = .settling ∨ s = .unusable

section Fault
variable {b : Bridge}

theorem abandonByFault_cart (b : Bridge) : (abandonByFault b).cart = b.cart := by
  rw [(abandonByFault_givesUp b).rest]

theorem abandonByFault_arb (b : Bridge) : (abandonByFault b).arb = { b.arb with order := none } := by
  rw [(abandonByFault_givesUp b).rest]

theorem abandonByFault_mgmt (b : Bridge) : (abandonByFault b).mgmt = b.mgmt := by
  rw [(abandonByFault_givesUp b).rest]

theorem abandonByFault_entry (b : Bridge) (k : Key) : (abandonByFault b).entry k = b.entry k :=
  entry_of_table (by rw [(abandonByFault_givesUp b).rest]) k

/-- A RECOVER's SPIN_UP is not asked for any more. -/
def lifeDropped (b : Bridge) : Bridge := { b with arb := { b.arb with life := none } }

/-- The RECOVER that waits is answered MECH_FAULT, and its SPIN_UP is asked for no more. -/
def recoverFaulted (b : Bridge) : Bridge := answerRecover (lifeDropped (abandonByFault b)) .mechFault

theorem takeFault_unhaltable (h : Unhaltable b.cart.state) : takeFault b = abandonByFault b := by
  unfold takeFault
  dsimp only
  rw [abandonByFault_cart]
  rcases h with hs | hs | hs <;> rw [hs]

theorem takeFault_haltable (h : Haltable b.cart.state) : takeFault b = enterHalted (abandonByFault b) := by
  unfold takeFault
  dsimp only
  rw [abandonByFault_cart]
  rcases h with hs | hs | hs | hs | hs <;> rw [hs]

theorem takeFault_halted (h : b.cart.state = .halted) : takeFault b = recoverFaulted b := by
  unfold takeFault recoverFaulted lifeDropped
  dsimp only
  rw [abandonByFault_cart, h]

theorem cartState_cases (s : CartState) : Unhaltable s ∨ s = .halted ∨ Haltable s := by
  cases s <;> simp [Unhaltable, Haltable]

/-- What a FAULT keeps in every state, with no order in flight any more. -/
def FaultKeeps (b t : Bridge) : Prop :=
  HeadAtRest t ∧ t.arb.timeouts = b.arb.timeouts ∧ t.dm.map.isSome = b.dm.map.isSome
    ∧ t.mgmt.settings = b.mgmt.settings ∧ t.router = b.router

theorem abandonByFault_mapHeld (b : Bridge) : (abandonByFault b).dm.map.isSome = b.dm.map.isSome :=
  (abandonByFault_course b).steady.mapHeld

theorem abandonByFault_router (b : Bridge) : (abandonByFault b).router = b.router :=
  (abandonByFault_course b).steady.router

theorem enterHalted_router (b : Bridge) : (enterHalted b).router = b.router := by
  have closes := answerAll_closes (withCart b fun c => { c with state := .halted })
    (fun e => isActive e || isEjectWait e) .mechFault
  unfold enterHalted
  dsimp only
  generalize answerAll _ _ _ = t at closes ⊢
  exact (raiseEvent_moves _ _).steady.router.trans closes.router

/-- HALTED grants nothing while no RECOVER is asked for. -/
theorem Halted.headAtRest {b c : Bridge} (h : Halted b c) (order : b.arb.order = none) : HeadAtRest c := by
  obtain ⟨cart, arb, -⟩ := h
  refine ⟨by rw [arb]; exact order, .inr (.inr (.inr ⟨by rw [cart], by rw [arb]; simp⟩))⟩

theorem recoverFaulted_closes (b : Bridge) : Closes (lifeDropped (abandonByFault b)) (recoverFaulted b) :=
  answerAll_closes _ isRecoverWait .mechFault

theorem lifeDropped_arb (b : Bridge) :
    (lifeDropped (abandonByFault b)).arb = { b.arb with order := none, life := none } := by
  unfold lifeDropped
  dsimp only
  rw [abandonByFault_arb]

theorem recoverFaulted_state (h : b.cart.state = .halted) : (recoverFaulted b).cart.state = .halted := by
  rw [(recoverFaulted_closes b).cart]
  exact (congrArg CartRecord.state (abandonByFault_cart b)).trans h

theorem recoverFaulted_isAnswered {k : Key} {e : Entry} (he : b.entry k = some e) (op : e.op = .recover)
    (waits : e.state = .awaitMech) : IsAnswered (recoverFaulted b) k .mechFault 0 .none := by
  have held : (lifeDropped (abandonByFault b)).entry k = some e := (abandonByFault_entry b k).trans he
  have recovers : isRecoverWait e = true := by simp [isRecoverWait, op, waits]
  unfold recoverFaulted answerRecover
  exact answerAll_isAnswered .mechFault held recovers (by simp [waits])

theorem recoverFaulted_keeps (h : b.cart.state = .halted) : FaultKeeps b (recoverFaulted b) := by
  have closes := recoverFaulted_closes b
  have arb := closes.arb.trans (lifeDropped_arb b)
  refine ⟨⟨by rw [arb], .inr (.inr (.inr ⟨recoverFaulted_state h, by rw [arb]; simp⟩))⟩, by rw [arb], ?_, ?_, ?_⟩
  · rw [closes.dm]
    exact abandonByFault_mapHeld b
  · rw [closes.mgmt]
    exact congrArg Management.settings (abandonByFault_mgmt b)
  · exact closes.router.trans (abandonByFault_router b)

theorem faultHalted_keeps (b : Bridge) : FaultKeeps b (enterHalted (abandonByFault b)) := by
  have router := (enterHalted_router (abandonByFault b)).trans (abandonByFault_router b)
  obtain ⟨c, halted, eq⟩ := enterHalted_halted (abandonByFault b)
  rw [eq] at router ⊢
  have steady := (raiseEvent_moves c .mechHalted).steady
  have rest := (halted.headAtRest (by rw [abandonByFault_arb])).moves (raiseEvent_moves c .mechHalted)
  obtain ⟨-, arb, dm, mgmt, -⟩ := halted
  refine ⟨rest, ?_, ?_, ?_, router⟩
  · rw [steady.timeouts, arb, abandonByFault_arb]
  · rw [steady.mapHeld, dm, abandonByFault_mapHeld]
  · rw [congrArg Management.settings steady.mgmt, mgmt, abandonByFault_mgmt]

theorem takeFault_keeps (b : Bridge) : FaultKeeps b (takeFault b) := by
  rcases cartState_cases b.cart.state with hs | hs | hs
  · rw [takeFault_unhaltable hs]
    refine ⟨⟨by rw [abandonByFault_arb], ?_⟩, by rw [abandonByFault_arb], abandonByFault_mapHeld b,
      by rw [abandonByFault_mgmt], abandonByFault_router b⟩
    rw [abandonByFault_cart]
    exact hs.imp_right fun h => h.imp_right .inl
  · rw [takeFault_halted hs]
    exact recoverFaulted_keeps hs
  · rw [takeFault_haltable hs]
    exact faultHalted_keeps b

/-! ### What HALTED keeps (R154) -/

theorem enterHalted_keepsWork (b : Bridge) : KeepsWork b (enterHalted b) := by
  have start : KeepsWork b (withCart b fun c => { c with state := .halted }) := .of_buffers rfl
  have answers := answerAll_keepsWork (withCart b fun c => { c with state := .halted })
    (fun e => isActive e || isEjectWait e) .mechFault
  unfold enterHalted
  dsimp only
  generalize answerAll _ _ _ = t at answers ⊢
  refine (start.trans answers).trans (.of_buffers ?_)
  rw [raiseEvent_pool]

/-- A FAULT from SPINUP to EJECTING, up to the attention event. -/
theorem faultHalted_halted (b : Bridge) : ∃ c, Halted (abandonByFault b) c ∧ KeepsWork b c
    ∧ enterHalted (abandonByFault b) = raiseEvent c .mechHalted := by
  have start : KeepsWork b { b with arb := { b.arb with order := none } } := .of_buffers rfl
  have work := start.trans ((abandonByFault_givesUp b).work.trans (enterHalted_keepsWork _))
  obtain ⟨c, halted, eq⟩ := enterHalted_halted (abandonByFault b)
  refine ⟨c, halted, work.trans (.of_buffers ?_), eq⟩
  rw [eq, raiseEvent_pool]

end Fault

theorem exec_fault (s : State) : exec .fault s = .next (s.withBridge (finish (takeFault s.bridge))) :=
  become_next (f := fun b => finish (takeFault b)) rfl

/-- Settles O36: the order is given up with the work of every buffer kept, the answers of HALTED keep it too, and a head at
rest grants nothing in the consequences. -/
theorem faultHaltsTheMechanism : Obligations.FaultHaltsTheMechanism := by
  intro s
  obtain ⟨rest, timeouts, map, settings, router⟩ := takeFault_keeps s.bridge
  have steady := (finish_course (takeFault s.bridge)).steady
  obtain ⟨order, state⟩ := rest.finish
  refine ⟨_, exec_fault s, ?_⟩
  rw [withBridge_pending, withBridge_bridge]
  refine ⟨rfl, order, steady.timeouts.trans timeouts, steady.mapHeld.trans map,
    (congrArg Management.settings steady.mgmt).trans settings, steady.router.trans router,
    fun hs => ?_, fun hs => ⟨?_, fun k e he op waits => ?_⟩, fun hs => ?_⟩
  · rw [state, takeFault_unhaltable hs, abandonByFault_cart]
  · rw [state, takeFault_halted hs]
    exact recoverFaulted_state hs
  · rw [takeFault_halted hs]
    exact (recoverFaulted_isAnswered he op waits).finish
  · rw [state, takeFault_haltable hs]
    obtain ⟨c, halted, work, eq⟩ := faultHalted_halted s.bridge
    obtain ⟨cart, arb, dm, mgmt, entries, -⟩ := halted
    have order : c.arb.order = none := by rw [arb, abandonByFault_arb]
    rw [abandonByFault_cart] at cart
    rw [eq]
    refine ⟨?_, fun k e he waits => ?_, c, rfl, mgmt.trans (abandonByFault_mgmt _), cart, order, by rw [arb],
      by rw [arb], ?_, fun ok i => (work.each i).clauses (ok.2.1 i)⟩
    · rw [fixed_cartState (raiseEvent_moves c .mechHalted).fixed, cart]
    · have answered := (entries k e ((abandonByFault_entry _ k).trans he)).1 waits
      exact (answered.steady (raiseEvent_moves c .mechHalted).steady).finish
    · rw [dm]
      exact (abandonByFault_givesUp s.bridge).step

end Sys2Proof.Machine
end


section
/-! PROOFS. RECOVER and DISCARD_STRANDED (R59, R81, R155, R186). -/

namespace Sys2Proof.Machine

section Recover
variable {h : Header} {s : State}

/-! ### RECOVER (R155) -/

/-- A recover is under way: an order is in flight, or its SPIN_UP is asked for. -/
def Recovering (b : Bridge) : Prop := b.arb.order.isSome = true ∨ b.arb.life = some .recoverSpinUp

theorem recoverUnderWay_iff {b : Bridge} (hs : b.cart.state = .halted) : recoverUnderWay b = true ↔ Recovering b := by
  simp [recoverUnderWay, Recovering, hs]

theorem exec_recover_managed (m : Managed s.bridge h .recover []) :
    exec (.recover h []) s = .next (s.withBridge (finish (recover h (managing s.bridge h .recover)))) :=
  exec_managed (recover h) finish rfl m

/-- The request is answered at once in any other state and where one is under way. -/
theorem recover_refused {b : Bridge} {st : Status} (why : (b.cart.state ≠ .halted ∧ st = .wrongState)
      ∨ (b.cart.state = .halted ∧ Recovering b ∧ st = .inUse)) :
    recover h (managing b h .recover) = answeredAtOnce b h .recover (some .management) st .none := by
  unfold recover
  rcases why with ⟨hs, rfl⟩ | ⟨hs, under, rfl⟩
  · exact (if_neg hs).trans (answerStatus_managing ..)
  · have busy : recoverUnderWay (managing b h .recover) = true :=
      (recoverUnderWay_iff (b := managing b h .recover) hs).2 under
    exact (if_pos hs).trans ((if_pos busy).trans (answerStatus_managing ..))

/-- The entry of a RECOVER whose SPIN_UP is asked for. -/
def recoverEntry (b : Bridge) (h : Header) : Entry :=
  { newEntry b h .recover (some .management) with state := .awaitMech }

theorem recover_asked {b : Bridge} (hs : b.cart.state = .halted) (free : ¬ Recovering b) :
    recover h (managing b h .recover) = askLife (withEntry b h (recoverEntry b h)) .recoverSpinUp := by
  have idle : ¬ recoverUnderWay (managing b h .recover) = true := fun busy =>
    free ((recoverUnderWay_iff (b := managing b h .recover) hs).1 busy)
  have waits : waitIn (askLife (managing b h .recover) .recoverSpinUp) h.key .awaitMech
      = askLife (waitIn (managing b h .recover) h.key .awaitMech) .recoverSpinUp := by
    unfold waitIn managing editEntry
    rw [withEntry_entry_self]
    have same : (askLife (withEntry b h (newEntry b h .recover (some .management))) .recoverSpinUp).entry h.key
      = some (newEntry b h .recover (some .management)) := withEntry_entry_self ..
    rw [same]
    rfl
  unfold recover
  refine (if_pos hs).trans ((if_neg idle).trans (waits.trans ?_))
  unfold waitIn managing
  rw [editEntry_withEntry]
  rfl

end Recover

/-! ### DISCARD_STRANDED (R81, R186) -/

section Discard
variable {h : Header} {s : State}

theorem exec_discardStranded_managed (m : Managed s.bridge h .discardStranded []) :
    exec (.discardStranded h []) s
      = .next (s.withBridge (finish (discardStranded h (managing s.bridge h .discardStranded)))) :=
  exec_managed (discardStranded h) finish rfl m

theorem newEntry_pins (b : Bridge) (h : Header) (op : Op) (r : Option Routing) (i : BufIdx) :
    (newEntry b h op r).pinned.contains i = false := by
  unfold Entry.pinned
  split <;> rfl

/-- An entry that pins and awaits no buffer, at a key that was free, adds no pin. -/
theorem pinCount_managing {b : Bridge} (op : Op) (free : b.entry h.key = none) (i : BufIdx) :
    pinCount (managing b h op) i = pinCount b i :=
  congrArg List.length (keysWhere_withEntry (p := fun e => e.pinned.contains i) free (newEntry_pins ..))

theorem strandedPinned_managing {b : Bridge} (op : Op) (free : b.entry h.key = none) :
    strandedPinned (managing b h op) = true ↔ ∃ i, (b.buf i).state = .stranded ∧ pinCount b i ≠ 0 := by
  have buffers : ∀ i, (managing b h op).buf i = b.buf i := fun _ => rfl
  simp [strandedPinned, pinCount_managing op free, buffers, allBufs]

/-- What the discard of the STRANDED buffers leaves. -/
def strandedGone (b : Bridge) : Bridge := discardWhere b fun x => x.state == .stranded

theorem strandedGone_buf (b : Bridge) (i : BufIdx) : (strandedGone b).buf i
    = if (b.buf i).state == .stranded then Buffer.free else
        (b.buf i).keepLink fun j => !((b.buf j).state == .stranded) :=
  discardWhere_buf b (fun st => st == .stranded) i

theorem strandedGone_buf_stranded {b : Bridge} {i : BufIdx} (hs : (b.buf i).state = .stranded) :
    (strandedGone b).buf i = Buffer.free := by
  rw [strandedGone_buf, hs]
  rfl

theorem strandedGone_buf_other {b : Bridge} {i : BufIdx} (hs : (b.buf i).state ≠ .stranded) :
    (strandedGone b).buf i
      = { b.buf i with successor := (b.buf i).successor.filter fun j => (b.buf j).state != .stranded } := by
  rw [strandedGone_buf, if_neg (by simp [hs])]
  rfl

theorem strandedGone_count (b : Bridge) : strandedCount (strandedGone b) = 0 := by
  unfold strandedCount
  rw [List.length_eq_zero_iff, List.filter_eq_nil_iff]
  intro i _ still
  by_cases hs : (b.buf i).state = .stranded
  · rw [strandedGone_buf_stranded hs] at still
    cases still
  · rw [strandedGone_buf_other hs] at still
    exact hs (beq_iff_eq.1 still)

/-- What `Steady` says of a bridge with an entry is the same for another entry, but at its key. -/
theorem withEntry_but (b : Bridge) (h : Header) (e e' : Entry) : SteadyBut h.key (withEntry b h e) (withEntry b h e') := by
  have same : forgetKey h.key (withEntry b h e') = forgetKey h.key (withEntry b h e) := by simp [forgetKey, withEntry]
  refine ⟨?_, rfl⟩
  rw [same]
  exact .refl _

/-- The entry of the request while its buffers are discarded. -/
theorem strandedGone_entry (b : Bridge) (h : Header) : (strandedGone (managing b h .discardStranded)).entry h.key
    = some (newEntry b h .discardStranded (some .management)) :=
  (discardWhere_moves _ _).steady.idle_entry (withEntry_entry_self ..) rfl

theorem discardStranded_answered (b : Bridge) (h : Header) (report : List Item) :
    IsAnswered (answerItems (strandedGone (managing b h .discardStranded)) h.key report) h.key .ok 0 (.items report) :=
  answer_isAnswered .ok 0 (.items report) (strandedGone_entry b h) (by simp [newEntry, freshEntry])

/-- Up to its own entry, which is answered, the discard and the end of the step are steady. -/
theorem discardStranded_steady (b : Bridge) (h : Header) (report : List Item) :
    Steady (withEntry b h { newEntry b h .discardStranded (some .management) with state := .awaitCommit })
      (finish (answerItems (strandedGone (managing b h .discardStranded)) h.key report)) := by
  have entered := withEntry_but b h { newEntry b h .discardStranded (some .management) with state := .awaitCommit }
    (newEntry b h .discardStranded (some .management))
  have discard := (discardWhere_moves (managing b h .discardStranded) fun x => x.state == .stranded).steady.but h.key
  have closes := answer_closes (strandedGone (managing b h .discardStranded)) h.key .ok 0 (.items report)
  have answers := closes.but fun j hj => (answer_entry ..).trans (if_neg hj)
  have closed : (answerItems (strandedGone (managing b h .discardStranded)) h.key report).entry h.key
      = some ((newEntry b h .discardStranded (some .management)).close .ok 0) := by
    unfold answerItems
    rw [answer_entry, if_pos rfl, strandedGone_entry]
    rfl
  have ends := (finish_course (answerItems (strandedGone (managing b h .discardStranded)) h.key report)).steady
  exact (((entered.trans discard).trans answers).trans (ends.but h.key)).steady (withEntry_entry_self ..)
    (ends.idle_entry closed rfl) ⟨rfl, .inr (.inl rfl)⟩ nofun

end Discard

/-- Settles O33: RECOVER by what `recoverUnderWay` says, DISCARD_STRANDED by the buffers that its discard frees. -/
theorem recoverAndDiscardStrandedAreTaken : Obligations.RecoverAndDiscardStrandedAreTaken := by
  refine ⟨fun h s m => ⟨fun st why => ⟨?_, (answeredAtOnce_isAnswered ..).finish⟩, fun hs free => ?_⟩,
    fun h s m => ⟨fun pinned => ⟨?_, (answeredAtOnce_isAnswered ..).finish⟩, fun unpinned => ?_⟩⟩
  · rw [exec_recover_managed m, recover_refused why]
  · have steady := (askLife_course (withEntry s.bridge h (recoverEntry s.bridge h)) .recoverSpinUp).steady.trans
      (finish_course _).steady
    refine ⟨_, exec_recover_managed m, ?_⟩
    rw [withBridge_pending, withBridge_bridge, recover_asked hs free]
    refine ⟨rfl, steady.idle_entry (withEntry_entry_self ..) rfl, rfl, steady, ?_⟩
    rcases steady.life with ⟨same, -⟩ | ⟨-, ejects⟩
    · exact same.trans hs
    · simp [ejectWaits, hs] at ejects
  · have busy := (strandedPinned_managing .discardStranded m.1.2).2 pinned
    rw [exec_discardStranded_managed m, discardStranded, if_pos busy, answerStatus_managing]
  · have free : ¬ strandedPinned (managing s.bridge h .discardStranded) = true := fun busy =>
      unpinned ((strandedPinned_managing .discardStranded m.1.2).1 busy)
    have closes := discardWhere_closes (managing s.bridge h .discardStranded) fun x => x.state == .stranded
    refine ⟨_, exec_discardStranded_managed m, ?_⟩
    rw [withBridge_pending, withBridge_bridge, discardStranded, if_neg free]
    exact ⟨rfl, (discardStranded_answered ..).finish, discardStranded_steady .., rfl, strandedGone_count _,
      fun i hs => strandedGone_buf_stranded (b := managing s.bridge h .discardStranded) hs,
      fun i hs => strandedGone_buf_other (b := managing s.bridge h .discardStranded) hs, closes.cart, closes.mgmt⟩

end Sys2Proof.Machine
end


section
/-! PROOFS. Entering EJECTING (R54, R81, R137, R147, R149 to R151): when it follows, what it answers, and
what it discards. -/

namespace Sys2Proof.Machine

/-! ### When it follows (R147, R149, R150) -/

section HeadStep
variable {b : Bridge}

theorem quiesceEnds_iff {q : Quiesce} (hs : b.cart.state = .quiescing) (hq : b.cart.quiesce = some q) :
    quiesceEnds b = true ↔ b.arb.order = none ∧ (q.ending = true ∨ conditionsUnmet b = 0) := by
  simp [quiesceEnds, hs, hq]

theorem headStep_ejects (h : quiesceEnds b = true) : headStep b = some (enterEjecting b) :=
  if_pos (by rw [h, Bool.or_true])

theorem headStep_quiescing (hs : b.cart.state = .quiescing) (h : ¬ quiesceEnds b = true) : headStep b = arbiterStep b :=
  if_neg (by simp [ejectWaits, hs, h])

theorem ejectWaits_of (hs : b.cart.state = .spinup ∨ b.cart.state = .mounting) (hw : b.cart.ejectWaiting ≠ none) :
    ejectWaits b = true := by
  have waits : b.cart.ejectWaiting.isSome = true := Option.isSome_iff_ne_none.2 hw
  rcases hs with hs | hs <;> simp [ejectWaits, hs, waits]

theorem headStep_waiting (h : ejectWaits b = true) (ho : b.arb.order = none) : headStep b = some (enterEjecting b) :=
  if_pos (by rw [h, ho]; rfl)

end HeadStep

/-! ### The conditions (R149) -/

section Conditions
variable {b : Bridge}

theorem noUnsaved_iff : allBufs.all (fun i => !isUnsaved (b.buf i)) = true ↔
    ∀ i, (b.buf i).state ≠ .opened ∧ (b.buf i).state ≠ .committing
      ∧ ((b.buf i).state = .loading → (b.buf i).dirty = 0) := by
  simp [allBufs, isUnsaved, and_assoc, imp_iff_not_or]

theorem mapClean_iff : b.dm.map.all (fun m => m.writeState == .clean || m.writeState == .unsavable) = true ↔
    ∀ m, b.dm.map = some m → m.writeState = .clean ∨ m.writeState = .unsavable := by
  simp [Option.all_eq_true]

theorem noActive_iff : (keysWhere b isActive).isEmpty = true ↔ ∀ k e, b.entry k = some e →
    e.state ≠ .reserving ∧ e.state ≠ .fetching ∧ e.state ≠ .awaitCommit := by
  have test : ∀ e : Entry, isActive e = false ↔ e.state ≠ .reserving ∧ e.state ≠ .fetching ∧ e.state ≠ .awaitCommit :=
    fun e => by simp [isActive, and_assoc]
  simp only [← test]
  simp only [keysWhere, List.isEmpty_iff, List.filter_eq_nil_iff, mem_allKeys, true_implies]
  refine forall_congr' fun k => ?_
  cases b.entry k <;> simp

theorem noStranded_iff : (strandedCount b == 0) = true ↔ ∀ i, (b.buf i).state ≠ .stranded := by
  simp [strandedCount, List.filter_eq_nil_iff, mem_allBufs]

theorem getLsbD_ofBools (c0 c1 c2 c3 : Bool) :
    let v := BitVec.ofNat 4 (c0.toNat + 2 * c1.toNat + 4 * c2.toNat + 8 * c3.toNat)
    v.getLsbD 0 = c0 ∧ v.getLsbD 1 = c1 ∧ v.getLsbD 2 = c2 ∧ v.getLsbD 3 = c3 := by
  revert c0 c1 c2 c3
  decide

/-- No selected bit is missing. -/
theorem and_not_eq_zero_iff (s c : BitVec 4) : s &&& ~~~ c = 0 ↔ (s.getLsbD 0 = true → c.getLsbD 0 = true)
    ∧ (s.getLsbD 1 = true → c.getLsbD 1 = true) ∧ (s.getLsbD 2 = true → c.getLsbD 2 = true)
    ∧ (s.getLsbD 3 = true → c.getLsbD 3 = true) := by
  revert s c
  decide

theorem conditionsUnmet_eq_zero_iff : conditionsUnmet b = 0 ↔
    (b.mgmt.settings.quiesceSet.getLsbD 0 = true → ∀ i, (b.buf i).state ≠ .opened ∧ (b.buf i).state ≠ .committing
      ∧ ((b.buf i).state = .loading → (b.buf i).dirty = 0))
    ∧ (b.mgmt.settings.quiesceSet.getLsbD 1 = true → ∀ m, b.dm.map = some m →
      m.writeState = .clean ∨ m.writeState = .unsavable)
    ∧ (b.mgmt.settings.quiesceSet.getLsbD 2 = true → ∀ k e, b.entry k = some e →
      e.state ≠ .reserving ∧ e.state ≠ .fetching ∧ e.state ≠ .awaitCommit)
    ∧ (b.mgmt.settings.quiesceSet.getLsbD 3 = true → ∀ i, (b.buf i).state ≠ .stranded) := by
  obtain ⟨bit0, bit1, bit2, bit3⟩ := getLsbD_ofBools (allBufs.all (fun i => !isUnsaved (b.buf i)))
    (b.dm.map.all (fun m => m.writeState == .clean || m.writeState == .unsavable)) (keysWhere b isActive).isEmpty
    (strandedCount b == 0)
  unfold conditionsUnmet conditionsMet
  rw [and_not_eq_zero_iff, bit0, bit1, bit2, bit3, noUnsaved_iff, mapClean_iff, noActive_iff, noStranded_iff]

end Conditions

/-! ### The discard (R81) -/

/-- A buffer differs in its successor link alone, which may be gone. -/
def Unlinked (x y : Buffer) : Prop := ∃ q, y = x.keepLink q

theorem Unlinked.refl (x : Buffer) : Unlinked x x := ⟨fun _ => true, (Buffer.keepLink_eq fun _ _ => rfl).symm⟩

theorem Unlinked.trans {x y z : Buffer} (h : Unlinked x y) (h' : Unlinked y z) : Unlinked x z := by
  obtain ⟨q, rfl⟩ := h
  obtain ⟨r, rfl⟩ := h'
  exact ⟨_, Buffer.keepLink_keepLink ..⟩

theorem Unlinked.of_free {y : Buffer} (h : Unlinked Buffer.free y) : y = Buffer.free := by
  obtain ⟨q, rfl⟩ := h
  rfl

/-- A record that no load holds up keeps its sector and its data where its link is lost. -/
theorem WorkKept.unlinked {x y z : Buffer} (h : WorkKept x y) (u : Unlinked y z) (hs : x.state ≠ .loading) :
    z.state = x.state ∧ z.lsn = x.lsn ∧ z.data = x.data := by
  obtain ⟨q, rfl⟩ := u
  rw [h.record hs]
  exact ⟨rfl, rfl, rfl⟩

theorem discardBuf_buf (b : Bridge) (i j : BufIdx) :
    (discardBuf b i).buf j = if j = i then Buffer.free else (b.buf j).keepLink (· != i) := by
  unfold discardBuf
  rw [freeBuf_buf, noticeFailed_buf]

section Discard
variable {p : Buffer → Bool}

/-- One buffer of a discard. -/
def discardAt (p : Buffer → Bool) (b : Bridge) (i : BufIdx) : Bridge := if p (b.buf i) then discardBuf b i else b

theorem discardAt_buf_hit {b : Bridge} {i : BufIdx} (h : p (b.buf i) = true) : (discardAt p b i).buf i = Buffer.free := by
  unfold discardAt
  rw [if_pos h, discardBuf_buf, if_pos rfl]

theorem discardAt_buf_other {b : Bridge} {i j : BufIdx} (h : j = i → p (b.buf j) = false) :
    Unlinked (b.buf j) ((discardAt p b i).buf j) := by
  unfold discardAt
  split
  · rename_i hit
    have ne : j ≠ i := fun e => by simp [e ▸ h e] at hit
    rw [discardBuf_buf, if_neg ne]
    exact ⟨_, rfl⟩
  · exact .refl _

/-- A test that does not look at the successor link, and that a FREE buffer fails. -/
def IgnoresLinks (p : Buffer → Bool) : Prop := (∀ x q, p (x.keepLink q) = p x) ∧ p Buffer.free = false

theorem IgnoresLinks.unlinked (hp : IgnoresLinks p) {x y : Buffer} (h : Unlinked x y) : p y = p x := by
  obtain ⟨q, rfl⟩ := h
  exact hp.1 x q

theorem foldl_discardAt_kept (hp : IgnoresLinks p) {j : BufIdx} : ∀ (l : List BufIdx) (b : Bridge), p (b.buf j) = false →
    Unlinked (b.buf j) ((l.foldl (discardAt p) b).buf j)
  | [], _, _ => .refl _
  | i :: l, b, h => by
    have step := discardAt_buf_other (i := i) fun _ => h
    exact step.trans (foldl_discardAt_kept hp l _ ((hp.unlinked step).trans h))

theorem foldl_discardAt_freed (hp : IgnoresLinks p) {j : BufIdx} : ∀ (l : List BufIdx) (b : Bridge), j ∈ l →
    p (b.buf j) = true → (l.foldl (discardAt p) b).buf j = Buffer.free
  | [], _, hj, _ => absurd hj List.not_mem_nil
  | i :: l, b, hj, h => by
    rw [List.foldl_cons]
    by_cases here : j = i
    · subst here
      have freed := discardAt_buf_hit h
      have kept := foldl_discardAt_kept hp l (discardAt p b j) (by rw [freed]; exact hp.2)
      rw [freed] at kept
      exact kept.of_free
    · have step := discardAt_buf_other (p := p) (b := b) fun e => absurd e here
      exact foldl_discardAt_freed hp l _ ((List.mem_cons.1 hj).resolve_left here) ((hp.unlinked step).trans h)

theorem discardWhere_kept (hp : IgnoresLinks p) {b : Bridge} {j : BufIdx} (h : p (b.buf j) = false) :
    Unlinked (b.buf j) ((discardWhere b p).buf j) := foldl_discardAt_kept hp allBufs b h

theorem discardWhere_freed (hp : IgnoresLinks p) {b : Bridge} {j : BufIdx} (h : p (b.buf j) = true) :
    (discardWhere b p).buf j = Buffer.free := foldl_discardAt_freed hp allBufs b (mem_allBufs j) h

end Discard

theorem isDirty_ignoresLinks : IgnoresLinks isDirty := ⟨fun _ _ => rfl, rfl⟩

theorem isDirty_iff (x : Buffer) : isDirty x = true ↔ x.state = .opened ∨ x.state = .committing ∨ x.state = .stranded
    ∨ (x.state = .loading ∧ x.dirty ≠ 0) := by
  simp [isDirty, isUnsaved]
  tauto

theorem KeepsWork.dirtyCount {b t : Bridge} (h : KeepsWork b t) : Machine.dirtyCount t = Machine.dirtyCount b := by
  unfold Machine.dirtyCount
  simp only [(h.each _).dirty]

/-! ### What a discard reports (R81, R137) -/

theorem attnTest_exceptions (b : Bridge) : (attnTest b).mgmt.exceptions = b.mgmt.exceptions := by
  unfold attnTest
  split
  · rfl
  · split
    · rfl
    · rfl

theorem raiseEvent_exceptions (b : Bridge) (ev : AttnEvent) : (raiseEvent b ev).mgmt.exceptions = b.mgmt.exceptions := by
  unfold raiseEvent
  split
  · exact attnTest_exceptions _
  · rfl

theorem record_exceptions {b : Bridge} (r : ExceptionRecord) (h : b.mgmt.exceptions.length < 32) :
    (record b r).mgmt.exceptions = b.mgmt.exceptions ++ [r] := by
  unfold record
  rw [if_pos h, raiseEvent_exceptions]

theorem record_cart (b : Bridge) (r : ExceptionRecord) : (record b r).cart = b.cart := by
  unfold record
  split
  · exact raiseEvent_cart ..
  · rfl

theorem record_dm (b : Bridge) (r : ExceptionRecord) : (record b r).dm = b.dm := (record_mapKept b r).dm

section Report
variable (b : Bridge) (n : Nat)

/-- The exceptions that a discard of `n` buffers adds. -/
def discardRecords : List ExceptionRecord :=
  if 1 ≤ n then [{ kind := .dataDiscarded, time := b.clock, sectorCount := some n }] else []

/-- The exceptions that a map which is not saved any more adds. -/
def mapRecords : List ExceptionRecord :=
  match b.dm.map with
  | none => []
  | some m => if m.writeState = .dirty ∨ m.writeState = .saving then
      [{ kind := .mapWriteFailed, time := b.clock, retries := some 0 }] else []

/-- The deferred-error count after a discard of `n` buffers. -/
def deferredAfter : Nat := if 1 ≤ n then min (b.cart.deferred + 1) 255 else b.cart.deferred

/-- The map without a write-back step. -/
def HeldMap.unsaved (m : HeldMap) : HeldMap :=
  if m.writeState = .dirty ∨ m.writeState = .saving then { m with step := none } else m

theorem reportDiscard_cart : (reportDiscard b n).cart = { b.cart with deferred := deferredAfter b n } := by
  unfold reportDiscard deferredAfter
  split
  · rw [record_cart]; rfl
  · rfl

theorem reportDiscard_dm : (reportDiscard b n).dm = b.dm := by
  unfold reportDiscard
  split
  · exact record_dm ..
  · rfl

theorem reportDiscard_exceptions (h : b.mgmt.exceptions.length < 32) :
    (reportDiscard b n).mgmt.exceptions = b.mgmt.exceptions ++ discardRecords b n := by
  unfold reportDiscard discardRecords
  split
  · exact record_exceptions (b := withCart b _) _ h
  · exact (List.append_nil _).symm

theorem reportDiscard_pool : (reportDiscard b n).pool = b.pool := by
  unfold reportDiscard
  split
  · rw [record_pool]; rfl
  · rfl

theorem abandonMapWrite_cart : (abandonMapWrite b).cart = b.cart := by
  unfold abandonMapWrite
  split
  · rfl
  · split
    · rw [record_cart]; rfl
    · rfl

theorem abandonMapWrite_map : (abandonMapWrite b).dm.map = b.dm.map.map HeldMap.unsaved := by
  unfold abandonMapWrite
  split
  · rename_i hm; rw [hm]; rfl
  · rename_i m hm
    unfold HeldMap.unsaved
    split
    · rename_i due
      rw [record_dm, hm]
      simp [putMap, due]
    · rename_i due
      rw [hm]
      simp [due]

theorem abandonMapWrite_exceptions (h : b.mgmt.exceptions.length < 32) :
    (abandonMapWrite b).mgmt.exceptions = b.mgmt.exceptions ++ mapRecords b := by
  unfold abandonMapWrite mapRecords
  cases b.dm.map with
  | none => exact (List.append_nil _).symm
  | some m =>
    dsimp only
    split
    · exact record_exceptions (b := putMap b _) _ h
    · exact (List.append_nil _).symm

/-- The discard of `n` buffers is reported and the write-back of the map given up (R81, R137). -/
def lossReported : Bridge := abandonMapWrite (reportDiscard b n)

theorem lossReported_moves : Moves b (lossReported b n) := (reportDiscard_moves b n).trans (abandonMapWrite_moves _)

theorem lossReported_pool : (lossReported b n).pool = b.pool := (abandonMapWrite_pool _).trans (reportDiscard_pool b n)

theorem lossReported_cart : (lossReported b n).cart = { b.cart with deferred := deferredAfter b n } :=
  (abandonMapWrite_cart _).trans (reportDiscard_cart b n)

theorem lossReported_map : (lossReported b n).dm.map = b.dm.map.map HeldMap.unsaved := by
  unfold lossReported
  rw [abandonMapWrite_map, reportDiscard_dm]

theorem lossReported_exceptions (h : b.mgmt.exceptions.length < 31) :
    (lossReported b n).mgmt.exceptions = b.mgmt.exceptions ++ discardRecords b n ++ mapRecords b := by
  have reported := reportDiscard_exceptions b n (by omega)
  have few : (discardRecords b n).length ≤ 1 := by
    unfold discardRecords
    split
    · exact Nat.le_refl 1
    · exact Nat.zero_le 1
  have room : (reportDiscard b n).mgmt.exceptions.length < 32 := by
    rw [reported, List.length_append]
    omega
  have same : mapRecords (reportDiscard b n) = mapRecords b := by
    unfold mapRecords
    rw [reportDiscard_dm, (reportDiscard_moves b n).steady.clock]
  unfold lossReported
  rw [abandonMapWrite_exceptions _ room, same, reported]

end Report

/-! ### The work of a cartridge that is lost (R54, R81, R137) -/

/-- The waiting requests that satisfy `p` are answered MEDIA_GONE, the buffers that satisfy `q` are discarded, and the
loss is reported. -/
def workLost (p : Entry → Bool) (q : Buffer → Bool) (b : Bridge) : Bridge :=
  lossReported (discardWhere (answerAll b p .mediaGone) q) (dirtyCount b)

section WorkLost
variable {b : Bridge} {p : Entry → Bool} {q : Buffer → Bool}

theorem answeredDiscarded_closes (b : Bridge) (p : Entry → Bool) (q : Buffer → Bool) :
    Closes b (discardWhere (answerAll b p .mediaGone) q) :=
  (answerAll_closes b p .mediaGone).trans (discardWhere_closes _ q)

theorem workLost_cart : (workLost p q b).cart = { b.cart with deferred := deferredAfter b (dirtyCount b) } := by
  have cart := (answeredDiscarded_closes b p q).cart
  unfold workLost
  rw [lossReported_cart, deferredAfter, cart]
  rfl

theorem workLost_map : (workLost p q b).dm.map = b.dm.map.map HeldMap.unsaved := by
  unfold workLost
  rw [lossReported_map, (answeredDiscarded_closes b p q).dm]

theorem workLost_order : (workLost p q b).arb.order = b.arb.order := by
  have same := fixed_cart (lossReported_moves (discardWhere (answerAll b p .mediaGone) q) (dirtyCount b)).fixed
  rw [(answeredDiscarded_closes b p q).arb] at same
  exact same.2.2

theorem workLost_settings : (workLost p q b).mgmt.settings = b.mgmt.settings := by
  have same := (lossReported_moves (discardWhere (answerAll b p .mediaGone) q) (dirtyCount b)).steady.mgmt
  rw [(answeredDiscarded_closes b p q).mgmt] at same
  unfold workLost
  rw [same]

theorem workLost_router : (workLost p q b).router = b.router :=
  (lossReported_moves (discardWhere (answerAll b p .mediaGone) q) (dirtyCount b)).steady.router.trans
    (answeredDiscarded_closes b p q).router

theorem workLost_exceptions (h : b.mgmt.exceptions.length < 31) :
    (workLost p q b).mgmt.exceptions = b.mgmt.exceptions ++ discardRecords b (dirtyCount b) ++ mapRecords b := by
  have closes := answeredDiscarded_closes b p q
  unfold workLost
  rw [lossReported_exceptions _ _ (by rw [closes.mgmt]; exact h)]
  unfold discardRecords mapRecords
  rw [closes.mgmt, closes.clock, closes.dm]

theorem workLost_isAnswered {k : Key} {e : Entry} (he : b.entry k = some e) (hp : p e = true) (hs : e.state ≠ .answered) :
    IsAnswered (workLost p q b) k .mediaGone 0 .none :=
  ((answerAll_isAnswered .mediaGone he hp hs).steady (discardWhere_moves _ q).steady).steady (lossReported_moves _ _).steady

theorem workLost_entry {k : Key} {e : Entry} (he : b.entry k = some e) (hp : p e = false) (idle : isActive e = false) :
    (workLost p q b).entry k = some e := by
  have same : (answerAll b p .mediaGone).entry k = some e := by
    refine (answerAll_entry .mediaGone fun e' he' hp' => ?_).trans he
    obtain rfl := Option.some.inj (he.symm.trans he')
    rw [hp] at hp'
    cases hp'
  exact (lossReported_moves _ _).steady.idle_entry ((discardWhere_moves _ q).steady.idle_entry same idle) idle

theorem workLost_buf (i : BufIdx) :
    (workLost p q b).buf i = (discardWhere (answerAll b p .mediaGone) q).buf i := by
  have same := lossReported_pool (discardWhere (answerAll b p .mediaGone) q) (dirtyCount b)
  exact buf_congr (congrArg Pool.buffers same) i

end WorkLost

/-! ### EJECTING (R151) -/

section Eject
variable {b : Bridge}

/-- The cartridge is EJECTING, and nothing else is done yet. -/
def ejectStarted (b : Bridge) : Bridge := withCart b fun c => { c with state := .ejecting, spinTimer := none }

/-- The EJECT is asked for. -/
def ejectAsked (b : Bridge) : Bridge :=
  askLife (withCart b fun c =>
    { c with quiesce := none, ejectWaiting := none, mountStep := none, ejectBegun := true }) .eject

theorem ejectAsked_cart (b : Bridge) : (ejectAsked b).cart
    = { b.cart with quiesce := none, ejectWaiting := none, mountStep := none, ejectBegun := true, spinTimer := none } := rfl
theorem ejectAsked_life (b : Bridge) : (ejectAsked b).arb.life = some .eject := rfl
theorem ejectAsked_table (b : Bridge) : (ejectAsked b).table = b.table := rfl
theorem ejectAsked_link (b : Bridge) : (ejectAsked b).link = b.link := rfl
theorem ejectAsked_entry (b : Bridge) (k : Key) : (ejectAsked b).entry k = b.entry k := rfl
theorem ejectAsked_buf (b : Bridge) (i : BufIdx) : (ejectAsked b).buf i = b.buf i := rfl
theorem ejectAsked_dm (b : Bridge) : (ejectAsked b).dm = b.dm := rfl
theorem ejectAsked_mgmt (b : Bridge) : (ejectAsked b).mgmt = b.mgmt := rfl

theorem enterEjecting_again (h : b.cart.ejectBegun = true) : enterEjecting b = ejectAsked (ejectStarted b) := by
  unfold enterEjecting
  dsimp only
  rw [h]
  rfl

theorem beginEject_eq (b : Bridge) : beginEject b = workLost isActive isDirty b := by
  have same := (answerAll_keepsWork b isActive .mediaGone).dirtyCount
  unfold beginEject
  dsimp only
  rw [same]
  rfl

theorem enterEjecting_first (h : b.cart.ejectBegun = false) :
    enterEjecting b = ejectAsked (workLost isActive isDirty (ejectStarted b)) := by
  unfold enterEjecting
  dsimp only
  rw [← beginEject_eq, if_neg (by simp [h])]
  rfl

theorem enterEjecting_asks (b : Bridge) : ∃ d, enterEjecting b = ejectAsked d := by
  cases h : b.cart.ejectBegun with
  | true => exact ⟨_, enterEjecting_again h⟩
  | false => exact ⟨_, enterEjecting_first h⟩

/-- What the first eject answers. -/
theorem enterEjecting_entry (h : b.cart.ejectBegun = false) {k : Key} {e : Entry} (he : b.entry k = some e) :
    (isActive e = true → IsAnswered (enterEjecting b) k .mediaGone 0 .none)
      ∧ (isActive e = false → (enterEjecting b).entry k = some e) := by
  rw [enterEjecting_first h]
  have held : (ejectStarted b).entry k = some e := he
  refine ⟨fun active => ?_, fun idle => ?_⟩
  · have waits : e.state ≠ .answered := fun hs => by simp [isActive, hs] at active
    exact (workLost_isAnswered held active waits).congr (ejectAsked_table _) (ejectAsked_link _)
  · rw [ejectAsked_entry]
    exact workLost_entry held idle idle

theorem enterEjecting_buf (h : b.cart.ejectBegun = false) (i : BufIdx) :
    (enterEjecting b).buf i = (discardWhere (answerAll (ejectStarted b) isActive .mediaGone) isDirty).buf i := by
  rw [enterEjecting_first h, ejectAsked_buf, workLost_buf]

theorem ejectAnswered_work (b : Bridge) (i : BufIdx) :
    WorkKept (b.buf i) ((answerAll (ejectStarted b) isActive .mediaGone).buf i) :=
  (answerAll_keepsWork (ejectStarted b) isActive .mediaGone).each i

theorem enterEjecting_buf_dirty (h : b.cart.ejectBegun = false) {i : BufIdx} (hd : isDirty (b.buf i) = true) :
    (enterEjecting b).buf i = Buffer.free := by
  rw [enterEjecting_buf h]
  exact discardWhere_freed isDirty_ignoresLinks ((ejectAnswered_work b i).dirty.trans hd)

theorem enterEjecting_buf_clean (h : b.cart.ejectBegun = false) {i : BufIdx} (hs : (b.buf i).state = .clean) :
    ((enterEjecting b).buf i).state = .clean ∧ ((enterEjecting b).buf i).lsn = (b.buf i).lsn
      ∧ ((enterEjecting b).buf i).data = (b.buf i).data := by
  have work := ejectAnswered_work b i
  have clean : isDirty (b.buf i) = false := by simp [isDirty, isUnsaved, hs]
  have unlinked := discardWhere_kept isDirty_ignoresLinks (work.dirty.trans clean)
  obtain ⟨state, lsn, data⟩ := work.unlinked unlinked (by simp [hs])
  rw [enterEjecting_buf h]
  exact ⟨state.trans hs, lsn, data⟩

theorem isActive_false_of {e : Entry} (h1 : e.state ≠ .reserving) (h2 : e.state ≠ .fetching) (h3 : e.state ≠ .awaitCommit) :
    isActive e = false := by
  simp [isActive, h1, h2, h3]

theorem isActive_of {e : Entry} (h : e.state = .reserving ∨ e.state = .fetching ∨ e.state = .awaitCommit) :
    isActive e = true := by
  rcases h with h | h | h <;> simp [isActive, h]

theorem enterEjecting_deferred (h : b.cart.ejectBegun = false) :
    (enterEjecting b).cart.deferred = deferredAfter b (dirtyCount b) := by
  rw [enterEjecting_first h, ejectAsked_cart, workLost_cart]
  rfl

theorem enterEjecting_exceptions (h : b.cart.ejectBegun = false) (room : b.mgmt.exceptions.length < 31) :
    (enterEjecting b).mgmt.exceptions = b.mgmt.exceptions ++ discardRecords b (dirtyCount b) ++ mapRecords b := by
  have held : (ejectStarted b).mgmt.exceptions.length < 31 := room
  rw [enterEjecting_first h, ejectAsked_mgmt, workLost_exceptions held]
  rfl

theorem enterEjecting_map (h : b.cart.ejectBegun = false) :
    (enterEjecting b).dm.map = b.dm.map.map HeldMap.unsaved := by
  rw [enterEjecting_first h, ejectAsked_dm, workLost_map]
  rfl

end Eject

/-- Settles O32: a quiesce or a waiting eject ends by the test at the head, and EJECTING takes the steps of
`workLost` once. -/
theorem ejectingIsEnteredWhenAnEjectMayGoOn : Obligations.EjectingIsEnteredWhenAnEjectMayGoOn := by
  refine ⟨fun b => ⟨fun hs q hq => ⟨fun order ends => headStep_ejects ((quiesceEnds_iff hs hq).2 ⟨order, ends⟩),
    fun h => headStep_quiescing hs fun ends => h ((quiesceEnds_iff hs hq).1 ends)⟩,
    fun hs hw => ⟨headStep_waiting (ejectWaits_of hs hw), fun order => ?_⟩, conditionsUnmet_eq_zero_iff⟩, fun b => ?_⟩
  · obtain ⟨o, ho⟩ := Option.ne_none_iff_exists'.1 order
    exact headStep_of_order ho
  · obtain ⟨d, asked⟩ := enterEjecting_asks b
    obtain ⟨state, begun, waiting, step⟩ := enterEjecting_cart b
    refine ⟨state, by rw [asked, ejectAsked_cart], waiting, step, begun,
      by rw [asked, ejectAsked_cart], by rw [asked, ejectAsked_life],
      fun h => ?_, fun h => ⟨fun k e he => ?_, fun i hd => enterEjecting_buf_dirty h ((isDirty_iff _).2 hd),
        fun i hs => enterEjecting_buf_clean h hs, enterEjecting_deferred h, enterEjecting_exceptions h, fun m hm => ?_⟩⟩
    · rw [enterEjecting_again h]
      exact ⟨rfl, rfl, rfl, rfl, rfl⟩
    · obtain ⟨answered, stays⟩ := enterEjecting_entry h he
      exact ⟨fun hs => answered (isActive_of hs), fun h1 h2 h3 => stays (isActive_false_of h1 h2 h3)⟩
    · rw [enterEjecting_map h, hm]
      rfl

end Sys2Proof.Machine
end


section
/-! PROOFS. PRESENCE_OFF (R98, R126, R141, R152, R153): the end of a settle, the completion of an eject, and a removal. -/

namespace Sys2Proof.Machine

/-! ### A bridge that holds no cartridge -/

/-- The record of no cartridge, with no map and no timeout counted. -/
structure Emptied (b : Bridge) : Prop where
  state    : b.cart.state = .empty
  layout   : b.cart.layout = none
  map      : b.dm.map = none
  spindle  : b.cart.spindle = .parked
  step     : b.cart.mountStep = none
  quiesce  : b.cart.quiesce = none
  waiting  : b.cart.ejectWaiting = none
  timeouts : b.arb.timeouts = 0

theorem becomeEmpty_emptied (b : Bridge) : Emptied (becomeEmpty b) := ⟨rfl, rfl, rfl, rfl, rfl, rfl, rfl, rfl⟩

theorem Emptied.closes {b t : Bridge} (h : Emptied b) (c : Closes b t) : Emptied t := by
  obtain ⟨state, layout, map, spindle, step, quiesce, waiting, timeouts⟩ := h
  rw [← c.cart] at state layout spindle step quiesce waiting
  exact ⟨state, layout, by rw [c.dm]; exact map, spindle, step, quiesce, waiting, by rw [c.arb]; exact timeouts⟩

theorem becomeEmpty_pool (b : Bridge) : (becomeEmpty b).pool = b.pool := rfl
theorem becomeEmpty_table (b : Bridge) : (becomeEmpty b).table = b.table := rfl
theorem becomeEmpty_link (b : Bridge) : (becomeEmpty b).link = b.link := rfl
theorem becomeEmpty_router (b : Bridge) : (becomeEmpty b).router = b.router := rfl
theorem becomeEmpty_mgmt (b : Bridge) : (becomeEmpty b).mgmt = b.mgmt := rfl
theorem becomeEmpty_deferred (b : Bridge) : (becomeEmpty b).cart.deferred = b.cart.deferred := rfl
theorem becomeEmpty_arb (b : Bridge) : (becomeEmpty b).arb = { b.arb with life := none, streak := 0, timeouts := 0 } := rfl

/-- In EMPTY no eject is under way: the state stays. -/
theorem Steady.life_of_empty {b t : Bridge} (h : Steady b t) (hs : b.cart.state = .empty) :
    t.cart.state = b.cart.state ∧ t.cart.ejectWaiting = b.cart.ejectWaiting ∧ t.cart.quiesce = b.cart.quiesce
      ∧ t.cart.mountStep = b.cart.mountStep ∧ t.cart.ejectBegun = b.cart.ejectBegun := by
  rcases h.life with same | ⟨-, ejects⟩
  · exact same
  · simp [ejectWaits, hs] at ejects

theorem Emptied.steady {b t : Bridge} (h : Emptied b) (s : Steady b t) : Emptied t := by
  obtain ⟨state, waiting, quiesce, step, -⟩ := s.life_of_empty h.state
  obtain ⟨layout, spindle, -⟩ := s.cart
  refine ⟨state.trans h.state, layout.trans h.layout, ?_, spindle.trans h.spindle, step.trans h.step,
    quiesce.trans h.quiesce, waiting.trans h.waiting, s.timeouts.trans h.timeouts⟩
  have held := s.mapHeld
  rw [h.map] at held
  exact Option.not_isSome_iff_eq_none.1 (by rw [held]; simp)

/-! ### No buffer is held any more (log entry 6) -/

/-- A buffer is not FREE. -/
def isHeld (x : Buffer) : Bool := x.state != .free

theorem isHeld_ignoresLinks : IgnoresLinks isHeld := ⟨fun _ _ => rfl, rfl⟩

/-- Every buffer is FREE. -/
def AllFree (b : Bridge) : Prop := ∀ i, (b.buf i).state = .free

theorem discardWhere_allFree (b : Bridge) : AllFree (discardWhere b isHeld) := by
  intro i
  cases h : isHeld (b.buf i) with
  | true => rw [discardWhere_freed isHeld_ignoresLinks h]; rfl
  | false =>
    obtain ⟨q, unlinked⟩ := discardWhere_kept isHeld_ignoresLinks h
    rw [unlinked]
    exact bne_eq_false_iff_eq.1 h

theorem AllFree.of_pool {b t : Bridge} (h : AllFree b) (pool : t.pool = b.pool) : AllFree t := fun i => by
  rw [buf_congr (congrArg Pool.buffers pool)]
  exact h i

theorem AllFree.keepsWork {b t : Bridge} (h : AllFree b) (w : KeepsWork b t) : AllFree t := fun i => by
  rw [(w.each i).record (by rw [h i]; simp)]
  exact h i

/-- Where the pool agrees, FREE buffers hold the FREE values, and none of them waits for eviction. -/
theorem AllFree.pool {b : Bridge} (h : AllFree b) (ok : PoolOk b) : (∀ i, b.buf i = Buffer.free) ∧ b.pool.evict = [] := by
  obtain ⟨free, -, -, evict⟩ := ok
  refine ⟨fun i => free i (h i), List.eq_nil_iff_forall_not_mem.2 fun i hi => ?_⟩
  have clean := evict i hi
  rw [h i] at clean
  cases clean

/-! ### The completion of an eject (R152) -/

section Leaves
variable (b : Bridge)

/-- The order in flight is no more. -/
def orderDropped : Bridge := { b with arb := { b.arb with order := none } }

/-- Every buffer is discarded. -/
def poolDiscarded : Bridge := discardWhere (orderDropped b) isHeld

theorem poolDiscarded_closes : Closes (orderDropped b) (poolDiscarded b) := discardWhere_closes _ isHeld

/-- The bridge after an eject, before the event is raised. -/
def ejectGone : Bridge := answerEject (becomeEmpty (poolDiscarded b)) .ok

theorem ejectComplete_eq : ejectComplete (orderDropped b) = raiseEvent (ejectGone b) .cartridgeGone := rfl

theorem ejectGone_closes : Closes (becomeEmpty (poolDiscarded b)) (ejectGone b) := by
  unfold ejectGone answerEject
  exact answerAll_closes ..

theorem ejectGone_emptied : Emptied (ejectGone b) := (becomeEmpty_emptied _).closes (ejectGone_closes b)

theorem ejectGone_allFree : AllFree (ejectGone b) := by
  have discarded : AllFree (poolDiscarded b) := discardWhere_allFree (orderDropped b)
  have free := discarded.of_pool (becomeEmpty_pool _)
  unfold ejectGone answerEject
  exact free.keepsWork (answerAll_keepsWork ..)

theorem ejectGone_orderly : Orderly b (ejectGone b) := by
  have start : Orderly b (orderDropped b) := .of_eq rfl
  have discarded : Orderly (orderDropped b) (poolDiscarded b) := discardWhere_orderly _ isHeld
  unfold ejectGone answerEject
  exact ((start.trans discarded).trans (becomeEmpty_orderly _)).trans (answerAll_orderly ..)

theorem ejectGone_mgmt : (ejectGone b).mgmt = b.mgmt := by
  rw [(ejectGone_closes b).mgmt, becomeEmpty_mgmt, (poolDiscarded_closes b).mgmt]
  rfl

theorem ejectGone_router : (ejectGone b).router = b.router := by
  rw [(ejectGone_closes b).router, becomeEmpty_router, (poolDiscarded_closes b).router]
  rfl

theorem ejectGone_deferred : (ejectGone b).cart.deferred = b.cart.deferred := by
  rw [(ejectGone_closes b).cart, becomeEmpty_deferred, (poolDiscarded_closes b).cart]
  rfl

theorem ejectGone_arb : (ejectGone b).arb = { b.arb with order := none, life := none, streak := 0, timeouts := 0 } := by
  rw [(ejectGone_closes b).arb, becomeEmpty_arb, (poolDiscarded_closes b).arb]
  rfl

theorem ejectGone_isAnswered {k : Key} {e : Entry} (he : b.entry k = some e) (op : e.op = .eject)
    (waits : e.state = .awaitEject) : IsAnswered (ejectGone b) k .ok 0 .none := by
  have held : (orderDropped b).entry k = some e := he
  have idle : isActive e = false := by simp [isActive, waits]
  have kept : (poolDiscarded b).entry k = some e := (discardWhere_moves _ isHeld).steady.idle_entry held idle
  have still := (entry_of_table (becomeEmpty_table (poolDiscarded b)) k).trans kept
  unfold ejectGone answerEject
  exact answerAll_isAnswered .ok still (by simp [isEjectWait, op, waits]) (by simp [waits])

/-! ### A removal (R153) -/

/-- The entry waits for the cartridge: a READ, WRITE or FLUSH that waits, the EJECT or the RECOVER. -/
def awaitsCartridge (e : Entry) : Bool := isActive e || isEjectWait e || isRecoverWait e

/-- No order is in flight and none is asked for. -/
def ordersDropped : Bridge := { b with arb := { b.arb with order := none, life := none } }

/-- The bridge after a removal, before the event is raised. -/
def cartridgeRemoved : Bridge := becomeEmpty (workLost awaitsCartridge isHeld (ordersDropped b))

theorem removeCartridge_eq : removeCartridge b = raiseEvent (cartridgeRemoved b) .cartridgeGone := by
  have same := (answerAll_keepsWork (ordersDropped b) awaitsCartridge .mediaGone).dirtyCount
  unfold cartridgeRemoved workLost
  rw [← same]
  rfl

theorem cartridgeRemoved_allFree : AllFree (cartridgeRemoved b) := by
  have free := (discardWhere_allFree (answerAll (ordersDropped b) awaitsCartridge .mediaGone)).of_pool
    (lossReported_pool _ (dirtyCount (ordersDropped b)))
  exact free.of_pool (becomeEmpty_pool _)

theorem cartridgeRemoved_orderly : Orderly b (cartridgeRemoved b) := by
  have start : Orderly b (ordersDropped b) := .of_eq rfl
  have answers := answerAll_orderly (ordersDropped b) awaitsCartridge .mediaGone
  have report := lossReported_pool (discardWhere (answerAll (ordersDropped b) awaitsCartridge .mediaGone) isHeld)
    (dirtyCount (ordersDropped b))
  exact (((start.trans answers).trans (discardWhere_orderly _ _)).trans (.of_eq report)).trans (becomeEmpty_orderly _)

theorem cartridgeRemoved_deferred : (cartridgeRemoved b).cart.deferred = deferredAfter b (dirtyCount b) := by
  unfold cartridgeRemoved
  rw [becomeEmpty_deferred, workLost_cart]
  rfl

theorem cartridgeRemoved_exceptions (room : b.mgmt.exceptions.length < 31) : (cartridgeRemoved b).mgmt.exceptions
    = b.mgmt.exceptions ++ discardRecords b (dirtyCount b) ++ mapRecords b := by
  have room' : (ordersDropped b).mgmt.exceptions.length < 31 := room
  unfold cartridgeRemoved
  rw [becomeEmpty_mgmt, workLost_exceptions room']
  rfl

theorem cartridgeRemoved_isAnswered {k : Key} {e : Entry} (he : b.entry k = some e) (waits : awaitsCartridge e = true)
    (hs : e.state ≠ .answered) : IsAnswered (cartridgeRemoved b) k .mediaGone 0 .none := by
  have held : (ordersDropped b).entry k = some e := he
  exact (workLost_isAnswered held waits hs).congr (becomeEmpty_table _) (becomeEmpty_link _)

/-! ### PRESENCE_OFF -/

/-- The cartridge of `b` is gone in `c`, but for the event that tells of it: no buffer is held, no order is in flight or
asked for, and the settings and the router stay. -/
structure CartridgeGone (c : Bridge) : Prop where
  emptied  : Emptied c
  allFree  : AllFree c
  orderly  : Orderly b c
  settings : c.mgmt.settings = b.mgmt.settings
  router   : c.router = b.router
  order    : c.arb.order = none
  life     : c.arb.life = none
  streak   : c.arb.streak = 0

theorem ejectGone_gone : CartridgeGone b (ejectGone b) := by
  have arb := ejectGone_arb b
  exact ⟨ejectGone_emptied b, ejectGone_allFree b, ejectGone_orderly b, by rw [ejectGone_mgmt], ejectGone_router b,
    by rw [arb], by rw [arb], by rw [arb]⟩

theorem cartridgeRemoved_gone : CartridgeGone b (cartridgeRemoved b) := by
  refine ⟨becomeEmpty_emptied _, cartridgeRemoved_allFree b, cartridgeRemoved_orderly b, ?_, ?_, ?_, ?_, ?_⟩
  all_goals unfold cartridgeRemoved
  · rw [becomeEmpty_mgmt, workLost_settings]
    rfl
  · rw [becomeEmpty_router, workLost_router]
    rfl
  · rw [becomeEmpty_arb, workLost_order]
    rfl
  · rw [becomeEmpty_arb]
  · rw [becomeEmpty_arb]

/-- The bridge before CARTRIDGE_GONE is raised, in EJECTING and in the states of a removal. -/
def presenceGone : Bridge := if b.cart.state = .ejecting then ejectGone b else cartridgeRemoved b

theorem presenceGone_gone : CartridgeGone b (presenceGone b) := by
  unfold presenceGone
  split
  · exact ejectGone_gone b
  · exact cartridgeRemoved_gone b

end Leaves

section PresenceOff
variable {b : Bridge}

theorem presenceLeaves_empty (h : b.cart.state = .empty) : presenceLeaves b = b := by
  unfold presenceLeaves
  rw [h]

theorem presenceLeaves_settling (h : b.cart.state = .settling) : presenceLeaves b = becomeEmpty b := by
  unfold presenceLeaves
  rw [h]
  rfl

theorem presenceLeaves_gone (h : b.cart.state ≠ .empty) (h' : b.cart.state ≠ .settling) :
    presenceLeaves b = raiseEvent (presenceGone b) .cartridgeGone := by
  by_cases ejecting : b.cart.state = .ejecting
  · unfold presenceLeaves presenceGone
    rw [if_pos ejecting, ejecting]
    exact ejectComplete_eq b
  · have removal : presenceLeaves b = removeCartridge b := by
      unfold presenceLeaves
      split
      · rename_i hs; exact absurd hs h
      · rename_i hs; exact absurd hs h'
      · rename_i hs; exact absurd hs ejecting
      all_goals rfl
    rw [removal, removeCartridge_eq, presenceGone, if_neg ejecting]

theorem exec_presenceOff (s : State) : exec .presenceOff s = .next (s.withBridge (finish (presenceLeaves s.bridge))) :=
  become_next (f := fun b => finish (presenceLeaves b)) rfl

/-- After PRESENCE_OFF the bridge holds no cartridge. -/
theorem presenceLeaves_emptied (h : b.cart.state ≠ .empty) : Emptied (presenceLeaves b) := by
  by_cases settling : b.cart.state = .settling
  · rw [presenceLeaves_settling settling]
    exact becomeEmpty_emptied b
  · rw [presenceLeaves_gone h settling]
    exact (presenceGone_gone b).emptied.steady (raiseEvent_moves _ _).steady

theorem presenceLeaves_state : (presenceLeaves b).cart.state = .empty := by
  by_cases h : b.cart.state = .empty
  · rw [presenceLeaves_empty h, h]
  · exact (presenceLeaves_emptied h).state

theorem presenceLeaves_rest :
    (presenceLeaves b).mgmt.settings = b.mgmt.settings ∧ (presenceLeaves b).router = b.router := by
  by_cases h : b.cart.state = .empty
  · rw [presenceLeaves_empty h]
    exact ⟨rfl, rfl⟩
  · by_cases settling : b.cart.state = .settling
    · rw [presenceLeaves_settling settling]
      exact ⟨rfl, rfl⟩
    · have gone := presenceGone_gone b
      have raised := (raiseEvent_moves (presenceGone b) .cartridgeGone).steady
      rw [presenceLeaves_gone h settling]
      exact ⟨(congrArg Management.settings raised.mgmt).trans gone.settings, raised.router.trans gone.router⟩

theorem awaitsCartridge_of {e : Entry} (h : e.state = .reserving ∨ e.state = .fetching ∨ e.state = .awaitCommit
      ∨ (e.op = .eject ∧ e.state = .awaitEject) ∨ (e.op = .recover ∧ e.state = .awaitMech)) :
    awaitsCartridge e = true ∧ e.state ≠ .answered := by
  rcases h with h | h | h | ⟨op, h⟩ | ⟨op, h⟩ <;> simp [awaitsCartridge, isActive, isEjectWait, isRecoverWait, *]

/-- What is answered stays so where CARTRIDGE_GONE is raised and the step ends. -/
theorem IsAnswered.raised {c : Bridge} {k : Key} {st : Status} {done : Nat} {p : Payload} (h : IsAnswered c k st done p)
    (ev : AttnEvent) : IsAnswered (Machine.finish (raiseEvent c ev)) k st done p :=
  (h.steady (raiseEvent_moves c ev).steady).finish

end PresenceOff

/-- Settles O35: by the state of the cartridge, with the bridge that the event and the end of the step follow. -/
theorem presenceOffTakesTheCartridgeAway : Obligations.PresenceOffTakesTheCartridgeAway := by
  intro s
  have steady := (finish_course (presenceLeaves s.bridge)).steady
  obtain ⟨settings, router⟩ := presenceLeaves_rest (b := s.bridge)
  refine ⟨_, exec_presenceOff s, ?_⟩
  rw [withBridge_pending, withBridge_bridge]
  refine ⟨rfl, (steady.life_of_empty presenceLeaves_state).1.trans presenceLeaves_state,
    (congrArg Management.settings steady.mgmt).trans settings, steady.router.trans router,
    fun h => congrArg finish (presenceLeaves_empty h), fun h => ?_, fun h => ?_, fun h h' => ?_⟩
  · obtain ⟨-, layout, map, spindle, step, quiesce, waiting, timeouts⟩ := (presenceLeaves_emptied h).steady steady
    exact ⟨layout, map, spindle, step, quiesce, waiting, timeouts⟩
  · exact ⟨becomeEmpty s.bridge, congrArg finish (presenceLeaves_settling h), rfl, rfl, rfl, rfl⟩
  · have gone := presenceGone_gone s.bridge
    refine ⟨presenceGone s.bridge, congrArg finish (presenceLeaves_gone h h'), gone.allFree,
      fun ok => gone.allFree.pool (gone.orderly.keeps ok), gone.order, gone.life, gone.streak, gone.emptied.state,
      fun ejecting => ?_, fun removal => ?_⟩
    · rw [presenceLeaves_gone h h', presenceGone, if_pos ejecting]
      refine ⟨ejectGone_mgmt _, ejectGone_deferred _, fun k e he op waits => ?_⟩
      have answered := ejectGone_isAnswered s.bridge he op waits
      exact ⟨answered, answered.raised _⟩
    · rw [presenceLeaves_gone h h', presenceGone, if_neg removal]
      refine ⟨cartridgeRemoved_deferred _, cartridgeRemoved_exceptions _, fun k e he why => ?_⟩
      obtain ⟨waits, unanswered⟩ := awaitsCartridge_of why
      have answered := cartridgeRemoved_isAnswered s.bridge he waits unanswered
      exact ⟨answered, answered.raised _⟩

end Sys2Proof.Machine
end

section
/-! PROOFS. Every step keeps the counters and the STRANDED buffers within their bounds, and the buffer records in agreement
with the eviction order: each meaning of `exec` is made of operations that are `Orderly` (Laws/Pool.lean). -/

namespace Sys2Proof.Machine

/-- Settles O58: the bounds of the counters and of the STRANDED buffers are two of the laws that every step keeps. -/
theorem everyStepKeepsTheCountsBounded : Obligations.EveryStepKeepsTheCountsBounded :=
  fun _ _ h ⟨counts, stranded⟩ => ⟨(step_lawful h).counts counts, (step_lawful h).stranded stranded⟩

/-! ### The last operations of a step -/

theorem Orderly.thenFinish {b t : Bridge} (h : Orderly b t) : Orderly b (finish t) := h.trans (finish_orderly t)

theorem Orderly.thenPump {b t : Bridge} (h : Orderly b t) : Orderly b (pump t) := h.trans (pump_orderly t)

/-- An event that acts only where its condition holds. -/
theorem Orderly.onlyIf {b t : Bridge} {p : Prop} [Decidable p] (h : Orderly b t) : Orderly b (if p then t else b) := by
  split
  · exact h
  · exact .refl b

/-- A command keeps the pool in order where the effect that its meaning gives it does. -/
theorem become_orderly {s t : State} {f : Bridge → Bridge} (hf : ∀ b, Orderly b (f b)) (h : s.become f = .next t) :
    Orderly s.bridge t.bridge := by
  cases h
  exact hf s.bridge

/-! ### Requests -/

theorem countMalformed_orderly (b : Bridge) : Orderly b (countMalformed b) := by
  unfold countMalformed
  split
  · exact .refl b
  · exact .of_eq rfl

theorem execWrite_orderly {hd : Header} {data : List Block} {s t : State} (h : execWrite hd data s = .next t) :
    Orderly s.bridge t.bridge := by
  refine become_orderly (fun b => ?_) h
  split
  · exact (takeRequest_orderly b hd .write (routeBlocks_orderly hd .write data (admitWriteRequest_orderly hd data))).thenFinish
  · exact countMalformed_orderly b

/-- A management request that changes nothing but its own entry: it is answered with a report. -/
theorem manageReport_orderly (h : Header) (op : Op) (items : List Item) (report : Bridge → List Item) (b : Bridge) :
    Orderly b (pump (manage h op items (fun b => answerItems b h.key (report b)) b)) :=
  (manage_orderly h op items (fun b => answer_orderly b h.key .ok 0 (.items (report b))) b).thenPump

/-! ### The links -/

/-- A change of what the two ports hold. -/
theorem ports_orderly (b : Bridge) (l : LinkPort) (p : ThroughPort) : Orderly b { b with link := l, thru := p } :=
  .of_eq rfl

theorem execBadCheckFrame_orderly (frame : List Byte) {s t : State} (h : execBadCheckFrame frame s = .next t) :
    Orderly s.bridge t.bridge := by
  refine become_orderly (fun b => ?_) h
  split
  · exact .refl b
  · exact .of_eq rfl

theorem execDownstreamFrame_orderly {frame : List Byte} {s t : State} (h : execDownstreamFrame frame s = .next t) :
    Orderly s.bridge t.bridge := by
  refine become_orderly (fun b => ?_) h
  have received : Orderly b { b with thru := { b.thru with partialRx := [] } } := .of_eq rfl
  exact (received.trans (takeDownstream_orderly _ frame)).thenPump

theorem execDownstreamLinkDown_orderly {s t : State} (h : execDownstreamLinkDown s = .next t) :
    Orderly s.bridge t.bridge := by
  refine become_orderly (fun b => ?_) h
  have down : Orderly b { b with thru := { b.thru with line := .down, partialRx := [], tx := none } } := .of_eq rfl
  have answered := down.trans (answerAll_orderly _ isForwarded .passTimeout)
  dsimp only
  generalize answerAll _ isForwarded .passTimeout = c at answered ⊢
  have emptied : Orderly c { c with thru := { c.thru with fifo := [] } } := .of_eq rfl
  exact (answered.trans emptied).thenPump

/-- The pool of power-on is in order whatever was before, and a presence that is on starts a settle. -/
theorem execPowerOnReset_orderly {presence : Option Bool} {line : LineState} {s t : State}
    (h : execPowerOnReset presence line s = .next t) : Orderly s.bridge t.bridge := by
  refine become_orderly (fun b => ?_) h
  have values : Orderly b Bridge.powerOn := ⟨fun _ => poolOk_powerOn, fun _ _ => loadingOk_powerOn⟩
  have lines : Orderly b
      { Bridge.powerOn with thru := { Bridge.powerOn.thru with line, powerHold := powerHoldEnd line } } :=
    values.trans (.of_eq rfl)
  unfold powerOnBridge
  cases presence with
  | none => exact lines
  | some tab => exact lines.trans (presenceArrives_orderly _ tab)

/-! ### The mechanism and the timers -/

theorem execCompletion_orderly {number : BitVec 8} {kind : OrderKind} {result : CompletionResult} {s t : State}
    (h : execCompletion number kind result s = .next t) : Orderly s.bridge t.bridge := by
  refine become_orderly (fun b => ?_) h
  unfold takeCompletion
  split
  · exact .refl b
  · rename_i o _
    split
    · exact .refl b
    · split
      · exact (completionTaken_orderly b o result).thenFinish
      · exact (takeFault_orderly b).thenFinish

theorem execOrderTimeout_orderly {s t : State} (h : execOrderTimeout s = .next t) : Orderly s.bridge t.bridge := by
  refine become_orderly (fun b => ?_) h
  split
  · exact .refl b
  · rename_i o _
    exact .onlyIf ((timeOutOrder_orderly b o).trans (timeoutFollows_orderly _ o)).thenFinish

theorem execEjectButton_orderly {s t : State} (h : execEjectButton s = .next t) : Orderly s.bridge t.bridge := by
  refine become_orderly (fun b => ?_) h
  split
  · rename_i b' hb
    exact (requestEject_orderly hb).thenFinish
  · exact .refl b

theorem execQuiesceExpiry_orderly {s t : State} (h : execQuiesceExpiry s = .next t) : Orderly s.bridge t.bridge := by
  refine become_orderly (fun b => ?_) h
  split
  · exact .refl b
  · exact .onlyIf (quiesceExpires_orderly b _).thenFinish

/-! ### Every command and every step -/

theorem exec_orderly {c : Instr} {s t : State} (h : exec c s = .next t) : Orderly s.bridge t.bridge := by
  cases c with
  | powerOnReset presence line => exact execPowerOnReset_orderly h
  | linkReset => exact become_orderly (fun b => (linkReset_orderly b).thenFinish) h
  | linkResetEnd => exact become_orderly (fun b => (ports_orderly b { b.link with resetHeld := false }
      { b.thru with linkHold := false }).thenPump) h
  | badCheckFrame frame => exact execBadCheckFrame_orderly frame h
  | malformedFrame frame => exact become_orderly countMalformed_orderly h
  | unknownOperation hd code =>
    exact become_orderly (fun b => (takeRequest_orderly b hd (.other code) .refl).thenPump) h
  | read hd =>
    exact become_orderly (fun b => (takeRequest_orderly b hd .read
      (routeBlocks_orderly hd .read [] (admitRead_orderly hd))).thenFinish) h
  | write hd data => exact execWrite_orderly h
  | flush hd =>
    exact become_orderly (fun b => (takeRequest_orderly b hd .flush
      (routeLocal_orderly hd .flush (flushLocal_orderly hd))).thenFinish) h
  | sense hd =>
    exact become_orderly (fun b => (takeRequest_orderly b hd .sense
      (routeLocal_orderly hd .sense (senseLocal_orderly hd))).thenPump) h
  | abort hd => exact become_orderly (fun b => (takeRequest_orderly b hd .abort (routeAbort_orderly hd)).thenFinish) h
  | identify hd items => exact become_orderly (manageReport_orderly hd .identify items identityItems) h
  | readSettings hd items =>
    exact become_orderly (manageReport_orderly hd .readSettings items fun b => readSettingItems b items) h
  | setSettings hd items =>
    exact become_orderly (fun b => (manage_orderly hd .setSettings items (setSettings_orderly hd items) b).thenFinish) h
  | readWindow hd items =>
    exact become_orderly (fun b => (manage_orderly hd .readWindow items (readWindow_orderly hd items) b).thenPump) h
  | writeWindow hd items =>
    exact become_orderly (fun b => (manage_orderly hd .writeWindow items (writeWindow_orderly hd items) b).thenPump) h
  | readClass hd items =>
    exact become_orderly (fun b => (manage_orderly hd .readClass items (readClass_orderly hd items) b).thenPump) h
  | writeClass hd items =>
    exact become_orderly (fun b => (manage_orderly hd .writeClass items (writeClass_orderly hd items) b).thenPump) h
  | lockRequest hd items =>
    exact become_orderly (fun b => (manage_orderly hd .lockRequest items (lockRequest_orderly hd) b).thenPump) h
  | lockRelease hd items =>
    exact become_orderly (fun b => (manage_orderly hd .lockRelease items (lockRelease_orderly hd) b).thenPump) h
  | lockCancel hd items =>
    exact become_orderly (fun b => (manage_orderly hd .lockCancel items (lockCancel_orderly hd) b).thenPump) h
  | lockStatus hd items => exact become_orderly (manageReport_orderly hd .lockStatus items lockStatusItems) h
  | readCartridge hd items => exact become_orderly (manageReport_orderly hd .readCartridge items cartridgeItems) h
  | readZones hd items => exact become_orderly (manageReport_orderly hd .readZones items zoneItems) h
  | readDefects hd items =>
    exact become_orderly (fun b => (manage_orderly hd .readDefects items (readDefects_orderly hd items) b).thenPump) h
  | readExceptions hd items =>
    exact become_orderly (fun b => (manage_orderly hd .readExceptions items (readExceptions_orderly hd) b).thenPump) h
  | readPool hd items => exact become_orderly (manageReport_orderly hd .readPool items (poolItems hd.key)) h
  | readLinkCounts hd items => exact become_orderly (manageReport_orderly hd .readLinkCounts items linkItems) h
  | eject hd items =>
    exact become_orderly (fun b => (manage_orderly hd .eject items (eject_orderly hd items) b).thenFinish) h
  | recover hd items =>
    exact become_orderly (fun b => (manage_orderly hd .recover items (recover_orderly hd) b).thenFinish) h
  | discardStranded hd items =>
    exact become_orderly
      (fun b => (manage_orderly hd .discardStranded items (discardStranded_orderly hd) b).thenFinish) h
  | transmissionEnd => exact become_orderly (fun b => (endTransmission_orderly b).thenPump) h
  | forwardTransmissionEnd => exact become_orderly (fun b => (endForward_orderly b).thenPump) h
  | downstreamFrame frame => exact execDownstreamFrame_orderly h
  | downstreamLinkDown => exact execDownstreamLinkDown_orderly h
  | downstreamLinkUp => exact become_orderly (fun b => (ports_orderly b b.link { b.thru with line := .up }).thenPump) h
  | deadlineExpiry key =>
    exact become_orderly (fun b => .onlyIf (answerStatus_orderly b key .deadlineMissed).thenFinish) h
  | passThroughTimeout key =>
    exact become_orderly (fun b => .onlyIf (answerStatus_orderly b key .passTimeout).thenPump) h
  | orderTimeout => exact execOrderTimeout_orderly h
  | agingExpiry i => exact become_orderly (fun b => .onlyIf (testLater_orderly b i).thenFinish) h
  | mapWriteDelayExpiry => exact become_orderly (fun b => .onlyIf (tryMapWrite_orderly b).thenFinish) h
  | settleExpiry => exact become_orderly (fun b => .onlyIf (endSettle_orderly b).thenFinish) h
  | quiesceExpiry => exact execQuiesceExpiry_orderly h
  | spinDownTimerExpiry => exact become_orderly (fun b => .onlyIf (askLife_orderly b .spinDown).thenFinish) h
  | completion number kind result => exact execCompletion_orderly h
  | presenceOn tab => exact become_orderly (presenceArrives_orderly · tab) h
  | presenceOff => exact become_orderly (fun b => (presenceLeaves_orderly b).thenFinish) h
  | ejectButton => exact execEjectButton_orderly h
  | fault => exact become_orderly (fun b => (takeFault_orderly b).thenFinish) h
  | spareRequestTaken i => exact become_orderly (fun b => (takeSpareRequest_orderly b i).thenFinish) h
  | downstreamResetRelease => exact become_orderly (fun b =>
      .onlyIf (ports_orderly b b.link { b.thru with powerHold := none }).thenPump) h

/-- Every step keeps the pool in order: a command by its meaning, and a millisecond because the pool does not hold the
clock. -/
theorem step_orderly {s t : State} (h : step s = .next t) : Orderly s.bridge t.bridge := by
  unfold step at h
  split at h
  · cases h
    exact .of_eq rfl
  · rename_i c rest _
    exact exec_orderly (s := { s with pending := rest }) h

/-- Settles O60: the agreement of the pool, and with it the sets of the LOADING buffers, are what `Orderly` keeps. -/
theorem everyStepKeepsThePoolInOrder : Obligations.EveryStepKeepsThePoolInOrder :=
  ⟨fun _ _ h => (step_orderly h).keeps, fun _ _ h => (step_orderly h).loading⟩

end Sys2Proof.Machine
end

section
/-! PROOFS. What the withdrawal of loads and the answers of READs make of a buffer record, said once for every buffer. -/

namespace Sys2Proof.Machine

/-! ### One visit of every buffer -/

/-- An operation that makes `g` of the buffer it is done for, and of the others takes a successor link at most. -/
structure Visits (f : Bridge → BufIdx → Bridge) (g : Buffer → Buffer) : Prop where
  here  : ∀ b i, (f b i).buf i = g (b.buf i)
  other : ∀ b {i j}, j ≠ i → Unlinked (b.buf j) ((f b i).buf j)
  link  : ∀ x q, g (x.keepLink q) = (g x).keepLink q

theorem Visits.unlinked {f : Bridge → BufIdx → Bridge} {g : Buffer → Buffer} (v : Visits f g) {x y : Buffer}
    (h : Unlinked x y) : Unlinked (g x) (g y) := by
  obtain ⟨q, rfl⟩ := h
  exact ⟨q, v.link x q⟩

theorem Visits.foldl_not_mem {f : Bridge → BufIdx → Bridge} {g : Buffer → Buffer} (v : Visits f g) {i : BufIdx} :
    ∀ (l : List BufIdx) (b : Bridge), i ∉ l → Unlinked (b.buf i) ((l.foldl f b).buf i)
  | [], _, _ => .refl _
  | j :: l, b, h => by
    obtain ⟨ne, rest⟩ := List.ne_and_not_mem_of_not_mem_cons h
    exact (v.other b ne).trans (v.foldl_not_mem l _ rest)

theorem Visits.foldl_mem {f : Bridge → BufIdx → Bridge} {g : Buffer → Buffer} (v : Visits f g) {i : BufIdx} :
    ∀ (l : List BufIdx) (b : Bridge), l.Nodup → i ∈ l → Unlinked (g (b.buf i)) ((l.foldl f b).buf i)
  | [], _, _, h => absurd h List.not_mem_nil
  | j :: l, b, nd, h => by
    obtain ⟨new, nd⟩ := List.nodup_cons.1 nd
    rw [List.foldl_cons]
    by_cases here : i = j
    · subst here
      rw [← v.here]
      exact v.foldl_not_mem l _ new
    · exact (v.unlinked (v.other b here)).trans (v.foldl_mem l _ nd ((List.mem_cons.1 h).resolve_left here))

/-- Every buffer is visited once. -/
theorem Visits.forBufs {f : Bridge → BufIdx → Bridge} {g : Buffer → Buffer} (v : Visits f g) (b : Bridge) (i : BufIdx) :
    Unlinked (g (b.buf i)) ((b.forBufs f).buf i) :=
  v.foldl_mem allBufs b (List.nodup_finRange 32) (mem_allBufs i)

/-! ### Loads that are withdrawn (R70, R100) -/

/-- The record of a buffer whose load is withdrawn (R70). -/
def Buffer.withdrawn (x : Buffer) : Buffer :=
  if x.state = .loading then (if x.dirty = 0 then Buffer.free else { x with state := .opened, load := none })
  else { x with load := none }

/-- The record of a buffer whose load is withdrawn where it is PENDING and nothing needs it (R100). -/
def Buffer.swept (x : Buffer) : Buffer :=
  match x.load with
  | none => x
  | some l => if l.stage = .pending ∧ l.readers = [] ∧ l.fillNeed = false then x.withdrawn else x

theorem Buffer.withdrawn_keepLink (x : Buffer) (q : BufIdx → Bool) : (x.keepLink q).withdrawn = x.withdrawn.keepLink q := by
  unfold Buffer.withdrawn Buffer.keepLink
  dsimp only
  split
  · split <;> rfl
  · rfl

theorem Buffer.swept_keepLink (x : Buffer) (q : BufIdx → Bool) : (x.keepLink q).swept = x.swept.keepLink q := by
  unfold Buffer.swept
  rw [show (x.keepLink q).load = x.load from rfl]
  split
  · rfl
  · split
    · exact x.withdrawn_keepLink q
    · rfl

theorem Buffer.swept_idle {x : Buffer} (h : x.load = none) : x.swept = x := by
  unfold Buffer.swept
  rw [h]

theorem Buffer.swept_needed {x : Buffer} {l : Load} (h : x.load = some l)
    (need : l.readers ≠ [] ∨ l.fillNeed = true ∨ l.stage ≠ .pending) : x.swept = x := by
  unfold Buffer.swept
  rw [h]
  dsimp only
  refine if_neg fun ⟨stage, readers, fill⟩ => ?_
  rcases need with h | h | h
  · exact h readers
  · rw [fill] at h; cases h
  · exact h stage

theorem Buffer.swept_unneeded {x : Buffer} {l : Load} (h : x.load = some l) (stage : l.stage = .pending)
    (readers : l.readers = []) (fill : l.fillNeed = false) : x.swept = x.withdrawn := by
  unfold Buffer.swept
  rw [h]
  dsimp only
  exact if_pos ⟨stage, readers, fill⟩

theorem Buffer.withdrawn_alone {x : Buffer} (h : x.state = .loading ∧ x.dirty = 0) : x.withdrawn = Buffer.free := by
  rw [Buffer.withdrawn, if_pos h.1, if_pos h.2]

theorem Buffer.withdrawn_kept {x : Buffer} (h : ¬ (x.state = .loading ∧ x.dirty = 0)) :
    x.withdrawn = { x with state := if x.state = .loading then .opened else x.state, load := none } := by
  unfold Buffer.withdrawn
  split
  · rename_i loading
    rw [if_neg fun dirty => h ⟨loading, dirty⟩]
  · rfl

theorem withdrawLoad_buf_self (b : Bridge) (i : BufIdx) : (withdrawLoad b i).buf i = (b.buf i).withdrawn := by
  unfold withdrawLoad Buffer.withdrawn
  dsimp only
  split
  · split
    · exact freeBuf_self b i
    · exact buf_putBuf_self b i _
  · exact buf_putBuf_self b i _

theorem withdrawLoad_buf_other (b : Bridge) {i j : BufIdx} (h : j ≠ i) :
    Unlinked (b.buf j) ((withdrawLoad b i).buf j) := by
  have put : ∀ x, Unlinked (b.buf j) ((b.putBuf i x).buf j) := fun x => by
    rw [buf_putBuf_ne b x h]
    exact .refl _
  unfold withdrawLoad
  dsimp only
  split
  · split
    · rw [freeBuf_buf, if_neg h]
      exact ⟨_, rfl⟩
    · exact put _
  · exact put _

theorem withdrawUnneeded_visits : Visits withdrawUnneeded Buffer.swept := by
  refine ⟨fun b i => ?_, fun b i j ne => ?_, Buffer.swept_keepLink⟩
  · unfold withdrawUnneeded
    split
    · rename_i idle
      exact (Buffer.swept_idle idle).symm
    · rename_i l load
      unfold Buffer.swept
      rw [load]
      dsimp only
      split
      · exact withdrawLoad_buf_self b i
      · rfl
  · unfold withdrawUnneeded
    split
    · exact .refl _
    · split
      · exact withdrawLoad_buf_other b ne
      · exact .refl _

/-- What a sweep makes of a buffer, but for a successor link to a buffer that it frees. -/
theorem sweepLoads_buf (b : Bridge) (i : BufIdx) : Unlinked (b.buf i).swept ((sweepLoads b).buf i) :=
  withdrawUnneeded_visits.forBufs b i

/-! ### A reader that leaves (R70) -/

/-- The record of a buffer whose load loses a reader. -/
def Buffer.leftBy (k : Key) (x : Buffer) : Buffer :=
  { x with load := x.load.map fun l => { l with readers := l.readers.filter (· != k) } }

theorem dropReaderAt_visits (k : Key) : Visits (dropReaderAt k) (Buffer.leftBy k) := by
  refine ⟨fun b i => ?_, fun b i j ne => ?_, fun _ _ => rfl⟩
  · unfold dropReaderAt Buffer.leftBy
    split
    · rename_i idle
      rw [idle, Option.map_none, ← idle]
    · rename_i l load
      rw [buf_putBuf_self, load]
      rfl
  · unfold dropReaderAt
    split
    · exact .refl _
    · rw [buf_putBuf_ne _ _ ne]
      exact .refl _

theorem dropReader_buf (b : Bridge) (k : Key) (i : BufIdx) :
    Unlinked ((b.buf i).leftBy k).swept ((dropReader b k).buf i) :=
  (withdrawUnneeded_visits.unlinked ((dropReaderAt_visits k).forBufs b i)).trans (sweepLoads_buf _ i)

/-! ### What answers leave of a buffer -/

/-- The load is over, or goes on in its stage for the same sector. -/
def LoadStays (x y : Buffer) : Prop :=
  y.load = none ∨ (y.lsn = x.lsn ∧ y.load.map Load.stage = x.load.map Load.stage)

theorem LoadStays.trans {x y z : Buffer} (h : LoadStays x y) (h' : LoadStays y z) : LoadStays x z := by
  rcases h' with gone | ⟨lsn', stage'⟩
  · exact .inl gone
  · rcases h with gone | ⟨lsn, stage⟩
    · rw [gone] at stage'
      exact .inl (Option.map_eq_none_iff.1 stage')
    · exact .inr ⟨lsn'.trans lsn, stage'.trans stage⟩

/-- What the answers of READs leave of a buffer record: one without a load can lose its successor link alone, one that is not
LOADING nothing but that link and its load, and a load goes on in its stage or is over. -/
structure Relieved (x y : Buffer) : Prop where
  idle   : x.load = none → Unlinked x y
  record : x.state ≠ .loading → y = { x with load := y.load, successor := y.successor }
  stays  : LoadStays x y

theorem Unlinked.record {x y : Buffer} (h : Unlinked x y) : y = { x with load := y.load, successor := y.successor } := by
  obtain ⟨q, rfl⟩ := h
  rfl

theorem Unlinked.link {x y : Buffer} (h : Unlinked x y) : y = { x with successor := y.successor } := by
  obtain ⟨q, rfl⟩ := h
  rfl

theorem Unlinked.load {x y : Buffer} (h : Unlinked x y) : y.load = x.load := by
  obtain ⟨q, rfl⟩ := h
  rfl

theorem Unlinked.loadStays {x y : Buffer} (h : Unlinked x y) : LoadStays x y := by
  obtain ⟨q, rfl⟩ := h
  exact .inr ⟨rfl, rfl⟩

theorem Unlinked.relieved {x y : Buffer} (h : Unlinked x y) : Relieved x y :=
  ⟨fun _ => h, fun _ => h.record, h.loadStays⟩

theorem Relieved.refl (x : Buffer) : Relieved x x := (Unlinked.refl x).relieved

theorem Relieved.trans {x y z : Buffer} (h : Relieved x y) (h' : Relieved y z) : Relieved x z := by
  refine ⟨fun idle => ?_, fun hs => ?_, h.stays.trans h'.stays⟩
  · have first := h.idle idle
    exact first.trans (h'.idle (first.load.trans idle))
  · have first := h.record hs
    have state : y.state ≠ .loading := by rw [first]; exact hs
    rw [h'.record state, first]

/-- A FREE buffer stays FREE. -/
theorem Relieved.of_free {y : Buffer} (h : Relieved Buffer.free y) : y = Buffer.free := (h.idle rfl).of_free

theorem Buffer.withdrawn_load (x : Buffer) : x.withdrawn.load = none := by
  unfold Buffer.withdrawn
  split
  · split <;> rfl
  · rfl

theorem Buffer.withdrawn_relieved (x : Buffer) (h : x.load ≠ none) : Relieved x x.withdrawn :=
  ⟨fun idle => absurd idle h, fun hs => by rw [Buffer.withdrawn, if_neg hs], .inl x.withdrawn_load⟩

theorem Buffer.swept_relieved (x : Buffer) : Relieved x x.swept := by
  unfold Buffer.swept
  split
  · exact .refl x
  · rename_i l load
    split
    · exact x.withdrawn_relieved (by rw [load]; exact Option.some_ne_none l)
    · exact .refl x

theorem Buffer.leftBy_relieved (k : Key) (x : Buffer) : Relieved x (x.leftBy k) := by
  refine ⟨fun idle => ?_, fun _ => rfl, .inr ⟨rfl, ?_⟩⟩
  · have same : x.leftBy k = x := by
      unfold Buffer.leftBy
      rw [idle, Option.map_none, ← idle]
    rw [same]
    exact .refl x
  · unfold Buffer.leftBy
    rw [Option.map_map]
    rfl

/-- Every buffer is relieved at most. -/
structure Relieves (b t : Bridge) : Prop where
  each : ∀ i, Relieved (b.buf i) (t.buf i)

theorem Relieves.refl (b : Bridge) : Relieves b b := ⟨fun _ => .refl _⟩

theorem Relieves.trans {a b c : Bridge} (h : Relieves a b) (h' : Relieves b c) : Relieves a c :=
  ⟨fun i => (h.each i).trans (h'.each i)⟩

theorem Relieves.forKeys {f : Bridge → Key → Bridge} (h : ∀ b k, Relieves b (f b k)) (b : Bridge) :
    Relieves b (b.forKeys f) := foldl_rel .refl .trans h allKeys b

theorem Relieves.of_buffers {b t : Bridge} (h : t.pool.buffers = b.pool.buffers) : Relieves b t := by
  refine ⟨fun i => ?_⟩
  rw [buf_congr h]
  exact .refl _

theorem dropReader_relieves (b : Bridge) (k : Key) : Relieves b (dropReader b k) :=
  ⟨fun i => (((b.buf i).leftBy_relieved k).trans ((b.buf i).leftBy k).swept_relieved).trans (dropReader_buf b k i).relieved⟩

theorem letGo_relieves (b : Bridge) (k : Key) (e : Entry) : Relieves b (letGo b k e) := by
  have joined : Relieves b (e.pinned.foldl joinEvict b) := .of_buffers (foldl_joinEvict_buffers _ b)
  unfold letGo
  split
  · exact joined.trans (dropReader_relieves _ k)
  · exact joined

theorem answer_relieves (b : Bridge) (k : Key) (st : Status) (done : Nat) (p : Payload) :
    Relieves b (answer b k st done p) := by
  unfold answer
  split
  · exact .refl b
  · rename_i e he
    by_cases hs : e.state = .answered
    · rw [answerFrame_not _ _ _ fun e' h' => by rw [he] at h'; cases h'; exact hs]
      exact .refl b
    · rw [answerFrame_given _ _ _ he hs]
      have closed : Relieves b (closedBase b k e (.reply k e.unit st done p) st done) := .of_buffers rfl
      exact closed.trans (letGo_relieves _ k e)

theorem answerMediaError_relieves (b : Bridge) (k : Key) : Relieves b (answerMediaError b k) := by
  unfold answerMediaError
  split
  · exact .refl b
  · exact answer_relieves ..

/-- The test of a READ leaves the bridge as it is, or answers the READ, which is in FETCHING. -/
theorem testRead_cases (b : Bridge) (k : Key) : testRead b k = b
    ∨ ∃ e st done p, b.entry k = some e ∧ e.state = .fetching ∧ testRead b k = answer b k st done p := by
  unfold testRead
  split
  · exact .inl rfl
  · rename_i e he
    split
    · rename_i hs
      dsimp only
      split
      · rw [answerMediaError_eq he]
        exact .inr ⟨e, _, _, _, he, hs, rfl⟩
      · split
        · exact .inr ⟨e, _, _, _, he, hs, rfl⟩
        · exact .inl rfl
    · exact .inl rfl

theorem testRead_rel {R : Bridge → Bridge → Prop} (refl : ∀ b, R b b)
    (answers : ∀ b k e st done p, b.entry k = some e → e.state = .fetching → R b (answer b k st done p))
    (b : Bridge) (k : Key) : R b (testRead b k) := by
  rcases testRead_cases b k with same | ⟨e, st, done, p, he, hs, ends⟩
  · rw [same]
    exact refl b
  · rw [ends]
    exact answers b k e st done p he hs

theorem testReads_relieves (b : Bridge) : Relieves b (testReads b) :=
  .forKeys (testRead_rel .refl fun b k _ st done p _ _ => answer_relieves b k st done p) b

theorem testReads_closes (b : Bridge) : Closes b (testReads b) := by
  unfold testReads Bridge.forKeys
  exact .foldl (testRead_rel .refl fun b k _ st done p _ _ => answer_closes b k st done p) allKeys b

theorem failReaders_relieves (b : Bridge) (i : BufIdx) : Relieves b (failReaders b i) := by
  refine .forKeys (fun b k => ?_) b
  split
  · exact answerMediaError_relieves b k
  · exact .refl b

theorem failReaders_closes (b : Bridge) (i : BufIdx) : Closes b (failReaders b i) := by
  unfold failReaders Bridge.forKeys
  refine .foldl (fun b k => ?_) allKeys b
  split
  · exact answerMediaError_closes b k
  · exact .refl b

end Sys2Proof.Machine
end

section
/-! PROOFS. The merge of a WRITE into a buffer, and the ends of a load: good, failed or unrecovered. -/

namespace Sys2Proof.Machine

/-! ### Sets of quarters -/

theorem hasQuarter_or (a c : QSet) (q : Fin 4) : hasQuarter (a ||| c) q = (hasQuarter a q || hasQuarter c q) :=
  BitVec.getLsbD_or

theorem hasQuarter_and (a c : QSet) (q : Fin 4) : hasQuarter (a &&& c) q = (hasQuarter a q && hasQuarter c q) :=
  BitVec.getLsbD_and

theorem hasQuarter_not (a : QSet) (q : Fin 4) : hasQuarter (~~~ a) q = !hasQuarter a q := by
  simp [hasQuarter, q.isLt]

/-- A quarter that the blocks of a request do not take in. -/
theorem hasQuarter_neededQuarters_not {cb n lsn : Nat} {q : Fin 4}
    (h : ¬ (cb ≤ 4 * lsn + q.val ∧ 4 * lsn + q.val < cb + n)) : hasQuarter (neededQuarters cb n lsn) q = false := by
  rw [← Bool.not_eq_true, hasQuarter_neededQuarters]
  exact h

/-! ### The merge of one sector (R70, R75) -/

section Merge
variable (now : Clock) (cb lsn : Nat) (data : List Block) (q : QSet) (x : Buffer)

/-- A merge writes data, sets and last write time, whatever state follows. -/
theorem mergedBuffer_record : mergedBuffer now cb lsn data q x = { x with
    data := writeQuarters cb lsn data q x.data, valid := x.valid ||| q, dirty := x.dirty ||| q
    lost := x.lost &&& ~~~ q, lastWrite := some now
    state := (mergedBuffer now cb lsn data q x).state, load := (mergedBuffer now cb lsn data q x).load } := by
  unfold mergedBuffer
  dsimp only
  repeat' split
  all_goals rfl

/-- A LOADING buffer is covered by a merge: it is all valid then, and its load has not been ordered (R70). -/
def Covered (v : QSet) (x : Buffer) : Prop := v = allQuarters ∧ ∀ l, x.load = some l → l.stage = .pending

theorem covered_iff {v : QSet} {x : Buffer} :
    Covered v x ↔ v = allQuarters ∧ x.load.all (fun l => l.stage == .pending) = true := by
  unfold Covered
  cases x.load <;> simp

theorem mergedBuffer_clean (h : x.state = .clean) : (mergedBuffer now cb lsn data q x).state = .opened := by
  simp [mergedBuffer, h]

theorem mergedBuffer_other (hc : x.state ≠ .clean) (hl : x.state ≠ .loading) :
    (mergedBuffer now cb lsn data q x).state = x.state := by
  unfold mergedBuffer
  split
  · rename_i h; exact absurd h hc
  · rename_i h; exact absurd h hl
  all_goals rfl

theorem mergedBuffer_covered (h : x.state = .loading) (c : Covered (x.valid ||| q) x) :
    (mergedBuffer now cb lsn data q x).state = .opened ∧ (mergedBuffer now cb lsn data q x).load = none := by
  unfold mergedBuffer
  rw [h]
  dsimp only
  rw [if_pos (covered_iff.1 c)]
  exact ⟨rfl, rfl⟩

theorem mergedBuffer_uncovered (h : x.state = .loading) (c : ¬ Covered (x.valid ||| q) x) :
    (mergedBuffer now cb lsn data q x).state = .loading ∧ (mergedBuffer now cb lsn data q x).load = x.load := by
  unfold mergedBuffer
  rw [h]
  dsimp only
  rw [if_neg fun hc => c (covered_iff.2 hc)]
  exact ⟨rfl, rfl⟩

end Merge

section MergeSector
variable {cb n lsn : Nat} {data : List Block} {b : Bridge} {i : BufIdx}

/-- The record that the merge of one sector puts (R75). -/
def sectorMerged (cb n : Nat) (data : List Block) (b : Bridge) (lsn : Nat) (i : BufIdx) : Buffer :=
  mergedBuffer b.clock cb lsn data (neededQuarters cb n lsn) (b.buf i)

theorem mergeSector_buf (hi : currentBuf b lsn = some i) (j : BufIdx) :
    (mergeSector cb n data b lsn).buf j = if j = i then sectorMerged cb n data b lsn i else b.buf j := by
  unfold mergeSector
  rw [hi]
  dsimp only
  split <;> exact buf_putBuf b i j _

theorem mergeSector_evict (hi : currentBuf b lsn = some i) :
    (mergeSector cb n data b lsn).pool.evict = b.pool.evict.filter (· != i) := by
  unfold mergeSector
  rw [hi]
  dsimp only
  split <;> rfl

/-- A quarter that the request takes in holds its block, is valid and dirty, and is not lost. -/
theorem sectorMerged_written {q : Fin 4} (h : cb ≤ 4 * lsn + q.val ∧ 4 * lsn + q.val < cb + n) :
    (sectorMerged cb n data b lsn i).data[q] = data.getD (4 * lsn + q.val - cb) 0
      ∧ hasQuarter (sectorMerged cb n data b lsn i).valid q = true
      ∧ hasQuarter (sectorMerged cb n data b lsn i).dirty q = true
      ∧ hasQuarter (sectorMerged cb n data b lsn i).lost q = false := by
  have needed := (hasQuarter_neededQuarters cb n lsn q).2 h
  unfold sectorMerged
  rw [mergedBuffer_record]
  refine ⟨?_, ?_, ?_, ?_⟩
  · simp only [writeQuarters, Fin.getElem_fin, Vector.getElem_ofFn, Fin.eta, needed, if_true]
  · rw [hasQuarter_or, needed, Bool.or_true]
  · rw [hasQuarter_or, needed, Bool.or_true]
  · rw [hasQuarter_and, hasQuarter_not, needed, Bool.not_true, Bool.and_false]

/-- Every other quarter is as it was. -/
theorem sectorMerged_kept {q : Fin 4} (h : ¬ (cb ≤ 4 * lsn + q.val ∧ 4 * lsn + q.val < cb + n)) :
    (sectorMerged cb n data b lsn i).data[q] = (b.buf i).data[q]
      ∧ hasQuarter (sectorMerged cb n data b lsn i).valid q = hasQuarter (b.buf i).valid q
      ∧ hasQuarter (sectorMerged cb n data b lsn i).dirty q = hasQuarter (b.buf i).dirty q
      ∧ hasQuarter (sectorMerged cb n data b lsn i).lost q = hasQuarter (b.buf i).lost q := by
  have apart := hasQuarter_neededQuarters_not h
  unfold sectorMerged
  rw [mergedBuffer_record]
  refine ⟨?_, ?_, ?_, ?_⟩
  · simp only [writeQuarters, Fin.getElem_fin, Vector.getElem_ofFn, Fin.eta, apart, Bool.false_eq_true, if_false]
  · rw [hasQuarter_or, apart, Bool.or_false]
  · rw [hasQuarter_or, apart, Bool.or_false]
  · rw [hasQuarter_and, hasQuarter_not, apart, Bool.not_false, Bool.and_true]

theorem sectorMerged_valid : (sectorMerged cb n data b lsn i).valid = (b.buf i).valid ||| neededQuarters cb n lsn := by
  unfold sectorMerged
  rw [mergedBuffer_record]

theorem sectorMerged_lastWrite : (sectorMerged cb n data b lsn i).lastWrite = some b.clock := by
  unfold sectorMerged
  rw [mergedBuffer_record]

theorem sectorMerged_lsn : (sectorMerged cb n data b lsn i).lsn = (b.buf i).lsn := by
  unfold sectorMerged
  rw [mergedBuffer_record]

end MergeSector

/-- Settles O21: the merge puts one record, and `mergedBuffer` is what it holds. -/
theorem mergeWritesItsQuartersOnly : Obligations.MergeWritesItsQuartersOnly := by
  unfold Obligations.MergeWritesItsQuartersOnly
  intro b cb n lsn data i hi
  have here : (mergeSector cb n data b lsn).buf i = sectorMerged cb n data b lsn i := by
    rw [mergeSector_buf hi, if_pos rfl]
  simp only [here]
  refine ⟨fun q h => sectorMerged_written h, fun q h => sectorMerged_kept h, sectorMerged_lastWrite, sectorMerged_lsn,
    mergedBuffer_clean _ _ _ _ _ _, mergedBuffer_other _ _ _ _ _ _, fun loading covered => ?_, fun loading uncovered => ?_, ?_,
    fun j ne => ?_⟩
  · exact mergedBuffer_covered _ _ _ _ _ _ loading (sectorMerged_valid ▸ covered)
  · exact mergedBuffer_uncovered _ _ _ _ _ _ loading fun c => uncovered (sectorMerged_valid ▸ c)
  · rw [mergeSector_evict hi]
    exact fun mem => by simpa using (List.mem_filter.1 mem).2
  · rw [mergeSector_buf hi, if_neg ne]

/-! ### A load that ends good (R71, R95) -/

section Good
variable (b : Bridge) (i : BufIdx) (q : Quad) (r : Bool)

/-- The record with the quarters read, its load at an end. -/
def Buffer.filled (x : Buffer) (q : Quad) : Buffer :=
  { x with data := fillQuarters x q, valid := x.valid ||| ~~~ (x.valid ||| x.lost), load := none }

/-- The record after a good load: marked for relocation, or in the state that its sets give. -/
def Buffer.loaded (now : Clock) (x : Buffer) (q : Quad) (r : Bool) : Buffer :=
  if r = true ∧ (x.state = .loading ∨ x.state = .opened) then
    { x.filled q with state := .opened, dirty := allQuarters, relocate := true, lastWrite := some now }
  else { x.filled q with
    state := if x.state = .loading then (if x.dirty = 0 then .clean else .opened) else x.state }

theorem joinEvict_buf (b : Bridge) (i j : BufIdx) : (joinEvict b i).buf j = b.buf j := by
  unfold joinEvict
  split <;> rfl

/-- A good load puts its record, and the READs are tested. -/
theorem loadGood_puts : ∃ c, loadGood b i q r = testReads c ∧ c.buf i = (b.buf i).loaded b.clock q r
    ∧ PoolOnly (b.putBuf i ((b.buf i).loaded b.clock q r)) c := by
  have relocates : (r && ((b.buf i).state == .loading || (b.buf i).state == .opened)) = true
      ↔ r = true ∧ ((b.buf i).state = .loading ∨ (b.buf i).state = .opened) := by simp
  unfold loadGood Buffer.loaded
  simp only [relocates]
  split
  · exact ⟨_, rfl, buf_putBuf_self .., rfl, fun _ h => h⟩
  · split
    · split
      · refine ⟨_, rfl, ?_, joinEvict_poolOnly _ i⟩
        rw [joinEvict_buf]
        exact buf_putBuf_self ..
      · exact ⟨_, rfl, buf_putBuf_self .., rfl, fun _ h => h⟩
    · exact ⟨_, rfl, buf_putBuf_self .., .refl _⟩

theorem Buffer.loaded_load (now : Clock) (x : Buffer) : (x.loaded now q r).load = none := by
  unfold Buffer.loaded
  split <;> rfl

/-- What a good load makes of its buffer, but for a successor link. -/
theorem loadGood_buf : Unlinked ((b.buf i).loaded b.clock q r) ((loadGood b i q r).buf i) := by
  obtain ⟨c, ends, put, -⟩ := loadGood_puts b i q r
  rw [ends, ← put]
  exact ((testReads_relieves c).each i).idle (by rw [put, Buffer.loaded_load])

theorem loadGood_cart : (loadGood b i q r).cart = b.cart := by
  obtain ⟨c, ends, -, pool⟩ := loadGood_puts b i q r
  rw [ends, (testReads_closes c).cart, pool.1]
  rfl

theorem loadGood_mgmt : (loadGood b i q r).mgmt = b.mgmt := by
  obtain ⟨c, ends, -, pool⟩ := loadGood_puts b i q r
  rw [ends, (testReads_closes c).mgmt, pool.1]
  rfl

end Good

section GoodOutcome
variable {b : Bridge} {i : BufIdx} {lsn : Nat} {l : Load}

/-- The bridge with the soft read error that a retry counts (R95). -/
def softCounted (b : Bridge) (l : Load) : Bridge :=
  { b with cart := { b.cart with soft := if 1 ≤ l.retries then min (b.cart.soft + 1) 65535 else b.cart.soft } }

/-- The load relocates its sector (R95). -/
def relocates (b : Bridge) (l : Load) : Bool := decide (b.mgmt.settings.relocThreshold ≤ l.retries) && isWritable b

theorem relocates_iff : relocates b l = true
    ↔ b.mgmt.settings.relocThreshold ≤ l.retries ∧ b.cart.writeState = some .writable := by
  simp [relocates, isWritable]

theorem loadEnded_good (psa : Nat) (read : Quad) (load : (b.buf i).load = some l) (sector : (b.buf i).lsn = some lsn)
    (flight : l.stage = .inFlight) : loadEnded b i lsn psa (.good (some (.user read)))
      = loadGood (softCounted b l) i read (relocates b l) := by
  have counted : (if 1 ≤ l.retries then { b with cart := { b.cart with soft := satInc 65535 b.cart.soft } } else b)
      = softCounted b l := by
    unfold softCounted satInc
    split <;> rfl
  unfold loadEnded
  rw [load]
  dsimp only
  rw [if_pos ⟨sector, flight⟩]
  unfold loadCame
  rw [counted]
  rfl

end GoodOutcome

theorem hasQuarter_filled (v lost : QSet) (q : Fin 4) :
    hasQuarter (v ||| ~~~ (v ||| lost)) q = (!hasQuarter lost q || hasQuarter v q) := by
  rw [hasQuarter_or, hasQuarter_not, hasQuarter_or]
  cases hasQuarter v q <;> cases hasQuarter lost q <;> rfl

/-- What a record keeps of the one that the end of its load put: all but the successor link. -/
theorem Buffer.loaded_rest (now : Clock) (x : Buffer) (q : Quad) (r : Bool) :
    (x.loaded now q r).data = fillQuarters x q ∧ (x.loaded now q r).valid = x.valid ||| ~~~ (x.valid ||| x.lost)
      ∧ (x.loaded now q r).lost = x.lost ∧ (x.loaded now q r).lsn = x.lsn ∧ (x.loaded now q r).flush = x.flush := by
  unfold Buffer.loaded
  split <;> exact ⟨rfl, rfl, rfl, rfl, rfl⟩

/-- Settles O44: the GOOD outcome puts the record `Buffer.loaded`, and no answer changes it. -/
theorem goodLoadFillsTheSector : Obligations.GoodLoadFillsTheSector := by
  unfold Obligations.GoodLoadFillsTheSector
  intro b i lsn psa l read load sector flight
  have ends := loadEnded_good psa read load sector flight
  have put := loadGood_buf (softCounted b l) i read (relocates b l)
  rw [← ends] at put
  have cart : (loadEnded b i lsn psa (.good (some (.user read)))).cart = (softCounted b l).cart := by
    rw [ends, loadGood_cart]
  have mgmt : (loadEnded b i lsn psa (.good (some (.user read)))).mgmt = b.mgmt := by
    rw [ends, loadGood_mgmt]
    rfl
  obtain ⟨keep, here⟩ := put
  change _ = ((b.buf i).loaded b.clock read (relocates b l)).keepLink keep at here
  obtain ⟨data, valid, lost, lsn', flush⟩ := (b.buf i).loaded_rest b.clock read (relocates b l)
  dsimp only
  rw [here, cart, mgmt]
  refine ⟨fun q => ?_, fun q => ?_, lost, Buffer.loaded_load .., lsn', flush, fun reloc => ?_, fun stays => ?_, rfl, rfl, rfl⟩
  · change ((b.buf i).loaded b.clock read (relocates b l)).data[q] = _
    simp only [data, fillQuarters, hasQuarter_or, Fin.getElem_fin, Vector.getElem_ofFn, Fin.eta]
  · change (decide (hasQuarter ((b.buf i).loaded b.clock read (relocates b l)).valid q = !hasQuarter (b.buf i).lost q)
      || hasQuarter (b.buf i).valid q) = true
    rw [valid, hasQuarter_filled]
    cases hasQuarter (b.buf i).valid q <;> simp
  · have marked : (b.buf i).loaded b.clock read (relocates b l) = { (b.buf i).filled read with
        state := .opened, dirty := allQuarters, relocate := true, lastWrite := some b.clock } :=
      if_pos ⟨relocates_iff.2 ⟨reloc.1, reloc.2.1⟩, reloc.2.2⟩
    rw [marked]
    exact ⟨rfl, rfl, rfl, rfl⟩
  · have unmarked : (b.buf i).loaded b.clock read (relocates b l) = { (b.buf i).filled read with
        state := if (b.buf i).state = .loading then (if (b.buf i).dirty = 0 then .clean else .opened)
          else (b.buf i).state } :=
      if_neg fun h => stays ⟨(relocates_iff.1 h.1).1, (relocates_iff.1 h.1).2, h.2⟩
    rw [unmarked]
    exact ⟨rfl, rfl, rfl, fun loading => if_pos loading, fun other => if_neg other⟩

end Sys2Proof.Machine
end

section
/-! PROOFS. A load that fails: it is retried, withdrawn, or ends unrecovered with its records. -/

namespace Sys2Proof.Machine

/-! ### The least of a list -/

theorem foldl_least_mem {α : Type} (before : α → α → Bool) : ∀ (l : List α) (a : α),
    l.foldl (fun best x => if before x best then x else best) a ∈ a :: l
  | [], a => List.mem_cons_self
  | x :: l, a => by
    rw [List.foldl_cons]
    have rest := foldl_least_mem before l (if before x a then x else a)
    rcases List.mem_cons.1 rest with h | h
    · rw [h]
      split
      · exact List.mem_cons_of_mem _ List.mem_cons_self
      · exact List.mem_cons_self
    · exact List.mem_cons_of_mem _ (List.mem_cons_of_mem _ h)

theorem leastBy_mem {α : Type} {before : α → α → Bool} : ∀ {l : List α} {a : α}, leastBy before l = some a → a ∈ l
  | [], _, h => by cases h
  | x :: l, _, h => by
    cases h
    exact foldl_least_mem before l x

theorem leastBy_isSome {α : Type} (before : α → α → Bool) {l : List α} (h : l ≠ []) : ∃ a, leastBy before l = some a := by
  obtain ⟨x, l, rfl⟩ := List.exists_cons_of_ne_nil h
  exact ⟨_, rfl⟩

theorem foldl_least_le {α : Type} (f : α → Nat) : ∀ (l : List α) (a : α) {y : α}, y ∈ a :: l →
    f (l.foldl (fun best x => if decide (f x < f best) = true then x else best) a) ≤ f y
  | [], a, y, h => by rw [List.mem_singleton.1 h]; exact Nat.le_refl _
  | x :: l, a, y, h => by
    rw [List.foldl_cons]
    have step := fun z (hz : z ∈ (if decide (f x < f a) = true then x else a) :: l) => foldl_least_le f l _ hz
    have first := step _ List.mem_cons_self
    have lower : f (if decide (f x < f a) = true then x else a) ≤ f x ∧ f (if decide (f x < f a) = true then x else a) ≤ f a := by
      simp only [decide_eq_true_eq]
      split <;> omega
    rcases List.mem_cons.1 h with rfl | h
    · exact first.trans lower.2
    · rcases List.mem_cons.1 h with rfl | h
      · exact first.trans lower.1
      · exact step y (List.mem_cons_of_mem _ h)

/-- The least by a number is at most any other. -/
theorem leastBy_le {α : Type} {f : α → Nat} : ∀ {l : List α} {a : α},
    leastBy (fun x y => decide (f x < f y)) l = some a → ∀ y ∈ l, f a ≤ f y
  | [], _, h => by cases h
  | x :: l, _, h => by
    cases h
    exact fun _ hy => foldl_least_le f l x hy

theorem firstReader_none {b : Bridge} {l : Load} (h : l.readers = []) : firstReader b l = none := by
  unfold firstReader
  rw [h]
  rfl

/-- The first reader is the one with the least admission number. -/
theorem firstReader_some {b : Bridge} {l : Load} (h : l.readers ≠ []) : ∃ k ∈ l.readers, firstReader b l = some k
    ∧ ∀ e k' e', b.entry k = some e → k' ∈ l.readers → b.entry k' = some e' → e.seq ≤ e'.seq := by
  obtain ⟨k, first⟩ := leastBy_isSome
    (fun j k => decide (((b.entry j).map Entry.seq).getD 0 < ((b.entry k).map Entry.seq).getD 0)) h
  refine ⟨k, leastBy_mem first, first, fun e k' e' he hk he' => ?_⟩
  have le := leastBy_le (f := fun j => ((b.entry j).map Entry.seq).getD 0) first k' hk
  simpa [he, he'] using le

/-! ### A load that ends unrecovered (R72) -/

theorem record_buf (b : Bridge) (r : ExceptionRecord) (i : BufIdx) : (record b r).buf i = b.buf i :=
  buf_congr (by rw [record_pool]) i

section Lost
variable {b : Bridge} {i : BufIdx}

/-- The buffer is there for its load alone. -/
abbrev Buffer.alone (x : Buffer) : Prop := x.state = .loading ∧ x.dirty = 0

/-- The record that has lost the quarters it could not load. -/
def Buffer.filledWithLoss (x : Buffer) : Buffer :=
  { x with state := if x.state = .loading then .opened else x.state, lost := x.lost ||| ~~~ (x.valid ||| x.lost), load := none }

/-- The record of a loss (R72). -/
def lossRecord (b : Bridge) (i : BufIdx) : ExceptionRecord :=
  { kind := .fillLoss, time := b.clock, lsn := (b.buf i).lsn
    sectorCount := some (quarterCount (~~~ ((b.buf i).valid ||| (b.buf i).lost))) }

theorem loadLost_alone (h : (b.buf i).alone) :
    loadLost b i = freeBuf (failReaders (b.putBuf i { b.buf i with load := none }) i) i := if_pos h

theorem loadLost_loss (h : ¬ (b.buf i).alone) : ∃ c, loadLost b i = testReads (record c (lossRecord b i))
    ∧ (∀ j, c.buf j = (b.putBuf i (b.buf i).filledWithLoss).buf j) ∧ PoolOnly (b.putBuf i (b.buf i).filledWithLoss) c := by
  unfold loadLost
  dsimp only
  rw [if_neg h]
  refine ⟨_, rfl, ?_, ?_⟩
  · unfold Buffer.filledWithLoss
    split
    · exact fun _ => rfl
    · exact fun _ => rfl
  · unfold Buffer.filledWithLoss
    split
    · exact ⟨rfl, fun _ h => h⟩
    · exact .refl _

theorem loadLost_alone_closes (h : (b.buf i).alone) : Closes (b.putBuf i { b.buf i with load := none }) (loadLost b i) := by
  rw [loadLost_alone h]
  exact (failReaders_closes _ i).trans (freeBuf_poolOnly _ i).closes

theorem loadLost_cart (b : Bridge) (i : BufIdx) : (loadLost b i).cart = b.cart := by
  by_cases h : (b.buf i).alone
  · exact (loadLost_alone_closes h).cart
  · obtain ⟨c, ends, -, pool⟩ := loadLost_loss h
    rw [ends, (testReads_closes _).cart, record_cart, pool.1]
    rfl

theorem loadLost_buf_alone (h : (b.buf i).alone) : (loadLost b i).buf i = Buffer.free := by
  rw [loadLost_alone h]
  exact freeBuf_self _ i

theorem loadLost_buf_loss (h : ¬ (b.buf i).alone) : Unlinked (b.buf i).filledWithLoss ((loadLost b i).buf i) := by
  obtain ⟨c, ends, put, -⟩ := loadLost_loss h
  have recorded : (record c (lossRecord b i)).buf i = (b.buf i).filledWithLoss := by
    rw [record_buf, put, buf_putBuf_self]
  rw [ends, ← recorded]
  exact ((testReads_relieves _).each i).idle (by rw [recorded]; rfl)

/-- The exceptions that the end of an unrecovered load records: a loss, where the buffer stays. -/
theorem loadLost_exceptions (room : b.mgmt.exceptions.length < 32) : (loadLost b i).mgmt.exceptions
    = b.mgmt.exceptions ++ if (b.buf i).state = .loading ∧ (b.buf i).dirty = 0 then [] else [lossRecord b i] := by
  by_cases h : (b.buf i).alone
  · rw [(loadLost_alone_closes h).mgmt, if_pos h, List.append_nil]
    rfl
  · obtain ⟨c, ends, -, pool⟩ := loadLost_loss h
    have same : c.mgmt = b.mgmt := by rw [pool.1]; rfl
    rw [ends, (testReads_closes _).mgmt, record_exceptions _ (by rw [same]; exact room), same, if_neg h]

end Lost

/-! ### The outcome of a sector that failed (R72, R94) -/

section Failed
variable {b : Bridge} {i : BufIdx} {lsn : Nat} {l : Load}

/-- The record of an unrecovered load (R94). -/
def unrecoveredRecord (b : Bridge) (l : Load) (lsn psa : Nat) : ExceptionRecord :=
  { kind := .readUnrecovered, time := b.clock, lsn := some lsn, psa := some psa, retries := some l.retries
    orig := (firstReader b l).map Key.orig, tag := (firstReader b l).map Key.tag }

theorem loadEnded_failed {o : SectorOutcome} (psa : Nat) (load : (b.buf i).load = some l) (sector : (b.buf i).lsn = some lsn)
    (flight : l.stage = .inFlight) (ho : o = .noId ∨ o = .dataError ∨ o = .writeFault) :
    loadEnded b i lsn psa o = loadFailed b i l lsn psa := by
  unfold loadEnded
  rw [load]
  dsimp only
  rw [if_pos ⟨sector, flight⟩]
  rcases ho with rfl | rfl | rfl <;> rfl

theorem loadEnded_dropped {psa : Nat} {o : SectorOutcome}
    (h : ∀ l, (b.buf i).load = some l → l.stage ≠ .inFlight ∨ (b.buf i).lsn ≠ some lsn) :
    loadEnded b i lsn psa o = b := by
  unfold loadEnded
  split
  · rfl
  · rename_i l load
    refine if_neg fun ⟨sector, flight⟩ => ?_
    rcases h l load with stage | other
    · exact stage flight
    · exact other sector

theorem loadFailed_retried (psa : Nat) (more : l.retries < b.mgmt.settings.retryLimit)
    (need : l.readers ≠ [] ∨ l.fillNeed = true) : loadFailed b i l lsn psa = b.putBuf i { b.buf i with
      load := some { l with stage := .pending, retries := l.retries + 1, orderedAt := none } } := by
  unfold loadFailed
  rw [if_pos more, if_neg]
  rintro ⟨readers, fill⟩
  rcases need with h | h
  · exact h readers
  · rw [fill] at h; cases h

theorem loadFailed_withdrawn (psa : Nat) (more : l.retries < b.mgmt.settings.retryLimit)
    (need : ¬ (l.readers ≠ [] ∨ l.fillNeed = true)) : loadFailed b i l lsn psa = withdrawLoad b i := by
  push Not at need
  unfold loadFailed
  rw [if_pos more, if_pos ⟨need.1, by simpa using need.2⟩]

/-- The bridge with an unrecovered load ended and its hard read error counted (R94). -/
def hardCounted (b : Bridge) (i : BufIdx) : Bridge :=
  { loadLost b i with cart := { b.cart with hard := min (b.cart.hard + 1) 65535 } }

theorem loadFailed_unrecovered (psa : Nat) (limit : b.mgmt.settings.retryLimit ≤ l.retries) :
    loadFailed b i l lsn psa = record (hardCounted b i) (unrecoveredRecord b l lsn psa) := by
  unfold loadFailed
  rw [if_neg (by omega)]
  dsimp only
  rw [loadLost_cart]
  rfl

theorem unrecovered_buf (psa : Nat) (limit : b.mgmt.settings.retryLimit ≤ l.retries) :
    (loadFailed b i l lsn psa).buf i = (loadLost b i).buf i := by
  rw [loadFailed_unrecovered psa limit, record_buf]
  rfl

theorem unrecovered_exceptions (psa : Nat) (limit : b.mgmt.settings.retryLimit ≤ l.retries)
    (room : b.mgmt.exceptions.length < 31) : (loadFailed b i l lsn psa).mgmt.exceptions
      = (loadLost b i).mgmt.exceptions ++ [unrecoveredRecord b l lsn psa] := by
  have more : (hardCounted b i).mgmt.exceptions.length < 32 := by
    change (loadLost b i).mgmt.exceptions.length < 32
    rw [loadLost_exceptions (by omega), List.length_append]
    split <;> simp <;> omega
  rw [loadFailed_unrecovered psa limit, record_exceptions _ more]
  rfl

end Failed

/-! ### A reader that leaves its loads (R70, R100) -/

theorem dropReader_load {b : Bridge} (k : Key) {i : BufIdx} {l : Load} (load : (b.buf i).load = some l)
    (need : l.readers.filter (· != k) ≠ [] ∨ l.fillNeed = true ∨ l.stage ≠ .pending) :
    ((dropReader b k).buf i).load = some { l with readers := l.readers.filter (· != k) } := by
  have left : ((b.buf i).leftBy k).load = some { l with readers := l.readers.filter (· != k) } := by
    unfold Buffer.leftBy
    rw [load]
    rfl
  rw [(dropReader_buf b k i).load, Buffer.swept_needed left need, left]

theorem dropReader_withdraws {b : Bridge} (k : Key) {i : BufIdx} {l : Load} (load : (b.buf i).load = some l)
    (readers : l.readers.filter (· != k) = []) (fill : l.fillNeed = false) (stage : l.stage = .pending) :
    Unlinked ((b.buf i).leftBy k).withdrawn ((dropReader b k).buf i) := by
  have left : ((b.buf i).leftBy k).load = some { l with readers := l.readers.filter (· != k) } := by
    unfold Buffer.leftBy
    rw [load]
    rfl
  have gone := dropReader_buf b k i
  rwa [Buffer.swept_unneeded left stage readers fill] at gone

/-- Settles O45: by the retry limit, and then by what needs the load and by what else the buffer holds. -/
theorem failedLoadsAreRetriedWithdrawnOrLost : Obligations.FailedLoadsAreRetriedWithdrawnOrLost := by
  unfold Obligations.FailedLoadsAreRetriedWithdrawnOrLost
  refine ⟨fun b i lsn psa o l load sector flight ho => ?_, fun b i lsn psa o => loadEnded_dropped,
    fun b k i l load => ⟨dropReader_load k load, fun readers fill stage => ?_⟩⟩
  · rw [loadEnded_failed psa load sector flight ho]
    refine ⟨loadFailed_retried psa, fun more need => ?_, fun limit => ⟨?_, fun alone => ?_, fun stays => ?_, fun room => ?_⟩⟩
    · rw [loadFailed_withdrawn psa more need, withdrawLoad_buf_self]
      exact ⟨Buffer.withdrawn_alone, Buffer.withdrawn_kept, by rw [(withdrawLoad_poolOnly b i).1],
        by rw [(withdrawLoad_poolOnly b i).1]⟩
    · rw [loadFailed_unrecovered psa limit, record_cart]
      rfl
    · rw [unrecovered_buf psa limit]
      exact loadLost_buf_alone alone
    · rw [unrecovered_buf psa limit]
      exact (loadLost_buf_loss stays).link
    · refine ⟨unrecoveredRecord b l lsn psa, ?_, rfl, fun none => ?_, fun some => ?_⟩
      · rw [unrecovered_exceptions psa limit room, loadLost_exceptions (by omega), lossRecord, sector]
      · simp [unrecoveredRecord, firstReader_none none]
      · obtain ⟨k, mem, first, least⟩ := firstReader_some (b := b) some
        exact ⟨k, mem, by simp [unrecoveredRecord, first], by simp [unrecoveredRecord, first], least⟩
  · have gone := dropReader_withdraws k load readers fill stage
    refine ⟨fun loading dirty => ?_, fun stays => ?_⟩
    · rw [Buffer.withdrawn_alone (x := (b.buf i).leftBy k) ⟨loading, dirty⟩] at gone
      exact gone.of_free
    · rw [Buffer.withdrawn_kept (x := (b.buf i).leftBy k) stays] at gone
      exact gone.link

end Sys2Proof.Machine
end

section
/-! PROOFS. The ends of a flush job: what notices, answers and a target taken make of entries and buffers, the commit, and the
permanent failure. -/

namespace Sys2Proof.Machine

/-! ### Entries and the answers of READs -/

/-- Of the entries only READs in FETCHING change, and they are ANSWERED then. -/
structure AnswersReads (b t : Bridge) : Prop where
  entry : ∀ k, t.entry k = b.entry k
    ∨ ∃ e e', b.entry k = some e ∧ e.state = .fetching ∧ t.entry k = some e' ∧ e'.state = .answered

theorem AnswersReads.refl (b : Bridge) : AnswersReads b b := ⟨fun _ => .inl rfl⟩

theorem AnswersReads.trans {a b c : Bridge} (h : AnswersReads a b) (h' : AnswersReads b c) : AnswersReads a c := by
  refine ⟨fun k => ?_⟩
  rcases h'.entry k with same | ⟨e, e', he, hs, now⟩
  · rw [same]
    exact h.entry k
  · rcases h.entry k with same | ⟨-, f, -, -, hf, answered⟩
    · exact .inr ⟨e, e', same ▸ he, hs, now⟩
    · rw [hf] at he
      cases he
      rw [hs] at answered
      cases answered

theorem AnswersReads.forKeys {f : Bridge → Key → Bridge} (h : ∀ b k, AnswersReads b (f b k)) (b : Bridge) :
    AnswersReads b (b.forKeys f) := foldl_rel .refl .trans h allKeys b

/-- An entry that is not in FETCHING stays. -/
theorem AnswersReads.waits {b t : Bridge} (h : AnswersReads b t) {k : Key} {e : Entry} (he : b.entry k = some e)
    (hs : e.state ≠ .fetching) : t.entry k = some e := by
  rcases h.entry k with same | ⟨e', -, he', fetching, -⟩
  · exact same.trans he
  · rw [he] at he'
    cases he'
    exact absurd fetching hs

theorem AnswersReads.read {b t : Bridge} (h : AnswersReads b t) {k : Key} {e : Entry} (he : b.entry k = some e) :
    ∃ e', t.entry k = some e' ∧ (e' = e ∨ e'.state = .answered) := by
  rcases h.entry k with same | ⟨-, e', -, -, now, answered⟩
  · exact ⟨e, same.trans he, .inl rfl⟩
  · exact ⟨e', now, .inr answered⟩

theorem answer_answersReads {b : Bridge} {k : Key} {e : Entry} (st : Status) (done : Nat) (p : Payload)
    (he : b.entry k = some e) (hs : e.state = .fetching) : AnswersReads b (answer b k st done p) := by
  refine ⟨fun j => ?_⟩
  by_cases here : j = k
  · subst here
    refine .inr ⟨e, e.close st done, he, hs, ?_, rfl⟩
    rw [answer_entry, if_pos rfl, he, Option.map_some, if_neg (by rw [hs]; decide)]
  · exact .inl (by rw [answer_entry, if_neg here])

theorem testReads_answersReads (b : Bridge) : AnswersReads b (testReads b) :=
  .forKeys (testRead_rel .refl fun _ _ _ st done p => answer_answersReads st done p) b

theorem failReaders_answersReads (b : Bridge) (i : BufIdx) : AnswersReads b (failReaders b i) := by
  refine .forKeys (fun b k => ?_) b
  cases he : b.entry k with
  | none => exact .refl b
  | some e =>
    split
    · rename_i reads
      rw [answerMediaError_eq he]
      rw [Option.any_some, Bool.and_eq_true, beq_iff_eq] at reads
      exact answer_answersReads _ _ _ he reads.1
    · exact .refl b

/-! ### The eviction order and the answers of READs -/

/-- Buffers that are not LOADING keep job and state, and their places in the eviction order. -/
structure EvictKept (b t : Bridge) : Prop where
  jobs  : JobsKept b t
  evict : ∀ i, (b.buf i).state ≠ .loading → i ∈ b.pool.evict → i ∈ t.pool.evict

theorem EvictKept.refl (b : Bridge) : EvictKept b b := ⟨.refl b, fun _ _ h => h⟩

theorem EvictKept.trans {a b c : Bridge} (h : EvictKept a b) (h' : EvictKept b c) : EvictKept a c :=
  ⟨h.jobs.trans h'.jobs, fun i hs hi => h'.evict i ((h.jobs.kept i hs).2 ▸ hs) (h.evict i hs hi)⟩

theorem EvictKept.foldl {α : Type} {f : Bridge → α → Bridge} (h : ∀ b x, EvictKept b (f b x)) (l : List α) (b : Bridge) :
    EvictKept b (l.foldl f b) := foldl_rel .refl .trans h l b

theorem EvictKept.forBufs {f : Bridge → BufIdx → Bridge} (h : ∀ b i, EvictKept b (f b i)) (b : Bridge) :
    EvictKept b (b.forBufs f) := .foldl h allBufs b

theorem putBuf_evictKept {b : Bridge} {i : BufIdx} {x : Buffer}
    (h : (b.buf i).state ≠ .loading → x.flush = (b.buf i).flush ∧ x.state = (b.buf i).state) :
    EvictKept b (b.putBuf i x) := ⟨putBuf_jobsKept h, fun _ _ hi => hi⟩

theorem joinEvict_evict {b : Bridge} {i : BufIdx} (h : (b.buf i).state = .clean) (pins : pinCount b i = 0) :
    i ∈ (joinEvict b i).pool.evict := by
  unfold joinEvict
  split
  · exact List.mem_append_right b.pool.evict List.mem_cons_self
  · rename_i stays
    by_contra out
    exact stays ⟨h, pins, out⟩

theorem joinEvict_evictKept (b : Bridge) (i : BufIdx) : EvictKept b (joinEvict b i) := by
  refine ⟨joinEvict_jobsKept b i, fun j _ hj => ?_⟩
  unfold joinEvict
  split
  · exact List.mem_append_left [i] hj
  · exact hj

theorem testLater_evictKept (b : Bridge) (i : BufIdx) : EvictKept b (testLater b i) :=
  ⟨testLater_jobsKept b i, fun _ _ h => h⟩

theorem unlink_evict (i : BufIdx) (b : Bridge) (j : BufIdx) : (unlink i b j).pool.evict = b.pool.evict := by
  unfold unlink
  split <;> rfl

theorem forBufs_unlink_evict (i : BufIdx) (b : Bridge) : (b.forBufs (unlink i)).pool.evict = b.pool.evict := by
  unfold Bridge.forBufs
  exact foldl_rel (R := fun b t => t.pool.evict = b.pool.evict) (fun _ => rfl) (fun h h' => h'.trans h) (unlink_evict i)
    allBufs b

theorem freeBuf_evict (b : Bridge) (i : BufIdx) : (freeBuf b i).pool.evict = b.pool.evict.filter (· != i) := by
  have same := forBufs_unlink_evict i b
  unfold freeBuf leaveEvict
  generalize b.forBufs (unlink i) = c at same
  rw [← same]
  rfl

theorem freeBuf_evictKept {b : Bridge} {i : BufIdx} (h : (b.buf i).state = .loading) : EvictKept b (freeBuf b i) := by
  refine ⟨freeBuf_jobsKept h, fun j hs hj => ?_⟩
  rw [freeBuf_evict]
  refine List.mem_filter.2 ⟨hj, ?_⟩
  simp only [bne_iff_ne]
  exact fun e => hs (e ▸ h)

theorem withdrawUnneeded_evictKept (b : Bridge) (i : BufIdx) : EvictKept b (withdrawUnneeded b i) := by
  unfold withdrawUnneeded
  split
  · exact .refl b
  · split
    · unfold withdrawLoad
      dsimp only
      split
      · rename_i loading
        split
        · exact freeBuf_evictKept loading
        · have opened : EvictKept b (b.putBuf i { b.buf i with state := .opened, load := none }) :=
            putBuf_evictKept fun h => absurd loading h
          exact opened.trans (testLater_evictKept _ i)
      · exact putBuf_evictKept fun _ => ⟨rfl, rfl⟩
    · exact .refl b

theorem dropReader_evictKept (b : Bridge) (k : Key) : EvictKept b (dropReader b k) := by
  unfold dropReader sweepLoads
  refine (EvictKept.forBufs (fun b i => ?_) b).trans (.forBufs withdrawUnneeded_evictKept _)
  unfold dropReaderAt
  split
  · exact .refl b
  · exact putBuf_evictKept fun _ => ⟨rfl, rfl⟩

theorem answer_evictKept (b : Bridge) (k : Key) (st : Status) (done : Nat) (p : Payload) :
    EvictKept b (answer b k st done p) := by
  unfold answer
  split
  · exact .refl b
  · rename_i e he
    by_cases hs : e.state = .answered
    · rw [answerFrame_not _ _ _ fun e' h' => by rw [he] at h'; cases h'; exact hs]
      exact .refl b
    · rw [answerFrame_given _ _ _ he hs]
      have closed : EvictKept b (closedBase b k e (.reply k e.unit st done p) st done) :=
        ⟨closedBase_jobsKept .., fun _ _ h => h⟩
      refine closed.trans ?_
      unfold letGo
      split
      · exact (EvictKept.foldl joinEvict_evictKept _ _).trans (dropReader_evictKept _ k)
      · exact .foldl joinEvict_evictKept _ _

theorem testReads_evictKept (b : Bridge) : EvictKept b (testReads b) := by
  unfold testReads Bridge.forKeys
  exact .foldl (testRead_rel .refl fun b k _ st done p _ _ => answer_evictKept b k st done p) allKeys b

/-! ### What a notice makes of an entry (R48 to R50) -/

/-- An entry that awaits nothing more is answered (R49, R50). -/
def Entry.finished (e : Entry) : Entry :=
  if e.state = .awaitCommit ∧ e.awaited = some [] then
    (if e.op = .write then
      (if e.blocksDone < e.count.toNat then e.close .writeFailed e.blocksDone else e.close .ok e.count.toNat)
    else e.close .ok 0)
  else e

/-- What a notice about a buffer makes of an entry. -/
def Entry.noticed (i : BufIdx) (f : Entry → Entry) (e : Entry) : Entry := if awaits e i then (f e).finished else e

theorem finishAwait_entry_self {b : Bridge} {k : Key} {e : Entry} (he : b.entry k = some e) :
    (finishAwait b k).entry k = some e.finished := by
  have close : e.state = .awaitCommit → ∀ st done p, (answer b k st done p).entry k = some (e.close st done) := by
    intro hs st done p
    rw [answer_entry, if_pos rfl, he, Option.map_some, if_neg (by rw [hs]; decide)]
  unfold finishAwait Entry.finished
  rw [he]
  dsimp only
  split
  · rename_i ends
    split
    · split
      · exact close ends.1 ..
      · exact close ends.1 ..
    · exact close ends.1 ..
  · exact he

theorem notice_entry {b : Bridge} {k : Key} {e : Entry} (i : BufIdx) (f : Entry → Entry) (he : b.entry k = some e) :
    (notice b i f).entry k = some (e.noticed i f) := by
  obtain ⟨c, hc, -, same⟩ := notice_reaches i f he
  rw [same]
  unfold Entry.noticed
  cases hw : awaits e i with
  | false => exact (congrArg (Bridge.entry · k) (noticeAt_not hc hw)).trans hc
  | true =>
    rw [noticeAt_awaits hc hw]
    exact finishAwait_entry_self (entry_putEntry_self ..)

theorem notice_closes (b : Bridge) (i : BufIdx) (f : Entry → Entry) : Closes b (notice b i f) := by
  rw [notice_eq]
  exact .foldl (noticeAt_closes i f) allKeys b

theorem notice_buf (b : Bridge) (i : BufIdx) (f : Entry → Entry) (j : BufIdx) : (notice b i f).buf j = b.buf j :=
  buf_congr (notice_spec b i f).2 j

theorem notice_entry_none {b : Bridge} {k : Key} (i : BufIdx) (f : Entry → Entry) (he : b.entry k = none) :
    (notice b i f).entry k = none := by
  rw [notice_eq]
  refine foldl_rel (R := fun b t => b.entry k = none → t.entry k = none) (fun _ => id) (fun h h' => h' ∘ h) (fun b j he => ?_)
    allKeys b he
  by_cases here : k = j
  · subst here
    unfold noticeAt
    rw [he]
    exact he
  · rw [noticeAt_entry_ne here, he]

theorem Entry.finished_state (e : Entry) : e.finished.state = e.state ∨ e.finished.state = .answered := by
  unfold Entry.finished
  repeat' split
  all_goals first | exact .inr rfl | exact .inl rfl

/-- An entry that awaits commits goes on awaiting after a notice, or is ANSWERED: it does not become a READ. -/
theorem Entry.noticed_state {i : BufIdx} {f : Entry → Entry} (hf : ∀ e, (f e).state = e.state) {e : Entry}
    (hs : e.state = .awaitCommit) : (e.noticed i f).state ≠ .fetching := by
  have : (e.noticed i f).state = .awaitCommit ∨ (e.noticed i f).state = .answered := by
    unfold Entry.noticed
    split
    · rw [← hs, ← hf e]
      exact (f e).finished_state
    · exact .inl hs
  rcases this with h | h <;> rw [h] <;> decide

theorem Entry.failSector_state (e : Entry) (lsn : Nat) : (e.failSector lsn).state = e.state := by
  unfold Entry.failSector
  split <;> rfl

/-- An entry that does not await commits is as it was. -/
theorem Entry.noticed_other {i : BufIdx} {f : Entry → Entry} {e : Entry} (hs : e.state ≠ .awaitCommit) :
    e.noticed i f = e := by
  unfold Entry.noticed
  rw [awaits_of_not (.inl hs)]
  exact if_neg Bool.false_ne_true

end Sys2Proof.Machine
end

section
/-! PROOFS. The commit of a flush job and its permanent failure (R77 to R80, R114, R115, R117, R118). -/

namespace Sys2Proof.Machine

/-! ### Work on one job -/

/-- From `b` to `t` the job and the load of one buffer may change, with the stamps, and nothing else. -/
structure Touches (i : BufIdx) (b t : Bridge) : Prop where
  job    : t.buf i = { b.buf i with flush := (t.buf i).flush, load := (t.buf i).load }
  other  : ∀ j, j ≠ i → t.buf j = b.buf j
  rest   : t = { b with pool := { b.pool with buffers := t.pool.buffers }, arb := { b.arb with stamps := t.arb.stamps }
                        cart := { b.cart with spinTimer := t.cart.spinTimer } }
  stamps : b.arb.stamps ≤ t.arb.stamps

section Touched
variable {i : BufIdx} {b t : Bridge}

theorem Touches.refl (i : BufIdx) (b : Bridge) : Touches i b b := ⟨rfl, fun _ _ => rfl, rfl, Nat.le_refl _⟩

theorem Touches.trans {c : Bridge} (h : Touches i b t) (h' : Touches i t c) : Touches i b c :=
  ⟨by rw [h'.job, h.job], fun j ne => (h'.other j ne).trans (h.other j ne), by rw [h'.rest, h.rest],
    h.stamps.trans h'.stamps⟩

theorem Touches.table (h : Touches i b t) : t.table = b.table := by rw [h.rest]
theorem Touches.mgmt (h : Touches i b t) : t.mgmt = b.mgmt := by rw [h.rest]
theorem Touches.dm (h : Touches i b t) : t.dm = b.dm := by rw [h.rest]
theorem Touches.writeState (h : Touches i b t) : t.cart.writeState = b.cart.writeState := by rw [h.rest]
theorem Touches.deferred (h : Touches i b t) : t.cart.deferred = b.cart.deferred := by rw [h.rest]

theorem Touches.entry (h : Touches i b t) (k : Key) : t.entry k = b.entry k := entry_of_table h.table k

theorem Touches.translate (h : Touches i b t) (lsn : Nat) : translate t lsn = translate b lsn := by
  unfold Machine.translate
  rw [h.dm, show t.cart.layout = b.cart.layout by rw [h.rest]]

/-- A buffer keeps everything but its job and its load. -/
theorem Touches.buffer (h : Touches i b t) (j : BufIdx) :
    t.buf j = { b.buf j with flush := (t.buf j).flush, load := (t.buf j).load } := by
  by_cases here : j = i
  · rw [here]
    exact h.job
  · rw [h.other j here]

end Touched

theorem putBuf_touches (b : Bridge) (i : BufIdx) {x : Buffer} (h : x = { b.buf i with flush := x.flush, load := x.load }) :
    Touches i b (b.putBuf i x) := by
  refine ⟨?_, fun j ne => buf_putBuf_ne b x ne, rfl, Nat.le_refl _⟩
  rw [buf_putBuf_self]
  exact h

theorem putFlush_touches (b : Bridge) (i : BufIdx) (f : Flush) : Touches i b (putFlush b i f) := putBuf_touches b i rfl

theorem takeStamp_touches (i : BufIdx) (b : Bridge) : Touches i b (takeStamp b) :=
  ⟨rfl, fun _ _ => rfl, rfl, Nat.le_succ _⟩

/-! ### Taking a target (R110) -/

theorem TargetTaken.congr {b t : Bridge} {i : BufIdx} {f f' : Flush} (h : TargetTaken b i f f')
    (lsn : (t.buf i).lsn = (b.buf i).lsn) (same : ∀ n, translate t n = translate b n)
    (ws : t.cart.writeState = b.cart.writeState) : TargetTaken t i f f' := by
  unfold TargetTaken
  simp only [lsn, same, ws]
  exact h

section Target
variable {b : Bridge} {i : BufIdx} {f : Flush}

/-- The job in ERASE, PENDING on its target under the next stamp. -/
def Flush.erasing (f : Flush) (p stamp : Nat) : Flush :=
  { f with phase := .erase, stage := some .pending, target := some p, erased := false, request := none, stamp }

theorem takeTarget_touches (b : Bridge) (i : BufIdx) : Touches i b (takeTarget b i) := by
  have erase : ∀ f p, Touches i b (eraseAt b i f p) := fun f p => (putFlush_touches b i _).trans (takeStamp_touches i _)
  unfold takeTarget
  split
  · exact .refl i b
  · split
    · exact putFlush_touches b i _
    · split
      · exact .refl i b
      · exact erase ..
      · exact erase ..
      · exact putFlush_touches b i _

/-- A job in this stage becomes pending only under the next stamp. -/
def StampedNext (b t : Bridge) (f f' : Flush) : Prop :=
  f'.stage = some .pending → f.stage = some .pending ∨ (f'.stamp = b.arb.stamps ∧ t.arb.stamps = b.arb.stamps + 1)

/-- What a job keeps when it takes its target. -/
structure TargetKeeps (f f' : Flush) : Prop where
  causes   : f'.causes = f.causes
  attempts : f'.attempts = f.attempts
  erased   : f.erased = false → f'.erased = false
  phase    : f.phase ≠ .fill → f'.phase ≠ .fill

/-- A job that takes its target: what becomes of it, and of its buffer nothing else. -/
theorem takeTarget_spec (h : (b.buf i).flush = some f) : ∃ f', (takeTarget b i).buf i = { b.buf i with flush := some f' }
    ∧ TargetTaken b i f f' ∧ StampedNext b (takeTarget b i) f f' ∧ TargetKeeps f f' := by
  by_cases relocate : f.causes.relocate = true
  · have reads : takeTarget b i = remapAt b i f (some .first) := by
      unfold takeTarget
      rw [h]
      exact if_pos relocate
    rw [reads]
    refine ⟨_, buf_putBuf_self .., ⟨fun _ => rfl, fun stays => ?_⟩, fun pending => (by cases pending),
      ⟨rfl, rfl, id, fun _ => nofun⟩⟩
    rw [relocate] at stays
    cases stays
  · have reads : takeTarget b i = match (b.buf i).lsn.bind (translate b) with
        | none => b
        | some (.home p) => eraseAt b i f p
        | some (.spare p) => eraseAt b i f p
        | some .lost => remapAt b i f (if isWritable b then some .first else none) := by
      unfold takeTarget
      rw [h]
      exact if_neg relocate
    have none : ∀ {f'}, f.causes.relocate = true → f' = { f with phase := .remap, stage := none, request := some .first } :=
      fun reloc => absurd reloc relocate
    rw [reads]
    have erased : ∀ p r, (b.buf i).lsn.bind (translate b) = some r → r = .home p ∨ r = .spare p →
        ∃ f', (eraseAt b i f p).buf i = { b.buf i with flush := some f' } ∧ TargetTaken b i f f'
          ∧ StampedNext b (eraseAt b i f p) f f' ∧ TargetKeeps f f' := by
      intro p r translated place
      refine ⟨f.erasing p b.arb.stamps, (takeStamp_buf ..).trans (buf_putBuf_self ..), ⟨none, fun _ lsn r' hl ht => ?_⟩,
        fun _ => .inr ⟨rfl, rfl⟩, ⟨rfl, rfl, fun _ => rfl, fun _ => nofun⟩⟩
      rw [hl, Option.bind_some, ht] at translated
      cases translated
      refine ⟨fun p' place' => ?_, fun lost => ?_⟩
      · have : p' = p := by rcases place with rfl | rfl <;> simpa [eq_comm] using place'
        rw [this]
        rfl
      · rcases place with rfl | rfl <;> cases lost
    match translated : (b.buf i).lsn.bind (translate b) with
    | .none =>
      refine ⟨f, ?_, ⟨none, fun _ lsn r hl ht => ?_⟩, fun pending => .inl pending, ⟨rfl, rfl, id, id⟩⟩
      · rw [← h]
      · rw [hl, Option.bind_some, ht] at translated
        cases translated
    | some (.home p) => exact erased p _ translated (.inl rfl)
    | some (.spare p) => exact erased p _ translated (.inr rfl)
    | some .lost =>
      refine ⟨_, buf_putBuf_self .., ⟨none, fun _ lsn r hl ht => ?_⟩, fun pending => (by cases pending),
        ⟨rfl, rfl, id, fun _ => nofun⟩⟩
      rw [hl, Option.bind_some, ht] at translated
      cases translated
      refine ⟨fun p place => (by rcases place with place | place <;> cases place), fun _ => ?_⟩
      simp [isWritable]

end Target

theorem releaseHold_touches (b : Bridge) (i : BufIdx) : Touches i b (releaseHold b i) := by
  unfold releaseHold
  split
  · exact takeTarget_touches b i
  · exact .refl i b

/-- A hold that is released (R119). -/
theorem releaseHold_spec {b : Bridge} {i : BufIdx} {f : Flush} (h : (b.buf i).flush = some f) :
    ∃ f', (releaseHold b i).buf i = { b.buf i with flush := some f' } ∧ (f.stage ≠ some .held → f' = f)
      ∧ (f.stage = some .held → TargetTaken b i f f') := by
  unfold releaseHold
  rw [h, Option.any_some]
  by_cases held : f.stage = some .held
  · rw [if_pos (beq_iff_eq.2 held)]
    obtain ⟨f', put, taken, -⟩ := takeTarget_spec h
    exact ⟨f', put, fun free => absurd held free, fun _ => taken⟩
  · rw [if_neg fun h => held (beq_iff_eq.1 h)]
    exact ⟨f, by rw [← h], fun _ => rfl, fun h => absurd h held⟩

/-! ### Pins that move to a successor (R62, R78, R80) -/

/-- The entry with its pins on `i` moved to `j`. -/
def Entry.pinsMoved (i j : BufIdx) (e : Entry) : Entry :=
  if e.state = .fetching ∧ i ∈ e.pins then { e with pins := e.pins.map fun a => if a = i then j else a } else e

/-- The pins of one entry move. -/
def movePinsAt (i j : BufIdx) (b : Bridge) (k : Key) : Bridge :=
  match b.entry k with
  | none => b
  | some e =>
    if e.state = .fetching ∧ i ∈ e.pins then
      b.putEntry k (some { e with pins := e.pins.map (fun a => if a = i then j else a) })
    else b

theorem movePins_eq (b : Bridge) (i j : BufIdx) : movePins b i j = allKeys.foldl (movePinsAt i j) b := by
  unfold movePins Bridge.forKeys
  rfl

theorem movePinsAt_closes (i j : BufIdx) (b : Bridge) (k : Key) : Closes b (movePinsAt i j b k) := by
  unfold movePinsAt
  split
  · exact .refl b
  · split
    · exact putEntry_closes ..
    · exact .refl b

theorem movePinsAt_pool (i j : BufIdx) (b : Bridge) (k : Key) : (movePinsAt i j b k).pool = b.pool := by
  unfold movePinsAt
  split
  · rfl
  · split <;> rfl

theorem movePinsAt_entry_ne (i j : BufIdx) (b : Bridge) (k n : Key) (h : n ≠ k) :
    (movePinsAt i j b k).entry n = b.entry n := by
  unfold movePinsAt
  split
  · rfl
  · split
    · exact entry_putEntry_ne b _ h
    · rfl

theorem movePins_closes (b : Bridge) (i j : BufIdx) : Closes b (movePins b i j) := by
  rw [movePins_eq]
  exact .foldl (movePinsAt_closes i j) allKeys b

theorem movePins_pool (b : Bridge) (i j : BufIdx) : (movePins b i j).pool = b.pool := by
  rw [movePins_eq]
  exact foldl_rel (R := fun b t => t.pool = b.pool) (fun _ => rfl) (fun h h' => h'.trans h) (movePinsAt_pool i j) allKeys b

theorem movePins_buf (b : Bridge) (i j n : BufIdx) : (movePins b i j).buf n = b.buf n :=
  buf_congr (by rw [movePins_pool]) n

theorem movePins_entry {b : Bridge} {k : Key} {e : Entry} (i j : BufIdx) (he : b.entry k = some e) :
    (movePins b i j).entry k = some (e.pinsMoved i j) := by
  obtain ⟨c, hc, -, -, same⟩ := foldl_keys_reaches (R := fun _ _ => True) (movePinsAt_entry_ne i j) (fun _ => trivial)
    (fun _ _ => trivial) (fun _ _ => trivial) he
  rw [movePins_eq, same, movePinsAt, hc]
  unfold Entry.pinsMoved
  dsimp only
  split
  · exact entry_putEntry_self ..
  · exact hc

/-! ### Left to the successor (R78, R80, R119) -/

section Successor
variable {b : Bridge} {i j : BufIdx}

/-- The buffer's data is left to its successor, whose hold is not yet released. -/
def leftBehind (b : Bridge) (i j : BufIdx) : Bridge := testReads (freeBuf (movePins b i j) i)

theorem endToSuccessor_eq (b : Bridge) (i j : BufIdx) : endToSuccessor b i j = releaseHold (leftBehind b i j) j := rfl

theorem leftBehind_closes (b : Bridge) (i j : BufIdx) : Closes b (leftBehind b i j) :=
  ((movePins_closes b i j).trans (freeBuf_poolOnly _ i).closes).trans (testReads_closes _)

theorem leftBehind_buf_self (b : Bridge) (i j : BufIdx) : (leftBehind b i j).buf i = Buffer.free := by
  have kept := (testReads_relieves (freeBuf (movePins b i j) i)).each i
  rw [freeBuf_self] at kept
  exact kept.of_free

theorem leftBehind_buf_other {n : BufIdx} (ne : n ≠ i) (hs : (b.buf n).state ≠ .loading) : (leftBehind b i j).buf n
    = { b.buf n with load := ((leftBehind b i j).buf n).load, successor := ((leftBehind b i j).buf n).successor } := by
  have freed : (freeBuf (movePins b i j) i).buf n = (b.buf n).keepLink (· != i) := by
    rw [freeBuf_buf, if_neg ne, movePins_buf]
  have kept := (testReads_relieves (freeBuf (movePins b i j) i)).each n
  rw [freed] at kept
  exact kept.record hs

theorem endToSuccessor_touches (b : Bridge) (i j : BufIdx) : Touches j (leftBehind b i j) (endToSuccessor b i j) :=
  releaseHold_touches _ j

/-- What an entry finds when the buffer is left behind: it waits on, or it is a READ, which pins the successor or is
answered. -/
theorem endToSuccessor_entry {k : Key} {e : Entry} (he : b.entry k = some e) :
    ∃ e', (endToSuccessor b i j).entry k = some e' ∧ (e' = e.pinsMoved i j ∨ e'.state = .answered) := by
  have freed : (freeBuf (movePins b i j) i).entry k = some (e.pinsMoved i j) := by
    rw [(freeBuf_poolOnly _ i).entry]
    exact movePins_entry i j he
  rw [(endToSuccessor_touches b i j).entry]
  exact (testReads_answersReads _).read freed

theorem endToSuccessor_waits {k : Key} {e : Entry} (he : b.entry k = some e) (hs : e.state ≠ .fetching) :
    (endToSuccessor b i j).entry k = some e := by
  have same : e.pinsMoved i j = e := if_neg fun h => hs h.1
  have freed : (freeBuf (movePins b i j) i).entry k = some e := by
    rw [(freeBuf_poolOnly _ i).entry, movePins_entry i j he, same]
  rw [(endToSuccessor_touches b i j).entry]
  exact (testReads_answersReads _).waits freed hs

theorem endToSuccessor_left (ok : PoolOk b) (ne : j ≠ i) : LeftToSuccessor b (endToSuccessor b i j) i j := by
  refine ⟨?_, fun k e he hs pins => ?_, fun f hf => ?_⟩
  · rw [(endToSuccessor_touches b i j).other i ne.symm, leftBehind_buf_self]
  · obtain ⟨e', now, same | answered⟩ := endToSuccessor_entry (i := i) (j := j) he
    · exact ⟨e', now, .inl (same.trans (if_pos ⟨hs, pins⟩))⟩
    · exact ⟨e', now, .inr answered⟩
  · have was := leftBehind_buf_other (j := j) ne (ok.mayHoldJob hf).not_loading
    obtain ⟨f', put, free, held⟩ := releaseHold_spec (b := leftBehind b i j) (i := j) (f := f) (by rw [was]; exact hf)
    have touched := endToSuccessor_touches b i j
    have lsn : ((endToSuccessor b i j).buf j).lsn = ((leftBehind b i j).buf j).lsn := by rw [touched.job]
    rw [endToSuccessor_eq] at *
    refine ⟨f', ?_, free, fun h => (held h).congr lsn touched.translate touched.writeState⟩
    rw [put, was]

theorem strandedCount_congr {b t : Bridge} (h : ∀ k, (t.buf k).state = .stranded ↔ (b.buf k).state = .stranded) :
    strandedCount t = strandedCount b := by
  unfold strandedCount
  congr 2
  funext k
  rw [Bool.eq_iff_iff, beq_iff_eq, beq_iff_eq]
  exact h k

theorem endToSuccessor_strandedCount (hi : (b.buf i).state ≠ .stranded) :
    strandedCount (endToSuccessor b i j) = strandedCount b := by
  refine strandedCount_congr fun k => ?_
  have state : ((endToSuccessor b i j).buf k).state = ((leftBehind b i j).buf k).state := by
    rw [(endToSuccessor_touches b i j).buffer k]
  rw [state]
  by_cases here : k = i
  · rw [here, leftBehind_buf_self]
    exact ⟨fun h => (by cases h), fun h => absurd h hi⟩
  · by_cases loading : (b.buf k).state = .loading
    · refine ⟨fun h => (leftBehind_closes b i j).stranded k h, fun h => ?_⟩
      rw [loading] at h
      cases h
    · rw [leftBehind_buf_other here loading]

end Successor

end Sys2Proof.Machine
end

section
/-! PROOFS. VERIFY, the commit of a job (R77, R78, R114, R115, R118) and its permanent failure (R79, R80, R117). -/

namespace Sys2Proof.Machine

/-! ### A commit (R77, R118) -/

section Commit
variable {b : Bridge} {i : BufIdx}

theorem PoolOk.commits {b : Bridge} (ok : PoolOk b) (i : BufIdx) : PoolOk (noticeCommitted b i) :=
  (noticeCommitted_orderly b i).keeps ok

theorem noticeCommitted_buf (b : Bridge) (i j : BufIdx) : (noticeCommitted b i).buf j = b.buf j := notice_buf b i _ j

/-- The buffer is CLEAN and joins the eviction order where it may, before the READs are tested. -/
def committed (b : Bridge) (i : BufIdx) : Bridge :=
  joinEvict ((noticeCommitted b i).putBuf i (committedBuffer (b.buf i))) i

theorem commitJob_alone (h : (b.buf i).successor = none) : commitJob b i = testReads (committed b i) := by
  unfold commitJob committed
  dsimp only
  rw [noticeCommitted_buf, h]

theorem commitJob_successor {j : BufIdx} (h : (b.buf i).successor = some j) :
    commitJob b i = endToSuccessor (noticeCommitted b i) i j := by
  unfold commitJob
  dsimp only
  rw [noticeCommitted_buf, h]

theorem committed_buf (b : Bridge) (i : BufIdx) : (committed b i).buf i = committedBuffer (b.buf i) := by
  unfold committed
  rw [joinEvict_buf, buf_putBuf_self]

theorem committed_closes (b : Bridge) (i : BufIdx) : Closes b (committed b i) := by
  have put : PoolOnly (noticeCommitted b i) ((noticeCommitted b i).putBuf i (committedBuffer (b.buf i))) :=
    putBuf_poolOnly _ i _ fun h => by cases h
  exact (notice_closes b i _).trans (put.trans (joinEvict_poolOnly _ i)).closes

theorem committed_entry (b : Bridge) (i : BufIdx) (k : Key) : (committed b i).entry k = (noticeCommitted b i).entry k := by
  have put : PoolOnly (noticeCommitted b i) ((noticeCommitted b i).putBuf i (committedBuffer (b.buf i))) :=
    putBuf_poolOnly _ i _ fun h => by cases h
  exact (put.trans (joinEvict_poolOnly _ i)).entry k

theorem Unlinked.eq_of_none {x y : Buffer} (h : Unlinked x y) (hx : x.successor = none) : y = x := by
  obtain ⟨q, rfl⟩ := h
  exact Buffer.keepLink_eq fun i hi => by rw [hx] at hi; cases hi

theorem commitJob_buf_alone (h : (b.buf i).successor = none) : (commitJob b i).buf i = committedBuffer (b.buf i) := by
  rw [commitJob_alone h, ← committed_buf]
  exact (((testReads_relieves _).each i).idle (by rw [committed_buf]; rfl)).eq_of_none (by rw [committed_buf]; exact h)

/-- An entry that awaits no more a buffer that it does not pin does not hold it. -/
theorem noticed_unpinned {e : Entry} (pins : i ∉ e.pins)
    (awaiting : ∀ l, e.awaited = some l → i ∈ l → e.state = .awaitCommit) :
    (e.noticed i (Entry.unawait i)).pinned.contains i = false := by
  have held : ∀ e' : Entry, i ∉ e'.pins → (∀ l, e'.awaited = some l → i ∉ l) → e'.pinned.contains i = false := by
    intro e' free apart
    unfold Entry.pinned
    rw [← Bool.not_eq_true, List.contains_iff_mem, List.mem_append, not_or]
    refine ⟨free, ?_⟩
    split
    · cases ha : e'.awaited with
      | none => exact List.not_mem_nil
      | some l => exact apart l ha
    · exact List.not_mem_nil
  have closed : ∀ (e' : Entry) st done, (e'.close st done).pinned.contains i = false := fun _ _ _ =>
    held _ List.not_mem_nil fun _ h => by cases h
  unfold Entry.noticed
  split
  · have left : ∀ l, (Entry.unawait i e).awaited = some l → i ∉ l := by
      intro l hl mem
      obtain ⟨l', -, rfl⟩ := Option.map_eq_some_iff.1 hl
      simpa using (List.mem_filter.1 mem).2
    unfold Entry.finished
    split
    · split
      · split
        · exact closed ..
        · exact closed ..
      · exact closed ..
    · exact held _ pins left
  · rename_i other
    exact held _ pins fun l hl mem => other (awaits_of_mem (awaiting l hl mem) hl mem)

theorem pinCount_eq_zero_iff {b : Bridge} {i : BufIdx} :
    pinCount b i = 0 ↔ ∀ k e, b.entry k = some e → e.pinned.contains i = false := by
  unfold pinCount
  rw [List.length_eq_zero_iff, List.filter_eq_nil_iff]
  refine ⟨fun h k e he => ?_, fun h k _ => ?_⟩
  · simpa [he] using h k (mem_allKeys k)
  · cases he : b.entry k with
    | none => simp
    | some e => rw [Option.any_some, h k e he]; exact Bool.false_ne_true

/-- A buffer that no entry pins joins the eviction order at its commit. -/
theorem commitJob_joins (h : (b.buf i).successor = none)
    (free : ∀ k e, b.entry k = some e → i ∉ e.pins ∧ ∀ l, e.awaited = some l → i ∈ l → e.state = .awaitCommit) :
    i ∈ (commitJob b i).pool.evict := by
  have unpinned : pinCount ((noticeCommitted b i).putBuf i (committedBuffer (b.buf i))) i = 0 := by
    refine pinCount_eq_zero_iff.2 fun k e' he' => ?_
    rw [putBuf_entry] at he'
    cases he : b.entry k with
    | none =>
      have gone : (noticeCommitted b i).entry k = none := notice_entry_none i _ he
      rw [gone] at he'
      cases he'
    | some e =>
      have was : (noticeCommitted b i).entry k = _ := notice_entry i (Entry.unawait i) he
      rw [was] at he'
      cases he'
      exact noticed_unpinned (free k e he).1 (free k e he).2
  have clean : ((committed b i).buf i).state ≠ .loading := by
    rw [committed_buf]
    exact fun h => by cases h
  have joined : i ∈ (committed b i).pool.evict := by
    unfold committed
    exact joinEvict_evict (by rw [buf_putBuf_self]; rfl) unpinned
  rw [commitJob_alone h]
  exact (testReads_evictKept _).evict i clean joined

/-- Entries that await commits get their notice, and the commit does nothing else to them. -/
theorem commitJob_entry {k : Key} {e : Entry} (he : b.entry k = some e) (hs : e.state = .awaitCommit) :
    (commitJob b i).entry k = (noticeCommitted b i).entry k := by
  have noticed : (noticeCommitted b i).entry k = some (e.noticed i (Entry.unawait i)) := notice_entry i _ he
  have waits : (e.noticed i (Entry.unawait i)).state ≠ .fetching := Entry.noticed_state (f := Entry.unawait i) (fun _ => rfl) hs
  cases hj : (b.buf i).successor with
  | none =>
    rw [commitJob_alone hj, noticed]
    exact (testReads_answersReads _).waits ((committed_entry b i k).trans noticed) waits
  | some j =>
    rw [commitJob_successor hj, noticed]
    exact endToSuccessor_waits noticed waits

/-- What is left behind of a noticed bridge is left behind of the bridge before. -/
theorem LeftToSuccessor.noticed {b t : Bridge} {i j n : BufIdx} {f : Entry → Entry} (h : LeftToSuccessor (notice b n f) t i j) :
    LeftToSuccessor b t i j := by
  obtain ⟨freed, pins, held⟩ := h
  refine ⟨freed, fun k e he hs hi => pins k e ?_ hs hi, ?_⟩
  · rw [notice_entry n f he, Entry.noticed_other (by rw [hs]; decide)]
  · simpa only [notice_buf] using held

theorem commitJob_left {j : BufIdx} (ok : PoolOk b) (hj : (b.buf i).successor = some j) (ne : j ≠ i) :
    LeftToSuccessor b (commitJob b i) i j := by
  rw [commitJob_successor hj]
  exact (endToSuccessor_left (ok.commits i) ne).noticed

/-- A commit records nothing and does not change the map. -/
theorem commitJob_rest (b : Bridge) (i : BufIdx) : (commitJob b i).mgmt = b.mgmt ∧ (commitJob b i).dm = b.dm := by
  cases hj : (b.buf i).successor with
  | none =>
    have closes := (committed_closes b i).trans (testReads_closes _)
    rw [commitJob_alone hj]
    exact ⟨closes.mgmt, closes.dm⟩
  | some j =>
    have closes : Closes b (leftBehind (noticeCommitted b i) i j) := (notice_closes b i _).trans (leftBehind_closes _ i j)
    have touched := endToSuccessor_touches (noticeCommitted b i) i j
    rw [commitJob_successor hj]
    exact ⟨touched.mgmt.trans closes.mgmt, touched.dm.trans closes.dm⟩

end Commit

/-! ### VERIFY and the failures of a target (R114, R115) -/

section Verify
variable {b : Bridge} {i : BufIdx} {psa : Nat} {f : Flush}

/-- A failed target asks for a REPLACE spare, or fails the job for good. -/
theorem targetFailed_cases (b : Bridge) (i : BufIdx) (f : Flush) (psa : Nat) :
    (f.attempts < 3 → b.cart.writeState = some .writable → targetFailed b i f psa = b.putBuf i { b.buf i with
      flush := some { f with phase := .remap, stage := none, request := some (.replace psa) } })
    ∧ (¬ (f.attempts < 3 ∧ b.cart.writeState = some .writable) →
      targetFailed b i f psa = permanentFailure b i (some psa)) := by
  have more : (decide (f.attempts < 3) && isWritable b) = true ↔ f.attempts < 3 ∧ b.cart.writeState = some .writable := by
    simp [isWritable]
  exact ⟨fun few writable => if_pos (more.2 ⟨few, writable⟩), fun done => if_neg fun h => done (more.1 h)⟩

theorem phaseEnded_flight {kind : OrderKind} {o : SectorOutcome} (hf : (b.buf i).flush = some f)
    (flight : f.stage = some .inFlight) (target : f.target = some psa) : phaseEnded b i psa kind o
      = match o, f.phase, kind with
        | .good _, .erase, .erase => nextPhase b i f .write
        | .good _, .write, .write => nextPhase b i f .verify
        | .good d, .verify, .verify => if asQuad d = givenData (b.buf i) then commitJob b i else targetFailed b i f psa
        | .good _, _, _ => b
        | .noId, _, _ => targetFailed b i f psa
        | .dataError, _, _ => targetFailed b i f psa
        | .writeFault, _, _ => targetFailed b i f psa := by
  unfold phaseEnded
  rw [hf]
  dsimp only
  refine (if_pos ⟨flight, target⟩).trans ?_
  cases o <;> rfl

theorem phaseEnded_verify (read : Quad) (hf : (b.buf i).flush = some f) (flight : f.stage = some .inFlight)
    (target : f.target = some psa) (verify : f.phase = .verify) :
    phaseEnded b i psa .verify (.good (some (.user read)))
      = if read = givenData (b.buf i) then commitJob b i else targetFailed b i f psa := by
  rw [phaseEnded_flight hf flight target, verify]
  rfl

theorem phaseEnded_failed {kind : OrderKind} {o : SectorOutcome} (hf : (b.buf i).flush = some f)
    (flight : f.stage = some .inFlight) (target : f.target = some psa) (ho : o = .noId ∨ o = .dataError ∨ o = .writeFault) :
    phaseEnded b i psa kind o = targetFailed b i f psa := by
  rw [phaseEnded_flight hf flight target]
  rcases ho with rfl | rfl | rfl <;> rfl

end Verify

/-- Settles O49: the data read back decides, and then the commit, or the failure of the target, is what its lemmas say. -/
theorem verifyCommitsTheJobOrFailsItsTarget : Obligations.VerifyCommitsTheJobOrFailsItsTarget := by
  unfold Obligations.VerifyCommitsTheJobOrFailsItsTarget
  refine ⟨fun b i psa f hf flight target => ⟨fun verify read => ?_, fun kind o ho => ?_⟩, fun b i ok job => ?_⟩
  · dsimp only
    rw [phaseEnded_verify read hf flight target verify]
    refine ⟨fun same => if_pos ?_, fun q differs => ?_⟩
    · exact Vector.ext fun n hn => same ⟨n, hn⟩
    · rw [if_neg fun same => differs (by rw [same]; rfl)]
      exact targetFailed_cases b i f psa
  · dsimp only
    rw [phaseEnded_failed hf flight target ho]
    exact targetFailed_cases b i f psa
  · exact ⟨fun k e => commitJob_entry, fun alone => ⟨commitJob_buf_alone alone, commitJob_joins alone⟩,
      fun j hj ne => commitJob_left ok hj ne, commitJob_rest b i⟩

end Sys2Proof.Machine
end

section
/-! PROOFS. The permanent failure of a flush job (R79, R80, R117, R145). -/

namespace Sys2Proof.Machine

/-! ### Operations that change no buffer and no entry -/

/-- From `b` to `t` neither the pool nor an entry changes, nor the clock, nor the deferred errors. -/
structure Aside (b t : Bridge) : Prop where
  pool     : t.pool = b.pool
  table    : t.table = b.table
  clock    : t.clock = b.clock
  deferred : t.cart.deferred = b.cart.deferred

theorem Aside.refl (b : Bridge) : Aside b b := ⟨rfl, rfl, rfl, rfl⟩

theorem Aside.trans {a b c : Bridge} (h : Aside a b) (h' : Aside b c) : Aside a c :=
  ⟨h'.pool.trans h.pool, h'.table.trans h.table, h'.clock.trans h.clock, h'.deferred.trans h.deferred⟩

theorem Aside.buf {b t : Bridge} (h : Aside b t) (i : BufIdx) : t.buf i = b.buf i := buf_congr (by rw [h.pool]) i

theorem Aside.entry {b t : Bridge} (h : Aside b t) (k : Key) : t.entry k = b.entry k := entry_of_table h.table k

theorem Aside.strandedCount {b t : Bridge} (h : Aside b t) : Machine.strandedCount t = Machine.strandedCount b :=
  strandedCount_congr fun k => by rw [h.buf]

theorem raiseEvent_aside (b : Bridge) (ev : AttnEvent) : Aside b (raiseEvent b ev) := by
  unfold raiseEvent attnTest
  dsimp only
  repeat' split
  all_goals exact ⟨rfl, rfl, rfl, rfl⟩

theorem record_aside (b : Bridge) (r : ExceptionRecord) : Aside b (record b r) := by
  unfold record
  split
  · refine .trans ?_ (raiseEvent_aside _ _)
    exact ⟨rfl, rfl, rfl, rfl⟩
  · exact ⟨rfl, rfl, rfl, rfl⟩

theorem tryMapWrite_aside (b : Bridge) : Aside b (tryMapWrite b) := by
  unfold tryMapWrite
  split
  · exact .refl b
  · split
    · exact ⟨rfl, rfl, rfl, rfl⟩
    · exact .refl b

theorem tryMapWrite_writeState (b : Bridge) : (tryMapWrite b).cart.writeState = b.cart.writeState := by
  unfold tryMapWrite
  split
  · rfl
  · split <;> rfl

theorem markLost_aside (b : Bridge) (u : Nat) : Aside b (markLost b u) := by
  unfold markLost
  split
  · exact .refl b
  · split
    · exact .refl b
    · unfold changeMap
      refine .trans ?_ (tryMapWrite_aside _)
      exact ⟨rfl, rfl, rfl, rfl⟩

theorem markLost_mgmt (b : Bridge) (u : Nat) : (markLost b u).mgmt = b.mgmt := by
  unfold markLost
  split
  · rfl
  · split
    · rfl
    · exact (tryMapWrite_rest _).2.2.2.1

theorem markLost_writeState (b : Bridge) (u : Nat) : (markLost b u).cart.writeState = b.cart.writeState := by
  unfold markLost
  split
  · rfl
  · split
    · rfl
    · exact tryMapWrite_writeState _

theorem lockWrites_aside (b : Bridge) : Aside b (lockWrites b) := by
  unfold lockWrites
  split
  · exact ⟨rfl, rfl, rfl, rfl⟩
  · exact .refl b

theorem lockWrites_mgmt (b : Bridge) : (lockWrites b).mgmt = b.mgmt := by
  unfold lockWrites
  split <;> rfl

theorem lockWrites_writeState (b : Bridge) : (lockWrites b).cart.writeState
    = if b.cart.writeState = some .writable then some .writeLocked else b.cart.writeState := by
  unfold lockWrites isWritable
  by_cases h : b.cart.writeState = some .writable
  · rw [if_pos (beq_iff_eq.2 h), if_pos h]
  · rw [if_neg fun h' => h (beq_iff_eq.1 h'), if_neg h]

/-! ### The buffer is STRANDED, or its data discarded (R79, R145) -/

section Strand
variable {b : Bridge} {i : BufIdx}

/-- The record of a STRANDED buffer. -/
def Buffer.stranded (x : Buffer) : Buffer := { x with state := .stranded, load := none, flush := none, relocate := false }

/-- The bridge with one buffer more STRANDED. -/
def withStranded (b : Bridge) (i : BufIdx) : Bridge := b.putBuf i (b.buf i).stranded

theorem withStranded_deferred (b : Bridge) (i : BufIdx) : (withStranded b i).cart.deferred = b.cart.deferred := rfl

theorem length_filter_or_one {p : BufIdx → Bool} {i : BufIdx} (hp : p i = false) : ∀ l : List BufIdx, l.Nodup → i ∈ l →
    (l.filter fun j => p j || j == i).length = (l.filter p).length + 1
  | [], _, h => absurd h List.not_mem_nil
  | j :: l, nd, h => by
    obtain ⟨new, nd⟩ := List.nodup_cons.1 nd
    by_cases here : j = i
    · subst here
      have rest : (l.filter fun n => p n || n == j) = l.filter p := by
        refine List.filter_congr fun n hn => ?_
        rw [beq_false_of_ne fun e : n = j => new (e ▸ hn), Bool.or_false]
      rw [List.filter_cons_of_pos (by simp), List.filter_cons_of_neg (by simp [hp]), rest, List.length_cons]
    · have ih := length_filter_or_one hp l nd ((List.mem_cons.1 h).resolve_left fun e => here e.symm)
      cases hj : p j with
      | true => rw [List.filter_cons_of_pos (by simp [hj]), List.filter_cons_of_pos hj, List.length_cons, ih, List.length_cons]
      | false => rw [List.filter_cons_of_neg (by simp [hj, here]), List.filter_cons_of_neg (by simp [hj]), ih]

theorem withStranded_count (hs : (b.buf i).state ≠ .stranded) :
    strandedCount (withStranded b i) = strandedCount b + 1 := by
  have same : ∀ j, (((withStranded b i).buf j).state == .stranded) = ((b.buf j).state == .stranded || j == i) := by
    intro j
    unfold withStranded
    rw [buf_putBuf]
    split
    · rename_i here
      rw [here, beq_self_eq_true i, Bool.or_true]
      rfl
    · rename_i ne
      rw [beq_false_of_ne ne, Bool.or_false]
  unfold strandedCount
  simp only [same]
  exact length_filter_or_one (by simpa using hs) allBufs (List.nodup_finRange 32) (mem_allBufs i)

theorem strand_few (few : strandedCount b < 8) : strand b i
    = if strandedCount (withStranded b i) = 8 then lockWrites (withStranded b i) else withStranded b i := if_pos few

theorem strand_few_aside (few : strandedCount b < 8) : Aside (withStranded b i) (strand b i) := by
  rw [strand_few few]
  split
  · exact lockWrites_aside _
  · exact .refl _

theorem strand_few_mgmt (few : strandedCount b < 8) : (strand b i).mgmt = b.mgmt := by
  rw [strand_few few]
  split
  · exact lockWrites_mgmt _
  · rfl

theorem strand_few_buf (few : strandedCount b < 8) : (strand b i).buf i = (b.buf i).stranded := by
  rw [(strand_few_aside few).buf]
  exact buf_putBuf_self ..

theorem strand_few_entry (few : strandedCount b < 8) (k : Key) : (strand b i).entry k = b.entry k :=
  (strand_few_aside few).entry k

theorem strand_few_count (few : strandedCount b < 8) (hs : (b.buf i).state ≠ .stranded) :
    strandedCount (strand b i) = strandedCount b + 1 := by
  rw [(strand_few_aside few).strandedCount, withStranded_count hs]

/-- The eighth STRANDED buffer locks the writes of a WRITABLE cartridge. -/
theorem strand_few_writeState (few : strandedCount b < 8) (hs : (b.buf i).state ≠ .stranded) :
    (strand b i).cart.writeState = if strandedCount b = 7 ∧ b.cart.writeState = some .writable then some .writeLocked
      else b.cart.writeState := by
  rw [strand_few few, withStranded_count hs]
  by_cases eighth : strandedCount b = 7
  · rw [if_pos (by omega), lockWrites_writeState]
    simp only [eighth, true_and]
    rfl
  · rw [if_neg (by omega), if_neg fun h => eighth h.1]
    rfl

/-- The record of a discard (R79). -/
def discardRecord (b : Bridge) (i : BufIdx) : ExceptionRecord :=
  { kind := .dataDiscarded, time := b.clock, lsn := (b.buf i).lsn, sectorCount := some 1 }

/-- The READs of the buffer are failed, its data counting for none. -/
def readersFailed (b : Bridge) (i : BufIdx) : Bridge :=
  failReaders (b.putBuf i { b.buf i with valid := 0, load := none, flush := none }) i

theorem readersFailed_closes (b : Bridge) (i : BufIdx) :
    Closes (b.putBuf i { b.buf i with valid := 0, load := none, flush := none }) (readersFailed b i) :=
  failReaders_closes _ i

/-- The bridge with a discard recorded and counted as a deferred error, the buffer not yet FREE. -/
def discardCounted (b : Bridge) (i : BufIdx) : Bridge :=
  { record (readersFailed b i) (discardRecord b i) with
    cart := { b.cart with deferred := min (b.cart.deferred + 1) 255 } }

theorem strand_full (full : 8 ≤ strandedCount b) : strand b i = freeBuf (discardCounted b i) i := by
  have cart : (record (readersFailed b i) (discardRecord b i)).cart = b.cart := by
    rw [record_cart, (readersFailed_closes b i).cart]
    rfl
  unfold discardCounted
  rw [← cart]
  unfold strand readersFailed discardRecord
  dsimp only
  rw [if_neg (by omega)]
  rfl

theorem discardCounted_mgmt (b : Bridge) (i : BufIdx) :
    (discardCounted b i).mgmt = (record (readersFailed b i) (discardRecord b i)).mgmt := by
  unfold discardCounted
  dsimp only

theorem discardCounted_entry (b : Bridge) (i : BufIdx) (k : Key) :
    (discardCounted b i).entry k = (readersFailed b i).entry k := by
  refine (entry_of_table ?_ k).trans ((record_aside _ (discardRecord b i)).entry k)
  unfold discardCounted
  dsimp only

theorem strand_full_buf (full : 8 ≤ strandedCount b) : (strand b i).buf i = Buffer.free := by
  rw [strand_full full]
  exact freeBuf_self _ i

theorem strand_full_cart (full : 8 ≤ strandedCount b) : (strand b i).cart
    = { b.cart with deferred := min (b.cart.deferred + 1) 255 } := by
  rw [strand_full full, (freeBuf_poolOnly _ i).closes.cart]
  rfl

theorem strand_full_deferred (full : 8 ≤ strandedCount b) :
    (strand b i).cart.deferred = min (b.cart.deferred + 1) 255 := by
  rw [strand_full_cart full]

theorem strand_full_writeState (full : 8 ≤ strandedCount b) : (strand b i).cart.writeState = b.cart.writeState := by
  rw [strand_full_cart full]

theorem strand_full_exceptions (full : 8 ≤ strandedCount b) (room : b.mgmt.exceptions.length < 32) :
    (strand b i).mgmt.exceptions = b.mgmt.exceptions ++ [discardRecord b i] := by
  have same : (readersFailed b i).mgmt = b.mgmt := (readersFailed_closes b i).mgmt
  rw [strand_full full, (freeBuf_poolOnly _ i).closes.mgmt, discardCounted_mgmt,
    record_exceptions _ (by rw [same]; exact room), same]

/-- Only READs that pin the buffer are answered. -/
theorem strand_full_waits (full : 8 ≤ strandedCount b) {k : Key} {e : Entry} (he : b.entry k = some e)
    (hs : e.state ≠ .fetching) : (strand b i).entry k = some e := by
  rw [strand_full full, (freeBuf_poolOnly _ i).entry, discardCounted_entry]
  exact (failReaders_answersReads _ i).waits he hs

theorem strand_waits {k : Key} {e : Entry} (he : b.entry k = some e) (hs : e.state ≠ .fetching) :
    (strand b i).entry k = some e := by
  by_cases few : strandedCount b < 8
  · rw [strand_few_entry few, he]
  · exact strand_full_waits (by omega) he hs

end Strand

/-! ### The permanent failure (R117) -/

section Failure
variable {b : Bridge} {i : BufIdx} {f : Flush} {lsn u : Nat} (failed : Option Nat)

/-- The record of a permanent failure. -/
def exhaustedRecord (b : Bridge) (f : Flush) (lsn u : Nat) (failed : Option Nat) : ExceptionRecord :=
  { kind := .spareExhausted, time := b.clock, lsn := some lsn, retries := some f.attempts
    psa := some (match failed with | some p => p | none => u) }

/-- The user PSA is marked LOST, and the failure recorded. -/
def failureRecorded (b : Bridge) (f : Flush) (lsn u : Nat) (failed : Option Nat) : Bridge :=
  record (markLost b u) (exhaustedRecord b f lsn u failed)

theorem failureRecorded_aside (b : Bridge) (f : Flush) (lsn u : Nat) : Aside b (failureRecorded b f lsn u failed) :=
  (markLost_aside b u).trans (record_aside _ _)

theorem failureRecorded_writeState (b : Bridge) (f : Flush) (lsn u : Nat) :
    (failureRecorded b f lsn u failed).cart.writeState = b.cart.writeState := by
  unfold failureRecorded
  rw [record_cart, markLost_writeState]

theorem failureRecorded_exceptions (room : b.mgmt.exceptions.length < 32) :
    (failureRecorded b f lsn u failed).mgmt.exceptions = b.mgmt.exceptions ++ [exhaustedRecord b f lsn u failed] := by
  unfold failureRecorded
  rw [record_exceptions _ (by rw [markLost_mgmt]; exact room), markLost_mgmt]

theorem permanentFailure_eq (hf : (b.buf i).flush = some f) (hl : (b.buf i).lsn = some lsn) (hu : homeOf b lsn = some u) :
    permanentFailure b i failed = match (b.buf i).successor with
      | some j => endToSuccessor (noticeMoved (failureRecorded b f lsn u failed) i j) i j
      | none => strand (noticeFailed (failureRecorded b f lsn u failed) i) i := by
  have psa : failed.or (some u) = some (match failed with | some p => p | none => u) := by
    cases failed <;> rfl
  unfold permanentFailure
  dsimp only
  rw [hl, hf, Option.bind_some, hu, psa]
  rfl

/-- The notice reaches the entries as it would have before the record. -/
theorem notice_aside {b d : Bridge} (h : Aside b d) (n : BufIdx) (g : Entry → Entry) {k : Key} {e : Entry}
    (he : b.entry k = some e) : (notice d n g).entry k = (notice b n g).entry k := by
  rw [notice_entry n g he, notice_entry n g ((h.entry k).trans he)]

theorem noticeFailed_aside {b d : Bridge} (h : Aside b d) (n : BufIdx) {k : Key} {e : Entry} (he : b.entry k = some e) :
    (noticeFailed d n).entry k = (noticeFailed b n).entry k := by
  unfold noticeFailed
  rw [h.buf n]
  exact notice_aside h n _ he

theorem LeftToSuccessor.aside {b d t : Bridge} {i j : BufIdx} (a : Aside b d) (h : LeftToSuccessor d t i j) :
    LeftToSuccessor b t i j := by
  obtain ⟨freed, pins, held⟩ := h
  refine ⟨freed, fun k e he hs hi => pins k e ((a.entry k).trans he) hs hi, ?_⟩
  simpa only [a.buf] using held

/-- The bridge of a failed job without a successor, before it is stranded. -/
def failureNoticed (b : Bridge) (i : BufIdx) (f : Flush) (lsn u : Nat) (failed : Option Nat) : Bridge :=
  noticeFailed (failureRecorded b f lsn u failed) i

theorem failureNoticed_buf (j : BufIdx) : (failureNoticed b i f lsn u failed).buf j = b.buf j := by
  unfold failureNoticed
  rw [noticeFailed_buf, (failureRecorded_aside failed b f lsn u).buf]

theorem failureNoticed_count : strandedCount (failureNoticed b i f lsn u failed) = strandedCount b :=
  strandedCount_congr fun k => by rw [failureNoticed_buf]

theorem failureNoticed_closes : Closes (failureRecorded b f lsn u failed) (failureNoticed b i f lsn u failed) :=
  noticeFailed_closes _ i

theorem failureNoticed_writeState : (failureNoticed b i f lsn u failed).cart.writeState = b.cart.writeState := by
  rw [(failureNoticed_closes failed).cart, failureRecorded_writeState]

theorem failureNoticed_deferred : (failureNoticed b i f lsn u failed).cart.deferred = b.cart.deferred := by
  rw [(failureNoticed_closes failed).cart, (failureRecorded_aside failed b f lsn u).deferred]

theorem failureNoticed_clock : (failureNoticed b i f lsn u failed).clock = b.clock := by
  rw [(failureNoticed_closes failed).clock, (failureRecorded_aside failed b f lsn u).clock]

theorem failureNoticed_exceptions (room : b.mgmt.exceptions.length < 32) :
    (failureNoticed b i f lsn u failed).mgmt.exceptions = b.mgmt.exceptions ++ [exhaustedRecord b f lsn u failed] := by
  rw [(failureNoticed_closes failed).mgmt, failureRecorded_exceptions failed room]

theorem failureNoticed_entry {k : Key} {e : Entry} (he : b.entry k = some e) :
    (failureNoticed b i f lsn u failed).entry k = (noticeFailed b i).entry k :=
  noticeFailed_aside (failureRecorded_aside failed b f lsn u) i he

theorem strand_noticed {k : Key} {e : Entry} (he : b.entry k = some e) (hs : e.state = .awaitCommit) :
    (strand (failureNoticed b i f lsn u failed) i).entry k = (noticeFailed b i).entry k := by
  have noticed := notice_entry i (fun e => (Entry.unawait i e).failSector ((b.buf i).lsn.getD 0)) he
  have waits := Entry.noticed_state (i := i) (f := fun e => (Entry.unawait i e).failSector ((b.buf i).lsn.getD 0))
    (fun e => Entry.failSector_state (Entry.unawait i e) _) hs
  have was : (noticeFailed b i).entry k = _ := noticed
  rw [was]
  exact strand_waits ((failureNoticed_entry failed he).trans was) waits

/-- The bridge of a failed job with a successor, before the buffer is left behind. -/
def failureMoved (b : Bridge) (i j : BufIdx) (f : Flush) (lsn u : Nat) (failed : Option Nat) : Bridge :=
  noticeMoved (failureRecorded b f lsn u failed) i j

section Moved
variable {j : BufIdx}

theorem failureMoved_eq (b : Bridge) (i j : BufIdx) (f : Flush) (lsn u : Nat) (failed : Option Nat) :
    failureMoved b i j f lsn u failed = notice (failureRecorded b f lsn u failed) i (Entry.awaitInstead i j) := rfl

theorem failureMoved_left (ok : PoolOk b) (ne : j ≠ i) :
    LeftToSuccessor b (endToSuccessor (failureMoved b i j f lsn u failed) i j) i j := by
  have recorded : PoolOk (failureRecorded b f lsn u failed) :=
    (Orderly.of_eq (failureRecorded_aside failed b f lsn u).pool).keeps ok
  have left := endToSuccessor_left ((noticeMoved_orderly _ i j).keeps recorded) ne
  unfold failureMoved
  exact (LeftToSuccessor.noticed (f := Entry.awaitInstead i j) left).aside (failureRecorded_aside failed b f lsn u)

theorem failureMoved_closes : Closes (failureRecorded b f lsn u failed) (leftBehind (failureMoved b i j f lsn u failed) i j) := by
  rw [failureMoved_eq]
  exact (notice_closes _ i _).trans (leftBehind_closes _ i j)

theorem failureMoved_count (hs : (b.buf i).state ≠ .stranded) :
    strandedCount (endToSuccessor (failureMoved b i j f lsn u failed) i j) = strandedCount b := by
  have same : ∀ n, (failureMoved b i j f lsn u failed).buf n = b.buf n := fun n => by
    rw [failureMoved_eq, notice_buf, (failureRecorded_aside failed b f lsn u).buf]
  rw [endToSuccessor_strandedCount (by rw [same]; exact hs)]
  exact strandedCount_congr fun n => by rw [same]

theorem failureMoved_entry {k : Key} {e : Entry} (he : b.entry k = some e) (hs : e.state = .awaitCommit) :
    (endToSuccessor (failureMoved b i j f lsn u failed) i j).entry k = (noticeMoved b i j).entry k := by
  have noticed : (noticeMoved b i j).entry k = _ := notice_entry i (Entry.awaitInstead i j) he
  have moved : (failureMoved b i j f lsn u failed).entry k = (noticeMoved b i j).entry k := by
    rw [failureMoved_eq]
    exact notice_aside (failureRecorded_aside failed b f lsn u) i _ he
  rw [noticed]
  exact endToSuccessor_waits (moved.trans noticed) (Entry.noticed_state (f := Entry.awaitInstead i j) (fun _ => rfl) hs)

end Moved

end Failure

/-- Settles O50: the map by `permanentFailure_map`; the rest by the successor, and without one by the STRANDED count. -/
theorem permanentFailureStrandsDiscardsOrLeavesToTheSuccessor :
    Obligations.PermanentFailureStrandsDiscardsOrLeavesToTheSuccessor := by
  unfold Obligations.PermanentFailureStrandsDiscardsOrLeavesToTheSuccessor
  intro b i failed f l m lsn u ok hf hl layout home map
  have hu : homeOf b lsn = some u := by rw [homeOf, layout, Option.bind_some, home]
  have bound : (b.buf i).lsn.bind (homeOf b) = some u := by rw [hl, Option.bind_some, hu]
  have unstranded : (b.buf i).state ≠ .stranded := by
    intro h
    rcases ok.mayHoldJob hf with hs | hs <;> rw [h] at hs <;> cases hs
  obtain ⟨unmarked, marked⟩ := permanentFailure_map bound map failed
  have ends := permanentFailure_eq failed hf hl hu
  refine ⟨unmarked, marked, ?_⟩
  cases hj : (b.buf i).successor with
  | some j =>
    rw [hj] at ends
    have ends : permanentFailure b i failed = endToSuccessor (failureMoved b i j f lsn u failed) i j := ends
    have touched := endToSuccessor_touches (failureMoved b i j f lsn u failed) i j
    have closes := failureMoved_closes (b := b) (i := i) (f := f) (lsn := lsn) (u := u) failed (j := j)
    rw [ends]
    refine ⟨fun room => ?_, ?_, fun none => (by cases none), fun j' hj' ne => ?_⟩
    · rw [touched.mgmt, closes.mgmt, failureRecorded_exceptions failed (by omega), if_neg fun h => nomatch h.1]
      exact (List.append_nil _).symm
    · rw [touched.deferred, closes.cart, (failureRecorded_aside failed b f lsn u).deferred, if_neg fun h => nomatch h.1]
    · cases hj'
      refine ⟨failureMoved_left failed ok ne, failureMoved_count failed unstranded, ?_, fun k e => failureMoved_entry failed⟩
      rw [touched.writeState, closes.cart, failureRecorded_writeState]
  | none =>
    rw [hj] at ends
    have ends : permanentFailure b i failed = strand (failureNoticed b i f lsn u failed) i := ends
    have count := failureNoticed_count (b := b) (i := i) (f := f) (lsn := lsn) (u := u) failed
    have buf := failureNoticed_buf (b := b) (i := i) (f := f) (lsn := lsn) (u := u) failed i
    rw [ends]
    by_cases few : strandedCount b < 8
    · have few' : strandedCount (failureNoticed b i f lsn u failed) < 8 := by rw [count]; exact few
      have stays : ¬ ((none : Option BufIdx) = none ∧ 8 ≤ strandedCount b) := fun h => absurd h.2 (by omega)
      refine ⟨fun room => ?_, ?_, fun _ => ⟨fun k e => strand_noticed failed, fun _ => ⟨?_, ?_, ?_⟩, fun full => by omega⟩,
        fun j h => by cases h⟩
      · rw [strand_few_mgmt few', failureNoticed_exceptions failed (by omega), if_neg stays]
        exact (List.append_nil _).symm
      · rw [(strand_few_aside few').deferred, withStranded_deferred, failureNoticed_deferred, if_neg stays]
      · rw [strand_few_buf few', buf, Buffer.stranded, hj]
      · rw [strand_few_count few' (by rw [buf]; exact unstranded), count]
      · rw [strand_few_writeState few' (by rw [buf]; exact unstranded), count, failureNoticed_writeState]
    · have full : 8 ≤ strandedCount b := by omega
      have full' : 8 ≤ strandedCount (failureNoticed b i f lsn u failed) := by rw [count]; exact full
      refine ⟨fun room => ?_, ?_, fun _ => ⟨fun k e => strand_noticed failed, fun h => absurd h few, fun _ => ⟨?_, ?_⟩⟩,
        fun j h => by cases h⟩
      · have noticed := failureNoticed_exceptions (b := b) (i := i) (f := f) (lsn := lsn) (u := u) failed (by omega)
        rw [strand_full_exceptions full' (by rw [noticed, List.length_append]; simp; omega), noticed, if_pos ⟨rfl, full⟩,
          discardRecord, failureNoticed_clock, buf, hl]
        rfl
      · rw [strand_full_deferred full', if_pos ⟨rfl, full⟩, failureNoticed_deferred]
      · exact strand_full_buf full'
      · rw [strand_full_writeState full', failureNoticed_writeState]

end Sys2Proof.Machine
end

section
/-! PROOFS. What the arbiter grants in each cartridge state (R88, R101 to R103), and the READs that find LOST loads (R72). -/

namespace Sys2Proof.Machine

/-! ### The loads that translate to LOST (R72, R91) -/

/-- What the ends of LOST loads keep of the bridge: only losses are recorded, and no load comes back. -/
structure LossesOnly (b t : Bridge) : Prop where
  cart    : t.cart = b.cart
  dm      : t.dm = b.dm
  records : ∃ l, t.mgmt.exceptions = b.mgmt.exceptions ++ l ∧ ∀ r ∈ l, r.kind = .fillLoss
  stays   : ∀ j, LoadStays (b.buf j) (t.buf j)

theorem LossesOnly.refl (b : Bridge) : LossesOnly b b :=
  ⟨rfl, rfl, ⟨[], (List.append_nil _).symm, fun _ h => absurd h List.not_mem_nil⟩, fun _ => (Unlinked.refl _).loadStays⟩

theorem LossesOnly.trans {a b c : Bridge} (h : LossesOnly a b) (h' : LossesOnly b c) : LossesOnly a c := by
  obtain ⟨l, hl, losses⟩ := h.records
  obtain ⟨l', hl', losses'⟩ := h'.records
  refine ⟨h'.cart.trans h.cart, h'.dm.trans h.dm, ⟨l ++ l', by rw [hl', hl, List.append_assoc], fun r hr => ?_⟩,
    fun j => (h.stays j).trans (h'.stays j)⟩
  exact (List.mem_append.1 hr).elim (losses r) (losses' r)

theorem LossesOnly.translate {b t : Bridge} (h : LossesOnly b t) (lsn : Nat) : translate t lsn = translate b lsn := by
  unfold Machine.translate
  rw [h.dm, h.cart]

theorem record_appends (b : Bridge) (r : ExceptionRecord) :
    ∃ l, (record b r).mgmt.exceptions = b.mgmt.exceptions ++ l ∧ ∀ x ∈ l, x = r := by
  by_cases room : b.mgmt.exceptions.length < 32
  · exact ⟨[r], record_exceptions r room, fun x h => List.mem_singleton.1 h⟩
  · refine ⟨[], ?_, fun _ h => absurd h List.not_mem_nil⟩
    rw [record, if_neg room, List.append_nil]

section
variable {b : Bridge} {i : BufIdx}

theorem loadLost_load (b : Bridge) (i : BufIdx) : ((loadLost b i).buf i).load = none := by
  by_cases h : (b.buf i).alone
  · rw [loadLost_buf_alone h]
    rfl
  · exact (loadLost_buf_loss h).load

theorem loadLost_dm (b : Bridge) (i : BufIdx) : (loadLost b i).dm = b.dm := by
  by_cases h : (b.buf i).alone
  · rw [(loadLost_alone_closes h).rest]
    rfl
  · obtain ⟨c, ends, -, pool⟩ := loadLost_loss h
    rw [ends, (testReads_closes _).rest, record_dm, pool.1]
    rfl

theorem loadLost_records (b : Bridge) (i : BufIdx) :
    ∃ l, (loadLost b i).mgmt.exceptions = b.mgmt.exceptions ++ l ∧ ∀ r ∈ l, r.kind = .fillLoss := by
  by_cases h : (b.buf i).alone
  · refine ⟨[], ?_, fun _ h => absurd h List.not_mem_nil⟩
    rw [(loadLost_alone_closes h).mgmt, List.append_nil]
    rfl
  · obtain ⟨c, ends, -, pool⟩ := loadLost_loss h
    have same : c.mgmt = b.mgmt := by rw [pool.1]; rfl
    obtain ⟨l, recorded, losses⟩ := record_appends c (lossRecord b i)
    exact ⟨l, by rw [ends, (testReads_closes _).mgmt, recorded, same], fun r hr => by rw [losses r hr]; rfl⟩

theorem loadLost_stays_other {j : BufIdx} (ne : j ≠ i) : LoadStays (b.buf j) ((loadLost b i).buf j) := by
  by_cases h : (b.buf i).alone
  · have put : (b.putBuf i { b.buf i with load := none }).buf j = b.buf j := buf_putBuf_ne _ _ ne
    have freed : Unlinked _ ((freeBuf (failReaders (b.putBuf i { b.buf i with load := none }) i) i).buf j) :=
      ⟨_, by rw [freeBuf_buf, if_neg ne]⟩
    rw [loadLost_alone h, ← put]
    exact ((failReaders_relieves _ i).each j).stays.trans freed.loadStays
  · obtain ⟨c, ends, put, -⟩ := loadLost_loss h
    have same : (record c (lossRecord b i)).buf j = b.buf j := by
      rw [record_buf, put, buf_putBuf_ne _ _ ne]
    rw [ends, ← same]
    exact ((testReads_relieves _).each j).stays

theorem endLostLoad_lossesOnly (b : Bridge) (i : BufIdx) : LossesOnly b (endLostLoad b i) := by
  unfold endLostLoad
  split
  · refine ⟨loadLost_cart b i, loadLost_dm b i, loadLost_records b i, fun j => ?_⟩
    by_cases here : j = i
    · rw [here]
      exact .inl (loadLost_load b i)
    · exact loadLost_stays_other here
  · exact .refl b

theorem foldl_endLostLoad_lossesOnly (l : List BufIdx) (b : Bridge) : LossesOnly b (l.foldl endLostLoad b) :=
  foldl_rel .refl .trans endLostLoad_lossesOnly l b

theorem endLostLoads_lossesOnly (b : Bridge) : LossesOnly b (b.forBufs endLostLoad) :=
  foldl_endLostLoad_lossesOnly allBufs b

/-- The load of the buffer is PENDING, for a sector that translates to LOST. -/
def LoadIsLost (b : Bridge) (i : BufIdx) : Prop :=
  ∃ lsn l, (b.buf i).lsn = some lsn ∧ translate b lsn = some .lost ∧ (b.buf i).load = some l ∧ l.stage = .pending

theorem LoadIsLost.lost (h : LoadIsLost b i) : isLostLoad b i = true := by
  obtain ⟨lsn, l, sector, lost, load, stage⟩ := h
  simp [isLostLoad, loadPending, bufTranslation, load, stage, sector, lost]

theorem LoadIsLost.goes_on {t : Bridge} (h : LoadIsLost b i) (kept : LossesOnly b t) :
    (t.buf i).load = none ∨ LoadIsLost t i := by
  obtain ⟨lsn, l, sector, lost, load, stage⟩ := h
  refine (kept.stays i).imp id fun ⟨lsn', stage'⟩ => ?_
  rw [load] at stage'
  obtain ⟨l', load', same⟩ := Option.map_eq_some_iff.1 stage'
  exact ⟨lsn, l', lsn'.trans sector, (kept.translate lsn).trans lost, load', same.trans stage⟩

theorem LossesOnly.load_none {t : Bridge} (kept : LossesOnly b t) (h : (b.buf i).load = none) : (t.buf i).load = none := by
  rcases kept.stays i with gone | ⟨-, stage⟩
  · exact gone
  · rw [h] at stage
    exact Option.map_eq_none_iff.1 stage

/-- Every LOST load has ended. -/
theorem endLostLoads_ends (h : LoadIsLost b i) : ((b.forBufs endLostLoad).buf i).load = none := by
  obtain ⟨front, back, split⟩ := List.append_of_mem (mem_allBufs i)
  have before := foldl_endLostLoad_lossesOnly front b
  have visited : ((endLostLoad (front.foldl endLostLoad b) i).buf i).load = none := by
    rcases h.goes_on before with gone | lost
    · exact (endLostLoad_lossesOnly _ i).load_none gone
    · rw [endLostLoad, if_pos lost.lost]
      exact loadLost_load _ i
  unfold Bridge.forBufs
  rw [split, List.foldl_append, List.foldl_cons]
  exact (foldl_endLostLoad_lossesOnly back _).load_none visited

end

/-! ### The choice (R89, R90) -/

theorem chooseWork_mem {b : Bridge} {works : List Work} {w : Work} (h : chooseWork b works = some w) : w ∈ works := by
  unfold chooseWork at h
  split at h
  · exact leastBy_mem h
  · rename_i ordinary _
    split at h
    · exact (List.mem_filter.1 (leastBy_mem h)).1
    · exact leastBy_mem h

theorem chooseWork_isSome (b : Bridge) {works : List Work} (h : works ≠ []) : ∃ w, chooseWork b works = some w := by
  unfold chooseWork
  split
  · exact leastBy_isSome _ h
  · rename_i ordinary some
    split
    · exact leastBy_isSome _ some
    · exact leastBy_isSome _ h

/-- A piece of pending work that is no load can be ordered. -/
theorem workOrder_of_pending {b : Bridge} {w : Work} (h : w ∈ pendingWork b) (phase : ∀ i, w ≠ .load i) :
    ∃ kind psa, workOrder b w = some (kind, psa) := by
  have pending := (List.mem_filter.1 h).2
  cases w with
  | load i => exact absurd rfl (phase i)
  | phase i =>
    obtain ⟨⟨kind, psa⟩, order⟩ := Option.isSome_iff_exists.1 ((Bool.or_false _).symm.trans pending)
    exact ⟨kind, psa, order⟩
  | map =>
    obtain ⟨⟨kind, psa⟩, order⟩ := Option.isSome_iff_exists.1 ((Bool.or_false _).symm.trans pending)
    exact ⟨kind, psa, order⟩

/-! ### The grant (R88) -/

section Arbiter
variable {b : Bridge}

/-- The arbiter grants classes 1 to 5 (R88, R150), in the obligation's words. -/
theorem serves_iff : serves b = true ↔ b.cart.state = .ready
    ∨ (b.cart.state = .quiescing ∧ ∀ q, b.cart.quiesce = some q → q.ending = false) := by
  cases h : b.cart.quiesce <;> simp [serves, h]

theorem arbiterStep_of_order (h : b.arb.order.isSome = true) : arbiterStep b = none := if_pos h

theorem arbiterStep_serving (idle : b.arb.order = none) (h : serves b = true) : arbiterStep b = grantServing b := by
  have notBusy : ¬ b.arb.order.isSome = true := by rw [idle]; exact Bool.false_ne_true
  refine (if_neg notBusy).trans ?_
  rcases serves_iff.1 h with hs | ⟨hs, -⟩ <;> rw [hs] <;> exact if_pos h

theorem arbiterStep_quiescing (idle : b.arb.order = none) (hs : b.cart.state = .quiescing) (h : ¬ serves b = true) :
    arbiterStep b = none := by
  have notBusy : ¬ b.arb.order.isSome = true := by rw [idle]; exact Bool.false_ne_true
  refine (if_neg notBusy).trans ?_
  rw [hs]
  exact if_neg h

theorem grantServing_idle (none : pendingWork b = []) : grantServing b = match b.arb.life with
    | some .spinDown => some (issueLife b .spinDown [])
    | some .demandSpinUp => some (dropLife b)
    | _ => Option.none := by
  unfold grantServing
  rw [none]
  refine (if_pos rfl).trans ?_
  cases b.arb.life with
  | none => rfl
  | some o => cases o <;> rfl

theorem grantServing_parked (some : pendingWork b ≠ []) (parked : b.cart.spindle = .parked) :
    grantServing b = Option.some (issueLife (dueSpinUp b) .spinUp []) := by
  rw [grantServing, if_neg fun h => some (List.isEmpty_iff.1 h), if_pos parked]

theorem grantServing_spinning (some : pendingWork b ≠ []) (spinning : b.cart.spindle = .spinning) :
    grantServing b = grantWork (dropLife b) := by
  rw [grantServing, if_neg fun h => some (List.isEmpty_iff.1 h), if_neg fun h => by rw [spinning] at h; cases h]

/-- The grant of a chosen piece of work in the bridge that its order is built in. -/
def granted (b t : Bridge) (w : Work) : Bridge :=
  match workOrder t w with
  | some (kind, psa) => issueWork t w kind psa (nextStreak b (pendingWork b) w)
  | none => t

theorem granted_order {t : Bridge} {w : Work} {kind : OrderKind} {psa : Nat} (h : workOrder t w = some (kind, psa)) :
    granted b t w = issueWork t w kind psa (nextStreak b (pendingWork b) w) := by
  unfold granted
  rw [h]

theorem granted_none {t : Bridge} {w : Work} (h : workOrder t w = none) : granted b t w = t := by
  unfold granted
  rw [h]

theorem grantWork_load {i : BufIdx} (h : chooseWork b (pendingWork b) = some (.load i)) :
    grantWork b = some (granted b (b.forBufs endLostLoad) (.load i)) := by
  unfold grantWork granted
  generalize b.forBufs endLostLoad = t
  dsimp only
  rw [h]
  rfl

theorem grantWork_other {w : Work} (h : chooseWork b (pendingWork b) = some w) (other : ∀ i, w ≠ .load i) :
    grantWork b = some (granted b b w) := by
  unfold grantWork granted
  dsimp only
  rw [h]
  cases w with
  | load i => exact absurd rfl (other i)
  | phase i => rfl
  | map => rfl

/-- The grant of the chosen piece of pending work; a READ is built when every LOST load has ended (R72, R91). -/
theorem grantWork_chosen (some : pendingWork b ≠ []) :
    ∃ w, chooseWork b (pendingWork b) = Option.some w ∧ w ∈ pendingWork b
      ∧ ((∀ i, w ≠ .load i) → ∃ kind psa, workOrder b w = Option.some (kind, psa)
          ∧ grantWork b = Option.some (issueWork b w kind psa (nextStreak b (pendingWork b) w)))
      ∧ ∀ i, w = .load i →
        (∀ kind psa, workOrder (b.forBufs endLostLoad) w = Option.some (kind, psa) →
          grantWork b = Option.some (issueWork (b.forBufs endLostLoad) w kind psa (nextStreak b (pendingWork b) w)))
        ∧ (workOrder (b.forBufs endLostLoad) w = none → grantWork b = Option.some (b.forBufs endLostLoad)) := by
  obtain ⟨w, chosen⟩ := chooseWork_isSome b some
  have mem := chooseWork_mem chosen
  refine ⟨w, chosen, mem, fun other => ?_, fun i load => ?_⟩
  · obtain ⟨kind, psa, order⟩ := workOrder_of_pending mem other
    exact ⟨kind, psa, order, by rw [grantWork_other chosen other, granted_order order]⟩
  · subst load
    rw [grantWork_load chosen]
    exact ⟨fun kind psa order => by rw [granted_order order], fun order => by rw [granted_none order]⟩

/-! ### What follows at the head (R88, R92) -/

theorem headStep_arbiter (waits : b.cart.state = .spinup ∨ b.cart.state = .mounting → b.cart.ejectWaiting = none)
    (hs : b.cart.state ≠ .quiescing) : headStep b = arbiterStep b := by
  refine if_neg ?_
  by_cases h : b.cart.state = .spinup ∨ b.cart.state = .mounting
  · simp [ejectWaits, quiesceEnds, hs, waits h]
  · push Not at h
    simp [ejectWaits, quiesceEnds, hs, h]

theorem headStep_quiesceGoesOn (hs : b.cart.state = .quiescing) (ending : ∀ q, b.cart.quiesce = some q → q.ending = false)
    (unmet : conditionsUnmet b ≠ 0) : headStep b = arbiterStep b := by
  refine headStep_quiescing hs ?_
  cases hq : b.cart.quiesce with
  | none => simpa [quiesceEnds, hq] using fun _ _ => unmet
  | some q => simpa [quiesceEnds, hq, ending q hq] using fun _ _ => unmet

end Arbiter

/-- Settles O38: by the cartridge state, and in READY and QUIESCING by the pending work, the spindle and the choice. -/
theorem grantsFollowTheCartridgeState : Obligations.GrantsFollowTheCartridgeState := by
  unfold Obligations.GrantsFollowTheCartridgeState
  intro b
  dsimp only
  refine ⟨arbiterStep_of_order, fun idle => ?_, headStep_arbiter, headStep_quiesceGoesOn, fun c o => finish_granted,
    fun o => finish_order, fun h => ?_⟩
  · have notBusy : ¬ b.arb.order.isSome = true := by rw [idle]; exact Bool.false_ne_true
    have step : arbiterStep b = _ := if_neg notBusy
    refine ⟨fun hs => ?_, fun hs => ?_, fun hs => ?_, fun hs => ?_, fun hs mount => ?_, fun hs st mount => ?_,
      fun hs h => arbiterStep_quiescing idle hs (mt serves_iff.1 h), fun h none => ?_, fun h some parked => ?_,
      fun h some spinning => ?_⟩
    · rcases hs with hs | hs | hs <;> rw [step, hs]
    · rw [step, hs]; rfl
    · rw [step, hs]; rfl
    · rw [step, hs]; rfl
    · rw [step, hs, mount]; rfl
    · rw [step, hs, mount]
      cases h : st.read <;> simp only [Option.map_some, h] <;> rfl
    · rw [arbiterStep_serving idle (serves_iff.2 h), grantServing_idle none]
      refine ⟨fun life => by rw [life]; rfl, fun life => by rw [life]; rfl, fun down up => ?_⟩
      split
      · rename_i life; exact absurd life down
      · rename_i life; exact absurd life up
      · rfl
    · rw [arbiterStep_serving idle (serves_iff.2 h), grantServing_parked some parked]
      exact ⟨fun due => by rw [dueSpinUp, if_pos due]; rfl, fun due => by rw [dueSpinUp, if_neg due]; rfl⟩
    · rw [arbiterStep_serving idle (serves_iff.2 h), grantServing_spinning some spinning]
      have ended := fun j (lost : LoadIsLost (dropLife b) j) => endLostLoads_ends lost
      have kept := endLostLoads_lossesOnly (dropLife b)
      obtain ⟨w, chosen, mem, other, load⟩ := grantWork_chosen (b := dropLife b) some
      rw [show { b with arb := { b.arb with life := none } } = dropLife b from rfl]
      generalize (dropLife b).forBufs endLostLoad = d at ended kept load ⊢
      refine ⟨w, chosen, mem, other, fun i hw => ⟨(load i hw).1, (load i hw).2, ?_, congrArg CartRecord.hard kept.cart, kept.records⟩⟩
      exact fun j lsn sector lost ⟨l, load, stage⟩ => ended j ⟨lsn, l, sector, lost, load, stage⟩
  · unfold finish
    rw [settle_of_none h]

end Sys2Proof.Machine
end

section
/-! PROOFS. The buffers that READs and WRITEs take (R63, R67, R74 to R76): which one is taken, what becomes of it, and how many
are left. -/

namespace Sys2Proof.Machine

/-! ### The current buffer of a sector (R61) -/

/-- A buffer holds the sector, and its job has not begun to write it. -/
def HoldsOpen (b : Bridge) (lsn : Nat) (i : BufIdx) : Prop := (b.buf i).lsn = some lsn ∧ (b.buf i).state ≠ .committing

theorem find?_open_none {b : Bridge} {lsn : Nat} :
    allBufs.find? (fun i => (b.buf i).lsn == some lsn && (b.buf i).state != .committing) = none
      ↔ ∀ i, ¬ HoldsOpen b lsn i := by
  unfold allBufs
  rw [find?_finRange_eq_none_iff]
  simp [HoldsOpen]

/-- No buffer holds a sector that has no current one. -/
theorem currentBuf_none {b : Bridge} {lsn : Nat} (h : currentBuf b lsn = none) (i : BufIdx) : (b.buf i).lsn ≠ some lsn := by
  unfold currentBuf at h
  split at h
  · cases h
  · rename_i noOpen
    intro sector
    have noCommitting := List.find?_eq_none.1 h i (mem_allBufs i)
    have noOpen := find?_open_none.1 noOpen i
    unfold HoldsOpen at noOpen
    simp_all

/-- A sector whose current buffer is COMMITTING has no other. -/
theorem currentBuf_committing {b : Bridge} {lsn : Nat} {c : BufIdx} (h : currentBuf b lsn = some c)
    (hs : (b.buf c).state = .committing) (i : BufIdx) : ¬ HoldsOpen b lsn i := by
  unfold currentBuf at h
  split at h
  · rename_i j found
    cases h
    have := List.find?_some found
    simp [hs] at this
  · rename_i noOpen
    exact find?_open_none.1 noOpen i

/-- The current buffer is one that holds the sector open, where there is just one such. -/
theorem currentBuf_of_open {b : Bridge} {lsn : Nat} {i : BufIdx} (h : HoldsOpen b lsn i)
    (alone : ∀ j, j ≠ i → ¬ HoldsOpen b lsn j) : currentBuf b lsn = some i := by
  unfold currentBuf
  split
  · rename_i j found
    have holds : HoldsOpen b lsn j := by simpa [HoldsOpen] using List.find?_some found
    by_contra ne
    exact alone j (fun e => ne (by rw [e])) holds
  · rename_i noOpen
    exact absurd h (find?_open_none.1 noOpen i)

/-- The current buffer of a sector is a matter of which buffers hold it, and which of them are COMMITTING. -/
theorem currentBuf_congr {b t : Bridge} {lsn : Nat}
    (sector : ∀ i, (t.buf i).lsn = some lsn ↔ (b.buf i).lsn = some lsn)
    (state : ∀ i, (b.buf i).lsn = some lsn → ((t.buf i).state = .committing ↔ (b.buf i).state = .committing)) :
    currentBuf t lsn = currentBuf b lsn := by
  have opened : (fun i => (t.buf i).lsn == some lsn && (t.buf i).state != .committing)
      = fun i => (b.buf i).lsn == some lsn && (b.buf i).state != .committing := by
    funext i
    rw [Bool.eq_iff_iff]
    simp only [Bool.and_eq_true, beq_iff_eq, bne_iff_ne, sector]
    exact and_congr_right fun h => not_congr (state i h)
  have committing : (fun i => (t.buf i).lsn == some lsn && (t.buf i).state == .committing)
      = fun i => (b.buf i).lsn == some lsn && (b.buf i).state == .committing := by
    funext i
    rw [Bool.eq_iff_iff]
    simp only [Bool.and_eq_true, beq_iff_eq, sector]
    exact and_congr_right fun h => state i h
  unfold currentBuf
  rw [opened, committing]

/-! ### The buffers available to a sector list (R65, R74) -/

/-- The buffer is FREE, or in the eviction order for a sector outside the list. -/
def Available (b : Bridge) (lsns : List Nat) (i : BufIdx) : Prop :=
  (b.buf i).state = .free ∨ (i ∈ b.pool.evict ∧ ∀ n ∈ lsns, (b.buf i).lsn ≠ some n)

theorem mem_freeBufs_iff {b : Bridge} {i : BufIdx} : i ∈ freeBufs b ↔ (b.buf i).state = .free :=
  ⟨mem_freeBufs, fun h => List.mem_filter.2 ⟨mem_allBufs i, by simp [h]⟩⟩

theorem evictable_iff {b : Bridge} {lsns : List Nat} {i : BufIdx} :
    (!(b.buf i).lsn.any fun l => lsns.contains l) = true ↔ ∀ n ∈ lsns, (b.buf i).lsn ≠ some n := by
  cases (b.buf i).lsn with
  | none => simp
  | some l =>
    simp only [Option.any_some, Bool.not_eq_true', List.contains_eq_mem, decide_eq_false_iff_not, ne_eq, Option.some.injEq]
    exact ⟨fun out n mem e => out (e ▸ mem), fun out mem => out l mem rfl⟩

theorem mem_evictableFor {b : Bridge} {lsns : List Nat} {i : BufIdx} :
    i ∈ evictableFor b lsns ↔ i ∈ b.pool.evict ∧ ∀ n ∈ lsns, (b.buf i).lsn ≠ some n := by
  unfold evictableFor
  rw [List.mem_filter, evictable_iff]

/-- The available buffers, as the set that the model counts in two lists. -/
def availableSet (b : Bridge) (lsns : List Nat) : Finset BufIdx := (freeBufs b ++ evictableFor b lsns).toFinset

theorem mem_availableSet {b : Bridge} {lsns : List Nat} {i : BufIdx} : i ∈ availableSet b lsns ↔ Available b lsns i := by
  unfold availableSet Available
  rw [List.mem_toFinset, List.mem_append, mem_freeBufs_iff, mem_evictableFor]

theorem card_availableSet {b : Bridge} (ok : PoolOk b) (lsns : List Nat) : (availableSet b lsns).card = availableFor b lsns := by
  obtain ⟨-, -, once, clean⟩ := ok
  have apart : (freeBufs b).Disjoint (evictableFor b lsns) := by
    intro i free mem
    have := clean i (mem_evictableFor.1 mem).1
    rw [mem_freeBufs free] at this
    cases this
  have nodup : (freeBufs b ++ evictableFor b lsns).Nodup :=
    List.nodup_append'.2 ⟨(List.nodup_finRange 32).filter _, once.filter _, apart⟩
  unfold availableSet availableFor
  rw [List.toFinset_card_of_nodup nodup, List.length_append]

/-- Where one buffer at most stops being available, the count falls by one at most. -/
theorem availableFor_le {b t : Bridge} {lsns : List Nat} {i : BufIdx} (ok : PoolOk b) (ok' : PoolOk t)
    (h : ∀ j, j ≠ i → Available b lsns j → Available t lsns j) : availableFor b lsns ≤ availableFor t lsns + 1 := by
  rw [← card_availableSet ok, ← card_availableSet ok']
  refine (Finset.card_le_card fun j hj => ?_).trans (Finset.card_insert_le i _)
  rw [Finset.mem_insert, mem_availableSet]
  by_cases here : j = i
  · exact .inl here
  · exact .inr (h j here (mem_availableSet.1 hj))

/-! ### Taking one buffer (R63) -/

/-- The pool with a buffer taken: the buffer is FREE and held none of the sectors, and the others lost a link to it at most. -/
structure Taken (lsns : List Nat) (b t : Bridge) (j : BufIdx) : Prop where
  pool  : t = { b with pool := t.pool }
  free  : t.buf j = Buffer.free
  fresh : ∀ n ∈ lsns, (b.buf j).lsn ≠ some n
  other : ∀ i, i ≠ j → Unlinked (b.buf i) (t.buf i)
  evict : t.pool.evict = b.pool.evict.filter (· != j)

section Take
variable {b t : Bridge} {lsns : List Nat} {j : BufIdx}

theorem takeBuffer_free {rest : List BufIdx} (h : freeBufs b = j :: rest) : takeBuffer b lsns = some (b, j) := by
  unfold takeBuffer
  rw [h]

theorem takeBuffer_evicts {rest : List BufIdx} (none : freeBufs b = []) (h : evictableFor b lsns = j :: rest) :
    takeBuffer b lsns = some (freeBuf b j, j) := by
  unfold takeBuffer
  rw [none, h]

theorem takeBuffer_none (none : freeBufs b = []) (h : evictableFor b lsns = []) : takeBuffer b lsns = Option.none := by
  unfold takeBuffer
  rw [none, h]

theorem freeBuf_taken (fresh : ∀ n ∈ lsns, (b.buf j).lsn ≠ some n) : Taken lsns b (freeBuf b j) j :=
  ⟨(freeBuf_poolOnly b j).1, freeBuf_self b j, fresh, fun i ne => ⟨_, by rw [freeBuf_buf, if_neg ne]⟩, freeBuf_evict b j⟩

theorem takeBuffer_taken (ok : PoolOk b) (h : takeBuffer b lsns = some (t, j)) : Taken lsns b t j := by
  cases free : freeBufs b with
  | cons i rest =>
    rw [takeBuffer_free free] at h
    cases h
    have state : (b.buf j).state = .free := mem_freeBufs (by rw [free]; exact List.mem_cons_self)
    have none : j ∉ b.pool.evict := ok.not_evict (by rw [state]; decide)
    refine ⟨rfl, ok.1 j state, fun n _ => (by rw [ok.1 j state]; exact nofun), fun _ _ => .refl _, ?_⟩
    refine (List.filter_eq_self.2 fun a mem => bne_iff_ne.2 fun (e : a = j) => none (e ▸ mem)).symm
  | nil =>
    cases evictable : evictableFor b lsns with
    | nil =>
      rw [takeBuffer_none free evictable] at h
      cases h
    | cons i rest =>
      rw [takeBuffer_evicts free evictable, Option.some.injEq, Prod.mk.injEq] at h
      obtain ⟨rfl, rfl⟩ := h
      exact freeBuf_taken (mem_evictableFor.1 (by rw [evictable]; exact List.mem_cons_self)).2

theorem takeBuffer_isSome (h : 1 ≤ availableFor b lsns) : ∃ t j, takeBuffer b lsns = some (t, j) := by
  cases free : freeBufs b with
  | cons i rest => exact ⟨_, _, takeBuffer_free free⟩
  | nil =>
    cases evictable : evictableFor b lsns with
    | nil =>
      rw [availableFor, free, evictable] at h
      exact absurd h (by decide)
    | cons i rest => exact ⟨_, _, takeBuffer_evicts free evictable⟩

/-- The current buffer of a sector of the list stays what it is. -/
theorem Taken.currentBuf {n : Nat} (h : Taken lsns b t j) (mem : n ∈ lsns) : currentBuf t n = currentBuf b n := by
  have same : ∀ i, i ≠ j → (t.buf i).lsn = (b.buf i).lsn ∧ (t.buf i).state = (b.buf i).state := fun i ne => by
    rw [(h.other i ne).link]
    exact ⟨rfl, rfl⟩
  refine currentBuf_congr (fun i => ?_) fun i sector => ?_
  · by_cases here : i = j
    · subst here
      rw [h.free]
      exact iff_of_false nofun (h.fresh n mem)
    · rw [(same i here).1]
  · have ne : i ≠ j := fun here => h.fresh n mem (here ▸ sector)
    rw [(same i ne).2]

end Take

/-! ### A buffer that is taken for a sector (R67, R74) -/

/-- The pool with a buffer taken and filled in for a sector: of the others only links changed. -/
structure Placed (lsns : List Nat) (lsn : Nat) (b t : Bridge) (j : BufIdx) : Prop where
  pool   : t = { b with pool := t.pool }
  ok     : PoolOk t
  fresh  : ∀ n ∈ lsns, (b.buf j).lsn ≠ some n
  sector : HoldsOpen t lsn j
  other  : ∀ i, i ≠ j → t.buf i = { b.buf i with successor := (t.buf i).successor }
  evict  : t.pool.evict = b.pool.evict.filter (· != j)

namespace Placed
variable {lsns : List Nat} {lsn : Nat} {b t : Bridge} {j : BufIdx}

theorem lsn_eq (h : Placed lsns lsn b t j) {i : BufIdx} (ne : i ≠ j) : (t.buf i).lsn = (b.buf i).lsn := by
  rw [h.other i ne]

theorem state_eq (h : Placed lsns lsn b t j) {i : BufIdx} (ne : i ≠ j) : (t.buf i).state = (b.buf i).state := by
  rw [h.other i ne]

/-- The current buffers of the other sectors of the list stay what they are. -/
theorem currentBuf_other (h : Placed lsns lsn b t j) {n : Nat} (mem : n ∈ lsns) (ne : n ≠ lsn) :
    currentBuf t n = currentBuf b n := by
  refine currentBuf_congr (fun i => ?_) fun i sector => ?_
  · by_cases here : i = j
    · subst here
      rw [h.sector.1]
      exact iff_of_false (fun e => ne (Option.some.inj e).symm) (h.fresh n mem)
    · rw [h.lsn_eq here]
  · rw [h.state_eq fun here => h.fresh n mem (here ▸ sector)]

/-- The buffer is the current one of its sector, where no other holds it open. -/
theorem currentBuf_self (h : Placed lsns lsn b t j) (none : ∀ i, ¬ HoldsOpen b lsn i) : currentBuf t lsn = some j := by
  refine currentBuf_of_open h.sector fun i ne => ?_
  unfold HoldsOpen
  rw [h.lsn_eq ne, h.state_eq ne]
  exact none i

theorem availableFor_le (h : Placed lsns lsn b t j) (ok : PoolOk b) : availableFor b lsns ≤ availableFor t lsns + 1 := by
  refine Machine.availableFor_le (i := j) ok h.ok fun i ne => ?_
  unfold Available
  rw [h.lsn_eq ne, h.state_eq ne, h.evict]
  exact Or.imp_right fun ⟨mem, out⟩ => ⟨List.mem_filter.2 ⟨mem, bne_iff_ne.2 ne⟩, out⟩

end Placed

/-! ### The buffers that a WRITE takes (R74, R76) -/

section TakeForWrite
variable {b : Bridge} {lsns : List Nat} {lsn : Nat}

theorem needsBuffer_none (h : currentBuf b lsn = none) : needsBuffer b lsn = true := by
  rw [needsBuffer, h]

theorem needsBuffer_some {c : BufIdx} (h : currentBuf b lsn = some c) :
    needsBuffer b lsn = true ↔ (b.buf c).state = .committing := by
  rw [needsBuffer, h]
  exact beq_iff_eq

theorem takeForWrite_not (h : ¬ needsBuffer b lsn = true) : takeForWrite lsns b lsn = b := if_neg h

/-- No buffer holds open a sector that needs one. -/
theorem needsBuffer_closed (h : needsBuffer b lsn = true) (i : BufIdx) : ¬ HoldsOpen b lsn i := by
  cases hc : currentBuf b lsn with
  | none => exact fun holds => currentBuf_none hc i holds.1
  | some c => exact currentBuf_committing hc ((needsBuffer_some hc).1 h) i

/-- The successor record of a COMMITTING buffer (R76). -/
def Buffer.nextOf (lsn : Nat) (x : Buffer) : Buffer :=
  { Buffer.free with state := .opened, lsn := some lsn, data := x.data, valid := x.valid, dirty := x.dirty, lost := x.lost }

theorem takeForWrite_new {t : Bridge} {j : BufIdx} (ok : PoolOk b) (mem : lsn ∈ lsns) (h : currentBuf b lsn = none)
    (take : takeBuffer b lsns = some (t, j)) :
    takeForWrite lsns b lsn = t.putBuf j { Buffer.free with state := .opened, lsn := some lsn } := by
  have same := (takeBuffer_taken ok take).currentBuf mem
  unfold takeForWrite
  rw [if_pos (needsBuffer_none h), take]
  dsimp only
  rw [same, h]

theorem takeForWrite_successor {t : Bridge} {c j : BufIdx} (ok : PoolOk b) (mem : lsn ∈ lsns)
    (h : currentBuf b lsn = some c) (hs : (b.buf c).state = .committing) (take : takeBuffer b lsns = some (t, j)) :
    takeForWrite lsns b lsn = (t.putBuf c { t.buf c with successor := some j }).putBuf j ((t.buf c).nextOf lsn) := by
  have same := (takeBuffer_taken ok take).currentBuf mem
  unfold takeForWrite
  rw [if_pos ((needsBuffer_some h).2 hs), take]
  dsimp only
  rw [same, h]
  rfl

theorem takeForWrite_ok (ok : PoolOk b) : PoolOk (takeForWrite lsns b lsn) := (takeForWrite_orderly lsns b lsn).keeps ok

/-- A sector that has no buffer takes one. -/
theorem takeForWrite_places_new (ok : PoolOk b) (mem : lsn ∈ lsns) (room : 1 ≤ availableFor b lsns)
    (h : currentBuf b lsn = none) : ∃ j, Placed lsns lsn b (takeForWrite lsns b lsn) j
      ∧ (takeForWrite lsns b lsn).buf j = { Buffer.free with state := .opened, lsn := some lsn } := by
  obtain ⟨t, j, take⟩ := takeBuffer_isSome room
  have taken := takeBuffer_taken ok take
  have ends := takeForWrite_new ok mem h take
  have here : (takeForWrite lsns b lsn).buf j = { Buffer.free with state := .opened, lsn := some lsn } := by
    rw [ends, buf_putBuf_self]
  refine ⟨j, ⟨?_, takeForWrite_ok ok, taken.fresh, ?_, fun i ne => ?_, ?_⟩, here⟩
  · rw [ends, taken.pool]
    rfl
  · rw [HoldsOpen, here]
    exact ⟨rfl, nofun⟩
  · rw [ends, buf_putBuf_ne _ _ ne]
    exact (taken.other i ne).link
  · rw [ends]
    exact taken.evict

/-- A sector whose buffer is COMMITTING takes its successor, a copy. -/
theorem takeForWrite_places_successor {c : BufIdx} (ok : PoolOk b) (mem : lsn ∈ lsns) (room : 1 ≤ availableFor b lsns)
    (h : currentBuf b lsn = some c) (hs : (b.buf c).state = .committing) :
    ∃ j, j ≠ c ∧ Placed lsns lsn b (takeForWrite lsns b lsn) j
      ∧ (takeForWrite lsns b lsn).buf c = { b.buf c with successor := some j }
      ∧ (takeForWrite lsns b lsn).buf j = (b.buf c).nextOf lsn := by
  obtain ⟨t, j, take⟩ := takeBuffer_isSome room
  have taken := takeBuffer_taken ok take
  have ends := takeForWrite_successor ok mem h hs take
  have ne : c ≠ j := fun e => taken.fresh lsn mem (e ▸ currentBuf_lsn h)
  have copied := (taken.other c ne).link
  have here : (takeForWrite lsns b lsn).buf j = (b.buf c).nextOf lsn := by
    rw [ends, buf_putBuf_self, copied]
    rfl
  have linked : (takeForWrite lsns b lsn).buf c = { b.buf c with successor := some j } := by
    rw [ends, buf_putBuf_ne _ _ ne, buf_putBuf_self, copied]
  refine ⟨j, ne.symm, ⟨?_, takeForWrite_ok ok, taken.fresh, ?_, fun i apart => ?_, ?_⟩, linked, here⟩
  · rw [ends, taken.pool]
    rfl
  · rw [HoldsOpen, here]
    exact ⟨rfl, nofun⟩
  · by_cases hc : i = c
    · rw [hc, linked]
    · rw [ends, buf_putBuf_ne _ _ apart, buf_putBuf_ne _ _ hc]
      exact (taken.other i apart).link
  · rw [ends]
    exact taken.evict

theorem takeForWrite_places (ok : PoolOk b) (mem : lsn ∈ lsns) (room : 1 ≤ availableFor b lsns)
    (h : needsBuffer b lsn = true) : ∃ j, Placed lsns lsn b (takeForWrite lsns b lsn) j := by
  cases hc : currentBuf b lsn with
  | none =>
    obtain ⟨j, placed, -⟩ := takeForWrite_places_new ok mem room hc
    exact ⟨j, placed⟩
  | some c =>
    obtain ⟨j, -, placed, -⟩ := takeForWrite_places_successor ok mem room hc ((needsBuffer_some hc).1 h)
    exact ⟨j, placed⟩

/-- Afterwards the sector needs no buffer, and the others of the list are as they were. -/
theorem Placed.needsBuffer_self {t : Bridge} {j : BufIdx} (h : Placed lsns lsn b t j) (need : needsBuffer b lsn = true) :
    needsBuffer t lsn = false := by
  rw [← Bool.not_eq_true, needsBuffer_some (h.currentBuf_self (needsBuffer_closed need))]
  exact h.sector.2

theorem Placed.needsBuffer_other {t : Bridge} {j : BufIdx} (h : Placed lsns lsn b t j) {n : Nat} (mem : n ∈ lsns)
    (ne : n ≠ lsn) : needsBuffer t n = needsBuffer b n := by
  have same := h.currentBuf_other mem ne
  unfold needsBuffer
  rw [same]
  cases hc : Machine.currentBuf b n with
  | none => rfl
  | some c =>
    have apart : c ≠ j := fun e => h.fresh n mem (e ▸ currentBuf_lsn hc)
    dsimp only
    rw [h.state_eq apart]

/-- What the taking for sectors of the list leaves: room for those to come, and no need where it has been. -/
theorem foldl_takeForWrite (l : List Nat) : ∀ b : Bridge, PoolOk b → l ⊆ lsns → l.Nodup →
    (l.filter (needsBuffer b)).length ≤ availableFor b lsns →
    (∀ n ∈ l, needsBuffer (l.foldl (takeForWrite lsns) b) n = false)
    ∧ (∀ n ∈ lsns, n ∉ l → needsBuffer (l.foldl (takeForWrite lsns) b) n = needsBuffer b n)
    ∧ (l.foldl (takeForWrite lsns) b).clock = b.clock := by
  induction l with
  | nil => exact fun b _ _ _ _ => ⟨fun _ h => absurd h List.not_mem_nil, fun _ _ _ => rfl, rfl⟩
  | cons lsn l ih =>
    intro b ok sub nd room
    obtain ⟨mem, sub⟩ := List.cons_subset.1 sub
    obtain ⟨new, nd⟩ := List.nodup_cons.1 nd
    have step : ∃ t, takeForWrite lsns b lsn = t ∧ PoolOk t ∧ t.clock = b.clock ∧ needsBuffer t lsn = false
        ∧ (∀ n ∈ lsns, n ≠ lsn → needsBuffer t n = needsBuffer b n)
        ∧ (l.filter (needsBuffer b)).length ≤ availableFor t lsns := by
      by_cases need : needsBuffer b lsn = true
      · rw [List.filter_cons_of_pos need, List.length_cons] at room
        obtain ⟨j, placed⟩ := takeForWrite_places ok mem (by omega) need
        have fewer := placed.availableFor_le ok
        exact ⟨_, rfl, placed.ok, by rw [placed.pool], placed.needsBuffer_self need, fun n hn => placed.needsBuffer_other hn,
          by omega⟩
      · rw [List.filter_cons_of_neg need] at room
        exact ⟨b, takeForWrite_not need, ok, rfl, by simpa using need, fun _ _ _ => rfl, room⟩
    obtain ⟨t, ht, ok', clock, done, others, room'⟩ := step
    have same : l.filter (needsBuffer t) = l.filter (needsBuffer b) :=
      List.filter_congr fun n hn => others n (sub hn) fun e => new (e ▸ hn)
    obtain ⟨served, kept, clock'⟩ := ih t ok' sub nd (by rw [same]; exact room')
    rw [List.foldl_cons, ht]
    refine ⟨fun n hn => ?_, fun n hn out => ?_, clock'.trans clock⟩
    · by_cases here : n ∈ l
      · exact served n here
      · rw [(List.mem_cons.1 hn).resolve_right here, kept lsn mem new, done]
    · obtain ⟨ne, out⟩ := List.ne_and_not_mem_of_not_mem_cons out
      rw [kept n hn out, others n hn ne]

end TakeForWrite

/-! ### The merges of a WRITE (R75) -/

section Merges
variable {cb n : Nat} {data : List Block} {b : Bridge} {lsn : Nat} {i : BufIdx}

/-- The buffer holds the sector's blocks of the request, written now. -/
def Written (now : Clock) (cb n : Nat) (data : List Block) (lsn : Nat) (x : Buffer) : Prop :=
  x.lastWrite = some now ∧ ∀ q : Fin 4, cb ≤ 4 * lsn + q.val ∧ 4 * lsn + q.val < cb + n →
    x.data[q] = data.getD (4 * lsn + q.val - cb) 0 ∧ hasQuarter x.valid q = true ∧ hasQuarter x.dirty q = true
      ∧ hasQuarter x.lost q = false

theorem sectorMerged_committing : (sectorMerged cb n data b lsn i).state = .committing ↔ (b.buf i).state = .committing := by
  unfold sectorMerged mergedBuffer
  cases h : (b.buf i).state <;> simp
  split <;> simp

theorem mergeSector_clock : (mergeSector cb n data b lsn).clock = b.clock := by
  unfold mergeSector
  split
  · rfl
  · dsimp only
    split <;> rfl

theorem mergeSector_absent (h : currentBuf b lsn = none) : mergeSector cb n data b lsn = b := by
  unfold mergeSector
  rw [h]

/-- A merge changes no sector's current buffer. -/
theorem mergeSector_currentBuf (m : Nat) : currentBuf (mergeSector cb n data b lsn) m = currentBuf b m := by
  cases hc : currentBuf b lsn with
  | none => rw [mergeSector_absent hc]
  | some i =>
    refine currentBuf_congr (fun j => ?_) fun j _ => ?_
    · rw [mergeSector_buf hc]
      split
      · rename_i here
        rw [sectorMerged_lsn, here]
      · rfl
    · rw [mergeSector_buf hc]
      split
      · rename_i here
        rw [here, sectorMerged_committing]
      · rfl

theorem mergeSector_buf_ne {m : Nat} (ne : m ≠ lsn) (h : currentBuf b m = some i) :
    (mergeSector cb n data b lsn).buf i = b.buf i := by
  cases hc : currentBuf b lsn with
  | none => rw [mergeSector_absent hc]
  | some j =>
    rw [mergeSector_buf hc, if_neg]
    intro e
    have sector := currentBuf_lsn h
    rw [e, currentBuf_lsn hc] at sector
    exact ne (Option.some.inj sector).symm

theorem mergeSector_written (h : currentBuf b lsn = some i) :
    Written b.clock cb n data lsn ((mergeSector cb n data b lsn).buf i) := by
  rw [mergeSector_buf h, if_pos rfl]
  exact ⟨sectorMerged_lastWrite, fun q hq => sectorMerged_written hq⟩

theorem foldl_mergeSector (l : List Nat) : ∀ b : Bridge, l.Nodup →
    (∀ m, currentBuf (l.foldl (mergeSector cb n data) b) m = currentBuf b m)
    ∧ (∀ m i, currentBuf b m = some i → m ∉ l → (l.foldl (mergeSector cb n data) b).buf i = b.buf i)
    ∧ ∀ m ∈ l, ∀ i, currentBuf b m = some i → Written b.clock cb n data m ((l.foldl (mergeSector cb n data) b).buf i) := by
  induction l with
  | nil => exact fun b _ => ⟨fun _ => rfl, fun _ _ _ _ => rfl, fun _ h => absurd h List.not_mem_nil⟩
  | cons lsn l ih =>
    intro b nd
    obtain ⟨new, nd⟩ := List.nodup_cons.1 nd
    obtain ⟨current, kept, written⟩ := ih (mergeSector cb n data b lsn) nd
    have same := fun m => mergeSector_currentBuf (cb := cb) (n := n) (data := data) (b := b) (lsn := lsn) m
    rw [mergeSector_clock] at written
    simp only [List.foldl_cons]
    refine ⟨fun m => (current m).trans (same m), fun m i hm out => ?_, fun m hm i hi => ?_⟩
    · obtain ⟨ne, out⟩ := List.ne_and_not_mem_of_not_mem_cons out
      rw [kept m i ((same m).trans hm) out, mergeSector_buf_ne ne hm]
    · by_cases here : m ∈ l
      · exact written m here i ((same m).trans hi)
      · obtain rfl := (List.mem_cons.1 hm).resolve_right here
        rw [kept m i ((same m).trans hi) here]
        exact mergeSector_written hi

end Merges

/-- After the admission every sector of the WRITE has a current buffer with its blocks (R74, R75). -/
theorem admitWrite_written {b : Bridge} {cb n : Nat} {data : List Block} (ok : PoolOk b)
    (room : ((sectorList cb n).filter (needsBuffer b)).length ≤ availableFor b (sectorList cb n)) {lsn : Nat}
    (mem : lsn ∈ sectorList cb n) : ∃ i, currentBuf (admitWrite b cb n data) lsn = some i
      ∧ Written b.clock cb n data lsn ((admitWrite b cb n data).buf i) := by
  have nodup : (sectorList cb n).Nodup := (sectorList_ascending cb n).imp fun h => Nat.ne_of_lt h
  obtain ⟨served, -, clock⟩ := foldl_takeForWrite (sectorList cb n) b ok (fun _ h => h) nodup room
  obtain ⟨current, -, written⟩ := foldl_mergeSector (cb := cb) (n := n) (data := data) (sectorList cb n)
    ((sectorList cb n).foldl (takeForWrite (sectorList cb n)) b) nodup
  have has := served lsn mem
  rw [clock] at written
  cases hc : currentBuf ((sectorList cb n).foldl (takeForWrite (sectorList cb n)) b) lsn with
  | none =>
    rw [needsBuffer_none hc] at has
    cases has
  | some i => exact ⟨i, (current lsn).trans hc, written lsn mem i hc⟩

/-! ### The eviction order (R63) -/

section Evict
variable {b : Bridge} {i : BufIdx}

/-- A buffer may join the eviction order. -/
theorem joins_iff : ((b.buf i).state = .clean ∧ pinCount b i = 0 ∧ i ∉ b.pool.evict)
    ↔ (b.buf i).state = .clean ∧ (∀ k e, b.entry k = some e → i ∉ e.pinned) ∧ i ∉ b.pool.evict := by
  rw [pinCount_eq_zero_iff]
  simp only [← Bool.not_eq_true, List.contains_iff_mem]

theorem freeBufs_lowest (free : (b.buf i).state = .free) (lowest : ∀ j, j < i → (b.buf j).state ≠ .free) :
    ∃ rest, freeBufs b = i :: rest := by
  have first : (freeBufs b).head? = some i := by
    unfold freeBufs allBufs
    rw [List.head?_filter, find?_finRange_eq_some_iff]
    exact ⟨beq_iff_eq.2 free, fun j lt => beq_false_of_ne (lowest j lt)⟩
  cases h : freeBufs b with
  | nil =>
    rw [h] at first
    cases first
  | cons j rest =>
    rw [h] at first
    cases first
    exact ⟨rest, rfl⟩

theorem evictableFor_oldest {lsns : List Nat} {front back : List BufIdx} (h : b.pool.evict = front ++ i :: back)
    (taken : ∀ j ∈ front, ∃ n ∈ lsns, (b.buf j).lsn = some n) (fresh : ∀ n ∈ lsns, (b.buf i).lsn ≠ some n) :
    ∃ rest, evictableFor b lsns = i :: rest := by
  unfold evictableFor
  rw [h, List.filter_append, List.filter_eq_nil_iff.2, List.nil_append, List.filter_cons_of_pos]
  · exact ⟨_, rfl⟩
  · exact evictable_iff.2 fresh
  · intro j mem
    obtain ⟨n, hn, sector⟩ := taken j mem
    exact fun out => evictable_iff.1 out n hn sector

theorem evictableFor_nil {lsns : List Nat} (h : ∀ i ∈ b.pool.evict, ∃ n ∈ lsns, (b.buf i).lsn = some n) :
    evictableFor b lsns = [] := by
  rw [List.eq_nil_iff_forall_not_mem]
  intro i mem
  obtain ⟨inEvict, out⟩ := mem_evictableFor.1 mem
  obtain ⟨n, hn, sector⟩ := h i inEvict
  exact out n hn sector

end Evict

theorem Buffer.keepLink_ne (x : Buffer) (i : BufIdx) :
    x.keepLink (· != i) = { x with successor := if x.successor = some i then none else x.successor } := by
  unfold Buffer.keepLink
  cases x.successor with
  | none => rfl
  | some j => by_cases h : j = i <;> simp [h]

/-- Settles O20: by what `takeBuffer` takes, what `takeForWrite` makes of it, and the two passes of the admission. -/
theorem buffersAreTakenForTheSectorsThatNeedThem : Obligations.BuffersAreTakenForTheSectorsThatNeedThem := by
  unfold Obligations.BuffersAreTakenForTheSectorsThatNeedThem
  refine ⟨fun b lsns => ⟨fun i free lowest => ?_, fun none => ?_⟩, fun b i => ?_, fun b lsns lsn ok mem room => ?_,
    fun b cb n data ok _ room lsn mem => ?_⟩
  · obtain ⟨rest, first⟩ := freeBufs_lowest free lowest
    exact takeBuffer_free first
  · have noFree : freeBufs b = [] := by
      rw [List.eq_nil_iff_forall_not_mem]
      exact fun i mem => none i (mem_freeBufs mem)
    refine ⟨fun front i back order taken fresh => ?_, fun all => takeBuffer_none noFree (evictableFor_nil all)⟩
    obtain ⟨rest, first⟩ := evictableFor_oldest order taken fresh
    refine ⟨freeBuf b i, takeBuffer_evicts noFree first, freeBuf_self b i, freeBuf_evict b i, fun j ne => ?_⟩
    rw [freeBuf_buf, if_neg ne, Buffer.keepLink_ne]
  · exact ⟨fun h => if_pos (joins_iff.2 h), fun h => if_neg fun joins => h (joins_iff.1 joins)⟩
  · refine ⟨fun none => ?_, fun c current => ⟨fun other => ?_, fun committing => ?_⟩⟩
    · obtain ⟨j, placed, here⟩ := takeForWrite_places_new ok mem room none
      exact ⟨j, placed.currentBuf_self (needsBuffer_closed (needsBuffer_none none)), here⟩
    · exact takeForWrite_not fun need => other ((needsBuffer_some current).1 need)
    · obtain ⟨j, ne, placed, linked, here⟩ := takeForWrite_places_successor ok mem room current committing
      exact ⟨j, placed.currentBuf_self (currentBuf_committing current committing), ne, linked, here⟩
  · exact admitWrite_written ok room mem

end Sys2Proof.Machine
end

section
/-! PROOFS. The reservation queue and its grants (R65 to R67): the place of a READ, the head, and what a grant pins. -/

namespace Sys2Proof.Machine

/-! ### The order of the queue (R66) -/

section Queue
variable (b : Bridge)

/-- The distance of the deadline expiry of an entry, where it has one (R66). -/
def distance (k : Key) : Option Int := ((b.entry k).bind fun e => e.deadline).map (ahead b.clock)

/-- The entry's expiry, if any, comes no later than the other's. -/
def NoLater (i j : Key) : Prop := ∀ y, distance b j = some y → ∃ x, distance b i = some x ∧ x ≤ y

variable {b}

theorem NoLater.trans {i j k : Key} (h : NoLater b i j) (h' : NoLater b j k) : NoLater b i k := by
  intro z hz
  obtain ⟨y, hy, le'⟩ := h' z hz
  obtain ⟨x, hx, le⟩ := h y hy
  exact ⟨x, hx, le.trans le'⟩

/-- A READ is placed after those whose expiry is no later. -/
theorem queuesAfter_iff {k j : Key} : queuesAfter b k j = true ↔ NoLater b j k := by
  unfold queuesAfter NoLater distance
  change (match (b.entry k).bind Entry.deadline, (b.entry j).bind Entry.deadline with
    | some d, some d' => decide (ahead b.clock d' ≤ ahead b.clock d)
    | some _, none => false
    | none, _ => true) = true ↔ ∀ y, ((b.entry k).bind Entry.deadline).map (ahead b.clock) = some y →
      ∃ x, ((b.entry j).bind Entry.deadline).map (ahead b.clock) = some x ∧ x ≤ y
  cases (b.entry k).bind Entry.deadline <;> cases (b.entry j).bind Entry.deadline <;> simp

theorem noLater_of_not {k j : Key} (h : ¬ queuesAfter b k j = true) : NoLater b k j := by
  rw [queuesAfter_iff] at h
  unfold NoLater at h ⊢
  push Not at h
  obtain ⟨x, hx, later⟩ := h
  exact fun y hy => ⟨x, hx, (later y hy).le⟩

theorem queuesAfter_all {k : Key} (h : distance b k = none) (j : Key) : queuesAfter b k j = true :=
  queuesAfter_iff.2 fun y hy => by rw [h] at hy; cases hy

theorem insertReservation_last {k : Key} (h : distance b k = none) :
    (insertReservation b k).pool.resQueue = b.pool.resQueue ++ [k] := by
  have all : ∀ j ∈ b.pool.resQueue, queuesAfter b k j = true := fun j _ => queuesAfter_all h j
  unfold insertReservation
  rw [List.takeWhile_eq_self_iff.2 all, List.dropWhile_eq_nil_iff.2 all]

/-- The READs behind the place of one come later. -/
theorem dropWhile_head {k j : Key} {rest q : List Key} (h : q.dropWhile (queuesAfter b k) = j :: rest) :
    ¬ queuesAfter b k j = true := by
  have none : q.dropWhile (queuesAfter b k) ≠ [] := by rw [h]; exact List.cons_ne_nil _ _
  have head := List.head_dropWhile_not (queuesAfter b k) none
  simp only [h, List.head_cons] at head
  rw [head]
  exact Bool.false_ne_true

theorem insertReservation_pairwise {k : Key} (h : b.pool.resQueue.Pairwise (NoLater b)) :
    (insertReservation b k).pool.resQueue.Pairwise (NoLater b) := by
  have whole := List.takeWhile_append_dropWhile (p := queuesAfter b k) (l := b.pool.resQueue)
  rw [← whole, List.pairwise_append] at h
  obtain ⟨front, back, across⟩ := h
  have before : ∀ i ∈ b.pool.resQueue.takeWhile (queuesAfter b k), NoLater b i k := fun i mem =>
    queuesAfter_iff.1 (List.mem_takeWhile_imp mem)
  have behind : ∀ j ∈ b.pool.resQueue.dropWhile (queuesAfter b k), NoLater b k j := by
    cases hd : b.pool.resQueue.dropWhile (queuesAfter b k) with
    | nil => exact fun _ mem => absurd mem List.not_mem_nil
    | cons j rest =>
      have head := noLater_of_not (dropWhile_head hd)
      rw [hd, List.pairwise_cons] at back
      intro i mem
      rcases List.mem_cons.1 mem with rfl | mem
      · exact head
      · exact head.trans (back.1 i mem)
  exact List.pairwise_append.2 ⟨front, List.pairwise_cons.2 ⟨behind, back⟩, fun i hi j hj =>
    (List.mem_cons.1 hj).elim (fun e => e ▸ before i hi) (across i hi j)⟩

end Queue

/-! ### The operations of a grant, one sector at a time (R67) -/

section Grant
variable {b : Bridge} {lsns : List Nat} {k : Key} {e : Entry}

theorem leaveEvict_currentBuf (i : BufIdx) (n : Nat) : currentBuf (leaveEvict b i) n = currentBuf b n := rfl

/-- What step 1 leaves: the records as they are, and the current buffers of the sectors out of the eviction order. -/
theorem foldl_grantExisting (l : List Nat) : ∀ b : Bridge, (l.foldl grantExisting b).pool.buffers = b.pool.buffers
    ∧ l.foldl grantExisting b = { b with pool := (l.foldl grantExisting b).pool }
    ∧ (l.foldl grantExisting b).pool.resQueue = b.pool.resQueue
    ∧ ∀ i, i ∈ (l.foldl grantExisting b).pool.evict ↔ i ∈ b.pool.evict ∧ ∀ n ∈ l, currentBuf b n ≠ some i := by
  induction l with
  | nil => exact fun b => ⟨rfl, rfl, rfl, fun i => ⟨fun h => ⟨h, fun _ h => absurd h List.not_mem_nil⟩, And.left⟩⟩
  | cons n l ih =>
    intro b
    cases hc : currentBuf b n with
    | none =>
      have step : grantExisting b n = b := by rw [grantExisting, hc]
      rw [List.foldl_cons, step]
      simpa [hc] using ih b
    | some j =>
      have step : grantExisting b n = leaveEvict b j := by rw [grantExisting, hc]
      obtain ⟨buffers, rest, queue, evict⟩ := ih (leaveEvict b j)
      rw [List.foldl_cons, step]
      refine ⟨buffers, rest, queue, fun i => ?_⟩
      rw [evict i]
      have left : i ∈ (leaveEvict b j).pool.evict ↔ i ∈ b.pool.evict ∧ i ≠ j := by
        unfold leaveEvict
        rw [List.mem_filter, bne_iff_ne]
      simp only [leaveEvict_currentBuf, left, List.forall_mem_cons, hc, ne_eq, Option.some.injEq]
      rw [and_assoc, eq_comm (a := i)]

theorem foldl_grantExisting_buf (l : List Nat) (b : Bridge) (i : BufIdx) : (l.foldl grantExisting b).buf i = b.buf i :=
  buf_congr (foldl_grantExisting l b).1 i

theorem foldl_grantExisting_currentBuf (l : List Nat) (b : Bridge) (n : Nat) :
    currentBuf (l.foldl grantExisting b) n = currentBuf b n := by
  refine currentBuf_congr (fun i => ?_) fun i _ => ?_ <;> rw [foldl_grantExisting_buf]

theorem foldl_grantExisting_ok (l : List Nat) (ok : PoolOk b) : PoolOk (l.foldl grantExisting b) :=
  (Orderly.foldl grantExisting_orderly l b).keeps ok

/-- No buffer that is available to the READ leaves the eviction order in step 1. -/
theorem foldl_grantExisting_available (l : List Nat) (ok : PoolOk b) :
    availableFor b l ≤ availableFor (l.foldl grantExisting b) l := by
  rw [← card_availableSet ok, ← card_availableSet (foldl_grantExisting_ok l ok)]
  refine Finset.card_le_card fun i => ?_
  rw [mem_availableSet, mem_availableSet, Available, Available, foldl_grantExisting_buf, (foldl_grantExisting l b).2.2.2]
  exact Or.imp_right fun ⟨mem, out⟩ => ⟨⟨mem, fun n hn current => out n hn (currentBuf_lsn current)⟩, out⟩

/-- The record of a buffer that a READ takes for a sector (R67). -/
def Buffer.loadingFor (n : Nat) : Buffer := { Buffer.free with state := .loading, lsn := some n }

theorem grantNew_present {n : Nat} {i : BufIdx} (h : currentBuf b n = some i) : grantNew lsns b n = b := by
  unfold grantNew
  rw [h]

theorem grantNew_places {n : Nat} (ok : PoolOk b) (room : 1 ≤ availableFor b lsns) (h : currentBuf b n = none) :
    ∃ j, Placed lsns n b (grantNew lsns b n) j ∧ (grantNew lsns b n).buf j = Buffer.loadingFor n := by
  obtain ⟨t, j, take⟩ := takeBuffer_isSome room
  have taken := takeBuffer_taken ok take
  have ends : grantNew lsns b n = t.putBuf j (Buffer.loadingFor n) := by
    unfold grantNew
    rw [h]
    dsimp only
    rw [take]
    rfl
  have here : (grantNew lsns b n).buf j = Buffer.loadingFor n := by rw [ends, buf_putBuf_self]
  refine ⟨j, ⟨?_, (grantNew_orderly lsns b n).keeps ok, taken.fresh, ?_, fun i ne => ?_, ?_⟩, here⟩
  · rw [ends, taken.pool]
    rfl
  · rw [HoldsOpen, here]
    exact ⟨rfl, nofun⟩
  · rw [ends, buf_putBuf_ne _ _ ne]
    exact (taken.other i ne).link
  · rw [ends]
    exact taken.evict

/-- A record keeps all but its successor link. -/
def Relinked (x y : Buffer) : Prop := y = { x with successor := y.successor }

theorem Relinked.refl (x : Buffer) : Relinked x x := rfl

theorem Relinked.trans {x y z : Buffer} (h : Relinked x y) (h' : Relinked y z) : Relinked x z := by
  unfold Relinked at h h' ⊢
  rw [h', h]

/-- What step 2 leaves for the sectors it has come to. -/
structure BuffersFor (lsns l : List Nat) (b t : Bridge) : Prop where
  ok    : PoolOk t
  evict : ∀ i ∈ t.pool.evict, i ∈ b.pool.evict
  kept  : ∀ n ∈ lsns, ∀ i, currentBuf b n = some i → currentBuf t n = some i ∧ Relinked (b.buf i) (t.buf i)
  made  : ∀ n ∈ l, currentBuf b n = none → ∃ i, currentBuf t n = some i ∧ Relinked (Buffer.loadingFor n) (t.buf i)

theorem foldl_grantNew (l : List Nat) : ∀ b : Bridge, PoolOk b → l ⊆ lsns → l.Nodup →
    (l.filter fun n => (currentBuf b n).isNone).length ≤ availableFor b lsns →
    BuffersFor lsns l b (l.foldl (grantNew lsns) b) := by
  induction l with
  | nil =>
    exact fun b ok _ _ _ => ⟨ok, fun _ h => h, fun _ _ _ h => ⟨h, .refl _⟩, fun _ h => absurd h List.not_mem_nil⟩
  | cons n l ih =>
    intro b ok sub nd room
    obtain ⟨mem, sub⟩ := List.cons_subset.1 sub
    obtain ⟨new, nd⟩ := List.nodup_cons.1 nd
    rw [List.foldl_cons]
    cases hc : currentBuf b n with
    | some i =>
      rw [List.filter_cons_of_neg (by rw [hc]; exact Bool.false_ne_true)] at room
      rw [grantNew_present hc]
      obtain ⟨ok', evict, kept, made⟩ := ih b ok sub nd room
      refine ⟨ok', evict, kept, fun m hm none => ?_⟩
      refine made m ((List.mem_cons.1 hm).resolve_left fun here => ?_) none
      rw [here, hc] at none
      cases none
    | none =>
      rw [List.filter_cons_of_pos (by rw [hc]; rfl), List.length_cons] at room
      obtain ⟨j, placed, here⟩ := grantNew_places (lsns := lsns) ok (by omega) hc
      have fewer := placed.availableFor_le ok
      have current := placed.currentBuf_self fun i holds => currentBuf_none hc i holds.1
      have same : ∀ m ∈ l, currentBuf (grantNew lsns b n) m = currentBuf b m := fun m hm =>
        placed.currentBuf_other (sub hm) fun e => new (e ▸ hm)
      have filters : l.filter (fun m => (currentBuf (grantNew lsns b n) m).isNone)
          = l.filter fun m => (currentBuf b m).isNone := List.filter_congr fun m hm => by rw [same m hm]
      obtain ⟨ok', evict, kept, made⟩ := ih (grantNew lsns b n) placed.ok sub nd (by rw [filters]; omega)
      refine ⟨ok', fun i hi => ?_, fun m hm i hi => ?_, fun m hm none => ?_⟩
      · have mem := evict i hi
        rw [placed.evict] at mem
        exact (List.mem_filter.1 mem).1
      · have ne : m ≠ n := fun e => by rw [e, hc] at hi; cases hi
        obtain ⟨current', linked⟩ := kept m hm i ((placed.currentBuf_other hm ne).trans hi)
        have apart : i ≠ j := fun e => placed.fresh m hm (e ▸ currentBuf_lsn hi)
        have link : Relinked (b.buf i) ((grantNew lsns b n).buf i) := placed.other i apart
        exact ⟨current', link.trans linked⟩
      · by_cases here' : m ∈ l
        · exact made m here' ((same m here').trans none)
        · obtain rfl := (List.mem_cons.1 hm).resolve_right here'
          obtain ⟨current', linked⟩ := kept m mem j current
          rw [here] at linked
          exact ⟨j, current', linked⟩

/-! ### The loads of a grant (R67, R70) -/

/-- The READ is a reader of the buffer's load. -/
def Reads (k : Key) (x : Buffer) : Prop := ∃ l, x.load = some l ∧ k ∈ l.readers

/-- Step 3 changes loads alone, and a reader stays one. -/
structure LoadsGrow (k : Key) (b t : Bridge) : Prop where
  queue   : t.pool.resQueue = b.pool.resQueue
  evict   : t.pool.evict = b.pool.evict
  records : ∀ i, t.buf i = { b.buf i with load := (t.buf i).load }
  readers : ∀ i, Reads k (b.buf i) → Reads k (t.buf i)

theorem LoadsGrow.refl (k : Key) (b : Bridge) : LoadsGrow k b b := ⟨rfl, rfl, fun _ => rfl, fun _ h => h⟩

theorem LoadsGrow.trans {a b c : Bridge} (h : LoadsGrow k a b) (h' : LoadsGrow k b c) : LoadsGrow k a c :=
  ⟨h'.queue.trans h.queue, h'.evict.trans h.evict, fun i => by rw [h'.records i, h.records i],
    fun i hi => h'.readers i (h.readers i hi)⟩

theorem LoadsGrow.currentBuf {t : Bridge} (h : LoadsGrow k b t) (n : Nat) : currentBuf t n = currentBuf b n := by
  refine currentBuf_congr (fun i => ?_) fun i _ => ?_ <;> rw [h.records i]

/-- A record put with a load that has the reader. -/
theorem putBuf_loadsGrow {i : BufIdx} {l : Load} (h : k ∈ l.readers) :
    LoadsGrow k b (b.putBuf i { b.buf i with load := some l }) := by
  refine ⟨rfl, rfl, fun j => ?_, fun j hj => ?_⟩
  · rw [buf_putBuf]
    split
    · rename_i here
      rw [here]
    · rfl
  · rw [buf_putBuf]
    split
    · exact ⟨l, rfl, h⟩
    · exact hj

theorem addReader_reads (b : Bridge) (i : BufIdx) (k : Key) :
    LoadsGrow k b (addReader b i k) ∧ Reads k ((addReader b i k).buf i) := by
  unfold addReader
  split
  · rename_i l load
    have mem : k ∈ l.readers ++ [k] := List.mem_append_right _ List.mem_cons_self
    exact ⟨putBuf_loadsGrow mem, _, by rw [buf_putBuf_self], mem⟩
  · have mem : k ∈ (newLoad [k] false b.arb.stamps).readers := List.mem_cons_self
    have grow := putBuf_loadsGrow (b := b) (i := i) mem
    refine ⟨⟨grow.queue, grow.evict, grow.records, grow.readers⟩, _, ?_, mem⟩
    exact congrArg Buffer.load (buf_putBuf_self b i _)

/-- The sector's buffer lacks a needed quarter. -/
def Lacks (e : Entry) (n : Nat) (x : Buffer) : Prop := neededQuarters e.cb e.count.toNat n &&& ~~~ (x.valid ||| x.lost) ≠ 0

theorem grantLoad_grows (b : Bridge) (n : Nat) : LoadsGrow k b (grantLoad k e b n)
    ∧ ∀ i, currentBuf b n = some i → Lacks e n (b.buf i) → Reads k ((grantLoad k e b n).buf i) := by
  unfold grantLoad
  cases hc : currentBuf b n with
  | none => exact ⟨.refl k b, nofun⟩
  | some i =>
    dsimp only
    split
    · refine ⟨(addReader_reads b i k).1, fun j hj _ => ?_⟩
      cases hj
      exact (addReader_reads b i k).2
    · rename_i full
      refine ⟨.refl k b, fun j hj lacks => ?_⟩
      cases hj
      exact absurd (bne_iff_ne.2 lacks) full

theorem foldl_grantLoad (l : List Nat) : ∀ b : Bridge, LoadsGrow k b (l.foldl (grantLoad k e) b)
    ∧ ∀ n ∈ l, ∀ i, currentBuf b n = some i → Lacks e n (b.buf i) → Reads k ((l.foldl (grantLoad k e) b).buf i) := by
  induction l with
  | nil => exact fun b => ⟨.refl k b, fun _ h => absurd h List.not_mem_nil⟩
  | cons m l ih =>
    intro b
    obtain ⟨first, reads⟩ := grantLoad_grows (k := k) (e := e) b m
    obtain ⟨rest, later⟩ := ih (grantLoad k e b m)
    rw [List.foldl_cons]
    refine ⟨first.trans rest, fun n hn i hi lacks => ?_⟩
    by_cases here : n ∈ l
    · refine later n here i ((first.currentBuf n).trans hi) ?_
      unfold Lacks
      rw [first.records i]
      exact lacks
    · obtain rfl := (List.mem_cons.1 hn).resolve_right here
      exact rest.readers i (reads i hi lacks)

/-! ### The grant (R67) -/

/-- The bridge when every sector of the READ has its buffer. -/
def withBuffers (b : Bridge) (e : Entry) : Bridge := e.sectors.foldl (grantNew e.sectors) (e.sectors.foldl grantExisting b)

/-- The entry in FETCHING with its pins. -/
def fetchingEntry (b : Bridge) (e : Entry) : Entry :=
  { e with state := .fetching, pins := e.sectors.filterMap (currentBuf (withBuffers b e)) }

/-- The bridge of a grant before the READ is tested. -/
def granting (b : Bridge) (k : Key) (e : Entry) : Bridge :=
  leaveQueue ((e.sectors.foldl (grantLoad k e) (withBuffers b e)).putEntry k (some (fetchingEntry b e))) k

theorem grant_eq (he : b.entry k = some e) (hs : e.state = .reserving) : grant b k = testRead (granting b k e) k := by
  unfold grant
  rw [he]
  dsimp only
  rw [if_pos hs]
  rfl

theorem granting_entry : (granting b k e).entry k = some (fetchingEntry b e) :=
  (entry_putEntry _ k k _).trans (if_pos rfl)

theorem granting_buf (i : BufIdx) :
    (granting b k e).buf i = (e.sectors.foldl (grantLoad k e) (withBuffers b e)).buf i := rfl

theorem takeBuffer_queue {t : Bridge} {j : BufIdx} (h : takeBuffer b lsns = some (t, j)) :
    t.pool.resQueue = b.pool.resQueue := by
  unfold takeBuffer at h
  split at h
  · cases h; rfl
  · split at h
    · rw [Option.some.injEq, Prod.mk.injEq] at h
      rw [← h.1]
      exact (freeBuf_withdraws b _).queue
    · cases h

theorem grantNew_queue (lsns : List Nat) (b : Bridge) (n : Nat) :
    (grantNew lsns b n).pool.resQueue = b.pool.resQueue := by
  unfold grantNew
  split
  · rfl
  · split
    · rfl
    · rename_i take
      have same := takeBuffer_queue take
      exact same

theorem granting_queue : (granting b k e).pool.resQueue = b.pool.resQueue.filter (· != k) := by
  have taken : (withBuffers b e).pool.resQueue = (e.sectors.foldl grantExisting b).pool.resQueue :=
    foldl_rel (R := fun b t => t.pool.resQueue = b.pool.resQueue) (fun _ => rfl) (fun h h' => h'.trans h)
      (grantNew_queue e.sectors) e.sectors _
  have loads := (foldl_grantLoad (k := k) (e := e) e.sectors (withBuffers b e)).1.queue
  rw [taken, (foldl_grantExisting e.sectors b).2.2.1] at loads
  unfold granting leaveQueue
  exact congrArg (List.filter (· != k)) loads

theorem dropReader_queue (b : Bridge) (k : Key) : (dropReader b k).pool.resQueue = b.pool.resQueue := by
  have left : (b.forBufs (dropReaderAt k)).pool.resQueue = b.pool.resQueue := by
    unfold Bridge.forBufs
    refine foldl_rel (R := fun b t => t.pool.resQueue = b.pool.resQueue) (fun _ => rfl) (fun h h' => h'.trans h)
      (fun b i => ?_) allBufs b
    unfold dropReaderAt
    split <;> rfl
  unfold dropReader
  generalize b.forBufs (dropReaderAt k) = t at left
  exact (sweepLoads_withdraws t).queue.trans left

theorem letGo_queue (b : Bridge) (k : Key) (e : Entry) : (letGo b k e).pool.resQueue = b.pool.resQueue := by
  have joined : (e.pinned.foldl joinEvict b).pool.resQueue = b.pool.resQueue :=
    (foldl_rel (R := Withdraws) .refl .trans joinEvict_withdraws e.pinned b).queue
  unfold letGo
  split
  · exact (dropReader_queue _ k).trans joined
  · exact joined

theorem answer_queue (st : Status) (done : Nat) (p : Payload) (he : b.entry k = some e) (hs : e.state ≠ .answered) :
    (answer b k st done p).pool.resQueue = b.pool.resQueue.filter (· != k) := by
  unfold answer
  rw [he]
  dsimp only
  rw [answerFrame_given _ _ _ he hs, letGo_queue]
  rfl

theorem testRead_queue (h : ∀ j ∈ b.pool.resQueue, j ≠ k) : (testRead b k).pool.resQueue = b.pool.resQueue := by
  rcases testRead_cases b k with same | ⟨e, st, done, p, he, hs, ends⟩
  · rw [same]
  · rw [ends, answer_queue st done p he (by rw [hs]; decide)]
    exact List.filter_eq_self.2 fun j mem => bne_iff_ne.2 (h j mem)

/-- The test of a READ in FETCHING leaves it as it is, or closes it. -/
theorem testRead_entry (he : b.entry k = some e) (hs : e.state = .fetching) :
    testRead b k = b ∨ ∃ e', (testRead b k).entry k = some e' ∧ e'.state = .answered := by
  refine (testRead_cases b k).imp_right fun (⟨e', st, done, p, he', _, ends⟩ : ∃ _, _) => ?_
  rw [he] at he'
  cases he'
  refine ⟨e.close st done, ?_, rfl⟩
  rw [ends, answer_entry, if_pos rfl, he, Option.map_some, if_neg (by rw [hs]; decide)]

/-! ### What the grant pins (R67) -/

theorem withBuffers_spec (ok : PoolOk b) (nd : e.sectors.Nodup)
    (room : newBufferCount b e.sectors ≤ availableFor b e.sectors) :
    BuffersFor e.sectors e.sectors (e.sectors.foldl grantExisting b) (withBuffers b e) := by
  refine foldl_grantNew e.sectors _ (foldl_grantExisting_ok e.sectors ok) (fun _ h => h) nd ?_
  have same : (fun n => (currentBuf (e.sectors.foldl grantExisting b) n).isNone) = fun n => (currentBuf b n).isNone :=
    funext fun n => by rw [foldl_grantExisting_currentBuf]
  rw [same]
  exact Nat.le_trans room (foldl_grantExisting_available e.sectors ok)

/-- A list whose members all have an image keeps its places. -/
theorem filterMap_places {α β : Type} {f : α → Option β} : ∀ {l : List α}, (∀ x ∈ l, (f x).isSome = true) →
    (l.filterMap f).length = l.length ∧ ∀ n : Nat, (l.filterMap f)[n]? = l[n]?.bind f
  | [], _ => ⟨rfl, fun n => by simp⟩
  | x :: l, h => by
    obtain ⟨y, hy⟩ := Option.isSome_iff_exists.1 (h x List.mem_cons_self)
    obtain ⟨length, places⟩ := filterMap_places (l := l) fun z hz => h z (List.mem_cons_of_mem _ hz)
    rw [List.filterMap_cons_some hy]
    refine ⟨by simp [length], fun n => ?_⟩
    cases n with
    | zero => simp [hy]
    | succ n => simpa using places n

/-- One pin of a granted READ: the buffer of its sector, out of the eviction order. -/
theorem granting_pin (ok : PoolOk b) (nd : e.sectors.Nodup)
    (room : newBufferCount b e.sectors ≤ availableFor b e.sectors) {n : Nat} {i : BufIdx} (mem : n ∈ e.sectors)
    (current : currentBuf (withBuffers b e) n = some i) :
    ((granting b k e).buf i).lsn = some n ∧ i ∉ (granting b k e).pool.evict
      ∧ (∀ j, currentBuf b n = some j → i = j ∧ ((granting b k e).buf i).state = (b.buf i).state)
      ∧ (currentBuf b n = none → ((granting b k e).buf i).state = .loading ∧ ((granting b k e).buf i).valid = 0
          ∧ ((granting b k e).buf i).dirty = 0 ∧ ((granting b k e).buf i).lost = 0)
      ∧ (Lacks e n ((granting b k e).buf i) → Reads k ((granting b k e).buf i)) := by
  obtain ⟨loads, reads⟩ := foldl_grantLoad (k := k) (e := e) e.sectors (withBuffers b e)
  obtain ⟨ok', evict, kept, made⟩ := withBuffers_spec ok nd room
  have record := loads.records i
  have out : (granting b k e).pool.evict = (withBuffers b e).pool.evict := loads.evict
  rw [← granting_buf] at record
  have old : ∀ j, currentBuf b n = some j → i = j ∧ Relinked (b.buf i) ((withBuffers b e).buf i) := by
    intro j hj
    obtain ⟨current', linked⟩ := kept n mem j ((foldl_grantExisting_currentBuf ..).trans hj)
    obtain rfl : i = j := Option.some.inj (current.symm.trans current')
    rw [foldl_grantExisting_buf] at linked
    exact ⟨rfl, linked⟩
  have new : currentBuf b n = none → Relinked (Buffer.loadingFor n) ((withBuffers b e).buf i) := by
    intro none
    obtain ⟨j, current', linked⟩ := made n mem ((foldl_grantExisting_currentBuf ..).trans none)
    obtain rfl : i = j := Option.some.inj (current.symm.trans current')
    exact linked
  refine ⟨by rw [record]; exact currentBuf_lsn current, ?_, fun j hj => ?_, fun none => ?_, fun lacks => ?_⟩
  · rw [out]
    cases hc : currentBuf b n with
    | some j =>
      obtain ⟨rfl, -⟩ := old j hc
      exact fun h => ((foldl_grantExisting e.sectors b).2.2.2 i |>.1 (evict i h)).2 n mem hc
    | none => exact ok'.not_evict (by rw [new hc]; exact nofun)
  · obtain ⟨here, linked⟩ := old j hj
    exact ⟨here, by rw [record, linked]⟩
  · rw [record, new none]
    exact ⟨rfl, rfl, rfl, rfl⟩
  · refine reads n mem i current ?_
    rw [record] at lacks
    exact lacks

/-- Every sector has its buffer. -/
theorem withBuffers_current (ok : PoolOk b) (nd : e.sectors.Nodup)
    (room : newBufferCount b e.sectors ≤ availableFor b e.sectors) {n : Nat} (mem : n ∈ e.sectors) :
    (currentBuf (withBuffers b e) n).isSome = true := by
  obtain ⟨-, -, kept, made⟩ := withBuffers_spec ok nd room
  cases hc : currentBuf b n with
  | some i => rw [(kept n mem i ((foldl_grantExisting_currentBuf ..).trans hc)).1]; rfl
  | none =>
    obtain ⟨i, current, -⟩ := made n mem ((foldl_grantExisting_currentBuf ..).trans hc)
    rw [current]
    rfl

end Grant

/-! ### The head of the queue (R65, R66) -/

section Head
variable {b : Bridge} {k : Key} {rest : List Key} {e : Entry}

theorem mayGrant_iff (he : b.entry k = some e) : mayGrant b k = true ↔ newBufferCount b e.sectors ≤ availableFor b e.sectors := by
  rw [mayGrant, he, Option.any_some, decide_eq_true_iff]

theorem poolStep_head (noFail : failDue b = none) (pressure : b.pool.pressure = pressureNow b)
    (queue : b.pool.resQueue = k :: rest) (he : b.entry k = some e) (tests : b.pool.testDue = []) :
    poolStep b = if mayGrant b k = true then some (grant b k) else none := by
  unfold poolStep
  rw [noFail, pressure, queue]
  simp [he, tests]

end Head

/-- Settles O16: the queue by `insertReservation`, the head by `poolStep`, and the grant sector by sector. -/
theorem reservationsAreQueuedAndGranted : Obligations.ReservationsAreQueuedAndGranted := by
  unfold Obligations.ReservationsAreQueuedAndGranted
  refine ⟨fun b k e he => ⟨fun none => ?_, fun x hx => ?_, insertReservation_pairwise⟩,
    fun b k rest e noFail pressure queue he tests => ?_, fun b k e he hs => ⟨?_, ?_, fun ok nd room e' he' hs' => ?_⟩⟩
  · exact insertReservation_last (by rw [distance, he, Option.bind_some, none]; rfl)
  · refine ⟨b.pool.resQueue.takeWhile (queuesAfter b k), b.pool.resQueue.dropWhile (queuesAfter b k),
      List.takeWhile_append_dropWhile.symm, rfl, fun j mem => ?_, fun j rest hd y hy => ?_⟩
    · exact queuesAfter_iff.1 (List.mem_takeWhile_imp mem) x hx
    · have later := mt queuesAfter_iff.2 (dropWhile_head hd)
      unfold NoLater at later
      push Not at later
      obtain ⟨x', hx', lt⟩ := later
      obtain rfl : x = x' := Option.some.inj (Eq.trans (Eq.symm hx) hx')
      exact lt y hy
  · rw [poolStep_head noFail pressure queue he tests]
    exact ⟨fun fits => if_pos ((mayGrant_iff he).2 fits), fun few => if_neg fun may => by
      have fits := (mayGrant_iff he).1 may
      omega⟩
  · rw [grant_eq he hs, testRead_queue, granting_queue]
    intro j mem
    rw [granting_queue] at mem
    exact bne_iff_ne.1 (List.mem_filter.1 mem).2
  · obtain ⟨e', he', same, -⟩ := (grant_moves b k).requests.2 k e he
    refine ⟨e', he', same, ?_⟩
    rw [grant_eq he hs] at he'
    rcases testRead_entry granting_entry rfl with kept | ⟨e'', he'', closed⟩
    · rw [kept, granting_entry] at he'
      cases he'
      exact .inl rfl
    · rw [he''] at he'
      cases he'
      exact .inr closed
  · have kept : grant b k = granting b k e := by
      rw [grant_eq he hs] at he' ⊢
      refine (testRead_entry granting_entry rfl).resolve_right fun ⟨e'', he'', closed⟩ => ?_
      rw [he''] at he'
      cases he'
      rw [closed] at hs'
      cases hs'
    rw [kept] at he' ⊢
    rw [granting_entry] at he'
    cases he'
    obtain ⟨length, places⟩ := filterMap_places fun n mem => withBuffers_current ok nd room mem
    refine ⟨length, fun n lsn i hn hi => ?_⟩
    have current : currentBuf (withBuffers b e) lsn = some i := by
      have at_n := places n
      rw [hn, Option.bind_some] at at_n
      exact at_n.symm.trans hi
    exact granting_pin ok nd room (List.mem_of_getElem? hn) current

end Sys2Proof.Machine
end

section
/-! PROOFS. The order of a chosen piece of work (R83, R91, R92): the run that grows from it, what the issue records, and what
becomes of the pieces' buffers. -/

namespace Sys2Proof.Machine

/-! ### The pieces of pending work -/

/-- The piece that a load or a phase makes at a PSA. -/
def ownPiece (b : Bridge) (psa : Nat) : Work → Option Piece
  | .load i => some (.load i ((b.buf i).lsn.getD 0) psa)
  | .phase i => some (.phase i ((b.buf i).lsn.getD 0) psa)
  | .map => none

theorem ownPiece_psa {b : Bridge} {psa : Nat} {v : Work} {x : Piece} (h : ownPiece b psa v = some x) : x.psa = psa := by
  cases v <;> cases h <;> rfl

theorem ownPiece_isSome {b : Bridge} (psa : Nat) {v : Work} (h : v ≠ .map) : ∃ x, ownPiece b psa v = some x := by
  cases v with
  | load i => exact ⟨_, rfl⟩
  | phase i => exact ⟨_, rfl⟩
  | map => exact absurd rfl h

theorem ownPiece_ne_map {b : Bridge} {psa : Nat} {v : Work} {x : Piece} (h : ownPiece b psa v = some x) : v ≠ .map := by
  rintro rfl
  cases h

/-- What makes the piece of a run: the order of its work, and its owner. -/
theorem asPiece_iff {b : Bridge} {kind : OrderKind} {v : Work} {q : Nat × Piece} : asPiece b kind v = some q
    ↔ workOrder b v = some (kind, q.1) ∧ ownPiece b q.1 v = some q.2 := by
  obtain ⟨p, x⟩ := q
  unfold asPiece
  cases workOrder b v with
  | none => simp
  | some o =>
    obtain ⟨kind', psa⟩ := o
    dsimp only
    by_cases same : kind' = kind
    · rw [if_pos same]
      cases v <;> simp [ownPiece, same] <;> rintro rfl <;> rfl
    · rw [if_neg same]
      simp [same]

/-- A piece that pending work of the kind makes. -/
def PieceOfWork (b : Bridge) (kind : OrderKind) (x : Piece) : Prop :=
  ∃ v ∈ pendingWork b, workOrder b v = some (kind, x.psa) ∧ ownPiece b x.psa v = some x

/-- The pieces of the kind, with their PSAs. -/
def kindPieces (b : Bridge) (kind : OrderKind) : List (Nat × Piece) := (pendingWork b).filterMap (asPiece b kind)

theorem mem_kindPieces {b : Bridge} {kind : OrderKind} {q : Nat × Piece} :
    q ∈ kindPieces b kind ↔ q.1 = q.2.psa ∧ PieceOfWork b kind q.2 := by
  unfold kindPieces PieceOfWork
  simp only [List.mem_filterMap, asPiece_iff]
  constructor
  · rintro ⟨v, mem, order, own⟩
    rw [ownPiece_psa own]
    exact ⟨rfl, v, mem, order, own⟩
  · rintro ⟨psa, v, mem, order, own⟩
    rw [psa]
    exact ⟨v, mem, order, own⟩

/-! ### Growing a run (R91) -/

section Grow
variable (l : Label) (ps : List (Nat × Piece)) (start : Nat)

/-- The piece that a run from `start` takes in at PSA `p`. -/
def pieceAt (p : Nat) : Option Piece :=
  if sameTrack l start p then (ps.find? fun q => q.1 == p).map Prod.snd else none

/-- A run from `start` may take in PSA `p`. -/
def Joins (p : Nat) : Prop := sameTrack l start p = true ∧ ∃ x, (p, x) ∈ ps

variable {l ps start}

theorem pieceAt_some {p : Nat} {x : Piece} (h : pieceAt l ps start p = some x) : sameTrack l start p = true ∧ (p, x) ∈ ps := by
  unfold pieceAt at h
  split at h
  · rename_i track
    obtain ⟨q, found, rfl⟩ := Option.map_eq_some_iff.1 h
    have here := List.find?_some found
    rw [← beq_iff_eq.1 here]
    exact ⟨beq_iff_eq.1 here ▸ track, List.mem_of_find?_eq_some found⟩
  · cases h

theorem pieceAt_none {p : Nat} (h : pieceAt l ps start p = none) : ¬ Joins l ps start p := by
  rintro ⟨track, x, mem⟩
  unfold pieceAt at h
  rw [if_pos track, Option.map_eq_none_iff, List.find?_eq_none] at h
  exact h _ mem (beq_self_eq_true p)

theorem growUp_some {n p : Nat} {x : Piece} (h : pieceAt l ps start p = some x) :
    growUp l ps start (n + 1) p = x :: growUp l ps start n (p + 1) := by
  unfold pieceAt at h
  split at h
  · rename_i track
    obtain ⟨q, found, rfl⟩ := Option.map_eq_some_iff.1 h
    rw [growUp, if_pos track, found]
  · cases h

theorem growUp_none {n p : Nat} (h : pieceAt l ps start p = none) : growUp l ps start (n + 1) p = [] := by
  unfold pieceAt at h
  rw [growUp]
  split
  · rename_i track
    rw [if_pos track, Option.map_eq_none_iff] at h
    rw [h]
  · rfl

theorem growDown_some {n p : Nat} {x : Piece} (h : pieceAt l ps start p = some x) :
    growDown l ps start (n + 1) (p + 1) = growDown l ps start n p ++ [x] := by
  unfold pieceAt at h
  split at h
  · rename_i track
    obtain ⟨q, found, rfl⟩ := Option.map_eq_some_iff.1 h
    rw [growDown, if_pos track, found]
  · cases h

theorem growDown_none {n p : Nat} (h : pieceAt l ps start p = none) : growDown l ps start (n + 1) (p + 1) = [] := by
  unfold pieceAt at h
  rw [growDown]
  split
  · rename_i track
    rw [if_pos track, Option.map_eq_none_iff] at h
    rw [h]
  · rfl

/-- Pieces of the list that may join, at `n` PSAs from `low` on. -/
structure RunAt (l : Label) (ps : List (Nat × Piece)) (start low : Nat) (r : List Piece) : Prop where
  psas  : r.map Piece.psa = List.range' low r.length
  track : ∀ x ∈ r, sameTrack l start x.psa = true
  mem   : ∀ x ∈ r, (x.psa, x) ∈ ps

theorem RunAt.nil (low : Nat) : RunAt l ps start low [] :=
  ⟨rfl, fun _ h => absurd h List.not_mem_nil, fun _ h => absurd h List.not_mem_nil⟩

theorem RunAt.single {p : Nat} {x : Piece} (at_p : x.psa = p) (track : sameTrack l start p = true) (mem : (p, x) ∈ ps) :
    RunAt l ps start p [x] := by
  subst at_p
  exact ⟨rfl, fun y h => by rwa [List.mem_singleton.1 h], fun y h => by rwa [List.mem_singleton.1 h]⟩

theorem RunAt.append {low : Nat} {r s : List Piece} (h : RunAt l ps start low r)
    (h' : RunAt l ps start (low + r.length) s) : RunAt l ps start low (r ++ s) := by
  refine ⟨?_, fun x hx => (List.mem_append.1 hx).elim (h.track x) (h'.track x),
    fun x hx => (List.mem_append.1 hx).elim (h.mem x) (h'.mem x)⟩
  rw [List.map_append, h.psas, h'.psas, List.length_append, List.range'_append_1]

variable (own : ∀ q ∈ ps, q.1 = q.2.psa)
include own

/-- A run grows upward as far as it may. -/
theorem growUp_spec : ∀ n p, RunAt l ps start p (growUp l ps start n p) ∧ (growUp l ps start n p).length ≤ n
    ∧ ((growUp l ps start n p).length = n ∨ ¬ Joins l ps start (p + (growUp l ps start n p).length))
  | 0, p => ⟨.nil p, Nat.le_refl 0, .inl rfl⟩
  | n + 1, p => by
    cases h : pieceAt l ps start p with
    | none =>
      rw [growUp_none h]
      exact ⟨.nil p, Nat.zero_le _, .inr (pieceAt_none h)⟩
    | some x =>
      obtain ⟨track, mem⟩ := pieceAt_some h
      obtain ⟨run, length, ends⟩ := growUp_spec n (p + 1)
      rw [growUp_some h]
      refine ⟨(RunAt.single (own _ mem).symm track mem).append run, Nat.succ_le_succ length, ?_⟩
      rw [List.length_cons, show p + ((growUp l ps start n (p + 1)).length + 1) = p + 1 + (growUp l ps start n (p + 1)).length by
        omega]
      exact ends.imp_left fun e => by rw [e]

/-- A run grows downward as far as it may. -/
theorem growDown_spec : ∀ n p, RunAt l ps start (p - (growDown l ps start n p).length) (growDown l ps start n p)
    ∧ (growDown l ps start n p).length ≤ n ∧ (growDown l ps start n p).length ≤ p
    ∧ ((growDown l ps start n p).length = n ∨ (growDown l ps start n p).length = p
        ∨ ¬ Joins l ps start (p - (growDown l ps start n p).length - 1))
  | 0, p => by
    rw [growDown]
    exact ⟨.nil _, Nat.le_refl 0, Nat.zero_le p, .inl rfl⟩
  | n + 1, 0 => by
    rw [growDown.eq_def]
    exact ⟨.nil _, Nat.zero_le _, Nat.le_refl 0, .inr (.inl rfl)⟩
  | n + 1, p + 1 => by
    cases h : pieceAt l ps start p with
    | none =>
      rw [growDown_none h]
      exact ⟨.nil _, Nat.zero_le _, Nat.zero_le _, .inr (.inr (pieceAt_none h))⟩
    | some x =>
      obtain ⟨track, mem⟩ := pieceAt_some h
      obtain ⟨run, length, below, ends⟩ := growDown_spec n p
      rw [growDown_some h, List.length_append, List.length_singleton, Nat.add_sub_add_right]
      refine ⟨run.append ?_, Nat.succ_le_succ length, Nat.succ_le_succ below, ?_⟩
      · rw [Nat.sub_add_cancel below]
        exact .single (own _ mem).symm track mem
      · exact ends.imp (fun e => by rw [e]) (Or.imp_left fun e => by rw [e])

end Grow

/-! ### The run of a chosen piece (R91) -/

section Run
variable {b : Bridge} {kind : OrderKind} {psa : Nat} {chosen : Piece}

/-- Nobody else is in a run without a layout. -/
theorem runPieces_alone (h : b.cart.layout = none) : runPieces b kind psa chosen = [chosen] := by
  unfold runPieces
  rw [h]

theorem runPieces_layout {l : Label} (h : b.cart.layout = some l) : ∃ down up, runPieces b kind psa chosen = down ++ chosen :: up
    ∧ up = growUp l (kindPieces b kind) psa 15 (psa + 1) ∧ down = growDown l (kindPieces b kind) psa (15 - up.length) psa := by
  unfold runPieces
  rw [h]
  exact ⟨_, _, rfl, rfl, rfl⟩

theorem kindPieces_psa : ∀ q ∈ kindPieces b kind, q.1 = q.2.psa := fun _ h => (mem_kindPieces.1 h).1

theorem runPieces_chosen : chosen ∈ runPieces b kind psa chosen := by
  cases h : b.cart.layout with
  | none =>
    rw [runPieces_alone h]
    exact List.mem_cons_self
  | some l =>
    obtain ⟨down, up, run, -⟩ := runPieces_layout (kind := kind) (psa := psa) (chosen := chosen) h
    rw [run]
    exact List.mem_append_right _ List.mem_cons_self

/-- The PSAs of a run, each of them once, and its pieces. -/
theorem runPieces_spec {l : Label} (h : b.cart.layout = some l) (at_psa : chosen.psa = psa) :
    ∃ low n up, (runPieces b kind psa chosen).map Piece.psa = List.range' low n ∧ low ≤ psa ∧ psa + up + 1 = low + n ∧ n ≤ 16
      ∧ (up = 15 ∨ ¬ Joins l (kindPieces b kind) psa (psa + up + 1))
      ∧ (n = 16 ∨ low = 0 ∨ ¬ Joins l (kindPieces b kind) psa (low - 1))
      ∧ ∀ x ∈ runPieces b kind psa chosen,
          x = chosen ∨ (sameTrack l psa x.psa = true ∧ (x.psa, x) ∈ kindPieces b kind) := by
  obtain ⟨down, up, run, hup, hdown⟩ := runPieces_layout (kind := kind) (psa := psa) (chosen := chosen) h
  obtain ⟨above, few, ends⟩ := growUp_spec (l := l) (start := psa) (kindPieces_psa (b := b) (kind := kind)) 15 (psa + 1)
  obtain ⟨below, few', positive, ends'⟩ :=
    growDown_spec (l := l) (start := psa) (kindPieces_psa (b := b) (kind := kind)) (15 - up.length) psa
  rw [← hup] at above few ends
  rw [← hdown] at below few' positive ends'
  refine ⟨psa - down.length, down.length + 1 + up.length, up.length, ?_, by omega, by omega, by omega, ?_, ?_, fun x hx => ?_⟩
  · rw [run, List.map_append, List.map_cons, below.psas, above.psas, at_psa, Nat.add_assoc, ← List.range'_append_1,
      Nat.sub_add_cancel positive, Nat.add_comm 1, List.range'_succ]
  · rw [show psa + up.length + 1 = psa + 1 + up.length by omega]
    exact ends
  · rcases ends' with e | e | e
    · exact .inl (by omega)
    · exact .inr (.inl (by omega))
    · exact .inr (.inr e)
  · rw [run] at hx
    rcases List.mem_append.1 hx with hx | hx
    · exact .inr ⟨below.track x hx, below.mem x hx⟩
    · rcases List.mem_cons.1 hx with hx | hx
      · exact .inl hx
      · exact .inr ⟨above.track x hx, above.mem x hx⟩

/-- Every piece of the run is made by pending work of its kind. -/
theorem runPieces_work (own : PieceOfWork b kind chosen) (at_psa : chosen.psa = psa) :
    ∀ x ∈ runPieces b kind psa chosen, PieceOfWork b kind x := by
  intro x hx
  cases h : b.cart.layout with
  | none =>
    rw [runPieces_alone h] at hx
    rwa [List.mem_singleton.1 hx]
  | some l =>
    obtain ⟨low, n, up, -, -, -, -, -, -, mem⟩ := runPieces_spec (kind := kind) h at_psa
    rcases mem x hx with rfl | ⟨-, mem⟩
    · exact own
    · exact (mem_kindPieces.1 mem).2

theorem runPieces_nodup (at_psa : chosen.psa = psa) : (runPieces b kind psa chosen).Nodup := by
  cases h : b.cart.layout with
  | none =>
    rw [runPieces_alone h]
    exact List.nodup_singleton _
  | some l =>
    obtain ⟨low, n, up, psas, -⟩ := runPieces_spec (kind := kind) h at_psa
    exact .of_map _ (by rw [psas]; exact List.nodup_range')

/-- A run may take in the PSA of pending work of its kind on its track. -/
theorem joins_kindPieces {l : Label} {p : Nat} : Joins l (kindPieces b kind) psa p
    ↔ sameTrack l psa p = true ∧ ∃ v ∈ pendingWork b, v ≠ .map ∧ workOrder b v = some (kind, p) := by
  unfold Joins
  refine and_congr_right fun _ => ⟨?_, ?_⟩
  · rintro ⟨x, mem⟩
    obtain ⟨at_p, v, pending, order, own⟩ := mem_kindPieces.1 mem
    dsimp only at at_p order own
    rw [← at_p] at order own
    exact ⟨v, pending, ownPiece_ne_map own, order⟩
  · rintro ⟨v, pending, ne, order⟩
    obtain ⟨x, own⟩ := ownPiece_isSome (b := b) p ne
    have at_p := ownPiece_psa own
    refine ⟨x, mem_kindPieces.2 ⟨at_p.symm, v, pending, ?_, ?_⟩⟩ <;> rw [at_p]
    · exact order
    · exact own

theorem mem_range' {low n p : Nat} (h : low ≤ p) (h' : p < low + n) : p ∈ List.range' low n :=
  List.mem_range'_1.2 ⟨h, h'⟩

end Run

/-! ### One piece of a buffer in each run -/

/-- The buffer that a piece is for. -/
def Piece.buffer : Piece → Option BufIdx
  | .load i _ _ => some i
  | .phase i _ _ => some i
  | .map _ => none
  | .mount _ => none

theorem workOrder_load_read {b : Bridge} {i : BufIdx} {kind : OrderKind} {p : Nat} (h : workOrder b (.load i) = some (kind, p)) :
    kind = .read := by
  unfold workOrder at h
  dsimp only at h
  split at h
  · obtain ⟨_, -, e⟩ := Option.map_eq_some_iff.1 h
    cases e
    rfl
  · cases h

theorem workOrder_phase_not_read {b : Bridge} {i : BufIdx} {kind : OrderKind} {p : Nat}
    (h : workOrder b (.phase i) = some (kind, p)) : kind ≠ .read := by
  unfold workOrder at h
  dsimp only at h
  split at h
  · obtain ⟨f, -, h⟩ := Option.bind_eq_some_iff.1 h
    obtain ⟨kind', hk, h⟩ := Option.bind_eq_some_iff.1 h
    obtain ⟨_, -, e⟩ := Option.map_eq_some_iff.1 h
    cases e
    unfold Phase.kind at hk
    split at hk <;> cases hk <;> decide
  · cases h

theorem PieceOfWork.unique {b : Bridge} {kind : OrderKind} {x y : Piece} {i : BufIdx} (hx : PieceOfWork b kind x)
    (hy : PieceOfWork b kind y) (bx : x.buffer = some i) (hby : y.buffer = some i) : x = y := by
  obtain ⟨v, -, order, own⟩ := hx
  obtain ⟨v', -, order', own'⟩ := hy
  have owner : ∀ {v : Work} {x : Piece}, ownPiece b x.psa v = some x → x.buffer = some i → v = .load i ∨ v = .phase i := by
    intro v x own bx
    cases v with
    | load j => rw [ownPiece, Option.some.injEq] at own; rw [← own] at bx; cases bx; exact .inl rfl
    | phase j => rw [ownPiece, Option.some.injEq] at own; rw [← own] at bx; cases bx; exact .inr rfl
    | map => cases own
  have same : v = v' := by
    rcases owner own bx with rfl | rfl <;> rcases owner own' hby with rfl | rfl
    · rfl
    · exact absurd (workOrder_load_read order) (workOrder_phase_not_read order')
    · exact absurd (workOrder_load_read order') (workOrder_phase_not_read order)
    · rfl
  subst same
  have psa : x.psa = y.psa := by
    rw [order, Option.some.injEq, Prod.mk.injEq] at order'
    exact order'.2
  rw [psa, own', Option.some.injEq] at own
  exact own.symm

/-! ### The pieces leave PENDING (R92) -/

section Start
variable {kind : OrderKind} {b : Bridge}

/-- What the start of a piece makes of its buffer. -/
def startedBuffer (kind : OrderKind) (y : Buffer) : Piece → Buffer
  | .load _ _ psa => { y with load := y.load.map fun l => { l with stage := .inFlight, orderedAt := some psa } }
  | .phase _ _ _ => startPhase kind y
  | .map _ => y
  | .mount _ => y

theorem startPiece_self {x : Piece} {i : BufIdx} (h : x.buffer = some i) :
    (startPiece kind b x).buf i = startedBuffer kind (b.buf i) x := by
  cases x with
  | load j lsn psa => cases h; exact buf_putBuf_self ..
  | phase j lsn psa => cases h; exact buf_putBuf_self ..
  | map psa => cases h
  | mount psa => cases h

theorem startPiece_other {x : Piece} {i : BufIdx} (h : x.buffer ≠ some i) : (startPiece kind b x).buf i = b.buf i := by
  cases x with
  | load j lsn psa => exact buf_putBuf_ne _ _ fun e => h (by rw [e]; rfl)
  | phase j lsn psa => exact buf_putBuf_ne _ _ fun e => h (by rw [e]; rfl)
  | map psa =>
    unfold startPiece
    dsimp only
    split <;> rfl
  | mount psa => rfl

theorem foldl_startPiece_other {i : BufIdx} : ∀ (l : List Piece) (b : Bridge), (∀ x ∈ l, x.buffer ≠ some i) →
    (l.foldl (startPiece kind) b).buf i = b.buf i
  | [], _, _ => rfl
  | x :: l, b, h => by
    rw [List.foldl_cons, foldl_startPiece_other l _ fun y hy => h y (List.mem_cons_of_mem _ hy),
      startPiece_other (h x List.mem_cons_self)]

/-- The buffer of one piece is started once. -/
theorem foldl_startPiece_self {l : List Piece} {x : Piece} {i : BufIdx} (nd : l.Nodup) (mem : x ∈ l) (hx : x.buffer = some i)
    (only : ∀ y ∈ l, y.buffer = some i → y = x) : (l.foldl (startPiece kind) b).buf i = startedBuffer kind (b.buf i) x := by
  obtain ⟨front, back, rfl⟩ := List.append_of_mem mem
  rw [List.nodup_append, List.nodup_cons] at nd
  obtain ⟨-, ⟨once, -⟩, apart⟩ := nd
  have before : ∀ y ∈ front, y.buffer ≠ some i := fun y hy hb =>
    apart y hy x List.mem_cons_self (only y (List.mem_append_left _ hy) hb)
  have after : ∀ y ∈ back, y.buffer ≠ some i := fun y hy hb =>
    once (only y (List.mem_append_right _ (List.mem_cons_of_mem _ hy)) hb ▸ hy)
  rw [List.foldl_append, List.foldl_cons, foldl_startPiece_other back _ after, startPiece_self hx,
    foldl_startPiece_other front _ before]

/-- The start of a piece changes the pool and the map alone. -/
theorem startPiece_rest (kind : OrderKind) (b : Bridge) (x : Piece) :
    startPiece kind b x = { b with pool := (startPiece kind b x).pool, dm := (startPiece kind b x).dm } := by
  cases x with
  | load => rfl
  | phase => rfl
  | map psa =>
    unfold startPiece
    dsimp only
    split <;> rfl
  | mount => rfl

theorem foldl_startPiece_rest (kind : OrderKind) (l : List Piece) (b : Bridge) : l.foldl (startPiece kind) b
    = { b with pool := (l.foldl (startPiece kind) b).pool, dm := (l.foldl (startPiece kind) b).dm } :=
  foldl_rel (R := fun b t => t = { b with pool := t.pool, dm := t.dm }) (fun _ => rfl)
    (fun h h' => by rw [h', h]) (startPiece_rest kind) l b

theorem foldl_startPiece_map {m : HeldMap} {st : MapStep} (map : b.dm.map = some m) (step : m.step = some st) :
    ([.map 1, .map 2, .map 3, .map 4].foldl (startPiece kind) b).dm.map
      = some { m with step := some { st with inFlight := true } } := by
  have start : ∀ (c : Bridge) (s : MapStep) (p : Nat), c.dm.map = some { m with step := some s } →
      (startPiece kind c (.map p)).dm.map = some { m with step := some { s with inFlight := true } } := by
    intro c s p h
    unfold startPiece
    dsimp only
    rw [h]
    rfl
  have first : b.dm.map = some { m with step := some st } := by rw [map, ← step]
  have second := start _ _ 1 first
  have third := start _ _ 2 second
  have fourth := start _ _ 3 third
  have last := start _ _ 4 fourth
  exact last

end Start

/-! ### The issue (R83, R92) -/

section Issue
variable {b : Bridge} {w : Work} {kind : OrderKind} {psa streak : Nat}

/-- The arbiter with the order in flight. -/
def issuedArb (b : Bridge) (w : Work) (kind : OrderKind) (psa streak : Nat) : Arbiter :=
  { b.arb with
    order := some { number := b.arb.nextNumber, kind, pieces := orderPieces b kind psa w
                    data := if kind = .write then (orderPieces b kind psa w).map (pieceData b) else []
                    issued := b.clock, expiry := b.clock + BitVec.ofNat 32 b.mgmt.settings.orderTimeout }
    nextNumber := b.arb.nextNumber + 1, streak }

theorem issuedArb_of_data {given : Piece → SectorData} (h : ∀ x ∈ orderPieces b kind psa w, pieceData b x = given x) :
    issuedArb b w kind psa streak = { b.arb with
      order := some { number := b.arb.nextNumber, kind, pieces := orderPieces b kind psa w
                      data := if kind = .write then (orderPieces b kind psa w).map given else []
                      issued := b.clock, expiry := b.clock + BitVec.ofNat 32 b.mgmt.settings.orderTimeout }
      nextNumber := b.arb.nextNumber + 1, streak } := by
  rw [issuedArb, List.map_congr_left h]

theorem issueWork_eq : issueWork b w kind psa streak
    = (orderPieces b kind psa w).foldl (startPiece kind) { b with arb := issuedArb b w kind psa streak } := rfl

theorem issueWork_rest : issueWork b w kind psa streak
    = { b with arb := issuedArb b w kind psa streak, pool := (issueWork b w kind psa streak).pool
               dm := (issueWork b w kind psa streak).dm } := by
  rw [issueWork_eq]
  exact foldl_startPiece_rest kind _ _

theorem orderPieces_run {x : Piece} (h : ownPiece b psa w = some x) : orderPieces b kind psa w = runPieces b kind psa x := by
  cases w with
  | load i => cases h; rfl
  | phase i => cases h; rfl
  | map => cases h

variable (pending : w ∈ pendingWork b) (order : workOrder b w = some (kind, psa))
include pending order

/-- The pieces of an order that is no map step: pending work of its kind, each once. -/
theorem orderPieces_work (ne : w ≠ .map) : (∃ x ∈ orderPieces b kind psa w, ownPiece b psa w = some x)
    ∧ (∀ x ∈ orderPieces b kind psa w, PieceOfWork b kind x) ∧ (orderPieces b kind psa w).Nodup := by
  obtain ⟨x, own⟩ := ownPiece_isSome (b := b) psa ne
  have at_psa := ownPiece_psa own
  rw [orderPieces_run own]
  have work : PieceOfWork b kind x := ⟨w, pending, by rw [at_psa]; exact order, by rw [at_psa]; exact own⟩
  exact ⟨⟨x, runPieces_chosen, own⟩, runPieces_work work at_psa, runPieces_nodup at_psa⟩

/-- Each buffer has one piece in an order at most. -/
theorem orderPieces_unique {x y : Piece} {i : BufIdx} (hx : x ∈ orderPieces b kind psa w) (hy : y ∈ orderPieces b kind psa w)
    (bx : x.buffer = some i) (hby : y.buffer = some i) : y = x := by
  by_cases ne : w = .map
  · subst ne
    simp only [orderPieces, List.mem_cons, List.not_mem_nil, or_false] at hx
    rcases hx with rfl | rfl | rfl | rfl <;> cases bx
  · obtain ⟨-, work, -⟩ := orderPieces_work pending order ne
    exact (work y hy).unique (work x hx) hby bx

theorem orderPieces_nodup : (orderPieces b kind psa w).Nodup := by
  by_cases ne : w = .map
  · subst ne
    change [Piece.map 1, .map 2, .map 3, .map 4].Nodup
    decide
  · exact (orderPieces_work pending order ne).2.2

theorem issueWork_buf {x : Piece} {i : BufIdx} (mem : x ∈ orderPieces b kind psa w) (hx : x.buffer = some i) :
    (issueWork b w kind psa streak).buf i = startedBuffer kind (b.buf i) x := by
  rw [issueWork_eq]
  exact foldl_startPiece_self (orderPieces_nodup pending order) mem hx fun y hy hby =>
    orderPieces_unique pending order mem hy hx hby

omit pending order in
theorem issueWork_buf_other {i : BufIdx} (h : ∀ x ∈ orderPieces b kind psa w, x.buffer ≠ some i) :
    (issueWork b w kind psa streak).buf i = b.buf i := by
  rw [issueWork_eq]
  exact foldl_startPiece_other _ _ h

omit pending order in
/-- The run of an order: consecutive PSAs of one track, as far up as it may grow, and then down. -/
theorem orderPieces_spec (ne : w ≠ .map) {l : Label} (layout : b.cart.layout = some l) :
    ∃ low n up, (orderPieces b kind psa w).map Piece.psa = List.range' low n ∧ low ≤ psa ∧ psa + up + 1 = low + n ∧ n ≤ 16
      ∧ (up = 15 ∨ ¬ Joins l (kindPieces b kind) psa (psa + up + 1))
      ∧ (n = 16 ∨ low = 0 ∨ ¬ Joins l (kindPieces b kind) psa (low - 1))
      ∧ ∀ p, low ≤ p → p < low + n → p = psa ∨ Joins l (kindPieces b kind) psa p := by
  obtain ⟨chosen, own⟩ := ownPiece_isSome (b := b) psa ne
  have at_psa := ownPiece_psa own
  rw [orderPieces_run own]
  obtain ⟨low, n, up, psas, under, sum, few, above, below, mem⟩ := runPieces_spec (kind := kind) layout at_psa
  refine ⟨low, n, up, psas, under, sum, few, above, below, fun p lo hi => ?_⟩
  have inRun := mem_range' lo hi
  rw [← psas] at inRun
  obtain ⟨x, hx, rfl⟩ := List.mem_map.1 inRun
  rcases mem x hx with rfl | ⟨track, inList⟩
  · exact .inl at_psa
  · exact .inr ⟨track, x, inList⟩

end Issue

/-- The staged map sector of PSA 1 to 4. -/
theorem staging_getD {α : Type} (v : Vector α 4) (d : α) {p : Nat} (h : p < 4) : v[Fin.ofNat 4 p] = v.toList.getD p d := by
  rw [List.getD_eq_getElem _ _ (by simpa using h)]
  simp [Fin.ofNat, Nat.mod_eq_of_lt h]

/-- Settles O40: the run by `growUp` and `growDown`, the issue by its record, and the buffers by their one piece each. -/
theorem ordersAreRunsOfPendingWork : Obligations.OrdersAreRunsOfPendingWork := by
  unfold Obligations.OrdersAreRunsOfPendingWork
  intro b w kind psa streak pending order
  dsimp only
  have rest := issueWork_rest (b := b) (w := w) (kind := kind) (psa := psa) (streak := streak)
  refine ⟨?_, fun hw => ⟨by rw [hw]; rfl, fun m st map step => ?_⟩, fun ne => ⟨?_, fun x hx => ?_, fun l layout => ?_⟩,
    fun i none => ?_, fun i lsn p l mem load => ?_, fun i lsn p f mem flush => ?_, by rw [rest], by rw [rest], by rw [rest]⟩
  · rw [rest]
    refine issuedArb_of_data fun x hx => ?_
    by_cases ne : w = .map
    · subst ne
      simp only [orderPieces, List.mem_cons, List.not_mem_nil, or_false] at hx
      rcases hx with rfl | rfl | rfl | rfl <;> exact staging_getD _ _ (by decide)
    · obtain ⟨v, -, -, own⟩ := (orderPieces_work pending order ne).2.1 x hx
      cases x with
      | load => rfl
      | phase => rfl
      | map => cases v <;> cases own
      | mount => cases v <;> cases own
  · subst hw
    exact foldl_startPiece_map (b := { b with arb := issuedArb b .map kind psa streak }) map step
  · obtain ⟨x, mem, own⟩ := (orderPieces_work pending order ne).1
    refine ⟨x, mem, ?_⟩
    cases w <;> cases own <;> rfl
  · obtain ⟨v, mem, order', own⟩ := (orderPieces_work pending order ne).2.1 x hx
    refine ⟨v, mem, order', ?_⟩
    cases v with
    | load i => exact (Option.some.inj own).symm
    | phase i => exact (Option.some.inj own).symm
    | map => cases own
  · simp only [← joins_kindPieces]
    exact orderPieces_spec ne layout
  · refine issueWork_buf_other fun x hx bx => ?_
    cases x with
    | load j lsn p => cases bx; exact (none lsn p).1 hx
    | phase j lsn p => cases bx; exact (none lsn p).2 hx
    | map p => cases bx
    | mount p => cases bx
  · rw [issueWork_buf pending order mem rfl, startedBuffer, load]
    rfl
  · rw [issueWork_buf pending order mem rfl, startedBuffer, startPhase, flush]
    dsimp only
    split
    · rfl
    · rfl

end Sys2Proof.Machine
end

section
/-! PROOFS. The flush jobs and their conditions (R64, R106, R107, R109, R110): what one visit makes of a job, and what the visits
and the sweep that ends them make of every buffer. -/

namespace Sys2Proof.Machine

/-! ### The conditions (R106, R108) -/

/-- An entry of the command awaits the commit of the buffer (R48, R49). -/
def Awaited (b : Bridge) (op : Op) (i : BufIdx) : Prop :=
  ∃ k e l, b.entry k = some e ∧ e.op = op ∧ e.state = .awaitCommit ∧ e.awaited = some l ∧ i ∈ l

theorem awaitedBy_iff {b : Bridge} {op : Op} {i : BufIdx} : awaitedBy b op i = true ↔ Awaited b op i := by
  unfold awaitedBy Awaited
  simp only [List.any_eq_true, Option.any_eq_true, Bool.and_eq_true, beq_iff_eq, List.contains_iff_mem]
  constructor
  · rintro ⟨k, -, e, he, ⟨op, state⟩, mem⟩
    cases ha : e.awaited with
    | none =>
      rw [ha] at mem
      exact absurd mem List.not_mem_nil
    | some l =>
      rw [ha] at mem
      exact ⟨k, e, l, he, op, state, ha, mem⟩
  · rintro ⟨k, e, l, he, op, state, awaited, mem⟩
    exact ⟨k, mem_allKeys k, e, he, ⟨op, state⟩, by rw [awaited]; exact mem⟩

/-- The conditions of R106 as the obligation names them, AGED and QUIESCE apart. -/
def Holds (b : Bridge) (i : BufIdx) (c : Causes) : Prop :=
  (c.pressure = true ↔ availableCount b < 10) ∧ (c.confirmed = true ↔ Awaited b .write i)
    ∧ (c.flushWait = true ↔ Awaited b .flush i) ∧ c.relocate = (b.buf i).relocate

/-- The buffer is tested, and its aging expiry has been reached (R108). -/
def AgedNow (b : Bridge) (i : BufIdx) : Prop := (b.buf i).state = .opened ∧ i ∈ b.pool.testDue
  ∧ ∃ x, (b.buf i).lastWrite = some x ∧ b.mgmt.settings.writeBackDelay ≤ elapsed b.clock x

theorem agedNow_iff {b : Bridge} {i : BufIdx} : ((b.buf i).state == .opened && b.pool.testDue.contains i
    && agingDue b (b.buf i)) = true ↔ AgedNow b i := by
  unfold agingDue AgedNow
  simp only [Bool.and_eq_true, beq_iff_eq, List.contains_iff_mem, Option.any_eq_true, decide_eq_true_eq, and_assoc]

theorem isFull_iff {x : Buffer} : isFull x = true ↔ x.valid ||| x.lost = allQuarters := beq_iff_eq

theorem isHeldBack_iff {b : Bridge} {i : BufIdx} :
    isHeldBack b i = true ↔ ∃ j, (b.buf j).state = .committing ∧ (b.buf j).successor = some i := by
  simp [isHeldBack, allBufs]

/-- Two cause sets with the same causes are one. -/
theorem Causes.ext_iff {c d : Causes} (aged : c.aged = true ↔ d.aged = true) (pressure : c.pressure = true ↔ d.pressure = true)
    (confirmed : c.confirmed = true ↔ d.confirmed = true) (flushWait : c.flushWait = true ↔ d.flushWait = true)
    (quiesce : c.quiesce = true ↔ d.quiesce = true) (relocate : c.relocate = d.relocate) : c = d := by
  rw [← Bool.eq_iff_iff] at aged pressure confirmed flushWait quiesce
  obtain ⟨a, p, f, w, q, r⟩ := c
  simp_all

/-! ### Visits that change jobs, loads and stamps (R106) -/

/-- From `b` to `t` the jobs and loads of the buffers of the list may change, with the stamps, and nothing else. -/
structure Reworks (l : List BufIdx) (b t : Bridge) : Prop where
  buffer : ∀ i, t.buf i = { b.buf i with flush := (t.buf i).flush, load := (t.buf i).load }
  other  : ∀ i, i ∉ l → t.buf i = b.buf i
  rest   : t = { b with pool := { b.pool with buffers := t.pool.buffers }, arb := { b.arb with stamps := t.arb.stamps }
                        cart := { b.cart with spinTimer := t.cart.spinTimer } }
  stamps : b.arb.stamps ≤ t.arb.stamps

theorem Touches.reworks {i : BufIdx} {l : List BufIdx} {b t : Bridge} (h : Touches i b t) (mem : i ∈ l) : Reworks l b t :=
  ⟨h.buffer, fun j out => h.other j fun e => out (e ▸ mem), h.rest, h.stamps⟩

theorem Reworks.refl (l : List BufIdx) (b : Bridge) : Reworks l b b := ⟨fun _ => rfl, fun _ _ => rfl, rfl, Nat.le_refl _⟩

theorem Reworks.trans {l : List BufIdx} {a b c : Bridge} (h : Reworks l a b) (h' : Reworks l b c) : Reworks l a c :=
  ⟨fun i => by rw [h'.buffer i, h.buffer i], fun i out => (h'.other i out).trans (h.other i out), by rw [h'.rest, h.rest],
    h.stamps.trans h'.stamps⟩

theorem Reworks.foldl {f : Bridge → BufIdx → Bridge} (h : ∀ b i, Touches i b (f b i)) (l : List BufIdx) :
    ∀ (m : List BufIdx) (b : Bridge), m ⊆ l → Reworks l b (m.foldl f b)
  | [], b, _ => .refl l b
  | i :: m, b, sub => by
    obtain ⟨mem, sub⟩ := List.cons_subset.1 sub
    exact ((h b i).reworks mem).trans (Reworks.foldl h l m (f b i) sub)

section Reworked
variable {l : List BufIdx} {b t : Bridge}

theorem Reworks.causesNow (h : Reworks l b t) (i : BufIdx) : causesNow t i = causesNow b i := by
  unfold Machine.causesNow awaitedBy Bridge.entry
  rw [h.buffer i, show t.table = b.table by rw [h.rest], show t.pool.pressure = b.pool.pressure by rw [h.rest],
    show t.cart.state = b.cart.state by rw [h.rest]]

theorem Reworks.agingDue (h : Reworks l b t) (i : BufIdx) : agingDue t (t.buf i) = agingDue b (b.buf i) := by
  unfold Machine.agingDue
  rw [h.buffer i, show t.mgmt = b.mgmt by rw [h.rest], show t.clock = b.clock by rw [h.rest]]

theorem Reworks.testDue (h : Reworks l b t) : t.pool.testDue = b.pool.testDue := by rw [h.rest]

theorem Reworks.state (h : Reworks l b t) (i : BufIdx) : (t.buf i).state = (b.buf i).state := by rw [h.buffer i]

theorem Reworks.jobCauses (h : Reworks l b t) (i : BufIdx) (f : Flush) : jobCauses t i f = jobCauses b i f := by
  unfold Machine.jobCauses
  dsimp only
  rw [h.causesNow, h.testDue, h.state, h.agingDue]

theorem Reworks.isHeldBack (h : Reworks l b t) (i : BufIdx) : isHeldBack t i = isHeldBack b i := by
  unfold Machine.isHeldBack
  have same : ∀ j, ((t.buf j).state == .committing && (t.buf j).successor == some i)
      = ((b.buf j).state == .committing && (b.buf j).successor == some i) := fun j => by rw [h.buffer j]
  simp only [same]

theorem Reworks.targetTaken (h : Reworks l b t) {i : BufIdx} {f f' : Flush} (taken : TargetTaken t i f f') :
    TargetTaken b i f f' := by
  refine taken.congr (by rw [h.buffer i]) (fun n => ?_) (by rw [h.rest])
  unfold translate
  rw [show t.dm = b.dm by rw [h.rest], show t.cart.layout = b.cart.layout by rw [h.rest]]

end Reworked

/-! ### One visit (R106, R107, R109) -/

section Visit
variable {b : Bridge} {i : BufIdx} {f : Flush} {c : Causes}

theorem addFillNeed_touches (b : Bridge) (i : BufIdx) : Touches i b (addFillNeed b i) := by
  unfold addFillNeed
  split
  · exact putBuf_touches b i rfl
  · exact (putBuf_touches b i rfl).trans (takeStamp_touches i _)

theorem makeJob_touches (b : Bridge) (i : BufIdx) (c : Causes) : Touches i b (makeJob b i c) := by
  unfold makeJob
  dsimp only
  split
  · exact (putFlush_touches b i _).trans (addFillNeed_touches _ i)
  · split
    · exact putFlush_touches b i _
    · exact (putFlush_touches b i _).trans (takeTarget_touches _ i)

theorem endFill_touches (b : Bridge) (i : BufIdx) (f : Flush) : Touches i b (endFill b i f) :=
  (putBuf_touches b i rfl).trans (takeTarget_touches _ i)

theorem syncJob_touches (b : Bridge) (i : BufIdx) : Touches i b (syncJob b i) := by
  unfold syncJob
  dsimp only
  split
  · split
    · exact endFill_touches b i _
    · split
      · exact .refl i b
      · exact putFlush_touches b i _
  · split
    · split
      · exact .refl i b
      · exact makeJob_touches b i _
    · exact .refl i b

/-- The job with its causes brought up to date. -/
def Flush.withCauses (f : Flush) (c : Causes) : Flush := { f with causes := c }

/-- A job whose fill is not over has its causes brought up to date. -/
theorem syncJob_keeps (hf : (b.buf i).flush = some f) (filling : ¬ (f.phase = .fill ∧ isFull (b.buf i) = true)) :
    (syncJob b i).buf i = { b.buf i with flush := some (f.withCauses (jobCauses b i f).orAged) } := by
  unfold syncJob
  dsimp only
  rw [hf]
  dsimp only
  rw [if_neg filling]
  split
  · rename_i same
    unfold Flush.withCauses
    rw [same, ← hf]
  · exact buf_putBuf_self ..

/-- A job whose fill is over. -/
def Flush.filled (f : Flush) (c : Causes) : Flush := { f with phase := .erase, stage := some .held, causes := c }

/-- The target is taken in a visit, under the next stamp where the job is pending. -/
structure TakenIn (b t : Bridge) (i : BufIdx) (f f' : Flush) : Prop where
  target : TargetTaken b i f f'
  stamp  : f'.stage = some .pending → f'.stamp = b.arb.stamps ∧ t.arb.stamps = b.arb.stamps + 1
  keeps  : TargetKeeps f f'

/-- The target that a HELD job takes, in the terms of the bridge before its record was put. -/
theorem takeTarget_held {t : Bridge} (touched : Touches i b t) (same : t.arb.stamps = b.arb.stamps)
    (hf : (t.buf i).flush = some f) (held : f.stage = some .held) :
    ∃ f', (takeTarget t i).buf i = { t.buf i with flush := some f' } ∧ TakenIn b (takeTarget t i) i f f' := by
  obtain ⟨f', put, taken, stamp, keeps⟩ := takeTarget_spec hf
  refine ⟨f', put, taken.congr (by rw [touched.job]) (fun n => (touched.translate n).symm) touched.writeState.symm,
    fun pending => ?_, keeps⟩
  have next := (stamp pending).resolve_left (by rw [held]; exact nofun)
  rwa [same] at next

/-- The record of a buffer whose job's fill is over, before the target is taken. -/
def Buffer.fillOver (x : Buffer) (f : Flush) (c : Causes) : Buffer :=
  { x with load := x.load.map fun l => { l with fillNeed := false }, flush := some (f.filled c) }

/-- A job whose fill is over takes its target, and its load has no fill need. -/
theorem syncJob_filled (hf : (b.buf i).flush = some f) (fill : f.phase = .fill) (full : isFull (b.buf i) = true) :
    ∃ f', (syncJob b i).buf i = { b.buf i with
        load := (b.buf i).load.map fun l => { l with fillNeed := false }, flush := some f' }
      ∧ TakenIn b (syncJob b i) i (f.filled (jobCauses b i f).orAged) f' := by
  have ends : syncJob b i = takeTarget (b.putBuf i ((b.buf i).fillOver f (jobCauses b i f).orAged)) i := by
    unfold syncJob
    dsimp only
    rw [hf]
    exact if_pos ⟨fill, full⟩
  have put := buf_putBuf_self b i ((b.buf i).fillOver f (jobCauses b i f).orAged)
  rw [ends]
  obtain ⟨f', here, taken⟩ := takeTarget_held (f := f.filled (jobCauses b i f).orAged)
    (putBuf_touches b i (x := (b.buf i).fillOver f (jobCauses b i f).orAged) rfl) rfl (by rw [put]; rfl) rfl
  refine ⟨f', ?_, taken⟩
  rw [here, put]
  rfl

theorem syncJob_not_opened (hf : (b.buf i).flush = none) (hs : (b.buf i).state ≠ .opened) : syncJob b i = b := by
  unfold syncJob
  dsimp only
  rw [hf]
  exact if_neg hs

/-- The causes of a job that is made (R107). -/
def newCauses (b : Bridge) (i : BufIdx) : Causes :=
  { causesNow b i with aged := b.pool.testDue.contains i && agingDue b (b.buf i) }

theorem syncJob_no_cause (hf : (b.buf i).flush = none) (none : newCauses b i = Causes.none) : syncJob b i = b := by
  unfold syncJob
  dsimp only
  rw [hf]
  dsimp only
  split
  · exact if_pos none
  · rfl

theorem syncJob_makes (hf : (b.buf i).flush = none) (hs : (b.buf i).state = .opened) (some : newCauses b i ≠ Causes.none) :
    syncJob b i = makeJob b i (newCauses b i) := by
  unfold syncJob
  dsimp only
  rw [hf]
  exact (if_pos hs).trans (if_neg some)

/-- The load that a fill joins or makes (R107). -/
def fillLoad (b : Bridge) (i : BufIdx) : Load :=
  match (b.buf i).load with
  | some l => { l with fillNeed := true }
  | none => newLoad [] true b.arb.stamps

/-- A job in FILL as it is made. -/
def fillFlush (c : Causes) : Flush := { newFlush c with phase := .fill, stage := none }

theorem addFillNeed_buf (b : Bridge) (i : BufIdx) : (addFillNeed b i).buf i = { b.buf i with load := some (fillLoad b i) } := by
  cases load : (b.buf i).load with
  | some l =>
    rw [addFillNeed, fillLoad, load]
    exact buf_putBuf_self ..
  | none =>
    rw [addFillNeed, fillLoad, load]
    exact (takeStamp_buf ..).trans (buf_putBuf_self ..)

theorem makeJob_fill (h : ¬ isFull (b.buf i) = true) : makeJob b i c = addFillNeed (putFlush b i (fillFlush c)) i :=
  if_pos (by simp [h])

theorem makeJob_fill_buf (h : ¬ isFull (b.buf i) = true) :
    (makeJob b i c).buf i = { b.buf i with flush := some (fillFlush c), load := some (fillLoad b i) } := by
  have put : (putFlush b i (fillFlush c)).buf i = { b.buf i with flush := some (fillFlush c) } := buf_putBuf_self ..
  have same : fillLoad (putFlush b i (fillFlush c)) i = fillLoad b i := by
    unfold fillLoad
    rw [put]
    rfl
  rw [makeJob_fill h, addFillNeed_buf, put, same]

/-- A load that a fill makes takes the next stamp. -/
theorem makeJob_fill_stamp (h : ¬ isFull (b.buf i) = true) (load : (b.buf i).load = none) :
    (fillLoad b i).stamp = b.arb.stamps ∧ (makeJob b i c).arb.stamps = b.arb.stamps + 1 := by
  have put : ((putFlush b i (fillFlush c)).buf i).load = none := (congrArg Buffer.load (buf_putBuf_self b i _)).trans load
  refine ⟨by rw [fillLoad, load]; rfl, ?_⟩
  rw [makeJob_fill h, addFillNeed, put]
  rfl

theorem makeJob_held_buf (full : isFull (b.buf i) = true) (held : isHeldBack b i = true) :
    (makeJob b i c).buf i = { b.buf i with flush := some (newFlush c) } := by
  have ends : makeJob b i c = putFlush b i (newFlush c) := (if_neg (by simp [full])).trans (if_pos held)
  rw [ends]
  exact buf_putBuf_self ..

theorem makeJob_taken (full : isFull (b.buf i) = true) (held : ¬ isHeldBack b i = true) :
    ∃ f', (makeJob b i c).buf i = { b.buf i with flush := some f' } ∧ TakenIn b (makeJob b i c) i (newFlush c) f' := by
  have ends : makeJob b i c = takeTarget (putFlush b i (newFlush c)) i := (if_neg (by simp [full])).trans (if_neg held)
  have put : (putFlush b i (newFlush c)).buf i = { b.buf i with flush := some (newFlush c) } := buf_putBuf_self ..
  rw [ends]
  obtain ⟨f', here, taken⟩ := takeTarget_held (f := newFlush c) (putFlush_touches b i _) rfl (by rw [put]) rfl
  refine ⟨f', ?_, taken⟩
  rw [here, put]

/-- The fill of the buffer's job is over. -/
def FillOver (b : Bridge) (i : BufIdx) : Prop := isFull (b.buf i) = true ∧ ∃ f, (b.buf i).flush = some f ∧ f.phase = .fill

/-- The stamp of a job, or of the load that a fill made: in a visit that makes the job or ends its fill, it is the next. -/
theorem syncJob_stamp (h : (b.buf i).flush = none ∨ FillOver b i) {f' : Flush} {x : Nat}
    (job : ((syncJob b i).buf i).flush = some f') (stamped : (f'.stage = some .pending ∧ x = f'.stamp)
      ∨ (f'.phase = .fill ∧ (b.buf i).load = none ∧ ∃ l, ((syncJob b i).buf i).load = some l ∧ x = l.stamp)) :
    x = b.arb.stamps ∧ (syncJob b i).arb.stamps = b.arb.stamps + 1 := by
  have taken : ∀ {f g : Flush}, f.phase = .erase → TakenIn b (syncJob b i) i f g →
      ((syncJob b i).buf i).flush = some g → x = b.arb.stamps ∧ (syncJob b i).arb.stamps = b.arb.stamps + 1 := by
    intro f g erase taken here
    rw [job] at here
    cases here
    rcases stamped with ⟨pending, rfl⟩ | ⟨fill, -⟩
    · exact taken.stamp pending
    · exact absurd fill (taken.keeps.phase (by rw [erase]; decide))
  rcases h with none | ⟨full, f, hf, fill⟩
  · by_cases idle : (b.buf i).state ≠ .opened ∨ newCauses b i = Causes.none
    · have same : syncJob b i = b := idle.elim (syncJob_not_opened none) (syncJob_no_cause none)
      rw [same, none] at job
      cases job
    · push Not at idle
      have makes := syncJob_makes none idle.1 idle.2
      rw [makes] at job stamped taken ⊢
      by_cases full : isFull (b.buf i) = true
      · by_cases held : isHeldBack b i = true
        · rw [makeJob_held_buf full held] at job
          cases job
          rcases stamped with ⟨pending, -⟩ | ⟨fill, -⟩
          · cases pending
          · cases fill
        · obtain ⟨g, put, took⟩ := makeJob_taken (c := newCauses b i) full held
          exact taken rfl took (by rw [put])
      · rw [makeJob_fill_buf full] at job stamped
        cases job
        rcases stamped with ⟨pending, -⟩ | ⟨-, load, l, hl, rfl⟩
        · cases pending
        · cases hl
          exact makeJob_fill_stamp full load
  · obtain ⟨g, put, took⟩ := syncJob_filled hf fill full
    exact taken rfl took (by rw [put])

end Visit

/-! ### The visits in ascending order (R107) -/

section Visits
variable {b : Bridge} {i j : BufIdx}

/-- The bridge when the buffers below `i` have been visited. -/
def syncedBelow (b : Bridge) (i : BufIdx) : Bridge := (allBufs.take i.val).foldl syncJob (notePressure b)

/-- The bridge when every buffer has been visited. -/
def synced (b : Bridge) : Bridge := allBufs.foldl syncJob (notePressure b)

theorem allBufs_drop (i : BufIdx) : allBufs.drop i.val = i :: allBufs.drop (i.val + 1) := by
  rw [List.drop_eq_getElem_cons (by simp [allBufs])]
  simp [allBufs]

theorem allBufs_split (i : BufIdx) : allBufs = allBufs.take i.val ++ i :: allBufs.drop (i.val + 1) := by
  rw [← allBufs_drop, List.take_append_drop]

theorem allBufs_apart (i : BufIdx) : i ∉ allBufs.take i.val ∧ i ∉ allBufs.drop (i.val + 1) := by
  have nodup : (allBufs.take i.val ++ i :: allBufs.drop (i.val + 1)).Nodup := by
    rw [← allBufs_split]
    exact List.nodup_finRange 32
  obtain ⟨-, after, apart⟩ := List.nodup_append.1 nodup
  exact ⟨fun mem => apart i mem i List.mem_cons_self rfl, (List.nodup_cons.1 after).1⟩

theorem foldl_syncJob_reworks (l : List BufIdx) (b : Bridge) : Reworks l b (l.foldl syncJob b) :=
  .foldl syncJob_touches l l b fun _ h => h

theorem syncedBelow_reworks (b : Bridge) (i : BufIdx) : Reworks (allBufs.take i.val) (notePressure b) (syncedBelow b i) :=
  foldl_syncJob_reworks _ _

theorem synced_reworks (b : Bridge) : Reworks allBufs (notePressure b) (synced b) := foldl_syncJob_reworks _ _

/-- A buffer comes to its visit as it was. -/
theorem syncedBelow_buf (b : Bridge) (i : BufIdx) : (syncedBelow b i).buf i = b.buf i :=
  (syncedBelow_reworks b i).other i (allBufs_apart i).1

/-- What a visit makes of its buffer stays. -/
theorem synced_buf (b : Bridge) (i : BufIdx) : (synced b).buf i = (syncJob (syncedBelow b i) i).buf i := by
  unfold synced
  rw [allBufs_split i, List.foldl_append, List.foldl_cons]
  exact (foldl_syncJob_reworks _ _).other i (allBufs_apart i).2

theorem syncedBelow_stamps (b : Bridge) (i : BufIdx) : b.arb.stamps ≤ (syncedBelow b i).arb.stamps :=
  (syncedBelow_reworks b i).stamps

/-- A later visit finds the stamps that an earlier one left, or more. -/
theorem syncJob_stamps_le (h : i < j) : (syncJob (syncedBelow b i) i).arb.stamps ≤ (syncedBelow b j).arb.stamps := by
  have apart : i.val < j.val := h
  have split : allBufs.take j.val = allBufs.take i.val ++ i :: (allBufs.drop (i.val + 1)).take (j.val - i.val - 1) := by
    rw [show j.val = i.val + (j.val - i.val - 1 + 1) by omega, List.take_add, allBufs_drop, List.take_succ_cons]
    simp
  unfold syncedBelow
  rw [split, List.foldl_append, List.foldl_cons]
  exact (foldl_syncJob_reworks _ _).stamps

/-- The causes of a job at its visit, in the terms of the bridge before. -/
theorem syncedBelow_jobCauses (b : Bridge) (i : BufIdx) (f : Flush) :
    jobCauses (syncedBelow b i) i f = jobCauses (notePressure b) i f := (syncedBelow_reworks b i).jobCauses i f

theorem syncedBelow_newCauses (b : Bridge) (i : BufIdx) : newCauses (syncedBelow b i) i = newCauses (notePressure b) i := by
  have reworks := syncedBelow_reworks b i
  unfold newCauses
  rw [reworks.causesNow, reworks.agingDue, reworks.testDue]

theorem pressureNow_iff : pressureNow b = true ↔ availableCount b < 10 := decide_eq_true_iff

theorem holds_jobCauses (b : Bridge) (i : BufIdx) (f : Flush) : Holds b i (jobCauses (notePressure b) i f) :=
  ⟨pressureNow_iff, awaitedBy_iff, awaitedBy_iff, rfl⟩

theorem jobCauses_aged (b : Bridge) (i : BufIdx) (f : Flush) :
    (jobCauses (notePressure b) i f).aged = true ↔ f.causes.aged = true ∨ AgedNow b i := by
  rw [← agedNow_iff]
  exact iff_of_eq (Bool.or_eq_true _ _)

/-- The causes with which a job is made are those that hold. -/
theorem newCauses_eq {c : Causes} (opened : (b.buf i).state = .opened) (holds : Holds b i c)
    (quiesce : c.quiesce = true ↔ b.cart.state = .quiescing) (aged : c.aged = true ↔ AgedNow b i) :
    newCauses (notePressure b) i = c := by
  obtain ⟨pressure, confirmed, flushWait, relocate⟩ := holds
  refine Causes.ext_iff ?_ (pressureNow_iff.trans pressure.symm) (awaitedBy_iff.trans confirmed.symm)
    (awaitedBy_iff.trans flushWait.symm) (beq_iff_eq.trans quiesce.symm) relocate.symm
  rw [aged, ← agedNow_iff, opened]
  rfl

end Visits

/-! ### The sweep that ends them (R70, R100) -/

section Swept
variable {b : Bridge} {i : BufIdx}

/-- The tests that were due are made. -/
def testsMade (b : Bridge) : Bridge := { b with pool := { b.pool with testDue := [] } }

theorem testsMade_buf (b : Bridge) (i : BufIdx) : (testsMade b).buf i = b.buf i := rfl

theorem syncJobs_eq (b : Bridge) : syncJobs b = sweepLoads (testsMade (synced b)) := by
  unfold syncJobs synced Bridge.forBufs testsMade
  generalize allBufs.foldl syncJob (notePressure b) = c
  rfl

theorem syncJobs_buf (b : Bridge) (i : BufIdx) : Unlinked ((synced b).buf i).swept ((syncJobs b).buf i) := by
  rw [syncJobs_eq, ← testsMade_buf (synced b)]
  exact sweepLoads_buf _ i

theorem Unlinked.flush {x y : Buffer} (h : Unlinked x y) : y.flush = x.flush := by
  obtain ⟨q, rfl⟩ := h
  rfl

theorem synced_ok (ok : PoolOk b) : PoolOk (synced b) :=
  (Orderly.foldl syncJob_orderly allBufs (notePressure b)).keeps ((notePressure_orderly b).keeps ok)

/-- A buffer that is not LOADING keeps all but its load and its link. -/
theorem syncJobs_record (hs : (b.buf i).state ≠ .loading) : (syncJobs b).buf i
    = { (synced b).buf i with load := ((syncJobs b).buf i).load, successor := ((syncJobs b).buf i).successor } := by
  have state : ((synced b).buf i).state ≠ .loading := by rw [(synced_reworks b).state]; exact hs
  exact (((synced b).buf i).swept_relieved.trans (syncJobs_buf b i).relieved).record state

theorem swept_reworked {x u y : Buffer} (h : u = { x with flush := u.flush, load := u.load })
    (h' : y = { u with load := y.load, successor := y.successor }) :
    y = { x with flush := y.flush, load := y.load, successor := y.successor } := by
  rw [h', h]

theorem Buffer.swept_load {x : Buffer} {l : Load} (h : x.swept.load = some l) : x.load = some l := by
  unfold Buffer.swept at h
  split at h
  · exact h
  · split at h
    · rw [x.withdrawn_load] at h
      cases h
    · exact h

theorem Buffer.swept_flush {x : Buffer} (h : x.flush = none) : x.swept.flush = none := by
  have withdrawn : x.withdrawn.flush = none := by
    unfold Buffer.withdrawn
    split
    · split
      · rfl
      · exact h
    · exact h
  unfold Buffer.swept
  split
  · exact h
  · split
    · exact withdrawn
    · exact h

/-- A load that is left is as the visits left it. -/
theorem syncJobs_load {l : Load} (h : ((syncJobs b).buf i).load = some l) : ((synced b).buf i).load = some l := by
  rw [(syncJobs_buf b i).load] at h
  exact Buffer.swept_load h

/-- A load that a fill needs is left. -/
theorem syncJobs_load_needed {l : Load} (h : ((synced b).buf i).load = some l) (need : l.fillNeed = true) :
    ((syncJobs b).buf i).load = some l := by
  rw [(syncJobs_buf b i).load, Buffer.swept_needed h (.inr (.inl need)), h]

/-- A job is as the visits left it. -/
theorem syncJobs_flush (ok : PoolOk b) : ((syncJobs b).buf i).flush = ((synced b).buf i).flush := by
  by_cases loading : (b.buf i).state = .loading
  · have state : ((synced b).buf i).state = .loading := by rw [(synced_reworks b).state]; exact loading
    have none : ((synced b).buf i).flush = none := by
      cases hf : ((synced b).buf i).flush with
      | none => rfl
      | some f => exact absurd state ((synced_ok ok).mayHoldJob hf).not_loading
    rw [none, (syncJobs_buf b i).flush]
    exact Buffer.swept_flush none
  · rw [syncJobs_record loading]

theorem freeBuf_pressure (b : Bridge) (i : BufIdx) : (freeBuf b i).pool.pressure = b.pool.pressure := by
  have unlinked : (b.forBufs (unlink i)).pool.pressure = b.pool.pressure := by
    unfold Bridge.forBufs
    refine foldl_rel (R := fun b t => t.pool.pressure = b.pool.pressure) (fun _ => rfl) (fun h h' => h'.trans h)
      (fun b j => ?_) allBufs b
    unfold unlink
    split <;> rfl
  unfold freeBuf leaveEvict
  generalize b.forBufs (unlink i) = c at unlinked
  exact unlinked

theorem sweepLoads_pressure (b : Bridge) : (sweepLoads b).pool.pressure = b.pool.pressure := by
  unfold sweepLoads Bridge.forBufs
  refine foldl_rel (R := fun b t => t.pool.pressure = b.pool.pressure) (fun _ => rfl) (fun h h' => h'.trans h)
    (fun b i => ?_) allBufs b
  unfold withdrawUnneeded
  split
  · rfl
  · split
    · unfold withdrawLoad
      dsimp only
      split
      · split
        · exact freeBuf_pressure b i
        · rfl
      · rfl
    · rfl

theorem syncJobs_pressure (b : Bridge) : (syncJobs b).pool.pressure = pressureNow b := by
  have kept : (synced b).pool.pressure = (notePressure b).pool.pressure := by rw [(synced_reworks b).rest]
  rw [syncJobs_eq, sweepLoads_pressure]
  generalize synced b = c at kept
  exact kept

/-- Only the pool, the stamps and the spin-down timer change. -/
theorem syncJobs_rest (b : Bridge) : (syncJobs b).table = b.table ∧ (syncJobs b).mgmt = b.mgmt ∧ (syncJobs b).dm = b.dm
    ∧ (syncJobs b).arb.order = b.arb.order := by
  have reworks := synced_reworks b
  have table : (synced b).table = b.table := by rw [reworks.rest]; rfl
  have mgmt : (synced b).mgmt = b.mgmt := by rw [reworks.rest]; rfl
  have dm : (synced b).dm = b.dm := by rw [reworks.rest]; rfl
  have order : (synced b).arb.order = b.arb.order := by rw [reworks.rest]; rfl
  rw [syncJobs_eq]
  generalize synced b = c at table mgmt dm order
  rw [(sweepLoads_poolOnly (testsMade c)).1]
  exact ⟨table, mgmt, dm, order⟩

end Swept

/-! ### What becomes of the jobs (R106, R107, R109) -/

section Jobs
variable {b : Bridge} {i j : BufIdx} {f : Flush}

theorem syncJobs_flush_visit (ok : PoolOk b) (i : BufIdx) :
    ((syncJobs b).buf i).flush = ((syncJob (syncedBelow b i) i).buf i).flush := by
  rw [syncJobs_flush ok, synced_buf]

theorem TakenIn.before {t : Bridge} {f f' : Flush} (h : TakenIn (syncedBelow b i) t i f f') : TargetTaken b i f f' :=
  (syncedBelow_reworks b i).targetTaken h.target

/-- A job goes on with its causes. -/
theorem syncJobs_keeps (ok : PoolOk b) (hf : (b.buf i).flush = some f)
    (filling : ¬ (f.phase = .fill ∧ (b.buf i).valid ||| (b.buf i).lost = allQuarters)) :
    ((syncJobs b).buf i).flush = some (f.withCauses (jobCauses (notePressure b) i f).orAged) := by
  have here := syncedBelow_buf b i
  rw [syncJobs_flush_visit ok, syncJob_keeps (by rw [here]; exact hf) (by rw [here, isFull_iff]; exact filling),
    syncedBelow_jobCauses]

/-- A fill that is over ends. -/
theorem syncJobs_filled (ok : PoolOk b) (hf : (b.buf i).flush = some f) (fill : f.phase = .fill)
    (full : (b.buf i).valid ||| (b.buf i).lost = allQuarters) :
    ∃ f', ((syncJobs b).buf i).flush = some f' ∧ f'.causes = (jobCauses (notePressure b) i f).orAged
      ∧ (∀ l, ((syncJobs b).buf i).load = some l → l.fillNeed = false)
      ∧ TargetTaken b i (f.filled f'.causes) f' := by
  have here := syncedBelow_buf b i
  obtain ⟨f', put, taken⟩ := syncJob_filled (b := syncedBelow b i) (by rw [here]; exact hf) fill
    (by rw [here, isFull_iff]; exact full)
  have causes := taken.keeps.causes
  have before := taken.before
  rw [syncedBelow_jobCauses] at causes before
  refine ⟨f', by rw [syncJobs_flush_visit ok, put], causes, fun l hl => ?_, by rw [causes]; exact before⟩
  have load := syncJobs_load hl
  rw [synced_buf, put] at load
  obtain ⟨l0, -, rfl⟩ := Option.map_eq_some_iff.1 load
  rfl

theorem syncJobs_none (ok : PoolOk b) (hf : (b.buf i).flush = none)
    (idle : (b.buf i).state ≠ .opened ∨ newCauses (notePressure b) i = Causes.none) : ((syncJobs b).buf i).flush = none := by
  have here := syncedBelow_buf b i
  have same : syncJob (syncedBelow b i) i = syncedBelow b i := by
    rcases idle with other | none
    · exact syncJob_not_opened (by rw [here]; exact hf) (by rw [here]; exact other)
    · exact syncJob_no_cause (by rw [here]; exact hf) (by rw [syncedBelow_newCauses]; exact none)
  rw [syncJobs_flush_visit ok, same, here, hf]

section Made
variable {c : Causes} (ok : PoolOk b) (hf : (b.buf i).flush = none) (hs : (b.buf i).state = .opened)
  (hc : newCauses (notePressure b) i = c) (some : c ≠ Causes.none)
include ok hf hs hc some

omit ok in
theorem syncedBelow_makes : syncJob (syncedBelow b i) i = makeJob (syncedBelow b i) i c := by
  have here := syncedBelow_buf b i
  rw [syncJob_makes (by rw [here]; exact hf) (by rw [here]; exact hs) (by rw [syncedBelow_newCauses, hc]; exact some),
    syncedBelow_newCauses, hc]

/-- A job is made in FILL where quarters are missing, with the fill need. -/
theorem syncJobs_made_fill (missing : ¬ (b.buf i).valid ||| (b.buf i).lost = allQuarters) :
    ((syncJobs b).buf i).flush = Option.some (fillFlush c)
      ∧ ∃ l, ((syncJobs b).buf i).load = Option.some l ∧ l.fillNeed = true
        ∧ ((b.buf i).load = none → l.readers = [] ∧ l.stage = .pending ∧ l.retries = 0)
        ∧ ∀ l0, (b.buf i).load = Option.some l0 → l = { l0 with fillNeed := true } := by
  have here := syncedBelow_buf b i
  have makes := syncedBelow_makes hf hs hc some
  have put := makeJob_fill_buf (b := syncedBelow b i) (i := i) (c := c) (by rw [here, isFull_iff]; exact missing)
  have load : ((synced b).buf i).load = Option.some (fillLoad (syncedBelow b i) i) := by rw [synced_buf, makes, put]
  have need : (fillLoad (syncedBelow b i) i).fillNeed = true := by
    unfold fillLoad
    split <;> rfl
  refine ⟨by rw [syncJobs_flush_visit ok, makes, put], _, syncJobs_load_needed load need, need, fun none => ?_, fun l0 hl => ?_⟩
  · rw [fillLoad, here, none]
    exact ⟨rfl, rfl, rfl⟩
  · rw [fillLoad, here, hl]

/-- A successor's job is made HELD. -/
theorem syncJobs_made_held (full : (b.buf i).valid ||| (b.buf i).lost = allQuarters)
    (held : ∃ j, (b.buf j).state = .committing ∧ (b.buf j).successor = Option.some i) :
    ((syncJobs b).buf i).flush = Option.some (newFlush c) := by
  have here := syncedBelow_buf b i
  have heldBack : isHeldBack (syncedBelow b i) i = true := by
    rw [(syncedBelow_reworks b i).isHeldBack]
    exact isHeldBack_iff.2 held
  rw [syncJobs_flush_visit ok, syncedBelow_makes hf hs hc some,
    makeJob_held_buf (by rw [here, isFull_iff]; exact full) heldBack]

/-- Any other job is made with its target taken. -/
theorem syncJobs_made_taken (full : (b.buf i).valid ||| (b.buf i).lost = allQuarters)
    (free : ∀ j, (b.buf j).state = .committing → (b.buf j).successor ≠ Option.some i) :
    ∃ f', ((syncJobs b).buf i).flush = Option.some f' ∧ TargetKeeps (newFlush c) f' ∧ TargetTaken b i (newFlush c) f' := by
  have here := syncedBelow_buf b i
  have heldBack : ¬ isHeldBack (syncedBelow b i) i = true := by
    rw [(syncedBelow_reworks b i).isHeldBack]
    exact fun held => by
      obtain ⟨j, committing, successor⟩ := isHeldBack_iff.1 held
      exact free j committing successor
  obtain ⟨f', put, taken⟩ := makeJob_taken (b := syncedBelow b i) (c := c) (by rw [here, isFull_iff]; exact full) heldBack
  exact ⟨f', by rw [syncJobs_flush_visit ok, syncedBelow_makes hf hs hc some, put], taken.keeps, taken.before⟩

end Made

/-- The stamp of a job that was made, or whose fill ended, is the next at its visit. -/
theorem syncJobs_stamp (ok : PoolOk b) (h : (b.buf i).flush = none ∨ FillOver b i) {f' : Flush} {x : Nat}
    (job : ((syncJobs b).buf i).flush = some f') (stamped : (f'.stage = some .pending ∧ x = f'.stamp)
      ∨ (f'.phase = .fill ∧ (b.buf i).load = none ∧ ∃ l, ((syncJobs b).buf i).load = some l ∧ x = l.stamp)) :
    x = (syncedBelow b i).arb.stamps ∧ (syncJob (syncedBelow b i) i).arb.stamps = (syncedBelow b i).arb.stamps + 1 := by
  have here := syncedBelow_buf b i
  refine syncJob_stamp (f' := f') ?_ (by rw [← syncJobs_flush_visit ok]; exact job) ?_
  · rw [FillOver, here]
    exact h
  · rw [here]
    refine stamped.imp_right fun ⟨fill, load, l, hl, e⟩ => ⟨fill, load, l, ?_, e⟩
    rw [← synced_buf]
    exact syncJobs_load hl

end Jobs

/-- The permanent failure that is due, of the lowest buffer (R110). -/
theorem poolStep_fails {b : Bridge} {i : BufIdx} {f : Flush} (hf : (b.buf i).flush = some f) (remap : f.phase = .remap)
    (request : f.request = none)
    (lowest : ∀ j f', j < i → (b.buf j).flush = some f' → f'.phase = .remap → f'.request ≠ none) :
    poolStep b = some (permanentFailure b i none) := by
  have due : failDue b = some i := by
    unfold failDue allBufs
    rw [find?_finRange_eq_some_iff]
    refine ⟨by simp [hf, remap, request], fun j lt => ?_⟩
    cases hj : (b.buf j).flush with
    | none => rfl
    | some f' => simpa [Option.isSome_iff_ne_none] using lowest j f' lt hj
  unfold poolStep
  rw [due]

/-- Settles O47: each buffer by its one visit, the stamps by the order of the visits, and the sweep by what it leaves. -/
theorem jobsFollowTheirConditions : Obligations.JobsFollowTheirConditions := by
  unfold Obligations.JobsFollowTheirConditions
  refine ⟨fun b ok => ⟨?_, fun i f hf => ?_, fun i c hf hs holds quiesce aged => ?_, fun i hf hs => ?_,
    fun i j x y lt hi hj ⟨f, job, stamped⟩ ⟨f', job', stamped'⟩ => ?_,
    fun i hs => swept_reworked ((synced_reworks b).buffer i) (syncJobs_record (by rw [hs]; decide)), syncJobs_rest b⟩,
    fun b i f => poolStep_fails⟩
  · rw [syncJobs_pressure]
    exact pressureNow_iff
  · by_cases ends : f.phase = .fill ∧ (b.buf i).valid ||| (b.buf i).lost = allQuarters
    · obtain ⟨fill, full⟩ := ends
      obtain ⟨f', put, causes, load, taken⟩ := syncJobs_filled ok hf fill full
      exact ⟨f', _, put, holds_jobCauses b i f, rfl, jobCauses_aged b i f, causes, fun h => absurd ⟨fill, full⟩ h,
        fun _ _ => ⟨load, taken⟩⟩
    · exact ⟨_, _, syncJobs_keeps ok hf ends, holds_jobCauses b i f, rfl, jobCauses_aged b i f, rfl, fun _ => rfl,
        fun fill full => absurd ⟨fill, full⟩ ends⟩
  · have hc := newCauses_eq hs holds quiesce aged
    refine ⟨fun none => syncJobs_none ok hf (.inr (hc.trans none)), fun some => ?_⟩
    by_cases full : (b.buf i).valid ||| (b.buf i).lost = allQuarters
    · by_cases held : ∃ j, (b.buf j).state = .committing ∧ (b.buf j).successor = Option.some i
      · refine ⟨_, syncJobs_made_held ok hf hs hc some full held, rfl, rfl, rfl, fun h => absurd full h,
          fun _ _ => ⟨rfl, rfl, rfl, rfl⟩, fun _ free => ?_⟩
        obtain ⟨j, committing, successor⟩ := held
        exact absurd successor (free j committing)
      · push Not at held
        obtain ⟨f', put, keeps, taken⟩ := syncJobs_made_taken ok hf hs hc some full held
        refine ⟨f', put, keeps.causes, keeps.attempts, keeps.erased rfl, fun h => absurd full h, fun _ ⟨j, h⟩ => ?_,
          fun _ _ => taken⟩
        exact absurd h.2 (held j h.1)
    · obtain ⟨put, load⟩ := syncJobs_made_fill ok hf hs hc some full
      exact ⟨_, put, rfl, rfl, rfl, fun _ => ⟨rfl, rfl, rfl, rfl, load⟩, fun h => absurd h full, fun h => absurd h full⟩
  · exact syncJobs_none ok hf (.inl hs)
  · have fillOver : ∀ n, (b.buf n).flush = none ∨ ((b.buf n).valid ||| (b.buf n).lost = allQuarters
        ∧ ∃ f, (b.buf n).flush = some f ∧ f.phase = .fill) → (b.buf n).flush = none ∨ FillOver b n :=
      fun n h => h.imp_right fun ⟨full, job⟩ => ⟨isFull_iff.2 full, job⟩
    obtain ⟨rfl, next⟩ := syncJobs_stamp ok (fillOver i hi) job stamped
    obtain ⟨rfl, -⟩ := syncJobs_stamp ok (fillOver j hj) job' stamped'
    have later := syncJob_stamps_le (b := b) lt
    exact ⟨syncedBelow_stamps b i, by omega⟩

end Sys2Proof.Machine
end

section
/-! PROOFS. ERASE, WRITE and VERIFY of a flush job, and the outcomes that are dropped (R96, R112 to R115). -/

namespace Sys2Proof.Machine

section Phases
variable {b : Bridge} {i : BufIdx} {psa : Nat} {f : Flush}

/-- The next phase of a job, as its buffer holds it. -/
theorem nextPhase_flush (b : Bridge) (i : BufIdx) (f : Flush) (p : Phase) : ((nextPhase b i f p).buf i).flush
    = some { f with phase := p, stage := some .pending, erased := true, stamp := b.arb.stamps } := by
  rw [nextPhase, takeStamp_buf, putFlush, buf_putBuf_self]

theorem phaseEnded_erased (data : Option SectorData) (hf : (b.buf i).flush = some f) (flight : f.stage = some .inFlight)
    (target : f.target = some psa) (erase : f.phase = .erase) :
    phaseEnded b i psa .erase (.good data) = nextPhase b i f .write := by
  rw [phaseEnded_flight hf flight target, erase]

theorem phaseEnded_written (data : Option SectorData) (hf : (b.buf i).flush = some f) (flight : f.stage = some .inFlight)
    (target : f.target = some psa) (write : f.phase = .write) :
    phaseEnded b i psa .write (.good data) = nextPhase b i f .verify := by
  rw [phaseEnded_flight hf flight target, write]

theorem phaseEnded_dropped (hf : (b.buf i).flush = some f) (h : f.stage ≠ some .inFlight ∨ f.target ≠ some psa)
    (kind : OrderKind) (o : SectorOutcome) : phaseEnded b i psa kind o = b := by
  unfold phaseEnded
  rw [hf]
  exact if_neg fun ⟨flight, target⟩ => h.elim (· flight) (· target)

end Phases

/-- Settles O48: an outcome of a phase in flight on its target goes on to the next phase or fails the target, and any other
is dropped. -/
theorem flushPhasesFollowTheirOutcomes : Obligations.FlushPhasesFollowTheirOutcomes := by
  intro b i psa f data hf
  refine ⟨fun flight target => ⟨fun erase => ?_, fun write => ?_, fun kind o ho few writable => ?_⟩, phaseEnded_dropped hf⟩
  · rw [phaseEnded_erased data hf flight target erase]
    exact nextPhase_flush ..
  · rw [phaseEnded_written data hf flight target write]
    exact nextPhase_flush ..
  · rw [phaseEnded_failed hf flight target ho, (targetFailed_cases b i f psa).1 few writable, buf_putBuf_self]

end Sys2Proof.Machine
end

section
/-! PROOFS. The choice of the arbiter (R86, R87, R89, R90): the pending work and its classes, and the piece that comes first
in the order of class, deciding reader and stamp. -/

namespace Sys2Proof.Machine

/-! ### The classes (R87) -/

section Class
variable {b : Bridge} {i : BufIdx}

/-- The job of the buffer has an urgent cause. -/
def UrgentJob (b : Bridge) (i : BufIdx) : Prop :=
  ∃ f, (b.buf i).flush = some f ∧ (f.causes.confirmed = true ∨ f.causes.flushWait = true ∨ f.causes.pressure = true
    ∨ f.causes.quiesce = true)

theorem urgentJob_iff : (b.buf i).flush.any (fun f => isUrgent f.causes) = true ↔ UrgentJob b i := by
  simp [UrgentJob, isUrgent, Option.any_eq_true, or_assoc]

/-- Some reader of the load is a STREAM READ. -/
def HasStream (b : Bridge) (l : Load) : Prop := ∃ k ∈ l.readers, ∃ e, b.entry k = some e ∧ e.cls = some .stream

theorem isStream_iff {k : Key} : isStream b k = true ↔ ∃ e, b.entry k = some e ∧ e.cls = some .stream := by
  simp [isStream, Option.any_eq_true]

theorem hasStream_iff {l : Load} : l.readers.any (isStream b) = true ↔ HasStream b l := by
  simp [HasStream, List.any_eq_true, isStream_iff]

theorem workClass_load {l : Load} (load : (b.buf i).load = some l) : workClass b (.load i)
    = if l.readers.any (isStream b) then 1
      else if l.fillNeed && (b.buf i).flush.any (fun f => isUrgent f.causes) then 2 else 3 := by
  simp only [workClass, load]

section Load
variable {l : Load} (load : (b.buf i).load = some l)
include load

theorem workClass_stream (stream : HasStream b l) : workClass b (.load i) = 1 := by
  rw [workClass_load load, if_pos (hasStream_iff.2 stream)]

theorem workClass_urgentFill (stream : ¬ HasStream b l) (fill : l.fillNeed = true) (urgent : UrgentJob b i) :
    workClass b (.load i) = 2 := by
  rw [workClass_load load, if_neg (mt hasStream_iff.1 stream), fill, urgentJob_iff.2 urgent]
  rfl

theorem workClass_ordinary (stream : ¬ HasStream b l) (calm : ¬ (l.fillNeed = true ∧ UrgentJob b i)) :
    workClass b (.load i) = 3 := by
  rw [workClass_load load, if_neg (mt hasStream_iff.1 stream), if_neg]
  rw [Bool.and_eq_true, urgentJob_iff]
  exact calm

theorem hasStream_of_class (first : workClass b (.load i) = 1) : HasStream b l := by
  by_contra stream
  rw [workClass_load load, if_neg (mt hasStream_iff.1 stream)] at first
  split at first <;> cases first

end Load

theorem workClass_urgentPhase (urgent : UrgentJob b i) : workClass b (.phase i) = 2 := if_pos (urgentJob_iff.2 urgent)

theorem workClass_calmPhase (calm : ¬ UrgentJob b i) : workClass b (.phase i) = 4 := if_neg (mt urgentJob_iff.1 calm)

end Class

/-! ### What is pending (R86) -/

section Pending
variable {b : Bridge} {i : BufIdx}

theorem mem_allWork (w : Work) : w ∈ allWork := by
  cases w <;> simp [allWork, mem_allBufs]

theorem mem_pendingWork_iff {w : Work} : w ∈ pendingWork b ↔
    (workOrder b w).isSome = true ∨ ∃ i, w = .load i ∧ isLostLoad b i = true := by
  unfold pendingWork
  rw [List.mem_filter, Bool.or_eq_true]
  cases w <;> simp [mem_allWork]

theorem loadPending_iff : loadPending b i = true ↔ ∃ l, (b.buf i).load = some l ∧ l.stage = .pending := by
  simp [loadPending, Option.any_eq_true]

theorem bufTranslation_iff {r : Translation} :
    bufTranslation b i = some r ↔ ∃ lsn, (b.buf i).lsn = some lsn ∧ translate b lsn = some r := by
  simp [bufTranslation, Option.bind_eq_some_iff]

/-- A translated load is ordered at its PSA, or found LOST where it has none. -/
theorem load_mem_iff : Work.load i ∈ pendingWork b ↔ loadPending b i = true ∧ ∃ r, bufTranslation b i = some r := by
  rw [mem_pendingWork_iff]
  cases pending : loadPending b i with
  | false => simp [workOrder, isLostLoad, pending]
  | true =>
    cases at_ : bufTranslation b i with
    | none => simp [workOrder, isLostLoad, pending, at_]
    | some r => cases r <;> simp [workOrder, isLostLoad, pending, at_, Translation.psa]

theorem load_pending_iff : Work.load i ∈ pendingWork b ↔ ∃ l lsn r, (b.buf i).load = some l ∧ l.stage = .pending
    ∧ (b.buf i).lsn = some lsn ∧ translate b lsn = some r := by
  simp only [load_mem_iff, loadPending_iff, bufTranslation_iff]
  constructor
  · rintro ⟨⟨l, load, stage⟩, r, lsn, sector, result⟩
    exact ⟨l, lsn, r, load, stage, sector, result⟩
  · rintro ⟨l, lsn, r, load, stage, sector, result⟩
    exact ⟨⟨l, load, stage⟩, r, lsn, sector, result⟩

theorem phase_pending_iff : Work.phase i ∈ pendingWork b ↔ ∃ f p, (b.buf i).flush = some f ∧ f.stage = some .pending
    ∧ f.target = some p ∧ (f.phase = .erase ∨ f.phase = .write ∨ f.phase = .verify) := by
  rw [mem_pendingWork_iff]
  cases job : (b.buf i).flush with
  | none => simp [workOrder, phasePending, job]
  | some f =>
    have ordered : (workOrder b (.phase i)).isSome = true ↔
        f.stage = some .pending ∧ (f.phase = .erase ∨ f.phase = .write ∨ f.phase = .verify) ∧ f.target.isSome = true := by
      by_cases stage : f.stage = some .pending
      · cases phase : f.phase <;> simp [workOrder, phasePending, job, stage, phase, Phase.kind]
      · simp [workOrder, phasePending, job, stage]
    rw [ordered, Option.isSome_iff_exists]
    constructor
    · rintro (⟨stage, phase, p, target⟩ | ⟨j, h, -⟩)
      · exact ⟨f, p, rfl, stage, target, phase⟩
      · cases h
    · rintro ⟨f', p, same, stage, target, phase⟩
      cases same
      exact .inl ⟨stage, phase, p, target⟩

theorem map_pending_iff : Work.map ∈ pendingWork b ↔
    ∃ m st, b.dm.map = some m ∧ m.step = some st ∧ st.inFlight = false := by
  have ready : Work.map ∈ pendingWork b ↔ ∃ st, (∃ m, b.dm.map = some m ∧ m.step = some st) ∧ st.inFlight = false := by
    rw [mem_pendingWork_iff]
    simp [workOrder, pendingStep, Option.any_eq_true, Option.bind_eq_some_iff]
  rw [ready]
  exact ⟨fun ⟨st, ⟨m, map, step⟩, rest⟩ => ⟨m, st, map, step, rest⟩,
    fun ⟨m, st, map, step, rest⟩ => ⟨st, ⟨m, map, step⟩, rest⟩⟩

end Pending

/-! ### The order of the choice (R89) -/

/-- The least of a list by a strict order that a value decides: none of the list has a lower value. -/
theorem leastBy_minimal {α β : Type} [LinearOrder β] {before : α → α → Bool} {f : α → β}
    (order : ∀ x y, before x y = true ↔ f x < f y) {l : List α} {a : α} (least : leastBy before l = some a) :
    ∀ y ∈ l, f a ≤ f y := by
  have fold : ∀ (l : List α) (a : α), ∀ y ∈ a :: l,
      f (l.foldl (fun best x => if before x best then x else best) a) ≤ f y := by
    intro l
    induction l with
    | nil =>
      intro a y hy
      rw [List.mem_singleton.1 hy]
      exact le_rfl
    | cons x l ih =>
      intro a y hy
      rw [List.foldl_cons]
      have step := ih (if before x a then x else a)
      have lower : f (if before x a then x else a) ≤ f x ∧ f (if before x a then x else a) ≤ f a := by
        split
        · rename_i h
          exact ⟨le_rfl, ((order x a).1 h).le⟩
        · rename_i h
          exact ⟨not_lt.1 (mt (order x a).2 h), le_rfl⟩
      have first := step _ List.mem_cons_self
      rcases List.mem_cons.1 hy with rfl | hy
      · exact first.trans lower.2
      · rcases List.mem_cons.1 hy with rfl | hy
        · exact first.trans lower.1
        · exact step y (List.mem_cons_of_mem _ hy)
  cases l with
  | nil => cases least
  | cons x l =>
    cases least
    exact fold l x

theorem rankBefore_iff (p q : Int × Nat) : rankBefore p q = true ↔ toLex p < toLex q := by
  simp [rankBefore, Prod.Lex.toLex_lt_toLex]

/-- The deciding reader of a class 1 load is the STREAM reader of the earliest expiry, admitted first among equals. -/
theorem decidingRank_reader {b : Bridge} {i : BufIdx} {l : Load} (load : (b.buf i).load = some l) (stream : HasStream b l) :
    ∃ k ∈ l.readers, ∃ e, b.entry k = some e ∧ e.cls = some .stream
      ∧ decidingRank b (.load i) = (ahead b.clock (e.deadline.getD 0), e.seq)
      ∧ ∀ k' ∈ l.readers, ∀ e', b.entry k' = some e' → e'.cls = some .stream →
        ahead b.clock (e.deadline.getD 0) < ahead b.clock (e'.deadline.getD 0)
        ∨ (ahead b.clock (e.deadline.getD 0) = ahead b.clock (e'.deadline.getD 0) ∧ e.seq ≤ e'.seq) := by
  have rank : ∀ {k e}, b.entry k = some e → readerRank b k = (ahead b.clock (e.deadline.getD 0), e.seq) := fun h => by
    unfold readerRank
    rw [h]
  have member : ∀ {k e}, k ∈ l.readers → b.entry k = some e → e.cls = some .stream →
      readerRank b k ∈ (l.readers.filter (isStream b)).map (readerRank b) := fun hk he hs =>
    List.mem_map_of_mem (List.mem_filter.2 ⟨hk, isStream_iff.2 ⟨_, he, hs⟩⟩)
  obtain ⟨k0, hk0, e0, he0, hs0⟩ := stream
  obtain ⟨r, least⟩ := leastBy_isSome rankBefore (List.ne_nil_of_mem (member hk0 he0 hs0))
  obtain ⟨k, hk, rfl⟩ := List.mem_map.1 (leastBy_mem least)
  obtain ⟨reader, streams⟩ := List.mem_filter.1 hk
  obtain ⟨e, he, hs⟩ := isStream_iff.1 streams
  refine ⟨k, reader, e, he, hs, ?_, fun k' hk' e' he' hs' => ?_⟩
  · unfold decidingRank
    simp only [load, Option.map_some, Option.getD_some, least]
    exact rank he
  · have le := leastBy_minimal (f := toLex) rankBefore_iff least _ (member hk' he' hs')
    rw [rank he, rank he', Prod.Lex.toLex_le_toLex] at le
    exact le

/-- What the choice goes by, in this order: the class, in class 1 the deciding reader, and the stamp (R89). -/
def choiceKey (b : Bridge) (w : Work) : ℕ ×ₗ (ℤ ×ₗ ℕ) ×ₗ ℕ :=
  toLex (workClass b w, toLex (toLex (if workClass b w = 1 then decidingRank b w else (0, 0)), workStamp b w))

theorem workBefore_iff (b : Bridge) (v w : Work) : workBefore b v w = true ↔ choiceKey b v < choiceKey b w := by
  have within : workClass b v = workClass b w → (chosenBefore b v w = true ↔
      toLex (toLex (if workClass b v = 1 then decidingRank b v else (0, 0)), workStamp b v)
        < toLex (toLex (if workClass b w = 1 then decidingRank b w else (0, 0)), workStamp b w)) := by
    intro same
    unfold chosenBefore
    rw [← same, Prod.Lex.toLex_lt_toLex]
    by_cases first : workClass b v = 1 <;> simp [first, rankBefore_iff]
  unfold workBefore choiceKey
  rw [Prod.Lex.toLex_lt_toLex]
  simp only [Bool.or_eq_true, Bool.and_eq_true, decide_eq_true_eq, beq_iff_eq]
  exact or_congr_right (and_congr_right within)

/-- What a lower key says of class, deciding reader and stamp. -/
theorem choiceKey_le {b : Bridge} {v w : Work} (le : choiceKey b w ≤ choiceKey b v) : workClass b w ≤ workClass b v
    ∧ (workClass b v = workClass b w → workClass b w ≠ 1 → workStamp b w ≤ workStamp b v)
    ∧ (workClass b v = workClass b w → workClass b w = 1 → (decidingRank b w).1 < (decidingRank b v).1
      ∨ ((decidingRank b w).1 = (decidingRank b v).1 ∧ ((decidingRank b w).2 < (decidingRank b v).2
        ∨ ((decidingRank b w).2 = (decidingRank b v).2 ∧ workStamp b w ≤ workStamp b v)))) := by
  unfold choiceKey at le
  rw [Prod.Lex.toLex_le_toLex] at le
  rcases le with lower | ⟨same, le⟩
  · exact ⟨lower.le, fun h => absurd h lower.ne', fun h => absurd h lower.ne'⟩
  · dsimp only at same le
    rw [← same, Prod.Lex.toLex_le_toLex] at le
    refine ⟨same.le, fun _ other => ?_, fun _ first => ?_⟩
    · rw [if_neg other, if_neg other] at le
      exact le.resolve_left (lt_irrefl _) |>.2
    · rw [if_pos first, if_pos first, Prod.Lex.toLex_lt_toLex] at le
      rcases le with (lower | ⟨same1, lower⟩) | ⟨equal, stamp⟩
      · exact .inl lower
      · exact .inr ⟨same1, .inl lower⟩
      · rw [toLex.injective equal]
        exact .inr ⟨rfl, .inr ⟨rfl, stamp⟩⟩

/-! ### The choice and the streak (R90) -/

section Choice
variable {b : Bridge} {works : List Work} {w : Work}

/-- The work is of class 2 or 3. -/
def Ordinary (b : Bridge) (v : Work) : Prop := workClass b v = 2 ∨ workClass b v = 3

theorem mem_ordinaryWork_iff {v : Work} : v ∈ ordinaryWork b works ↔ v ∈ works ∧ Ordinary b v := by
  simp [ordinaryWork, Ordinary, List.mem_filter]

theorem ordinaryWork_ne_nil_iff : ordinaryWork b works ≠ [] ↔ ∃ v ∈ works, Ordinary b v := by
  simp only [← mem_ordinaryWork_iff]
  exact ⟨List.exists_mem_of_ne_nil _, fun ⟨v, hv⟩ => List.ne_nil_of_mem hv⟩

theorem chooseWork_eq (b : Bridge) (works : List Work) : chooseWork b works
    = if b.arb.streak = 8 ∧ ordinaryWork b works ≠ [] then
        leastBy (fun v w => workStamp b v < workStamp b w) (ordinaryWork b works)
      else leastBy (workBefore b) works := by
  unfold chooseWork
  split
  · rename_i empty
    simp [empty]
  · rename_i held
    by_cases streak : b.arb.streak = 8
    · rw [if_pos streak, if_pos ⟨streak, held⟩]
    · rw [if_neg streak, if_neg fun h => streak h.1]

theorem chooseWork_streak (chosen : chooseWork b works = some w) (streak : b.arb.streak = 8)
    (held : ∃ v ∈ works, Ordinary b v) : Ordinary b w ∧ ∀ v ∈ works, Ordinary b v → workStamp b w ≤ workStamp b v := by
  rw [chooseWork_eq, if_pos ⟨streak, ordinaryWork_ne_nil_iff.2 held⟩] at chosen
  exact ⟨(mem_ordinaryWork_iff.1 (leastBy_mem chosen)).2,
    fun v hv ordinary => leastBy_le chosen v (mem_ordinaryWork_iff.2 ⟨hv, ordinary⟩)⟩

theorem chooseWork_first (chosen : chooseWork b works = some w)
    (free : ¬ (b.arb.streak = 8 ∧ ∃ v ∈ works, Ordinary b v)) : ∀ v ∈ works, choiceKey b w ≤ choiceKey b v := by
  rw [chooseWork_eq, if_neg fun ⟨streak, held⟩ => free ⟨streak, ordinaryWork_ne_nil_iff.1 held⟩] at chosen
  exact leastBy_minimal (workBefore_iff b) chosen

end Choice

/-- Settles O39: the pending work and its classes by their definitions, and the choice because one key orders the pieces of
work as R89 does. -/
theorem theArbiterChoosesByClassAndStamp : Obligations.TheArbiterChoosesByClassAndStamp := by
  refine ⟨fun b i => ⟨fun l load => ⟨workClass_stream load, workClass_urgentFill load, workClass_ordinary load⟩,
    workClass_urgentPhase, workClass_calmPhase, rfl, load_pending_iff, phase_pending_iff, map_pending_iff⟩,
    fun b i l load first => decidingRank_reader load (hasStream_of_class load first), fun b works => ?_⟩
  refine ⟨chooseWork_isSome b, fun w chosen => ⟨chooseWork_mem chosen, chooseWork_streak chosen, fun free v hv => ?_,
    fun first held => ?_, fun other => ?_⟩⟩
  · exact choiceKey_le (chooseWork_first chosen free v hv)
  · exact if_pos ⟨first, ordinaryWork_ne_nil_iff.2 held⟩
  · exact if_neg fun ⟨first, held⟩ => other ⟨first, ordinaryWork_ne_nil_iff.1 held⟩

end Sys2Proof.Machine
end

section
/-! PROOFS. The settle (R103, R141), the timers of aging, map write and spin-down (R107, R108, R133, R146), and the spin-down
timer at the end of a step (R86, R102, R146). -/

namespace Sys2Proof.Machine

/-! ### The settle (R141) -/

section Settle
variable {b : Bridge}

theorem presenceArrives_settles (tab : Bool) (hs : b.cart.state = .empty ∨ b.cart.state = .settling) :
    presenceArrives b tab = startSettle b tab := by
  unfold presenceArrives
  rcases hs with hs | hs <;> rw [hs]

theorem presenceArrives_ignored (tab : Bool) (empty : b.cart.state ≠ .empty) (settling : b.cart.state ≠ .settling) :
    presenceArrives b tab = b := by
  unfold presenceArrives
  split
  · rename_i hs; exact absurd hs empty
  · rename_i hs; exact absurd hs settling
  all_goals rfl

theorem settleDue_iff : settleDue b = true ↔
    b.cart.state = .settling ∧ ∃ x, b.cart.settleExpiry = some x ∧ reached b.clock x = true := by
  simp [settleDue, Option.any_eq_true]

theorem exec_settleExpiry_due {s : State} (due : settleDue s.bridge = true) :
    exec .settleExpiry s = .next (s.withBridge (finish (endSettle s.bridge))) :=
  become_next (f := fun b => if settleDue b then finish (endSettle b) else b) (if_pos due)

theorem exec_settleExpiry_not {s : State} (early : ¬ settleDue s.bridge = true) : exec .settleExpiry s = .next s :=
  become_same (f := fun b => if settleDue b then finish (endSettle b) else b) (if_neg early)

/-- A cartridge in SPINUP that no eject waits for stays there at the end of a step. -/
theorem Steady.stays_spinup {t : Bridge} (h : Steady b t) (hs : b.cart.state = .spinup)
    (none : b.cart.ejectWaiting = none) : t.cart.state = .spinup := by
  rcases h.life with ⟨state, -⟩ | ⟨-, waits | quiescing⟩
  · exact state.trans hs
  · simp [ejectWaits, none] at waits
  · rw [hs] at quiescing
    cases quiescing

theorem askLife_stays_spinup (o : LifeOrder) (hs : b.cart.state = .spinup) (waits : b.cart.ejectWaiting = none) :
    (finish (askLife b o)).cart.state = .spinup :=
  (finish_course (askLife b o)).steady.stays_spinup hs waits

end Settle

/-! ### The timers that start work (R108, R133, R146) -/

section Timers
variable {b : Bridge} {s : State}

theorem agingDue_iff {x : Buffer} : agingDue b x = true ↔
    ∃ t, x.lastWrite = some t ∧ b.mgmt.settings.writeBackDelay ≤ elapsed b.clock t := by
  simp [agingDue, Option.any_eq_true]

theorem exec_agingExpiry_due {i : BufIdx} (hs : (s.bridge.buf i).state = .opened)
    (due : agingDue s.bridge (s.bridge.buf i) = true) :
    exec (.agingExpiry i) s = .next (s.withBridge (finish (testLater s.bridge i))) :=
  become_next (f := fun b => if (b.buf i).state = .opened ∧ agingDue b (b.buf i) then finish (testLater b i) else b)
    (if_pos ⟨hs, due⟩)

theorem exec_agingExpiry_not {i : BufIdx}
    (early : ¬ ((s.bridge.buf i).state = .opened ∧ agingDue s.bridge (s.bridge.buf i) = true)) :
    exec (.agingExpiry i) s = .next s :=
  become_same (f := fun b => if (b.buf i).state = .opened ∧ agingDue b (b.buf i) then finish (testLater b i) else b)
    (if_neg early)

theorem mapWriteDue_iff {m : HeldMap} : mapWriteDue b m = true ↔ m.writeState = .dirty
    ∧ (b.cart.state = .quiescing ∨ (b.cart.state = .ready
      ∧ ∀ x, m.lastChange = some x → b.mgmt.settings.mapWriteDelay ≤ elapsed b.clock x)) := by
  simp [mapWriteDue, Option.all_eq_true]

theorem exec_mapWriteDelayExpiry_due (due : s.bridge.dm.map.any (mapWriteDue s.bridge) = true) :
    exec .mapWriteDelayExpiry s = .next (s.withBridge (finish (tryMapWrite s.bridge))) :=
  become_next (f := fun b => if b.dm.map.any (mapWriteDue b) then finish (tryMapWrite b) else b) (if_pos due)

theorem exec_mapWriteDelayExpiry_not (early : ¬ s.bridge.dm.map.any (mapWriteDue s.bridge) = true) :
    exec .mapWriteDelayExpiry s = .next s :=
  become_same (f := fun b => if b.dm.map.any (mapWriteDue b) then finish (tryMapWrite b) else b) (if_neg early)

theorem tryMapWrite_due {m : HeldMap} (held : b.dm.map = some m) (due : mapWriteDue b m = true) :
    tryMapWrite b = startMapWrite b m 1 := by
  rw [tryMapWrite_dm b held, if_pos due]

theorem tryMapWrite_notDue (early : ∀ m, b.dm.map = some m → ¬ mapWriteDue b m = true) : tryMapWrite b = b := by
  unfold tryMapWrite
  split
  · rfl
  · rename_i m held
    exact if_neg (early m held)

theorem spinDownDue_iff : spinDownDue b = true ↔ b.mgmt.settings.spinDownDelay ≠ 0
    ∧ ∃ x, b.cart.spinTimer = some x ∧ 1000 * b.mgmt.settings.spinDownDelay ≤ elapsed b.clock x := by
  simp only [spinDownDue, Bool.and_eq_true, bne_iff_ne, Option.any_eq_true, decide_eq_true_eq]
  rfl

theorem exec_spinDownTimerExpiry_due (due : spinDownDue s.bridge = true) :
    exec .spinDownTimerExpiry s = .next (s.withBridge (finish (askLife s.bridge .spinDown))) :=
  become_next (f := fun b => if spinDownDue b then finish (askSpinDown b) else b) (if_pos due)

theorem exec_spinDownTimerExpiry_not (early : ¬ spinDownDue s.bridge = true) : exec .spinDownTimerExpiry s = .next s :=
  become_same (f := fun b => if spinDownDue b then finish (askSpinDown b) else b) (if_neg early)

end Timers

/-! ### The spin-down timer (R102, R146) -/

section SpinDown
variable {b : Bridge}

theorem timerRuns_iff : timerRuns b = true ↔ b.cart.state = .ready ∧ b.cart.spindle = .spinning ∧ b.arb.order = none
    ∧ pendingWork b = [] ∧ b.mgmt.settings.spinDownDelay ≠ 0 := by
  simp only [timerRuns, isIdle, serves, Bool.and_eq_true, beq_iff_eq, bne_iff_ne, Bool.or_eq_true, Option.isNone_iff_eq_none,
    List.isEmpty_iff, and_assoc]
  refine and_congr_right fun ready => ?_
  simp [ready]

/-- Ports and the spin-down timer have no part in its conditions. -/
theorem timerRuns_finish (b : Bridge) : timerRuns (finish b) = timerRuns (settle b) := by
  unfold finish
  rw [pump_rest]
  generalize settle b = c
  rfl

theorem finish_spinTimer (b : Bridge) : (finish b).cart.spinTimer
    = if timerRuns (finish b) then some ((settle b).cart.spinTimer.getD (settle b).clock) else none := by
  rw [timerRuns_finish]
  unfold finish
  rw [pump_cart]
  generalize settle b = c
  rfl

theorem finish_stamps (b : Bridge) : (finish b).arb.stamps = (settle b).arb.stamps := by
  unfold finish
  rw [pump_arb]
  generalize settle b = c
  rfl

theorem finish_spinTimer_stops (idle : ¬ timerRuns (finish b) = true) : (finish b).cart.spinTimer = none := by
  rw [finish_spinTimer, if_neg idle]

theorem finish_spinTimer_goesOn (runs : timerRuns (finish b) = true) (same : (finish b).arb.stamps = b.arb.stamps) :
    (finish b).cart.spinTimer = some (b.cart.spinTimer.getD b.clock) := by
  rw [finish_stamps] at same
  rw [finish_spinTimer, if_pos runs, (settle_course b).steady.clock]
  rcases settle_timed b with ⟨-, timer⟩ | ⟨more, -⟩
  · rw [timer]
  · exact absurd same more.ne'

theorem finish_spinTimer_restarts (runs : timerRuns (finish b) = true) (more : (finish b).arb.stamps ≠ b.arb.stamps) :
    (finish b).cart.spinTimer = some b.clock := by
  rw [finish_stamps] at more
  rw [finish_spinTimer, if_pos runs, (settle_course b).steady.clock]
  rcases settle_timed b with ⟨same, -⟩ | ⟨-, timer⟩
  · exact absurd same more
  · rw [timer]
    rfl

end SpinDown

/-- Settles O34: each event acts when its test holds and changes nothing else, and the timer is that of `refreshTimer`, whose
start is lost with a stamp. -/
theorem settleAndTimersStartTheirWork : Obligations.SettleAndTimersStartTheirWork := by
  refine ⟨fun s => ⟨fun tab hs => ?_, fun tab empty settling => ?_, fun x hs at_ due => ?_, fun early => ?_⟩,
    fun s => ⟨fun i => ⟨fun ⟨hs, due⟩ => ?_, fun early => ?_⟩, ⟨fun ⟨m, held, due⟩ => ?_, fun early => ?_⟩,
      fun due => ?_, fun early => ?_⟩, fun b => ⟨fun idle => ?_, fun runs => ?_, fun runs => ?_⟩⟩
  · exact become_next (f := fun b => presenceArrives b tab) (presenceArrives_settles tab hs)
  · exact become_same (f := fun b => presenceArrives b tab) (presenceArrives_ignored tab empty settling)
  · exact ⟨exec_settleExpiry_due (settleDue_iff.2 ⟨hs, x, at_, due⟩), fun waits => askLife_stays_spinup _ rfl waits⟩
  · refine exec_settleExpiry_not fun due => ?_
    obtain ⟨hs, x, at_, due⟩ := settleDue_iff.1 due
    rcases early with other | later
    · exact other hs
    · rw [later x at_] at due
      cases due
  · have aged := agingDue_iff.2 due
    exact ⟨exec_agingExpiry_due hs aged, syncJob_aged hs List.mem_cons_self aged⟩
  · exact exec_agingExpiry_not fun ⟨hs, due⟩ => early ⟨hs, agingDue_iff.1 due⟩
  · have due' := mapWriteDue_iff.2 due
    refine ⟨exec_mapWriteDelayExpiry_due (by rw [held]; exact due'), m, ?_⟩
    rw [tryMapWrite_due held due']
    exact ⟨_, held, rfl, rfl, rfl, rfl, rfl⟩
  · refine exec_mapWriteDelayExpiry_not fun due => early ?_
    obtain ⟨m, held, due⟩ := Option.any_eq_true .. |>.1 due
    exact ⟨m, held, mapWriteDue_iff.1 due⟩
  · exact exec_spinDownTimerExpiry_due (spinDownDue_iff.2 due)
  · exact exec_spinDownTimerExpiry_not fun due => early (spinDownDue_iff.1 due)
  · exact finish_spinTimer_stops (mt timerRuns_iff.1 idle)
  · exact finish_spinTimer_goesOn (timerRuns_iff.2 runs)
  · exact finish_spinTimer_restarts (timerRuns_iff.2 runs)

end Sys2Proof.Machine
end

section
/-! PROOFS. COMPLETION (R84, R93, R96, R98, R143, R147): late, a FAULT, or taken, with the timeout count at 0 then. -/

namespace Sys2Proof.Machine

/-! ### What a completion that is taken leaves alone (R98) -/

/-- The routing table and the settings stay, and no timeout is counted where none was. -/
structure Uncounted (b t : Bridge) : Prop where
  router   : t.router = b.router
  settings : t.mgmt.settings = b.mgmt.settings
  timeouts : b.arb.timeouts = 0 → t.arb.timeouts = 0

theorem Uncounted.refl (b : Bridge) : Uncounted b b := ⟨rfl, rfl, id⟩

theorem Uncounted.trans {a b c : Bridge} (h : Uncounted a b) (h' : Uncounted b c) : Uncounted a c :=
  ⟨h'.router.trans h.router, h'.settings.trans h.settings, h'.timeouts ∘ h.timeouts⟩

theorem Steady.uncounted {b t : Bridge} (h : Steady b t) : Uncounted b t :=
  ⟨h.router, by rw [h.mgmt], h.timeouts.trans⟩

theorem Moves.uncounted {b t : Bridge} (h : Moves b t) : Uncounted b t := h.steady.uncounted

theorem Closes.uncounted {b t : Bridge} (h : Closes b t) : Uncounted b t :=
  ⟨h.router, by rw [h.mgmt], by rw [h.arb]; exact id⟩

theorem raiseEvent_uncounted (b : Bridge) (ev : AttnEvent) : Uncounted b (raiseEvent b ev) := (raiseEvent_moves b ev).uncounted

theorem withCart_uncounted (b : Bridge) (f : CartRecord → CartRecord) : Uncounted b (withCart b f) := ⟨rfl, rfl, id⟩

theorem askMount_uncounted (b : Bridge) (st : MountStep) : Uncounted b (askMount b st) := ⟨rfl, rfl, id⟩

theorem enterUnusable_uncounted (b : Bridge) (r : Reason) : Uncounted b (enterUnusable b r) := by
  unfold enterUnusable
  refine .trans ?_ (raiseEvent_uncounted _ _)
  exact ⟨rfl, rfl, id⟩

theorem enterHalted_uncounted (b : Bridge) : Uncounted b (enterHalted b) := by
  obtain ⟨c, ⟨-, arb, -, mgmt, -⟩, eq⟩ := enterHalted_halted b
  have raised := raiseEvent_uncounted c .mechHalted
  rw [← eq] at raised
  exact ⟨enterHalted_router b, by rw [raised.settings, mgmt], fun h => raised.timeouts (by rw [arb]; exact h)⟩

theorem answerRecover_uncounted (b : Bridge) (st : Status) : Uncounted b (answerRecover b st) :=
  (answerAll_closes b isRecoverWait st).uncounted

/-! ### A mount read (R143) -/

theorem mountFailed_uncounted (b : Bridge) (st : MountStep) : Uncounted b (mountFailed b st) := by
  unfold mountFailed
  split
  · exact askMount_uncounted ..
  · exact enterUnusable_uncounted ..

theorem judgeLabel_uncounted (b : Bridge) : Uncounted b (judgeLabel b) := by
  unfold judgeLabel
  dsimp only
  split
  · exact enterUnusable_uncounted ..
  · split
    · exact enterUnusable_uncounted ..
    · exact (withCart_uncounted ..).trans (askMount_uncounted ..)

theorem acceptMount_uncounted (b : Bridge) (entries : List MapEntry) (g : BitVec 32) :
    Uncounted b (acceptMount b entries g) := by
  unfold acceptMount
  refine .trans ?_ (raiseEvent_uncounted _ _)
  exact ⟨rfl, rfl, id⟩

theorem judgeMapRead_uncounted (b : Bridge) : Uncounted b (judgeMapRead b) := by
  unfold judgeMapRead
  split
  · exact enterUnusable_uncounted ..
  · split
    · exact enterUnusable_uncounted ..
    · exact acceptMount_uncounted ..

theorem mountReadEnded_uncounted (b : Bridge) (outcomes : List SectorOutcome) : Uncounted b (mountReadEnded b outcomes) := by
  unfold mountReadEnded
  split
  · exact .refl b
  · dsimp only
    refine Uncounted.trans (b := stageRead b outcomes) ⟨rfl, rfl, id⟩ ?_
    split
    · split
      · exact judgeLabel_uncounted _
      · exact judgeMapRead_uncounted _
    · exact mountFailed_uncounted ..

/-! ### Runs and life-cycle orders -/

theorem runEnded_uncounted (b : Bridge) (o : Order) (sectors : List SectorOutcome) : Uncounted b (runEnded b o sectors) := by
  unfold runEnded
  split
  · split
    · exact .refl b
    · exact mountReadEnded_uncounted b sectors
  · split
    · exact (mapStepEnded_moves b sectors).uncounted
    · exact (handOutcomes_moves o.kind _ b).uncounted

theorem enterEjecting_again_uncounted {b : Bridge} (begun : b.cart.ejectBegun = true) : Uncounted b (enterEjecting b) := by
  rw [enterEjecting_again begun]
  exact ⟨rfl, rfl, id⟩

theorem recoverGood_uncounted (b : Bridge) : Uncounted b (recoverGood b) := by
  unfold recoverGood
  dsimp only
  have spun := withCart_uncounted b fun c => { c with spindle := .spinning }
  generalize withCart b _ = c at spun
  refine spun.trans ?_
  split
  · rename_i begun
    exact (enterEjecting_again_uncounted begun).trans (answerRecover_uncounted _ _)
  · split
    · exact (((withCart_uncounted ..).trans (dropQuiesce_moves _).uncounted).trans (tryMapWrite_moves _).uncounted).trans
        ((answerRecover_uncounted _ _).trans (raiseEvent_uncounted _ _))
    · exact ((withCart_uncounted ..).trans (askMount_uncounted _ _)).trans (answerRecover_uncounted _ _)

theorem spinUpEnded_uncounted (b : Bridge) (good : Bool) : Uncounted b (spinUpEnded b good) := by
  have spun : Uncounted b (if good then withCart b fun c => { c with spindle := .spinning } else b) := by
    split
    · exact withCart_uncounted ..
    · exact .refl b
  unfold spinUpEnded
  dsimp only
  generalize (if good then withCart b fun c => { c with spindle := .spinning } else b) = c at spun
  have orHalts : Uncounted b (if good = true then c else enterHalted b) := by
    split
    · exact spun
    · exact enterHalted_uncounted b
  split
  · split
    · exact spun
    · split
      · exact spun.trans ((withCart_uncounted ..).trans (askMount_uncounted _ _))
      · exact enterUnusable_uncounted ..
  · exact orHalts
  · exact orHalts
  · split
    · exact recoverGood_uncounted b
    · exact answerRecover_uncounted ..
  all_goals exact spun

theorem becomeEmpty_uncounted (b : Bridge) : Uncounted b (becomeEmpty b) := ⟨rfl, rfl, fun _ => rfl⟩

theorem ejectComplete_uncounted (b : Bridge) : Uncounted b (ejectComplete b) := by
  unfold ejectComplete
  dsimp only
  refine (discardWhere_moves b fun x => x.state != .free).uncounted.trans (.trans ?_ (raiseEvent_uncounted _ _))
  generalize discardWhere b _ = c
  exact (becomeEmpty_uncounted c).trans (answerAll_closes _ isEjectWait .ok).uncounted

theorem lifeEnded_uncounted (b : Bridge) (kind : OrderKind) (good : Bool) : Uncounted b (lifeEnded b kind good) := by
  unfold lifeEnded
  split
  · exact spinUpEnded_uncounted ..
  · split
    · exact withCart_uncounted ..
    · exact .refl b
  · split
    · exact ejectComplete_uncounted b
    · exact enterHalted_uncounted b
  all_goals exact .refl b

/-- The order is not in flight any more, and no timeout is counted (R84, R98). -/
def orderTaken (b : Bridge) : Bridge := { b with arb := { b.arb with order := none, timeouts := 0 } }

theorem completionTaken_uncounted (b : Bridge) (o : Order) (result : CompletionResult) :
    Uncounted (orderTaken b) (completionTaken b o result) := by
  unfold completionTaken
  split
  · exact runEnded_uncounted ..
  · exact lifeEnded_uncounted ..

/-! ### The completion by its number, kind and sector count (R84) -/

section Completion
variable {s : State} {o : Order} {number : BitVec 8} {kind : OrderKind} {result : CompletionResult}

theorem isLifeKind_iff : isLifeKind kind = true ↔ kind = .spinUp ∨ kind = .spinDown ∨ kind = .eject := by
  cases kind <;> simp [isLifeKind]

theorem completionFits_iff : completionFits o kind result = true ↔ o.kind = kind
    ∧ ((isLifeKind kind = true ∧ ∃ good, result = .life good)
      ∨ (¬ isLifeKind kind = true ∧ ∃ l, result = .run l ∧ l.length = o.pieces.length)) := by
  cases result with
  | run sectors => simp [completionFits]
  | life good => simp [completionFits]

theorem exec_completion_idle (idle : s.bridge.arb.order = none) : exec (.completion number kind result) s = .next s := by
  refine become_same (f := fun b => takeCompletion b number kind result) ?_
  unfold takeCompletion
  rw [idle]

theorem takeCompletion_late {b : Bridge} (order : b.arb.order = some o) (late : o.number ≠ number) :
    takeCompletion b number kind result = b := by
  unfold takeCompletion
  rw [order]
  exact if_pos late

theorem takeCompletion_unfit {b : Bridge} (order : b.arb.order = some o) (own : o.number = number)
    (unfit : ¬ completionFits o kind result = true) : takeCompletion b number kind result = finish (takeFault b) := by
  unfold takeCompletion
  rw [order]
  exact (if_neg (not_not_intro own)).trans (if_neg unfit)

theorem takeCompletion_taken {b : Bridge} (order : b.arb.order = some o) (own : o.number = number)
    (fits : completionFits o kind result = true) :
    takeCompletion b number kind result = finish (completionTaken b o result) := by
  unfold takeCompletion
  rw [order]
  exact (if_neg (not_not_intro own)).trans (if_pos fits)

theorem exec_completion_late (order : s.bridge.arb.order = some o) (late : o.number ≠ number) :
    exec (.completion number kind result) s = .next s :=
  become_same (f := fun b => takeCompletion b number kind result) (takeCompletion_late order late)

theorem exec_completion_unfit (order : s.bridge.arb.order = some o) (own : o.number = number)
    (unfit : ¬ completionFits o kind result = true) : exec (.completion number kind result) s = exec .fault s :=
  (become_next (f := fun b => takeCompletion b number kind result) (takeCompletion_unfit order own unfit)).trans
    (exec_fault s).symm

theorem exec_completion_taken (order : s.bridge.arb.order = some o) (own : o.number = number)
    (fits : completionFits o kind result = true) :
    exec (.completion number kind result) s = .next (s.withBridge (finish (completionTaken s.bridge o result))) :=
  become_next (f := fun b => takeCompletion b number kind result) (takeCompletion_taken order own fits)

end Completion

/-! ### The outcomes of a run (R93, R96, R143, R147) -/

section Run
variable {b : Bridge} {o : Order} {sectors : List SectorOutcome} {psa : Nat} {rest : List Piece}

theorem ejectWaits_iff : ejectWaits b = true
    ↔ (b.cart.state = .spinup ∨ b.cart.state = .mounting) ∧ b.cart.ejectWaiting ≠ none := by
  simp [ejectWaits, Option.isSome_iff_ne_none]

theorem runEnded_mount (hp : o.pieces = .mount psa :: rest) :
    runEnded b o sectors = if ejectWaits b then b else mountReadEnded b sectors := by
  have mount : o.isMount = true := by rw [Order.isMount, hp]
  unfold runEnded
  rw [if_pos mount]

theorem runEnded_map (hp : o.pieces = .map psa :: rest) : runEnded b o sectors = mapStepEnded b sectors := by
  have mount : ¬ o.isMount = true := by simp [Order.isMount, hp]
  have map : o.isMap = true := by rw [Order.isMap, hp]
  unfold runEnded
  rw [if_neg mount, if_pos map]

theorem isMount_false (h : ∀ p rest, o.pieces ≠ .mount p :: rest) : ¬ o.isMount = true := by
  unfold Order.isMount
  split
  · rename_i p rest hp; exact absurd hp (h p rest)
  · simp

theorem isMap_false (h : ∀ p rest, o.pieces ≠ .map p :: rest) : ¬ o.isMap = true := by
  unfold Order.isMap
  split
  · rename_i p rest hp; exact absurd hp (h p rest)
  · simp

theorem runEnded_pieces (mount : ∀ p rest, o.pieces ≠ .mount p :: rest) (map : ∀ p rest, o.pieces ≠ .map p :: rest) :
    runEnded b o sectors = handOutcomes o.kind b (o.pieces.zip sectors) := by
  unfold runEnded
  rw [if_neg (isMount_false mount), if_neg (isMap_false map)]

theorem handOutcomes_nil (kind : OrderKind) (b : Bridge) : handOutcomes kind b [] = b := by
  unfold handOutcomes
  with_reducible rfl

theorem handOutcomes_cons (kind : OrderKind) (b : Bridge) (p : Piece) (o : SectorOutcome)
    (rest : List (Piece × SectorOutcome)) :
    handOutcomes kind b ((p, o) :: rest) = handOutcomes kind (poolSettle (pieceEnded kind b p o)) rest := by
  conv_lhs => unfold handOutcomes

theorem handOutcomes_eq_foldl (kind : OrderKind) (l : List (Piece × SectorOutcome)) : ∀ b : Bridge,
    handOutcomes kind b l = l.foldl (fun c x => poolSettle (pieceEnded kind c x.1 x.2)) b := by
  induction l with
  | nil => exact fun b => handOutcomes_nil kind b
  | cons x rest ih =>
    intro b
    obtain ⟨p, o⟩ := x
    rw [handOutcomes_cons, ih, List.foldl_cons]

end Run

/-- Settles O41: the completion goes by its number and by `completionFits_iff`, and what is taken keeps the timeout count at
0 (`Uncounted`). -/
theorem completionIsMatchedToTheOrderInFlight : Obligations.CompletionIsMatchedToTheOrderInFlight := by
  refine fun number kind result s => ⟨exec_completion_idle, fun o order => ⟨exec_completion_late order,
    fun own unfit => exec_completion_unfit order own ?_, fun own fits => ?_⟩⟩
  · rw [completionFits_iff, isLifeKind_iff]
    exact unfit
  · have fits' : completionFits o kind result = true := by
      rw [completionFits_iff, isLifeKind_iff]
      exact fits
    have same : o.kind = kind := fits.1
    have uncounted := (completionTaken_uncounted s.bridge o result).trans (finish_course _).steady.uncounted
    refine ⟨_, exec_completion_taken order own fits', withBridge_pending .., withBridge_bridge .., ?_⟩
    rw [withBridge_bridge]
    refine ⟨uncounted.timeouts rfl, uncounted.settings, uncounted.router, fun good is => ?_, fun sectors is =>
      ⟨fun p rest hp => ⟨fun waits => ?_, fun free => ?_⟩, fun p rest hp => ?_, fun plain => ?_⟩⟩
    · rw [is, ← same]
      rfl
    · rw [is]
      exact (runEnded_mount hp).trans (if_pos (ejectWaits_iff.2 waits))
    · rw [is]
      exact (runEnded_mount hp).trans (if_neg (mt ejectWaits_iff.1 free))
    · rw [is]
      exact runEnded_map hp
    · have run : completionTaken s.bridge o (.run sectors) = _ :=
        (runEnded_pieces (fun p rest => (plain p rest).1) fun p rest => (plain p rest).2).trans
          (handOutcomes_eq_foldl o.kind _ _)
      rw [is, run, same]
      congr 1

end Sys2Proof.Machine
end

section
/-! PROOFS. The end of a life-cycle order by the state of the cartridge (R98, R101, R102, R133, R142, R147, R149, R152, R154
to R156). -/

namespace Sys2Proof.Machine

/-! ### What the end of the step leaves of the cartridge -/

/-- Where no eject waits and no quiesce goes on, the life of the cartridge stays as it is. -/
theorem Steady.life_still {b t : Bridge} (h : Steady b t) (waits : ¬ ejectWaits b = true) (hs : b.cart.state ≠ .quiescing) :
    t.cart.state = b.cart.state ∧ t.cart.ejectWaiting = b.cart.ejectWaiting ∧ t.cart.quiesce = b.cart.quiesce
      ∧ t.cart.mountStep = b.cart.mountStep ∧ t.cart.ejectBegun = b.cart.ejectBegun := by
  rcases h.life with same | ⟨-, ejects | quiescing⟩
  · exact same
  · exact absurd ejects waits
  · exact absurd quiescing hs

theorem not_ejectWaits_of_state {b : Bridge} (spinup : b.cart.state ≠ .spinup) (mounting : b.cart.state ≠ .mounting) :
    ¬ ejectWaits b = true := fun waits => by
  rcases (ejectWaits_iff.1 waits).1 with hs | hs
  · exact spinup hs
  · exact mounting hs

/-- A served cartridge stays as it is, or its quiesce ends in EJECTING. -/
theorem Steady.served_goesOn {b t : Bridge} (h : Steady b t) (hs : b.cart.state = .ready ∨ b.cart.state = .quiescing) :
    t.cart.state = b.cart.state ∨ (b.cart.state = .quiescing ∧ t.cart.state = .ejecting) := by
  rcases h.life with ⟨same, -⟩ | ⟨ejecting, waits | quiescing⟩
  · exact .inl same
  · rcases hs with hs | hs <;> simp [ejectWaits, hs] at waits
  · exact .inr ⟨quiescing, ejecting⟩

theorem raised_steady (c : Bridge) (ev : AttnEvent) : Steady c (finish (raiseEvent c ev)) :=
  (raiseEvent_moves c ev).steady.trans (finish_course _).steady

/-- The cartridge enters HALTED with no order in flight: it stays there, and what waits for the mechanism is answered
(R154). -/
theorem finish_enterHalted {b : Bridge} (order : b.arb.order = none) :
    (finish (enterHalted b)).cart.state = .halted ∧ (finish (enterHalted b)).cart.spindle = b.cart.spindle
      ∧ (∃ c, Halted b c ∧ finish (enterHalted b) = finish (raiseEvent c .mechHalted))
      ∧ ∀ k e, b.entry k = some e → awaitsMechanism e → IsAnswered (finish (enterHalted b)) k .mechFault 0 .none := by
  obtain ⟨c, halted, eq⟩ := enterHalted_halted b
  have still := ((halted.headAtRest order).moves (raiseEvent_moves c .mechHalted)).finish.2
  have steady := raised_steady c .mechHalted
  rw [eq]
  refine ⟨?_, ?_, ⟨c, halted, rfl⟩, fun k e he waits => ?_⟩
  · rw [still, raiseEvent_cart, halted.1]
  · rw [steady.cart.2.1, halted.1]
  · obtain ⟨-, -, -, -, entries, -⟩ := halted
    exact ((entries k e he).1 waits).raised _

/-! ### A life-cycle order by its kind and the state -/

/-- The spindle turns, or is parked. -/
def turnedTo (b : Bridge) (spindle : Spindle) : Bridge := { b with cart := { b.cart with spindle } }

/-- The spindle after a SPIN_UP, or what it was where that failed. -/
def spunTo (b : Bridge) (good : Bool) : Spindle := if good then .spinning else b.cart.spindle

section LifeEnds
variable {b : Bridge} {good : Bool}

theorem turnedTo_spunTo (b : Bridge) (good : Bool) :
    turnedTo b (spunTo b good) = if good then withCart b fun c => { c with spindle := .spinning } else b := by
  cases good <;> rfl

/-- A SPIN_UP that a waiting eject keeps from the mount turns the spindle alone (R147, log entry 13). -/
theorem spinUpEnded_waits (waits : ejectWaits b = true) : spinUpEnded b good = turnedTo b (spunTo b good) := by
  rw [turnedTo_spunTo]
  unfold spinUpEnded
  dsimp only
  rcases (ejectWaits_iff.1 waits).1 with hs | hs
  · rw [hs]
    exact if_pos waits
  · rw [hs]

theorem spinUpEnded_insert (hs : b.cart.state = .spinup) (free : ¬ ejectWaits b = true) :
    spinUpEnded b good = if good then startMount (turnedTo b .spinning) else enterUnusable b .noSpin := by
  unfold spinUpEnded
  dsimp only
  rw [hs]
  dsimp only
  rw [if_neg free]
  cases good <;> rfl

theorem spinUpEnded_served (hs : b.cart.state = .ready ∨ b.cart.state = .quiescing) :
    spinUpEnded b good = if good then turnedTo b .spinning else enterHalted b := by
  unfold spinUpEnded
  dsimp only
  rcases hs with hs | hs
  all_goals
    rw [hs]
    cases good <;> rfl

theorem spinUpEnded_halted (hs : b.cart.state = .halted) :
    spinUpEnded b good = if good then recoverGood b else answerRecover b .mechFault := by
  unfold spinUpEnded
  dsimp only
  rw [hs]

theorem lifeEnded_spinUp {kind : OrderKind} (up : kind = .spinUp) : lifeEnded b kind good = spinUpEnded b good := by
  rw [up, lifeEnded]

theorem lifeEnded_eject {kind : OrderKind} (eject : kind = .eject) :
    lifeEnded b kind good = if good then ejectComplete b else enterHalted b := by
  rw [eject, lifeEnded]

theorem lifeEnded_spinDown (b : Bridge) (good : Bool) :
    lifeEnded b .spinDown good = turnedTo b (if good then .parked else b.cart.spindle) := by
  cases good <;> rfl

end LifeEnds

/-! ### The SPIN_UP of an insertion (R142) -/

/-- What the start of a mount leaves of the bridge (R142, R143). -/
def mountStarted (b : Bridge) : Bridge := { b with
  arb := { b.arb with mountStamp := b.arb.stamps, stamps := b.arb.stamps + 1 }
  cart := { b.cart with
    state := .mounting, spindle := .spinning, mountStep := some ⟨.label, 1⟩, spinTimer := none } }

theorem startMount_turned (b : Bridge) : startMount (turnedTo b .spinning) = mountStarted b := rfl

theorem finish_mountStarted {b : Bridge} (none : b.cart.ejectWaiting = none) :
    (finish (mountStarted b)).cart.state = .mounting ∧ (finish (mountStarted b)).cart.spindle = .spinning
      ∧ (finish (mountStarted b)).cart.mountStep = some ⟨.label, 1⟩ := by
  have steady := (finish_course (mountStarted b)).steady
  have free : ¬ ejectWaits (mountStarted b) = true := fun waits => (ejectWaits_iff.1 waits).2 none
  obtain ⟨state, -, -, step, -⟩ := steady.life_still free CartState.noConfusion
  exact ⟨state, steady.cart.2.1, step⟩

/-- What a refusal leaves of the bridge, before the event is raised (R142, R143). -/
def refusedWith (b : Bridge) (r : Reason) : Bridge := { b with
  arb := { b.arb with life := none }
  cart := { b.cart with state := .unusable, reason := some r, mountStep := none } }

theorem enterUnusable_eq (b : Bridge) (r : Reason) :
    enterUnusable b r = raiseEvent (refusedWith b r) .cartridgeUnusable := rfl

theorem finish_enterUnusable (b : Bridge) (r : Reason) :
    (finish (enterUnusable b r)).cart.state = .unusable ∧ (finish (enterUnusable b r)).cart.reason = some r
      ∧ (finish (enterUnusable b r)).cart.mountStep = none := by
  rw [enterUnusable_eq]
  have steady := raised_steady (refusedWith b r) .cartridgeUnusable
  have free : ¬ ejectWaits (refusedWith b r) = true := not_ejectWaits_of_state CartState.noConfusion CartState.noConfusion
  obtain ⟨state, -, -, step, -⟩ := steady.life_still free CartState.noConfusion
  exact ⟨state, steady.cart.2.2.1, step⟩

/-! ### The end of an eject (R152) -/

theorem becomeEmpty_cart (b : Bridge) : (becomeEmpty b).cart = b.cart.gone := rfl

theorem ejectGone_cart (b : Bridge) : (ejectGone b).cart = b.cart.gone := by
  rw [(ejectGone_closes b).cart, becomeEmpty_cart, (poolDiscarded_closes b).cart]
  rfl

/-! ### A waiting eject (R147) -/

/-- What is left where an eject that waited is acted on, from a bridge with the record of `b` but for the spindle. -/
theorem finish_turned_ejects {b : Bridge} (spindle : Spindle) (order : b.arb.order = none) (waits : ejectWaits b = true) :
    let t := finish (turnedTo b spindle)
    t.cart.spindle = spindle ∧ t.cart.state = .ejecting ∧ t.cart.ejectBegun = true ∧ t.cart.ejectWaiting = none
      ∧ t.cart.mountStep = none ∧ t.cart.layout = b.cart.layout ∧ t.cart.reason = b.cart.reason
      ∧ t.dm.map.isSome = b.dm.map.isSome := by
  have steady := (finish_course (turnedTo b spindle)).steady
  obtain ⟨state, begun, waiting, step⟩ := finish_ejects (b := turnedTo b spindle) ((ejectWaits_congr rfl rfl).trans waits) order
  dsimp only
  generalize finish (turnedTo b spindle) = t at steady state begun waiting step ⊢
  exact ⟨steady.cart.2.1, state, begun, waiting, step, steady.cart.1, steady.cart.2.2.1, steady.mapHeld⟩

/-! ### RECOVER (R155) -/

/-- From `b` to `t` the record of buffer `i` stays. -/
def BufKept (i : BufIdx) (b t : Bridge) : Prop := t.buf i = b.buf i

theorem answerAll_buf {p : Entry → Bool} (idle : ∀ e, p e = true → e.state ≠ .fetching) (b : Bridge) (st : Status)
    (i : BufIdx) : BufKept i b (answerAll b p st) := by
  unfold answerAll Bridge.forKeys
  refine foldl_rel (R := BufKept i) (fun _ => rfl) (fun h h' => Eq.trans h' h) (fun b k => ?_) allKeys b
  split
  · rename_i holds
    obtain ⟨e, he, waits⟩ := (Option.any_eq_true ..).1 holds
    exact answerStatus_buf st he (idle e waits) i
  · exact rfl

theorem answerRecover_buf (b : Bridge) (st : Status) (i : BufIdx) : (answerRecover b st).buf i = b.buf i := by
  refine answerAll_buf (fun e waits => ?_) b st i
  simp only [isRecoverWait, Bool.and_eq_true, beq_iff_eq] at waits
  simp [waits.2]

theorem answerRecover_closes (b : Bridge) (st : Status) : Closes b (answerRecover b st) := answerAll_closes b isRecoverWait st

theorem answerRecover_isAnswered {b : Bridge} {k : Key} {e : Entry} (st : Status) (he : b.entry k = some e)
    (op : e.op = .recover) (waits : e.state = .awaitMech) : IsAnswered (answerRecover b st) k st 0 .none :=
  answerAll_isAnswered st he (by simp [isRecoverWait, op, waits]) (by simp [waits])

/-- The record of a buffer whose job loses QUIESCE (R150, R155). -/
def Buffer.unquiesced (x : Buffer) : Buffer :=
  { x with flush := x.flush.map fun f => { f with causes := { f.causes with quiesce := false }.orAged } }

theorem dropQuiesceAt_visits : Visits dropQuiesceAt Buffer.unquiesced := by
  refine ⟨fun b i => ?_, fun b i j ne => ?_, fun x q => rfl⟩
  · unfold dropQuiesceAt Buffer.unquiesced
    split
    · rename_i jobless
      rw [jobless, Option.map_none, ← jobless]
    · rename_i f job
      rw [putFlush, buf_putBuf_self, job]
      rfl
  · rw [dropQuiesceAt_buf_ne b ne]
    exact .refl _

theorem dropQuiesce_flush {b : Bridge} {i : BufIdx} {f : Flush} (job : (b.buf i).flush = some f) :
    ((dropQuiesce b).buf i).flush = some { f with causes := { f.causes with quiesce := false }.orAged } := by
  obtain ⟨q, same⟩ := dropQuiesceAt_visits.forBufs b i
  have flush : (((b.buf i).unquiesced).keepLink q).flush = (b.buf i).unquiesced.flush := rfl
  rw [dropQuiesce, same, flush, Buffer.unquiesced, job]
  rfl

theorem tryMapWrite_cart (b : Bridge) :
    (tryMapWrite b).cart = { b.cart with spinTimer := (tryMapWrite b).cart.spinTimer } := by
  unfold tryMapWrite
  split
  · rfl
  · split
    · rfl
    · rfl

/-- READY again after a RECOVER: the jobs lose QUIESCE, and a DIRTY map may start its write-back (R133, R155). -/
def readyAgain (b : Bridge) : Bridge := { b with cart := { b.cart with spindle := .spinning, state := .ready } }

/-- MOUNTING again after a RECOVER (R155). -/
def mountAgain (b : Bridge) : Bridge := { b with cart := { b.cart with spindle := .spinning, state := .mounting } }

/-- The bridge on which a RECOVER that went well is answered, by the eject and the map it finds (R155). -/
def recovered (b : Bridge) : Bridge :=
  if b.cart.ejectBegun then enterEjecting (turnedTo b .spinning)
  else if b.dm.map.isSome then tryMapWrite (dropQuiesce (readyAgain b))
  else askMount (mountAgain b) ⟨if b.cart.layout.isSome then .map else .label, 1⟩

/-- The bridge of a RECOVER that went well, with the RECOVER answered (R155). -/
def recoverAnswered (b : Bridge) : Bridge := answerRecover (recovered b) .ok

section Recover
variable {b : Bridge}

theorem readyAgain_due {m : HeldMap} : mapWriteDue (readyAgain b) m = true ↔ m.writeState = .dirty
    ∧ ∀ x, m.lastChange = some x → b.mgmt.settings.mapWriteDelay ≤ elapsed b.clock x := by
  rw [mapWriteDue_iff]
  simp [readyAgain]

theorem recovered_eject (begun : b.cart.ejectBegun = true) :
    recovered b = ejectAsked (ejectStarted (turnedTo b .spinning)) := by
  rw [← enterEjecting_again (b := turnedTo b .spinning) begun]
  exact if_pos begun

theorem recovered_ready (fresh : b.cart.ejectBegun = false) (held : b.dm.map.isSome = true) :
    recovered b = tryMapWrite (dropQuiesce (readyAgain b)) := by
  unfold recovered
  rw [if_neg (by simp [fresh]), if_pos held]

theorem recovered_mount (fresh : b.cart.ejectBegun = false) (noMap : b.dm.map = none) :
    recovered b = askMount (mountAgain b) ⟨if b.cart.layout.isSome then .map else .label, 1⟩ := by
  unfold recovered
  rw [if_neg (by simp [fresh]), if_neg (by simp [noMap])]

theorem recoverGood_silent (h : b.cart.ejectBegun = true ∨ b.dm.map = none) :
    recoverGood b = recoverAnswered b := by
  unfold recoverGood recoverAnswered recovered
  dsimp only
  by_cases begun : b.cart.ejectBegun = true
  · rw [if_pos begun]
    exact if_pos begun
  · have noMap : ¬ b.dm.map.isSome = true := by simp [h.resolve_left begun]
    rw [if_neg begun, if_neg noMap]
    exact (if_neg begun).trans (if_neg noMap)

theorem recoverGood_ready (fresh : b.cart.ejectBegun = false) (held : b.dm.map.isSome = true) :
    recoverGood b = raiseEvent (recoverAnswered b) .cartridgeReady := by
  have fresh' : ¬ b.cart.ejectBegun = true := by simp [fresh]
  rw [recoverAnswered, recovered_ready fresh held]
  unfold recoverGood
  exact (if_neg fresh').trans (if_pos held)

theorem recovered_keeps (b : Bridge) :
    (recovered b).table = b.table ∧ (recovered b).mgmt = b.mgmt ∧ (recovered b).cart.spindle = .spinning := by
  cases begun : b.cart.ejectBegun with
  | true =>
    rw [recovered_eject begun]
    exact ⟨rfl, rfl, rfl⟩
  | false =>
    cases held : b.dm.map with
    | none =>
      rw [recovered_mount begun held]
      exact ⟨rfl, rfl, rfl⟩
    | some m =>
      have pool := (dropQuiesce_poolOnly (readyAgain b)).1
      rw [recovered_ready begun (by rw [held]; rfl)]
      generalize dropQuiesce (readyAgain b) = d at pool
      obtain ⟨table, -, -, mgmt, -⟩ := tryMapWrite_rest d
      rw [table, mgmt, tryMapWrite_cart, pool]
      exact ⟨rfl, rfl, rfl⟩

theorem recoverAnswered_closes (b : Bridge) : Closes (recovered b) (recoverAnswered b) := answerRecover_closes _ _

theorem recoverAnswered_mgmt (b : Bridge) : (recoverAnswered b).mgmt = b.mgmt :=
  (recoverAnswered_closes b).mgmt.trans (recovered_keeps b).2.1

/-- The step ends from the answered RECOVER, with CARTRIDGE_READY raised or without attention. -/
theorem finish_recoverGood (b : Bridge) : Steady (recoverAnswered b) (finish (recoverGood b)) := by
  by_cases silent : b.cart.ejectBegun = true ∨ b.dm.map = none
  · rw [recoverGood_silent silent]
    exact (finish_course _).steady
  · obtain ⟨fresh, held⟩ := not_or.1 silent
    rw [recoverGood_ready (Bool.eq_false_iff.2 fresh) (Option.isSome_iff_ne_none.2 held)]
    exact raised_steady ..

theorem finish_recoverGood_spindle (b : Bridge) : (finish (recoverGood b)).cart.spindle = .spinning := by
  rw [(finish_recoverGood b).cart.2.1, (recoverAnswered_closes b).cart]
  exact (recovered_keeps b).2.2

theorem finish_recoverGood_isAnswered {k : Key} {e : Entry} (he : b.entry k = some e) (op : e.op = .recover)
    (waits : e.state = .awaitMech) : IsAnswered (finish (recoverGood b)) k .ok 0 .none := by
  have still := (entry_of_table (recovered_keeps b).1 k).trans he
  have answered : IsAnswered (recoverAnswered b) k .ok 0 .none := answerRecover_isAnswered .ok still op waits
  exact answered.steady (finish_recoverGood b)

/-! ### The cartridge after a RECOVER that went well -/

theorem finish_recoverGood_eject (begun : b.cart.ejectBegun = true) :
    (finish (recoverGood b)).cart.state = .ejecting := by
  have state : (recoverAnswered b).cart.state = .ejecting := by
    rw [(recoverAnswered_closes b).cart, recovered_eject begun]
    rfl
  have free : ¬ ejectWaits (recoverAnswered b) = true := not_ejectWaits_of_state (by simp [state]) (by simp [state])
  exact ((finish_recoverGood b).life_still free (by simp [state])).1.trans state

theorem finish_recoverGood_mount (fresh : b.cart.ejectBegun = false) (noMap : b.dm.map = none)
    (none : b.cart.ejectWaiting = none) : (finish (recoverGood b)).cart.state = .mounting
      ∧ (finish (recoverGood b)).cart.mountStep = some ⟨if b.cart.layout.isSome then .map else .label, 1⟩ := by
  have cart : (recoverAnswered b).cart = { b.cart with
      spindle := .spinning, state := .mounting, spinTimer := Option.none
      mountStep := some ⟨if b.cart.layout.isSome then .map else .label, 1⟩ } := by
    rw [(recoverAnswered_closes b).cart, recovered_mount fresh noMap]
    rfl
  have free : ¬ ejectWaits (recoverAnswered b) = true := fun waits =>
    (ejectWaits_iff.1 waits).2 (by rw [cart]; exact none)
  obtain ⟨state, -, -, step, -⟩ := (finish_recoverGood b).life_still free (by rw [cart]; exact CartState.noConfusion)
  exact ⟨state.trans (by rw [cart]), step.trans (by rw [cart])⟩

section Ready
variable (fresh : b.cart.ejectBegun = false) (held : b.dm.map.isSome = true)
include fresh held

theorem recoverAnswered_cart_ready : (recoverAnswered b).cart = { b.cart with
    state := .ready, spindle := .spinning, spinTimer := (recoverAnswered b).cart.spinTimer } := by
  have pool := (dropQuiesce_poolOnly (readyAgain b)).1
  rw [(recoverAnswered_closes b).cart, recovered_ready fresh held]
  generalize dropQuiesce (readyAgain b) = d at pool
  have cart : d.cart = (readyAgain b).cart := by rw [pool]
  rw [tryMapWrite_cart d, cart]
  rfl

theorem finish_recoverGood_ready : (finish (recoverGood b)).cart.state = .ready := by
  have ready : (recoverAnswered b).cart.state = .ready := by rw [recoverAnswered_cart_ready fresh held]
  exact ((finish_recoverGood b).stays_ready ready).1

theorem recoverAnswered_flush {i : BufIdx} {f : Flush} (job : (b.buf i).flush = some f) :
    ((recoverAnswered b).buf i).flush = some { f with causes := { f.causes with quiesce := false }.orAged } := by
  rw [recoverAnswered, answerRecover_buf, recovered_ready fresh held, buf_congr (congrArg Pool.buffers (tryMapWrite_pool _))]
  exact dropQuiesce_flush (b := readyAgain b) job

theorem recoverAnswered_dm {m : HeldMap} (hm : b.dm.map = some m) :
    (mapWriteDue (readyAgain b) m = true → ∃ stamp, (recoverAnswered b).dm.map = some { m with
      writeState := .saving, attempt := some 1, step := some ⟨.erase, false, stamp, m.generation⟩ })
    ∧ (¬ mapWriteDue (readyAgain b) m = true → (recoverAnswered b).dm = b.dm) := by
  have pool := (dropQuiesce_poolOnly (readyAgain b)).1
  rw [(recoverAnswered_closes b).dm, recovered_ready fresh held]
  generalize dropQuiesce (readyAgain b) = d at pool
  have map : d.dm.map = some m := by rw [pool]; exact hm
  have due : mapWriteDue d m = mapWriteDue (readyAgain b) m := by rw [pool]; rfl
  rw [← due]
  refine ⟨fun now => ⟨d.arb.stamps, ?_⟩, fun later => ?_⟩
  · rw [tryMapWrite_due map now]
    rfl
  · rw [tryMapWrite_dm d map, if_neg later, pool]
    rfl

end Ready

end Recover

/-! ### The completion of a life-cycle order -/

theorem exec_lifeCompletion {s : State} {o : Order} (good : Bool) (order : s.bridge.arb.order = some o)
    (life : isLifeKind o.kind = true) : exec (.completion o.number o.kind (.life good)) s
      = .next (s.withBridge (finish (lifeEnded (orderTaken s.bridge) o.kind good))) :=
  exec_completion_taken order rfl (completionFits_iff.2 ⟨rfl, .inl ⟨life, good, rfl⟩⟩)

theorem exec_mountCompletion {s : State} {o : Order} {psa : Nat} {rest : List Piece} {sectors : List SectorOutcome}
    (order : s.bridge.arb.order = some o) (kind : o.kind = .read) (mount : o.pieces = .mount psa :: rest)
    (len : sectors.length = o.pieces.length) (waits : ejectWaits s.bridge = true) :
    exec (.completion o.number .read (.run sectors)) s = .next (s.withBridge (finish (orderTaken s.bridge))) := by
  have held : completionTaken s.bridge o (.run sectors) = orderTaken s.bridge := (runEnded_mount mount).trans (if_pos waits)
  rw [← held]
  exact exec_completion_taken order rfl
    (completionFits_iff.2 ⟨kind, .inr ⟨by simp [isLifeKind], sectors, rfl, len⟩⟩)

/-- What the end of an eject leaves of the cartridge and answers (R152). -/
theorem finish_ejectComplete (b : Bridge) :
    finish (ejectComplete (orderTaken b)) = finish (raiseEvent (ejectGone (orderTaken b)) .cartridgeGone)
      ∧ Emptied (finish (ejectComplete (orderTaken b))) := by
  have eq : ejectComplete (orderTaken b) = raiseEvent (ejectGone (orderTaken b)) .cartridgeGone :=
    ejectComplete_eq (orderTaken b)
  rw [eq]
  exact ⟨rfl, (ejectGone_emptied _).steady (raised_steady _ _)⟩

/-- Settles O42: each order ends as `lifeEnded` says by the kind and the state, and what the end of the step adds is `Steady`,
the head of a HALTED cartridge at rest, or the eject that waited. -/
theorem lifeOrdersEndByTheCartridgeState : Obligations.LifeOrdersEndByTheCartridgeState := by
  refine ⟨fun s o kind good order same life => ?_, fun s o psa rest sectors order kind mount len waits => ?_,
    fun s o good order kind halted => ?_⟩
  · subst same
    refine ⟨_, exec_lifeCompletion good order (isLifeKind_iff.2 life), withBridge_pending .., ?_⟩
    beta_reduce
    rw [withBridge_bridge]
    refine ⟨fun up hs none => ?_, fun up hs => ?_, fun down hs => ?_, fun eject hs => ?_, fun up waits => ?_⟩
    · have free : ¬ ejectWaits (orderTaken s.bridge) = true := fun waits => (ejectWaits_iff.1 waits).2 none
      rw [lifeEnded_spinUp up, spinUpEnded_insert (b := orderTaken s.bridge) hs free]
      refine ⟨fun went => ?_, fun failed => ?_⟩
      · rw [if_pos went, startMount_turned]
        obtain ⟨state, spindle, step⟩ := finish_mountStarted (b := orderTaken s.bridge) none
        exact ⟨state, spindle, step, congrArg finish rfl⟩
      · rw [if_neg (by simp [failed])]
        obtain ⟨state, reason, -⟩ := finish_enterUnusable (orderTaken s.bridge) .noSpin
        exact ⟨state, reason, congrArg finish rfl⟩
    · rw [lifeEnded_spinUp up, spinUpEnded_served (b := orderTaken s.bridge) hs]
      refine ⟨fun went => ?_, fun failed => ?_⟩
      · rw [if_pos went]
        have steady := (finish_course (turnedTo (orderTaken s.bridge) .spinning)).steady
        exact ⟨congrArg finish rfl, steady.cart.2.1, steady.served_goesOn hs⟩
      · rw [if_neg (by simp [failed])]
        obtain ⟨state, spindle, enters, answers⟩ := finish_enterHalted (b := orderTaken s.bridge) rfl
        exact ⟨⟨state, enters, answers⟩, spindle⟩
    · rw [down, lifeEnded_spinDown]
      exact ⟨congrArg finish rfl, (finish_course _).steady.cart.2.1, (finish_course (turnedTo _ _)).steady.served_goesOn hs⟩
    · rw [lifeEnded_eject eject]
      refine ⟨fun went => ?_, fun failed => ?_⟩
      · rw [if_pos went]
        obtain ⟨eq, emptied⟩ := finish_ejectComplete s.bridge
        refine ⟨emptied.state, emptied.map, emptied.layout, ⟨_, eq, ejectGone_mgmt _, ejectGone_allFree _, ejectGone_arb _,
          ejectGone_cart _⟩, fun k e he op waits => ?_⟩
        rw [eq]
        exact (ejectGone_isAnswered (orderTaken s.bridge) he op waits).raised _
      · rw [if_neg (by simp [failed])]
        obtain ⟨state, -, enters, answers⟩ := finish_enterHalted (b := orderTaken s.bridge) rfl
        exact ⟨state, enters, answers⟩
    · have waiting : ejectWaits (orderTaken s.bridge) = true := ejectWaits_iff.2 waits
      have ends : lifeEnded (orderTaken s.bridge) o.kind good = turnedTo (orderTaken s.bridge) (spunTo s.bridge good) := by
        rw [lifeEnded_spinUp up, spinUpEnded_waits waiting]
        rfl
      rw [ends]
      obtain ⟨spindle, ejects⟩ := finish_turned_ejects (spunTo s.bridge good) rfl waiting
      exact ⟨congrArg finish rfl, spindle, ejects⟩
  · have waiting : ejectWaits s.bridge = true := ejectWaits_iff.2 waits
    refine ⟨_, exec_mountCompletion order kind mount len waiting, withBridge_pending .., ?_⟩
    beta_reduce
    rw [withBridge_bridge]
    have same : turnedTo (orderTaken s.bridge) s.bridge.cart.spindle = orderTaken s.bridge := rfl
    have ejects := finish_turned_ejects (b := orderTaken s.bridge) s.bridge.cart.spindle rfl
      ((ejectWaits_congr rfl rfl).trans waiting)
    rw [same] at ejects
    exact ⟨congrArg finish rfl, ejects⟩
  · have run := exec_lifeCompletion good order (by rw [kind]; rfl)
    rw [kind, lifeEnded_spinUp rfl, spinUpEnded_halted (b := orderTaken s.bridge) halted] at run
    refine ⟨_, run, withBridge_pending .., ?_⟩
    rw [withBridge_bridge]
    refine ⟨fun failed => ?_, fun went => ?_⟩
    · rw [if_neg (by simp [failed])]
      have closes := answerRecover_closes (orderTaken s.bridge) .mechFault
      have state : (answerRecover (orderTaken s.bridge) .mechFault).cart.state = .halted := by
        rw [closes.cart]
        exact halted
      have free := not_ejectWaits_of_state (b := answerRecover (orderTaken s.bridge) .mechFault) (by simp [state])
        (by simp [state])
      refine ⟨((finish_course _).steady.life_still free (by simp [state])).1.trans state, ⟨_, rfl, closes.mgmt, closes.cart⟩,
        fun k e he op waits => ?_⟩
      exact (answerRecover_isAnswered .mechFault (b := orderTaken s.bridge) he op waits).finish
    · rw [if_pos went]
      refine ⟨finish_recoverGood_spindle _, fun begun => ?_, fun fresh held => ?_, fun fresh noMap none => ?_,
        fun k e he op waits => ?_⟩
      · exact ⟨finish_recoverGood_eject (b := orderTaken s.bridge) begun, recoverAnswered (orderTaken s.bridge),
          congrArg finish (recoverGood_silent (.inl begun)), recoverAnswered_mgmt _⟩
      · refine ⟨finish_recoverGood_ready (b := orderTaken s.bridge) fresh held, recoverAnswered (orderTaken s.bridge),
          congrArg finish (recoverGood_ready fresh held), recoverAnswered_mgmt _,
          recoverAnswered_cart_ready (b := orderTaken s.bridge) fresh held,
          fun i f job => recoverAnswered_flush (b := orderTaken s.bridge) fresh held job, fun m hm => ?_⟩
        obtain ⟨now, later⟩ := recoverAnswered_dm (b := orderTaken s.bridge) fresh held hm
        exact ⟨fun early => later fun due => early (readyAgain_due.1 due), fun due => now (readyAgain_due.2 due)⟩
      · obtain ⟨state, step⟩ := finish_recoverGood_mount (b := orderTaken s.bridge) fresh noMap none
        exact ⟨state, step, recoverAnswered (orderTaken s.bridge), congrArg finish (recoverGood_silent (.inr noMap)),
          recoverAnswered_mgmt _⟩
      · exact finish_recoverGood_isAnswered (b := orderTaken s.bridge) he op waits

end Sys2Proof.Machine
end

section
/-! PROOFS. ORDER_TIMEOUT (R97, R98): the pieces of the run go back, the count rises, and the cartridge follows. -/

namespace Sys2Proof.Machine

/-! ### The pieces of a run that is given up (R97) -/

/-- A load that was in flight is pending again, with its stamp and its retries. -/
def Load.returned (l : Load) : Load := if l.stage = .inFlight then { l with stage := .pending, orderedAt := none } else l

/-- A phase that was in flight is pending again, with its stamp. -/
def Flush.returned (f : Flush) : Flush := if f.stage = some .inFlight then { f with stage := some .pending } else f

/-- A write-back step that was in flight is pending again. -/
def HeldMap.returned (m : HeldMap) : HeldMap := { m with step := m.step.map fun st => { st with inFlight := false } }

theorem Load.returned_eq (l : Load) :
    l.returned = if l.stage = .inFlight then { l with stage := .pending, orderedAt := none } else l := rfl

theorem Flush.returned_eq (f : Flush) :
    f.returned = if f.stage = some .inFlight then { f with stage := some .pending } else f := rfl

theorem Load.returned_returned (l : Load) : l.returned.returned = l.returned := by
  unfold Load.returned
  split
  · exact if_neg (by simp)
  · rfl

theorem Flush.returned_returned (f : Flush) : f.returned.returned = f.returned := by
  unfold Flush.returned
  split
  · exact if_neg (by simp)
  · rfl

theorem HeldMap.returned_returned (m : HeldMap) : m.returned.returned = m.returned := by
  cases hs : m.step <;> simp [HeldMap.returned, hs]

/-- An operation that changes nothing a second time, done twice where asked for. -/
theorem map_again {α : Type} {f : α → α} (again : ∀ x, f (f x) = f x) (x : Option α) (p q : Bool) :
    (if q then (if p then x.map f else x).map f else (if p then x.map f else x)) = if p || q then x.map f else x := by
  cases p <;> cases q <;> simp [Function.comp_def, again]

/-- The buffer record once its load, its job or both are given back. -/
def Buffer.returned (x : Buffer) (load job : Bool) : Buffer :=
  { x with load := if load then x.load.map Load.returned else x.load
           flush := if job then x.flush.map Flush.returned else x.flush }

theorem Buffer.returned_returned (x : Buffer) (load job load' job' : Bool) :
    (x.returned load job).returned load' job' = x.returned (load || load') (job || job') := by
  unfold Buffer.returned
  rw [← map_again Load.returned_returned, ← map_again Flush.returned_returned]

/-- The piece is the load of the buffer. -/
def Piece.loads (i : BufIdx) : Piece → Bool
  | .load j _ _ => i == j
  | .phase .. | .map _ | .mount _ => false

/-- The piece is a phase of the buffer's job. -/
def Piece.phases (i : BufIdx) : Piece → Bool
  | .phase j _ _ => i == j
  | .load .. | .map _ | .mount _ => false

/-- The piece is of a write-back step. -/
def Piece.maps : Piece → Bool
  | .map _ => true
  | .load .. | .phase .. | .mount _ => false

theorem returnPiece_buf (b : Bridge) (p : Piece) (i : BufIdx) :
    (returnPiece b p).buf i = (b.buf i).returned (p.loads i) (p.phases i) := by
  cases p with
  | load j lsn psa =>
    rw [returnPiece, buf_putBuf]
    by_cases here : i = j
    · subst here
      simp [Piece.loads, Piece.phases, Buffer.returned, funext Load.returned_eq]
    · simp [Piece.loads, Piece.phases, Buffer.returned, here]
  | phase j lsn psa =>
    rw [returnPiece, buf_putBuf]
    by_cases here : i = j
    · subst here
      simp [Piece.loads, Piece.phases, Buffer.returned, funext Flush.returned_eq]
    · simp [Piece.loads, Piece.phases, Buffer.returned, here]
  | map psa => exact buf_congr (by rw [returnPiece, mapStepReturned_pool]) i
  | mount psa => rfl

theorem returnPiece_map (b : Bridge) (p : Piece) :
    (returnPiece b p).dm.map = if p.maps then b.dm.map.map HeldMap.returned else b.dm.map := by
  cases p with
  | map psa =>
    unfold returnPiece mapStepReturned
    cases held : b.dm.map <;> simp [held, putMap, Piece.maps, HeldMap.returned]
  | load j lsn psa => rfl
  | phase j lsn psa => rfl
  | mount psa => rfl

theorem foldl_returnPiece_buf (i : BufIdx) : ∀ (l : List Piece) (b : Bridge),
    (l.foldl returnPiece b).buf i = (b.buf i).returned (l.any (Piece.loads i)) (l.any (Piece.phases i))
  | [], _ => rfl
  | p :: l, b => by
    rw [List.foldl_cons, foldl_returnPiece_buf i l, returnPiece_buf, Buffer.returned_returned, List.any_cons, List.any_cons]

theorem foldl_returnPiece_map : ∀ (l : List Piece) (b : Bridge),
    (l.foldl returnPiece b).dm.map = if l.any Piece.maps then b.dm.map.map HeldMap.returned else b.dm.map
  | [], _ => rfl
  | p :: l, b => by
    rw [List.foldl_cons, foldl_returnPiece_map l, returnPiece_map, map_again HeldMap.returned_returned, List.any_cons]

/-! ### The order that timed out (R97, R98) -/

section TimeOut
variable {b : Bridge} {o : Order}

/-- The pieces of the order are pending again, and it is in flight no more. -/
def piecesReturned (b : Bridge) (o : Order) : Bridge := o.pieces.foldl returnPiece (orderDropped b)

theorem abandonOrder_eq (b : Bridge) (o : Order) : abandonOrder b o = sweepLoads (piecesReturned b o) := rfl

theorem record_arb (b : Bridge) (r : ExceptionRecord) : (record b r).arb = b.arb := by
  unfold record raiseEvent attnTest
  dsimp only
  repeat' split
  all_goals rfl

theorem timeOutOrder_cart (b : Bridge) (o : Order) : (timeOutOrder b o).cart = b.cart := by
  rw [timeOutOrder, record_cart, (abandonOrder_givesUp b o).rest]

theorem timeOutOrder_table (b : Bridge) (o : Order) : (timeOutOrder b o).table = b.table := by
  rw [timeOutOrder, (record_aside ..).table, (abandonOrder_givesUp b o).rest]

theorem timeOutOrder_arb (b : Bridge) (o : Order) :
    (timeOutOrder b o).arb = { b.arb with order := none, timeouts := min (b.arb.timeouts + 1) 2 } := by
  rw [timeOutOrder, record_arb, (abandonOrder_givesUp b o).rest]

theorem timeOutOrder_exceptions (o : Order) (room : b.mgmt.exceptions.length < 32) :
    (timeOutOrder b o).mgmt.exceptions = b.mgmt.exceptions
      ++ [{ kind := .mechTimeout, time := b.clock, psa := o.firstPsa, sectorCount := o.sectorCount }] := by
  have mgmt : (abandonOrder b o).mgmt = b.mgmt := by rw [(abandonOrder_givesUp b o).rest]
  unfold timeOutOrder
  dsimp only
  rw [record_exceptions _ (by rw [mgmt]; exact room), mgmt]

theorem timeOutOrder_buf (b : Bridge) (o : Order) (i : BufIdx) : (timeOutOrder b o).buf i = (abandonOrder b o).buf i := by
  unfold timeOutOrder
  dsimp only
  rw [record_buf]
  generalize abandonOrder b o = c
  rfl

theorem timeOutOrder_dm (b : Bridge) (o : Order) : (timeOutOrder b o).dm = (abandonOrder b o).dm := by
  rw [timeOutOrder, record_dm]

theorem timeOutOrder_entry (b : Bridge) (o : Order) (k : Key) : (timeOutOrder b o).entry k = b.entry k :=
  entry_of_table (timeOutOrder_table b o) k

/-! ### The loads, the jobs and the map then -/

section Pieces
variable {i : BufIdx} {lsn psa : Nat}

theorem piecesReturned_buf (b : Bridge) (o : Order) (i : BufIdx) : (piecesReturned b o).buf i
    = (b.buf i).returned (o.pieces.any (Piece.loads i)) (o.pieces.any (Piece.phases i)) :=
  foldl_returnPiece_buf i o.pieces (orderDropped b)

theorem piecesReturned_load {l : Load} (piece : .load i lsn psa ∈ o.pieces) (load : (b.buf i).load = some l)
    (flight : l.stage = .inFlight) :
    ((piecesReturned b o).buf i).load = some { l with stage := .pending, orderedAt := none } := by
  have own : o.pieces.any (Piece.loads i) = true := List.any_eq_true.2 ⟨_, piece, beq_self_eq_true i⟩
  rw [piecesReturned_buf, own]
  simp [Buffer.returned, load, Load.returned, flight]

theorem timeOutOrder_load {l : Load} (piece : .load i lsn psa ∈ o.pieces) (load : (b.buf i).load = some l)
    (flight : l.stage = .inFlight) :
    (l.readers ≠ [] ∨ l.fillNeed = true →
      ((timeOutOrder b o).buf i).load = some { l with stage := .pending, orderedAt := none })
    ∧ (l.readers = [] → l.fillNeed = false → ((timeOutOrder b o).buf i).load = none) := by
  have returned := piecesReturned_load piece load flight
  rw [timeOutOrder_buf, abandonOrder_eq, (sweepLoads_buf _ i).load]
  refine ⟨fun need => ?_, fun readers fill => ?_⟩
  · rw [Buffer.swept_needed returned (need.imp_right .inl), returned]
  · rw [Buffer.swept_unneeded returned rfl readers fill, Buffer.withdrawn_load]

theorem timeOutOrder_job {f : Flush} (ok : PoolOk b) (piece : .phase i lsn psa ∈ o.pieces)
    (job : (b.buf i).flush = some f) (flight : f.stage = some .inFlight) :
    ((timeOutOrder b o).buf i).flush = some { f with stage := some .pending }
      ∧ ((timeOutOrder b o).buf i).state = (b.buf i).state := by
  have own : o.pieces.any (Piece.phases i) = true := List.any_eq_true.2 ⟨_, piece, beq_self_eq_true i⟩
  have returned : ((piecesReturned b o).buf i).flush = some { f with stage := some .pending } := by
    rw [piecesReturned_buf, own]
    simp [Buffer.returned, job, Flush.returned, flight]
  have state : ((piecesReturned b o).buf i).state = (b.buf i).state := by
    rw [piecesReturned_buf]
    rfl
  have busy : ((piecesReturned b o).buf i).state ≠ .loading := by
    rw [state]
    rcases ok.2.1 i (by rw [job]; rfl) with hs | hs <;> simp [hs]
  have kept := (sweepLoads_keepsWork (piecesReturned b o)).each i
  rw [timeOutOrder_buf, abandonOrder_eq]
  refine ⟨(kept.job busy _ returned).resolve_right ?_, ?_⟩
  · rintro ⟨still, -⟩
    cases still
  · exact (congrArg Buffer.state (kept.record busy)).trans state

theorem timeOutOrder_map {m : HeldMap} {st : MapStep} (piece : .map psa ∈ o.pieces) (held : b.dm.map = some m)
    (step : m.step = some st) :
    (timeOutOrder b o).dm.map = some { m with step := some { st with inFlight := false } } := by
  have own : o.pieces.any Piece.maps = true := List.any_eq_true.2 ⟨_, piece, rfl⟩
  have swept : (abandonOrder b o).dm = (piecesReturned b o).dm := by
    rw [abandonOrder_eq, (sweepLoads_poolOnly _).1]
  have returned : (piecesReturned b o).dm.map = some m.returned := by
    rw [piecesReturned, foldl_returnPiece_map, own]
    exact congrArg (Option.map HeldMap.returned) held
  rw [timeOutOrder_dm, swept, returned, HeldMap.returned, step]
  rfl

end Pieces
end TimeOut

/-! ### What follows at the cartridge (R98, R142, R143, R152, R155) -/

/-- The count of timeouts stays, and exceptions are added at most. -/
structure CountKept (b t : Bridge) : Prop where
  timeouts   : t.arb.timeouts = b.arb.timeouts
  exceptions : ∃ l, t.mgmt.exceptions = b.mgmt.exceptions ++ l

theorem CountKept.of_eq {b t : Bridge} (timeouts : t.arb.timeouts = b.arb.timeouts)
    (exceptions : t.mgmt.exceptions = b.mgmt.exceptions) : CountKept b t := ⟨timeouts, [], by rw [exceptions, List.append_nil]⟩

theorem Steady.countKept {b t : Bridge} (h : Steady b t) : CountKept b t := ⟨h.timeouts, h.exceptions⟩

theorem CountKept.trans {a b c : Bridge} (h : CountKept a b) (h' : CountKept b c) : CountKept a c := by
  obtain ⟨l, hl⟩ := h.exceptions
  obtain ⟨l', hl'⟩ := h'.exceptions
  exact ⟨h'.timeouts.trans h.timeouts, l ++ l', by rw [hl', hl, List.append_assoc]⟩

theorem raiseEvent_countKept (b : Bridge) (ev : AttnEvent) : CountKept b (raiseEvent b ev) :=
  (raiseEvent_moves b ev).steady.countKept

theorem enterUnusable_countKept (b : Bridge) (r : Reason) : CountKept b (enterUnusable b r) := by
  rw [enterUnusable_eq]
  refine .trans ?_ (raiseEvent_countKept _ _)
  exact .of_eq rfl rfl

theorem enterHalted_countKept (b : Bridge) : CountKept b (enterHalted b) := by
  obtain ⟨c, ⟨-, arb, -, mgmt, -⟩, eq⟩ := enterHalted_halted b
  rw [eq]
  exact (CountKept.of_eq (by rw [arb]) (by rw [mgmt])).trans (raiseEvent_countKept c _)

section Follows
variable {b : Bridge} {o : Order}

theorem timeoutFollows_unlaunched (hs : b.cart.state = .spinup) (free : ¬ ejectWaits b = true) :
    timeoutFollows b o = enterUnusable b .noSpin := by
  unfold timeoutFollows
  rw [hs]
  exact if_neg free

theorem timeoutFollows_waits (hs : b.cart.state = .spinup ∨ (b.cart.state = .mounting ∧ b.arb.timeouts ≠ 2))
    (waits : ejectWaits b = true) : timeoutFollows b o = b := by
  unfold timeoutFollows
  rcases hs with hs | ⟨hs, first⟩
  · rw [hs]
    exact if_pos waits
  · rw [hs]
    exact (if_neg first).trans (if_pos waits)

theorem timeoutFollows_ejecting (hs : b.cart.state = .ejecting) : timeoutFollows b o = enterHalted b := by
  unfold timeoutFollows
  rw [hs]

theorem timeoutFollows_second (hs : b.cart.state = .mounting ∨ b.cart.state = .ready ∨ b.cart.state = .quiescing)
    (second : b.arb.timeouts = 2) : timeoutFollows b o = enterHalted b := by
  unfold timeoutFollows
  rcases hs with hs | hs | hs
  all_goals
    rw [hs]
    exact if_pos second

theorem timeoutFollows_mountRead {st : MountStep} (hs : b.cart.state = .mounting) (first : b.arb.timeouts ≠ 2)
    (free : ¬ ejectWaits b = true) (step : b.cart.mountStep = some st) : timeoutFollows b o = mountTimedOut b st := by
  unfold timeoutFollows
  rw [hs]
  dsimp only
  rw [if_neg first, if_neg free, step]

theorem timeoutFollows_served (hs : b.cart.state = .ready ∨ b.cart.state = .quiescing) (first : b.arb.timeouts ≠ 2) :
    timeoutFollows b o = lifeReturned b o.kind := by
  unfold timeoutFollows
  rcases hs with hs | hs
  all_goals
    rw [hs]
    exact if_neg first

theorem timeoutFollows_halted (hs : b.cart.state = .halted) : timeoutFollows b o = answerRecover b .mechFault := by
  unfold timeoutFollows
  rw [hs]

theorem mountTimedOut_again {st : MountStep} (below : st.attempt < 4) :
    mountTimedOut b st = withCart b fun c => { c with mountStep := some ⟨st.read, st.attempt + 1⟩ } := if_pos below

theorem mountTimedOut_refused {st : MountStep} (last : 4 ≤ st.attempt) :
    mountTimedOut b st = enterUnusable b (failReason st.read) := if_neg (by omega)

theorem mountTimedOut_countKept (b : Bridge) (st : MountStep) : CountKept b (mountTimedOut b st) := by
  unfold mountTimedOut
  split
  · exact .of_eq rfl rfl
  · exact enterUnusable_countKept ..

theorem lifeReturned_countKept (b : Bridge) (kind : OrderKind) : CountKept b (lifeReturned b kind) := by
  cases kind <;> exact .of_eq rfl rfl

theorem timeoutFollows_countKept (b : Bridge) (o : Order) : CountKept b (timeoutFollows b o) := by
  have same : CountKept b b := .of_eq rfl rfl
  unfold timeoutFollows
  split
  · exact same
  · exact same
  · exact same
  · split
    · exact same
    · exact enterUnusable_countKept ..
  · split
    · exact enterHalted_countKept b
    · split
      · exact same
      · split
        · exact same
        · exact mountTimedOut_countKept ..
  · split
    · exact enterHalted_countKept b
    · exact lifeReturned_countKept ..
  · split
    · exact enterHalted_countKept b
    · exact lifeReturned_countKept ..
  · exact enterHalted_countKept b
  · have closes := answerRecover_closes b .mechFault
    exact .of_eq (by rw [closes.arb]) (by rw [closes.mgmt])

/-! ### A mount read that is made again (R143) -/

theorem fixed_mountStamp {b t : Bridge} (h : t.fixed = b.fixed) : t.arb.mountStamp = b.arb.mountStamp := by
  have arb : t.fixed.arb.mountStamp = b.fixed.arb.mountStamp := by rw [h]
  exact arb

theorem settleFor_mountStamp {o : Order} (n : Nat) (order : b.arb.order = some o) :
    (settleFor n b).arb.mountStamp = b.arb.mountStamp := by
  cases n with
  | zero => rfl
  | succ n =>
    have fixed := (poolSettle_moves b).fixed
    have still : headStep (poolSettle b) = none := headStep_of_order ((fixed_cart fixed).2.2.trans order)
    unfold settleFor settleOnce
    dsimp only
    rw [still]
    exact fixed_mountStamp fixed

theorem finish_arb (b : Bridge) : (finish b).arb = (settle b).arb := by
  unfold finish
  rw [pump_arb]
  generalize settle b = c
  rfl

theorem issueLife_mountStamp (b : Bridge) (kind : OrderKind) (l : List Piece) :
    (issueLife b kind l).arb.mountStamp = b.arb.mountStamp := rfl

/-- The mount read that is due goes out at once, and keeps its stamp. -/
theorem finish_mountStamp {st : MountStep} (hs : b.cart.state = .mounting) (free : b.cart.ejectWaiting = none)
    (order : b.arb.order = none) (step : b.cart.mountStep = some st) :
    (finish b).arb.mountStamp = b.arb.mountStamp := by
  have moves := poolSettle_moves b
  have kept := fixed_mountStamp moves.fixed
  obtain ⟨waiting, -, idle⟩ := fixed_cart moves.fixed
  have state := (fixed_cartState moves.fixed).trans hs
  have steps := (fixed_mountStep moves.fixed).trans step
  rw [finish_arb, ← kept]
  generalize hc : poolSettle b = c at waiting idle state steps
  have grants : headStep c = some (issueLife c .read (mountPieces st.read)) := by
    rw [headStep_arbiter (fun _ => waiting.trans free) (by rw [state]; exact CartState.noConfusion)]
    unfold arbiterStep
    rw [idle, order, state, steps]
    rfl
  have settled : settle b = settleFor 99 (issueLife c .read (mountPieces st.read)) := settle_of_some (by rw [hc]; exact grants)
  have flying : (settleFor 99 (issueLife c .read (mountPieces st.read))).arb.mountStamp
      = (issueLife c .read (mountPieces st.read)).arb.mountStamp := settleFor_mountStamp 99 rfl
  rw [settled, flying, issueLife_mountStamp]

end Follows

/-! ### ORDER_TIMEOUT (R97) -/

section Event
variable {s : State} {o : Order}

theorem exec_orderTimeout_due (order : s.bridge.arb.order = some o) (due : reached s.bridge.clock o.expiry = true) :
    exec .orderTimeout s = .next (s.withBridge (finish (timeoutFollows (timeOutOrder s.bridge o) o))) := by
  change execOrderTimeout s = _
  unfold execOrderTimeout
  refine become_next ?_
  rw [order]
  exact if_pos due

theorem exec_orderTimeout_not (early : ∀ o, s.bridge.arb.order = some o → reached s.bridge.clock o.expiry = false) :
    exec .orderTimeout s = .next s := by
  change execOrderTimeout s = _
  unfold execOrderTimeout
  refine become_same ?_
  split
  · rfl
  · rename_i o order
    exact if_neg (by simp [early o order])

end Event

section Clauses
variable {b : Bridge} {o : Order}

/-- The timeout of a mount read that is not the second, with no eject waiting (R143). -/
theorem finish_mountTimedOut {st : MountStep} (hs : b.cart.state = .mounting) (waiting : b.cart.ejectWaiting = none)
    (order : b.arb.order = none) (below : st.attempt < 4) :
    (finish (mountTimedOut b st)).cart.state = .mounting
      ∧ (finish (mountTimedOut b st)).cart.mountStep = some ⟨st.read, st.attempt + 1⟩
      ∧ (finish (mountTimedOut b st)).arb.mountStamp = b.arb.mountStamp := by
  rw [mountTimedOut_again below]
  generalize hc : (withCart b fun c => { c with mountStep := some ⟨st.read, st.attempt + 1⟩ }) = c
  have state : c.cart.state = .mounting := by rw [← hc]; exact hs
  have none : c.cart.ejectWaiting = none := by rw [← hc]; exact waiting
  have step : c.cart.mountStep = some ⟨st.read, st.attempt + 1⟩ := by rw [← hc]; rfl
  have arb : c.arb = b.arb := by rw [← hc]; rfl
  have free : ¬ ejectWaits c = true := fun waits => (ejectWaits_iff.1 waits).2 none
  obtain ⟨same, -, -, steps, -⟩ := (finish_course c).steady.life_still free (by simp [state])
  refine ⟨same.trans state, steps.trans step, ?_⟩
  rw [finish_mountStamp state none (by rw [arb]; exact order) step, arb]

/-- The first timeout of a READY cartridge halts nothing (R98). -/
theorem finish_lifeReturned (kind : OrderKind) (ready : b.cart.state = .ready) :
    (finish (lifeReturned b kind)).cart.state = .ready := by
  have still : (lifeReturned b kind).cart.state = .ready := by cases kind <;> exact ready
  exact ((finish_course _).steady.stays_ready still).1

theorem lifeReturned_other (spinUp : o.kind ≠ .spinUp) (spinDown : o.kind ≠ .spinDown) : lifeReturned b o.kind = b := by
  unfold lifeReturned
  split
  · rename_i kind; exact absurd kind spinUp
  · rename_i kind; exact absurd kind spinDown
  all_goals rfl

theorem finish_recoverFailed (hs : b.cart.state = .halted) :
    (finish (answerRecover b .mechFault)).cart.state = .halted := by
  have state : (answerRecover b .mechFault).cart.state = .halted := by rw [(answerRecover_closes b .mechFault).cart, hs]
  have free := not_ejectWaits_of_state (b := answerRecover b .mechFault) (by simp [state]) (by simp [state])
  exact ((finish_course _).steady.life_still free (by simp [state])).1.trans state

end Clauses

/-- Settles O46: the order is given up piece by piece (`returnPiece_buf`, `returnPiece_map`), and `timeoutFollows` goes by the
state of the cartridge, whose record the timeout leaves as it was. -/
theorem orderTimeoutCountsAndHalts : Obligations.OrderTimeoutCountsAndHalts := by
  refine fun s => ⟨fun o order due => ?_, exec_orderTimeout_not⟩
  have cart := timeOutOrder_cart s.bridge o
  have arb := timeOutOrder_arb s.bridge o
  have idle : (timeOutOrder s.bridge o).arb.order = none := by rw [arb]
  have count : (timeOutOrder s.bridge o).arb.timeouts = min (s.bridge.arb.timeouts + 1) 2 := by rw [arb]
  have first : s.bridge.arb.timeouts = 0 → (timeOutOrder s.bridge o).arb.timeouts ≠ 2 := fun zero => by rw [count]; omega
  have kept := (timeoutFollows_countKept (timeOutOrder s.bridge o) o).trans (finish_course _).steady.countKept
  obtain ⟨halted, -⟩ := finish_enterHalted idle
  have enters := enterHalted_halted (timeOutOrder s.bridge o)
  have answers := timeOutOrder_entry s.bridge o
  have tables := timeOutOrder_table s.bridge o
  have free : ¬ s.bridge.cart.ejectWaiting ≠ none → ¬ ejectWaits (timeOutOrder s.bridge o) = true := fun none waits =>
    none (by rw [← cart]; exact (ejectWaits_iff.1 waits).2)
  refine ⟨_, exec_orderTimeout_due order due, withBridge_pending .., withBridge_bridge .., ?_⟩
  rw [withBridge_bridge]
  refine ⟨kept.timeouts.trans count, fun room => ?_, idle, cart, tables, fun ok => ⟨?_, ?_, ?_⟩, fun hs none => ?_,
    fun hs waiting => ?_, fun hs => ?_, fun hs again => ?_, fun hs zero none st step => ⟨fun below => ?_, fun last => ?_⟩,
    fun hs zero => ?_, fun hs => ?_⟩
  · obtain ⟨l, added⟩ := kept.exceptions
    exact ⟨l, by rw [added, timeOutOrder_exceptions o room, List.append_assoc, List.singleton_append]⟩
  · exact fun i lsn psa l piece load flight => timeOutOrder_load piece load flight
  · exact fun i lsn psa f piece job flight => timeOutOrder_job ok piece job flight
  · exact fun psa m st piece held step => timeOutOrder_map piece held step
  · rw [timeoutFollows_unlaunched (by rw [cart, hs]) (free none)]
    obtain ⟨state, reason, -⟩ := finish_enterUnusable (timeOutOrder s.bridge o) .noSpin
    exact ⟨state, reason, enterUnusable_eq ..⟩
  · have waits : ejectWaits (timeOutOrder s.bridge o) = true :=
      ejectWaits_iff.2 (by rw [cart]; exact ⟨hs.imp_right And.left, waiting⟩)
    have same := timeoutFollows_waits (o := o) (by rw [cart]; exact hs.imp_right (And.imp_right first)) waits
    rw [same]
    exact ⟨rfl, finish_ejects waits idle⟩
  · rw [timeoutFollows_ejecting (by rw [cart, hs])]
    exact ⟨halted, enters⟩
  · rw [timeoutFollows_second (by rw [cart]; exact hs) (by rw [count]; omega)]
    exact ⟨halted, enters⟩
  · rw [timeoutFollows_mountRead (by rw [cart, hs]) (first zero) (free none) (by rw [cart, step])]
    obtain ⟨state, steps, stamp⟩ := finish_mountTimedOut (by rw [cart, hs]) (by rw [cart]; exact not_not.1 none) idle below
    exact ⟨state, steps, stamp.trans (by rw [arb])⟩
  · rw [timeoutFollows_mountRead (by rw [cart, hs]) (first zero) (free none) (by rw [cart, step]), mountTimedOut_refused last]
    obtain ⟨state, reason, steps⟩ := finish_enterUnusable (timeOutOrder s.bridge o) (failReason st.read)
    obtain ⟨read, attempt⟩ := st
    cases read with
    | label => exact ⟨state, steps, reason, enterUnusable_eq ..⟩
    | map => exact ⟨state, steps, reason, enterUnusable_eq ..⟩
  · rw [timeoutFollows_served (.inl (by rw [cart, hs])) (first zero)]
    refine ⟨finish_lifeReturned o.kind (by rw [cart, hs]), fun up => ?_, fun down => ?_, lifeReturned_other⟩
    · rw [up]; rfl
    · rw [down]; rfl
  · rw [timeoutFollows_halted (by rw [cart, hs])]
    exact ⟨finish_recoverFailed (by rw [cart, hs]), fun k e he op waits =>
      (answerRecover_isAnswered .mechFault ((answers k).trans he) op waits).finish⟩

end Sys2Proof.Machine
end

section
/-! PROOFS. QUIESCE_EXPIRY (R106, R133, R149, R150): a forced eject goes on without its conditions, and any other is refused. -/

namespace Sys2Proof.Machine

/-! ### When the expiry acts (R150) -/

section Expiry
variable {s : State} {b : Bridge} {q : Quiesce}

theorem isForced_iff : isForced b q = true ↔ (q.source = .management ∧ q.forced = true)
    ∨ (q.source = .button ∧ b.mgmt.settings.buttonForced = true) := by
  unfold isForced
  cases source : q.source <;> simp

theorem exec_quiesceExpiry_due (hs : s.bridge.cart.state = .quiescing) (hq : s.bridge.cart.quiesce = some q)
    (going : q.ending = false) (due : reached s.bridge.clock q.expiry = true) :
    exec .quiesceExpiry s = .next (s.withBridge (finish (quiesceExpires s.bridge q))) := by
  change execQuiesceExpiry s = _
  unfold execQuiesceExpiry
  refine become_next ?_
  rw [hq]
  exact if_pos ⟨hs, going, due⟩

theorem exec_quiesceExpiry_not (idle : s.bridge.cart.state ≠ .quiescing ∨ ∀ q, s.bridge.cart.quiesce = some q →
    q.ending = true ∨ reached s.bridge.clock q.expiry = false) : exec .quiesceExpiry s = .next s := by
  change execQuiesceExpiry s = _
  unfold execQuiesceExpiry
  refine become_same ?_
  split
  · rfl
  · rename_i q hq
    refine if_neg fun ⟨hs, going, due⟩ => ?_
    rcases idle with other | spent
    · exact other hs
    · rcases spent q hq with ending | early
      · rw [ending] at going
        cases going
      · rw [early] at due
        cases due

end Expiry

/-! ### The eject is forced (R150) -/

section Forced
variable {b : Bridge} {q : Quiesce}

/-- The quiesce waits for its conditions no more. -/
def quiesceEnding (b : Bridge) (q : Quiesce) : Bridge :=
  { b with cart := { b.cart with quiesce := some { q with ending := true } } }

theorem quiesceExpires_forced (forced : isForced b q = true) : quiesceExpires b q = quiesceEnding b q := if_pos forced

theorem fixed_quiesce {b t : Bridge} (h : t.fixed = b.fixed) : t.cart.quiesce = b.cart.quiesce := by
  have same : t.fixed.cart.quiesce = b.fixed.cart.quiesce := by rw [h]
  exact same

/-- With an order in flight nothing follows at the head, and the cartridge stays where it is. -/
theorem finish_cart_of_order {o : Order} (order : b.arb.order = some o) :
    (finish b).cart.state = b.cart.state ∧ (finish b).cart.quiesce = b.cart.quiesce := by
  have fixed := (poolSettle_moves b).fixed
  have still : headStep (poolSettle b) = none := headStep_of_order ((fixed_cart fixed).2.2.trans order)
  unfold finish
  rw [pump_cart, settle_of_none still]
  generalize poolSettle b = c at fixed
  exact ⟨fixed_cartState fixed, fixed_quiesce fixed⟩

/-- A quiesce that waits for no condition ends in the step in which no order is in flight (R149, R150). -/
theorem finish_quiesceEnds (hs : b.cart.state = .quiescing) (hq : b.cart.quiesce = some q) (ending : q.ending = true)
    (order : b.arb.order = none) : (finish b).cart.state = .ejecting := by
  have fixed := (poolSettle_moves b).fixed
  have ends : quiesceEnds (poolSettle b) = true :=
    (quiesceEnds_iff ((fixed_cartState fixed).trans hs) ((fixed_quiesce fixed).trans hq)).2
      ⟨(fixed_cart fixed).2.2.trans order, .inl ending⟩
  have settled : settle b = settleFor 99 (enterEjecting (poolSettle b)) := settle_of_some (headStep_ejects ends)
  obtain ⟨state, -⟩ := enterEjecting_cart (poolSettle b)
  generalize enterEjecting (poolSettle b) = d at settled state
  have goesOn : Course d (finish b) := by
    unfold finish
    rw [settled]
    exact ((settleFor_course 99 d).trans (refreshTimer_course _)).trans (pump_course _)
  have free : ¬ ejectWaits d = true := not_ejectWaits_of_state (by simp [state]) (by simp [state])
  exact (goesOn.steady.life_still free (by simp [state])).1.trans state

end Forced

/-! ### The eject is refused (R106, R133, R150) -/

section Refused
variable {b : Bridge} {q : Quiesce}

/-- READY again, and nothing else is done yet. -/
def quiesceLeft (b : Bridge) : Bridge := { b with cart := { b.cart with state := .ready, quiesce := none } }

/-- The eject is refused, but for the attention event. -/
def ejectTurnedAway (b : Bridge) : Bridge := answerEject (leaveQuiesce b) .ejectRefused

theorem quiesceExpires_refused (free : ¬ isForced b q = true) :
    quiesceExpires b q = raiseEvent (ejectTurnedAway b) .ejectRefused := if_neg free

theorem leaveQuiesce_eq (b : Bridge) : leaveQuiesce b = tryMapWrite (dropQuiesce (quiesceLeft b)) := rfl

theorem ejectTurnedAway_closes (b : Bridge) : Closes (leaveQuiesce b) (ejectTurnedAway b) :=
  answerAll_closes (leaveQuiesce b) isEjectWait .ejectRefused

theorem ejectTurnedAway_mgmt (b : Bridge) : (ejectTurnedAway b).mgmt = b.mgmt := by
  obtain ⟨-, -, -, mgmt, -⟩ := leaveQuiesce_rest b
  rw [(ejectTurnedAway_closes b).mgmt, mgmt]

theorem ejectTurnedAway_cart (b : Bridge) : (ejectTurnedAway b).cart
    = { b.cart with state := .ready, quiesce := none, spinTimer := (ejectTurnedAway b).cart.spinTimer } := by
  have pool := (dropQuiesce_poolOnly (quiesceLeft b)).1
  rw [(ejectTurnedAway_closes b).cart, leaveQuiesce_eq]
  generalize dropQuiesce (quiesceLeft b) = d at pool
  rw [tryMapWrite_cart d, pool]
  rfl

theorem ejectTurnedAway_flush {i : BufIdx} {f : Flush} (job : (b.buf i).flush = some f) :
    ((ejectTurnedAway b).buf i).flush = some { f with causes := { f.causes with quiesce := false }.orAged } := by
  have idle : ∀ e, isEjectWait e = true → e.state ≠ .fetching := fun e waits => by
    simp only [isEjectWait, Bool.and_eq_true, beq_iff_eq] at waits
    simp [waits.2]
  have kept : (ejectTurnedAway b).buf i = (leaveQuiesce b).buf i := answerAll_buf idle (leaveQuiesce b) .ejectRefused i
  rw [kept, leaveQuiesce_eq, buf_congr (congrArg Pool.buffers (tryMapWrite_pool _))]
  exact dropQuiesce_flush (b := quiesceLeft b) job

theorem quiesceLeft_due {m : HeldMap} : mapWriteDue (quiesceLeft b) m = true ↔ m.writeState = .dirty
    ∧ ∀ x, m.lastChange = some x → b.mgmt.settings.mapWriteDelay ≤ elapsed b.clock x := by
  rw [mapWriteDue_iff]
  simp [quiesceLeft]

theorem ejectTurnedAway_dm {m : HeldMap} (hm : b.dm.map = some m) :
    (¬ mapWriteDue (quiesceLeft b) m = true → (ejectTurnedAway b).dm = b.dm)
    ∧ (mapWriteDue (quiesceLeft b) m = true → ∃ stamp, (ejectTurnedAway b).dm.map = some { m with
        writeState := .saving, attempt := some 1, step := some ⟨.erase, false, stamp, m.generation⟩ }) := by
  have pool := (dropQuiesce_poolOnly (quiesceLeft b)).1
  rw [(ejectTurnedAway_closes b).dm, leaveQuiesce_eq]
  generalize dropQuiesce (quiesceLeft b) = d at pool
  have held : d.dm.map = some m := by rw [pool]; exact hm
  have same : mapWriteDue d m = mapWriteDue (quiesceLeft b) m := by rw [pool]; rfl
  rw [← same]
  refine ⟨fun later => ?_, fun now => ⟨d.arb.stamps, ?_⟩⟩
  · rw [tryMapWrite_dm d held, if_neg later, pool]
    rfl
  · rw [tryMapWrite_due held now]
    rfl

theorem ejectTurnedAway_isAnswered {k : Key} {e : Entry} (he : b.entry k = some e) (op : e.op = .eject)
    (waits : e.state = .awaitEject) : IsAnswered (ejectTurnedAway b) k .ejectRefused 0 .none := by
  obtain ⟨table, -⟩ := leaveQuiesce_rest b
  have held : (leaveQuiesce b).entry k = some e := (entry_of_table table k).trans he
  have answered : IsAnswered (answerAll (leaveQuiesce b) isEjectWait .ejectRefused) k .ejectRefused 0 .none :=
    answerAll_isAnswered .ejectRefused held (by simp [isEjectWait, op, waits]) (by simp [waits])
  exact answered

end Refused

/-- Settles O37: by `isForced`; the end of the step ejects where the quiesce ends and no order is in flight, and keeps a
READY cartridge READY. -/
theorem quiesceExpiryForcesOrRefusesTheEject : Obligations.QuiesceExpiryForcesOrRefusesTheEject := by
  unfold Obligations.QuiesceExpiryForcesOrRefusesTheEject
  refine fun s => ⟨fun q hs hq going due => ?_, exec_quiesceExpiry_not⟩
  have run := exec_quiesceExpiry_due hs hq going due
  refine ⟨fun forced => ?_, fun free => ?_⟩
  · rw [quiesceExpires_forced (isForced_iff.2 forced)] at run
    intro b
    have eq : b = quiesceEnding s.bridge q := rfl
    clear_value b
    subst eq
    refine ⟨run, finish_quiesceEnds (b := quiesceEnding s.bridge q) hs rfl rfl, fun busy => ?_⟩
    obtain ⟨o, order⟩ := Option.ne_none_iff_exists'.1 busy
    obtain ⟨state, quiesce⟩ := finish_cart_of_order (b := quiesceEnding s.bridge q) order
    exact ⟨state.trans hs, quiesce, (finish_order (b := quiesceEnding s.bridge q) order).trans order.symm⟩
  · rw [quiesceExpires_refused (mt isForced_iff.1 free)] at run
    have cart := ejectTurnedAway_cart s.bridge
    have ready : (ejectTurnedAway s.bridge).cart.state = .ready := by rw [cart]
    obtain ⟨state, quiesce⟩ := (raised_steady (ejectTurnedAway s.bridge) .ejectRefused).stays_ready ready
    refine ⟨_, ejectTurnedAway s.bridge, run, withBridge_pending .., withBridge_bridge .., ?_⟩
    rw [withBridge_bridge]
    refine ⟨state, quiesce.trans (by rw [cart]), cart, ejectTurnedAway_mgmt _, fun i f => ejectTurnedAway_flush,
      fun m hm => ?_, fun k e he op waits => (ejectTurnedAway_isAnswered he op waits).raised _⟩
    obtain ⟨later, now⟩ := ejectTurnedAway_dm hm
    exact ⟨fun early => later (mt quiesceLeft_due.1 early), fun due => now (quiesceLeft_due.2 due)⟩

end Sys2Proof.Machine
end

section
/-! PROOFS. SPARE_REQUEST_TAKEN (R106, R110, R111, R116, R117, R120, R128 to R133, R138): the request is refused, or granted in
one map change with its record. -/

namespace Sys2Proof.Machine

/-! ### The choice of a spare (R128) -/

section Choice
variable {b : Bridge} {i : BufIdx} {f : Flush} {r : SpareRequest} {l : Label} {m : HeldMap} {lsn u : Nat}

theorem chooseSpare_refused (layout : b.cart.layout = some l) (map : b.dm.map = some m)
    (h : b.cart.writeState ≠ some .writable ∨ 1024 ≤ m.entries.length ∨ findSpare l m.entries u = none) :
    chooseSpare b u = none := by
  unfold chooseSpare
  rw [layout, map]
  dsimp only
  split
  · rename_i free
    simp only [isWritable, Bool.and_eq_true, beq_iff_eq, decide_eq_true_eq] at free
    exact (h.resolve_left (not_not.2 free.1)).resolve_left (Nat.not_le.2 free.2)
  · rfl

theorem chooseSpare_found {p : Nat} (layout : b.cart.layout = some l) (map : b.dm.map = some m)
    (writable : b.cart.writeState = some .writable) (room : m.entries.length < 1024)
    (found : findSpare l m.entries u = some p) : chooseSpare b u = some p := by
  unfold chooseSpare
  rw [layout, map, ← found]
  exact if_pos (by simp [isWritable, writable, room])

theorem takeSpareRequest_none (idle : ∀ f, (b.buf i).flush = some f → f.request = none) : takeSpareRequest b i = b := by
  unfold takeSpareRequest
  split
  · rfl
  · rename_i f job
    rw [idle f job]

section Asked
variable (job : (b.buf i).flush = some f) (asked : f.request = some r) (sector : (b.buf i).lsn = some lsn)
  (home : homeOf b lsn = some u)
include job asked sector home

theorem takeSpareRequest_granted {p : Nat} (chosen : chooseSpare b u = some p) :
    takeSpareRequest b i = spareGranted b i f r u p := by
  unfold takeSpareRequest
  simp only [job, asked, sector, Option.bind_some, home, chosen]

theorem takeSpareRequest_refused (chosen : chooseSpare b u = none) : takeSpareRequest b i = spareRefused b i f r := by
  unfold takeSpareRequest
  simp only [job, asked, sector, Option.bind_some, home, chosen]

end Asked

end Choice

/-! ### A request that is refused (R106, R110, R111, R120) -/

section Refused
variable {b : Bridge} {i : BufIdx} {f : Flush}

/-- A relocation that is refused loses RELOCATE, and AGED takes the place of the last cause (R106). -/
def Causes.unrelocated (c : Causes) : Causes := { c with relocate := false }.orAged

theorem unrelocated_eq (c : Causes) : c.unrelocated = { c with
    relocate := false
    aged := c.aged || !decide (c.pressure ∨ c.confirmed ∨ c.flushWait ∨ c.quiesce) } := by
  obtain ⟨aged, pressure, confirmed, flushWait, quiesce, relocate⟩ := c
  revert aged pressure confirmed flushWait quiesce relocate
  decide

/-- The job of a relocation that is refused. -/
def Flush.unrelocated (f : Flush) : Flush := { f with request := none, causes := f.causes.unrelocated }

/-- The buffer of a relocation that is refused has lost its mark, and its job RELOCATE. -/
def unmarked (b : Bridge) (i : BufIdx) (f : Flush) : Bridge :=
  b.putBuf i { b.buf i with relocate := false, flush := some f.unrelocated }

theorem spareRefused_relocation (moves : f.causes.relocate = true) :
    spareRefused b i f .first = takeTarget (unmarked b i f) i := if_pos moves

theorem spareRefused_first (stays : f.causes.relocate = false) :
    spareRefused b i f .first = permanentFailure b i none := if_neg (by simp [stays])

/-- A relocation that is refused takes its target in place, and changes nothing but its buffer and its job. -/
theorem takeTarget_unmarked (b : Bridge) (i : BufIdx) (f : Flush) : let t := takeTarget (unmarked b i f) i
    (∃ f', t.buf i = { b.buf i with relocate := false, flush := some f' } ∧ TargetTaken b i f.unrelocated f')
      ∧ (∀ j, j ≠ i → t.buf j = b.buf j) ∧ t.dm = b.dm ∧ t.mgmt = b.mgmt ∧ t.table = b.table := by
  have here : (unmarked b i f).buf i = { b.buf i with relocate := false, flush := some f.unrelocated } :=
    buf_putBuf_self ..
  have touches := takeTarget_touches (unmarked b i f) i
  obtain ⟨f', put, taken, -⟩ := takeTarget_spec (b := unmarked b i f) (i := i) (f := f.unrelocated) (by rw [here])
  refine ⟨⟨f', by rw [put, here], taken.congr (by rw [here]) (fun _ => rfl) rfl⟩, fun j ne => ?_, touches.dm, touches.mgmt,
    touches.table⟩
  exact (touches.other j ne).trans (buf_putBuf_ne b _ ne)

end Refused

/-! ### A request that is granted (R111, R116, R120, R129, R131, R138) -/

section Recorded
variable {b : Bridge}

theorem raiseEvent_overflow (b : Bridge) (ev : AttnEvent) : (raiseEvent b ev).mgmt.overflow = b.mgmt.overflow := by
  unfold raiseEvent attnTest
  dsimp only
  repeat' split
  all_goals rfl

theorem record_overflow (r : ExceptionRecord) (room : b.mgmt.exceptions.length < 32) :
    (record b r).mgmt.overflow = b.mgmt.overflow := by
  unfold record
  rw [if_pos room, raiseEvent_overflow]

theorem record_mgmt_full (r : ExceptionRecord) (full : 32 ≤ b.mgmt.exceptions.length) :
    (record b r).mgmt = { b.mgmt with overflow := min (b.mgmt.overflow + 1) 255 } := by
  unfold record
  rw [if_neg (Nat.not_lt.2 full)]
  rfl

/-- What there is to record is recorded. -/
def recordIf (b : Bridge) : Option ExceptionRecord → Bridge
  | none => b
  | some r => record b r

theorem recordIf_cart (b : Bridge) (x : Option ExceptionRecord) : (recordIf b x).cart = b.cart := by
  cases x with
  | none => rfl
  | some r => exact record_cart b r

theorem recordIf_dm (b : Bridge) (x : Option ExceptionRecord) : (recordIf b x).dm = b.dm := by
  cases x with
  | none => rfl
  | some r => exact record_dm b r

theorem recordIf_arb (b : Bridge) (x : Option ExceptionRecord) : (recordIf b x).arb = b.arb := by
  cases x with
  | none => rfl
  | some r => exact record_arb b r

theorem recordIf_buf (b : Bridge) (x : Option ExceptionRecord) (i : BufIdx) : (recordIf b x).buf i = b.buf i := by
  cases x with
  | none => rfl
  | some r => exact record_buf b r i

theorem recordIf_mgmt (b : Bridge) (x : Option ExceptionRecord) :
    (x.toList = [] → (recordIf b x).mgmt = b.mgmt)
    ∧ (b.mgmt.exceptions.length < 32 → (recordIf b x).mgmt.exceptions = b.mgmt.exceptions ++ x.toList
        ∧ (recordIf b x).mgmt.overflow = b.mgmt.overflow)
    ∧ (32 ≤ b.mgmt.exceptions.length → x.toList ≠ [] →
        (recordIf b x).mgmt = { b.mgmt with overflow := min (b.mgmt.overflow + 1) 255 }) := by
  cases x with
  | none => exact ⟨fun _ => rfl, fun _ => ⟨(List.append_nil _).symm, rfl⟩, fun _ some => absurd rfl some⟩
  | some r =>
    exact ⟨nofun, fun room => ⟨record_exceptions r room, record_overflow r room⟩, fun full _ => record_mgmt_full r full⟩

end Recorded

/-- The spare is for a relocation (R120). -/
def SpareRequest.relocates (r : SpareRequest) (f : Flush) : Bool :=
  match r with
  | .first => f.causes.relocate
  | .replace _ => false

/-- The job with its attempts as a grant leaves them (R116). -/
def Flush.retried (f : Flush) (r : SpareRequest) : Flush :=
  { f with attempts := if r = .first then f.attempts else f.attempts + 1 }

/-- What a grant records (R111, R116, R120). -/
def spareRecord (now : Clock) (f : Flush) (lsn p : Nat) : SpareRequest → Option ExceptionRecord
  | .first => if f.causes.relocate then some { kind := .relocated, time := now, lsn := some lsn, psa := some p } else none
  | .replace _ =>
    some { kind := .remapped, time := now, lsn := some lsn, psa := some p, retries := some (f.attempts + 1) }

/-- The spare is granted and is the job's target, and nothing is recorded yet. -/
def spareTaken (b : Bridge) (i : BufIdx) (f : Flush) (r : SpareRequest) (u p : Nat) : Bridge :=
  eraseAt (grantSpare b u p (r.relocates f)) i (f.retried r) p

section Granted
variable {b : Bridge} {i : BufIdx} {f : Flush} {r : SpareRequest} {m : HeldMap} {lsn u p : Nat}

theorem SpareRequest.relocates_iff : r.relocates f = true ↔ r = .first ∧ f.causes.relocate = true := by
  cases r <;> simp [SpareRequest.relocates]

theorem spareGranted_eq (sector : (b.buf i).lsn = some lsn) :
    spareGranted b i f r u p = recordIf (spareTaken b i f r u p) (spareRecord b.clock f lsn p r) := by
  unfold spareGranted
  rw [sector]
  cases r with
  | first =>
    unfold spareRecord
    dsimp only
    split
    · rfl
    · rfl
  | replace psa => rfl

theorem changeMap_rest (b : Bridge) (m : HeldMap) (entries : List MapEntry) :
    (changeMap b m entries).mgmt = b.mgmt
      ∧ (changeMap b m entries).cart = { b.cart with spinTimer := (changeMap b m entries).cart.spinTimer } := by
  unfold changeMap
  obtain ⟨-, -, -, mgmt, -⟩ := tryMapWrite_rest (putMap b { m with
    entries, generation := m.generation + 1, lastChange := some b.clock,
    writeState := if m.writeState = .clean then .dirty else m.writeState })
  exact ⟨mgmt, tryMapWrite_cart _⟩

theorem changeMap_stamps (b : Bridge) (m : HeldMap) (entries : List MapEntry) :
    b.arb.stamps ≤ (changeMap b m entries).arb.stamps := by
  unfold changeMap
  refine Nat.le_trans ?_ (tryMapWrite_moves _).timer.le
  exact Nat.le_refl b.arb.stamps

/-- A grant is one map change, and the count of its kind rises (R129, R131, R138). -/
theorem grantSpare_eq (map : b.dm.map = some m) (relocate : Bool) : grantSpare b u p relocate =
    let c := changeMap b m (grantEntries m.entries u p (if relocate then .relocate else .verify))
    { c with cart := if relocate then { c.cart with relocations := satInc 65535 c.cart.relocations }
                     else { c.cart with remaps := satInc 65535 c.cart.remaps } } := by
  unfold grantSpare
  rw [map]

theorem grantSpare_mgmt (relocate : Bool) (map : b.dm.map = some m) : (grantSpare b u p relocate).mgmt = b.mgmt := by
  rw [grantSpare_eq map]
  exact (changeMap_rest ..).1

theorem grantSpare_changed (relocate : Bool) (map : b.dm.map = some m) :
    MapChanged b (grantSpare b u p relocate) m (grantEntries m.entries u p (if relocate then .relocate else .verify)) := by
  rw [grantSpare_eq map]
  exact (changeMap_changed b m _).after rfl (Nat.le_refl _)

theorem grantSpare_stamps (relocate : Bool) (map : b.dm.map = some m) :
    b.arb.stamps ≤ (grantSpare b u p relocate).arb.stamps := by
  rw [grantSpare_eq map]
  exact (changeMap_stamps b m _)

theorem grantSpare_counts (relocate : Bool) (map : b.dm.map = some m) :
    (relocate = true → (grantSpare b u p relocate).cart.relocations = min (b.cart.relocations + 1) 65535
        ∧ (grantSpare b u p relocate).cart.remaps = b.cart.remaps)
    ∧ (relocate = false → (grantSpare b u p relocate).cart.remaps = min (b.cart.remaps + 1) 65535
        ∧ (grantSpare b u p relocate).cart.relocations = b.cart.relocations) := by
  obtain ⟨-, cart⟩ := changeMap_rest b m (grantEntries m.entries u p (if relocate then .relocate else .verify))
  rw [grantSpare_eq map]
  dsimp only
  rw [cart]
  refine ⟨fun moved => ?_, fun stays => ?_⟩
  · rw [if_pos moved]
    exact ⟨rfl, rfl⟩
  · rw [if_neg (by simp [stays])]
    exact ⟨rfl, rfl⟩

theorem eraseAt_touches (b : Bridge) (i : BufIdx) (f : Flush) (p : Nat) : Touches i b (eraseAt b i f p) :=
  (putFlush_touches b i _).trans (takeStamp_touches i _)

theorem grantSpare_buf (relocate : Bool) (j : BufIdx) : (grantSpare b u p relocate).buf j = b.buf j :=
  buf_congr (congrArg Pool.buffers (grantSpare_pool ..)) j

theorem spareTaken_touches : Touches i (grantSpare b u p (r.relocates f)) (spareTaken b i f r u p) := eraseAt_touches ..

theorem spareTaken_job : (spareTaken b i f r u p).buf i
    = { b.buf i with flush := some ((f.retried r).erasing p (grantSpare b u p (r.relocates f)).arb.stamps) } := by
  rw [← grantSpare_buf (b := b) (u := u) (p := p) (r.relocates f) i]
  exact buf_putBuf_self ..

/-- The request granted, with its record. -/
def spareGiven (b : Bridge) (i : BufIdx) (f : Flush) (r : SpareRequest) (lsn u p : Nat) : Bridge :=
  recordIf (spareTaken b i f r u p) (spareRecord b.clock f lsn p r)

theorem spareGiven_changed (map : b.dm.map = some m) : MapChanged b (spareGiven b i f r lsn u p) m
    (grantEntries m.entries u p (if r.relocates f then .relocate else .verify)) := by
  refine (grantSpare_changed (r.relocates f) map).after ?_ ?_
  · exact (recordIf_dm ..).trans spareTaken_touches.dm
  · rw [spareGiven, recordIf_arb]
    exact spareTaken_touches.stamps

theorem spareGiven_counts (map : b.dm.map = some m) :
    (r.relocates f = true → (spareGiven b i f r lsn u p).cart.relocations = min (b.cart.relocations + 1) 65535
        ∧ (spareGiven b i f r lsn u p).cart.remaps = b.cart.remaps)
    ∧ (r.relocates f = false → (spareGiven b i f r lsn u p).cart.remaps = min (b.cart.remaps + 1) 65535
        ∧ (spareGiven b i f r lsn u p).cart.relocations = b.cart.relocations) := by
  have counts := grantSpare_counts (u := u) (p := p) (r.relocates f) map
  rw [spareGiven, recordIf_cart, (spareTaken_touches (b := b) (i := i) (f := f) (r := r) (u := u) (p := p)).rest]
  exact counts

theorem spareTaken_mgmt (map : b.dm.map = some m) : (spareTaken b i f r u p).mgmt = b.mgmt :=
  spareTaken_touches.mgmt.trans (grantSpare_mgmt _ map)

theorem spareGiven_job (map : b.dm.map = some m) :
    ∃ f', (spareGiven b i f r lsn u p).buf i = { b.buf i with flush := some f' }
      ∧ f' = (f.retried r).erasing p f'.stamp
      ∧ b.arb.stamps ≤ f'.stamp ∧ f'.stamp < (spareGiven b i f r lsn u p).arb.stamps := by
  refine ⟨(f.retried r).erasing p (grantSpare b u p (r.relocates f)).arb.stamps, ?_, rfl,
    grantSpare_stamps (r.relocates f) map, ?_⟩
  · rw [spareGiven, recordIf_buf, spareTaken_job]
  · rw [spareGiven, recordIf_arb]
    exact Nat.lt_succ_self _

theorem spareGiven_other {j : BufIdx} (ne : j ≠ i) : (spareGiven b i f r lsn u p).buf j = b.buf j := by
  rw [spareGiven, recordIf_buf, spareTaken_touches.other j ne, grantSpare_buf]

end Granted

/-- Settles O53: a refusal is that of `spareRefused`; a grant is one map change (`grantSpare_changed`), the target taken and
at most one record. -/
theorem spareRequestIsGrantedOrRefused : Obligations.SpareRequestIsGrantedOrRefused := by
  unfold Obligations.SpareRequestIsGrantedOrRefused
  refine fun s i => ⟨rfl, takeSpareRequest_none, fun f r lsn u l m job asked sector layout home map => ?_⟩
  have home : homeOf s.bridge lsn = some u := by rw [homeOf, layout, Option.bind_some, home]
  generalize s.bridge = b at job sector layout map home
  refine ⟨fun refused => ?_, fun p writable room found => ?_⟩
  · rw [takeSpareRequest_refused job asked sector home (chooseSpare_refused layout map refused)]
    refine ⟨fun psa replace => by rw [replace]; rfl, fun first stays => by rw [first, spareRefused_first stays],
      fun first moves => ?_⟩
    rw [first, spareRefused_relocation moves]
    intro others f1
    have eq : f1 = f.unrelocated :=
      congrArg (fun causes => ({ f with request := none, causes } : Flush)) (unrelocated_eq f.causes).symm
    clear_value f1
    subst eq
    exact takeTarget_unmarked b i f
  · have taken : takeSpareRequest b i = spareGiven b i f r lsn u p :=
      (takeSpareRequest_granted job asked sector home (chooseSpare_found layout map writable room found)).trans
        (spareGranted_eq sector)
    have changed := spareGiven_changed (i := i) (f := f) (r := r) (lsn := lsn) (u := u) (p := p) map
    obtain ⟨relocated, remapped⟩ := spareGiven_counts (i := i) (f := f) (r := r) (lsn := lsn) (u := u) (p := p) map
    have recorded := recordIf_mgmt (spareTaken b i f r u p) (spareRecord b.clock f lsn p r)
    rw [spareTaken_mgmt map] at recorded
    simp only [SpareRequest.relocates_iff] at changed
    rw [taken]
    refine ⟨changed, fun moved => relocated (SpareRequest.relocates_iff.2 moved),
      fun stays => remapped (Bool.eq_false_iff.2 (mt SpareRequest.relocates_iff.1 stays)), ?_, spareGiven_job map,
      fun j => spareGiven_other⟩
    intro records
    have eq : records = (spareRecord b.clock f lsn p r).toList := by
      cases r with
      | first =>
        rw [spareRecord, apply_ite Option.toList]
        rfl
      | replace psa => rfl
    clear_value records
    subst eq
    exact recorded

end Sys2Proof.Machine
end

section
/-! PROOFS. SET_SETTINGS (R108, R133, R146, R161, R180, R181): refused whole, or applied whole with what the new values do at
once. -/

namespace Sys2Proof.Machine

/-! ### The attention pending set (R161, R181) -/

section Attention
variable {b : Bridge} {o : Originator}

theorem isAttention_iff (f : OutFrame) : f.isAttention = true ↔ ∃ o set n, f = .attention o set n := by
  cases f <;> simp [OutFrame.isAttention]

theorem attnWaiting_iff : attnWaiting b = true ↔
    ∃ f, (f ∈ b.link.queue ∨ b.link.tx = some f) ∧ ∃ o set n, f = .attention o set n := by
  simp only [attnWaiting, Bool.or_eq_true, List.any_eq_true, Option.any_eq_true, isAttention_iff]
  constructor
  · rintro (⟨f, queued, attention⟩ | ⟨f, sent, attention⟩)
    · exact ⟨f, .inl queued, attention⟩
    · exact ⟨f, .inr sent, attention⟩
  · rintro ⟨f, queued | sent, attention⟩
    · exact .inl ⟨f, queued, attention⟩
    · exact .inr ⟨f, sent, attention⟩

/-- The attention pending set is replaced. -/
def withAttention (b : Bridge) (set : BitVec 6) : Bridge := { b with mgmt := { b.mgmt with attnPending := set } }

theorem attnTest_unset (none : b.mgmt.settings.attnOrig = none) : attnTest b = b := by
  unfold attnTest
  rw [none]

theorem attnTest_silent (originator : b.mgmt.settings.attnOrig = some o)
    (h : b.mgmt.attnPending = 0 ∨ attnWaiting b = true) : attnTest b = b := by
  unfold attnTest
  rw [originator]
  refine if_neg fun builds => ?_
  simp only [Bool.and_eq_true, bne_iff_ne, Bool.not_eq_true'] at builds
  rcases h with empty | waits
  · exact builds.1 empty
  · rw [waits] at builds
    cases builds.2

theorem attnTest_builds (originator : b.mgmt.settings.attnOrig = some o) (pending : b.mgmt.attnPending ≠ 0)
    (free : ¬ attnWaiting b = true) : attnTest b = { b with
      link := { b.link with queue := b.link.queue ++ [.attention o b.mgmt.attnPending b.mgmt.exceptions.length] }
      mgmt := { b.mgmt with attnPending := 0 } } := by
  unfold attnTest
  rw [originator]
  refine if_pos ?_
  rw [Bool.and_eq_true, bne_iff_ne, Bool.not_eq_true']
  exact ⟨pending, Bool.eq_false_iff.2 free⟩

theorem pruneAttention_unset (none : b.mgmt.settings.attnOrig = none) : pruneAttention b = withAttention b 0 := by
  have pruned : pruneAttention b = attnTest (withAttention b 0) := by
    unfold pruneAttention
    rw [none]
    rfl
  exact pruned.trans (attnTest_unset none)

theorem pruneAttention_set (originator : b.mgmt.settings.attnOrig = some o) :
    pruneAttention b = attnTest (withAttention b (b.mgmt.attnPending &&& b.mgmt.settings.attnEvents)) := by
  unfold pruneAttention
  rw [originator]
  rfl

theorem withAttention_steady (b : Bridge) (set : BitVec 6) : Steady b (withAttention b set) :=
  ⟨rfl, rfl, rfl, rfl, rfl, rfl, .of_table rfl, fun _ h _ => h, ⟨[], (List.append_nil _).symm⟩, rfl,
    ⟨rfl, rfl, rfl, rfl⟩, rfl, .inl ⟨rfl, rfl, rfl, rfl, rfl⟩⟩

theorem pruneAttention_steady (b : Bridge) : Steady b (pruneAttention b) :=
  (withAttention_steady b _).trans (attnTest_moves _).steady

end Attention

/-! ### The OPEN buffers tested for their aging expiry (R108) -/

theorem findItem_isSome_iff {items : List Item} {code : Nat} :
    (findItem items code).isSome = true ↔ ∃ it ∈ items, it.code.toNat = code := by
  simp [findItem, List.find?_isSome]

/-- A buffer is tested when it is OPEN. -/
def testIfOpen (b : Bridge) (i : BufIdx) : Bridge := if (b.buf i).state = .opened then testLater b i else b

/-- From `b` to `t` the buffers that satisfy `p` join those to be tested, and nothing else changes. -/
def Tested (p : BufIdx → Prop) (b t : Bridge) : Prop :=
  t = { b with pool := { b.pool with testDue := t.pool.testDue } } ∧ ∀ i, i ∈ t.pool.testDue ↔ i ∈ b.pool.testDue ∨ p i

section Tests
variable {b t : Bridge} {p : BufIdx → Prop}

theorem Tested.none (b : Bridge) (never : ∀ i, ¬ p i) : Tested p b b := ⟨rfl, fun i => by simp [never i]⟩

theorem Tested.buf (h : Tested p b t) (i : BufIdx) : t.buf i = b.buf i := by
  rw [h.1]
  rfl

theorem testIfOpen_tested (b : Bridge) (i : BufIdx) :
    Tested (fun j => j = i ∧ (b.buf j).state = .opened) b (testIfOpen b i) := by
  unfold testIfOpen
  split
  · rename_i opened
    refine ⟨rfl, fun j => ?_⟩
    by_cases here : j = i
    · subst here
      simp [testLater, opened]
    · simp [testLater, here]
  · rename_i closed
    exact .none b fun j ⟨here, opened⟩ => closed (here ▸ opened)

theorem foldl_testIfOpen_tested : ∀ (l : List BufIdx) (b : Bridge),
    Tested (fun j => j ∈ l ∧ (b.buf j).state = .opened) b (l.foldl testIfOpen b)
  | [], b => .none b fun _ h => absurd h.1 List.not_mem_nil
  | i :: l, b => by
    have first := testIfOpen_tested b i
    obtain ⟨rest, due⟩ := foldl_testIfOpen_tested l (testIfOpen b i)
    rw [List.foldl_cons]
    refine ⟨?_, fun j => ?_⟩
    · rw [rest, first.1]
    · have same : ((testIfOpen b i).buf j).state = (b.buf j).state := congrArg Buffer.state (first.buf j)
      rw [due, first.2]
      simp only [same, List.mem_cons]
      tauto

theorem testAllOpen_tested (b : Bridge) : Tested (fun i => (b.buf i).state = .opened) b (testAllOpen b) := by
  have all : testAllOpen b = allBufs.foldl testIfOpen b := rfl
  obtain ⟨rest, due⟩ := foldl_testIfOpen_tested allBufs b
  rw [all]
  exact ⟨rest, fun i => (due i).trans (by simp [mem_allBufs])⟩

end Tests

/-! ### What the settings do at once (R133, R146, R181) -/

/-- The request carries a setting. -/
def Carries (items : List Item) (code : Nat) : Prop := ∃ it ∈ items, it.code.toNat = code

/-- With the write-back delay, the OPEN buffers are tested. -/
def openTested (items : List Item) (b : Bridge) : Bridge := if (findItem items 0x32).isSome then testAllOpen b else b

/-- With the map write delay, a write-back starts where its delay has passed. -/
def mapWriteTried (items : List Item) (b : Bridge) : Bridge := if (findItem items 0x33).isSome then tryMapWrite b else b

/-- With the spin-down delay, a SPIN_DOWN is asked for where its timer has run out. -/
def spinDownTried (items : List Item) (b : Bridge) : Bridge :=
  if (findItem items 0x36).isSome && spinDownDue b then askSpinDown b else b

/-- A write-back starts with the new map write delay. -/
def MapWriteStarts (items : List Item) (b : Bridge) (m : HeldMap) : Prop :=
  Carries items 0x33 ∧ b.dm.map = some m ∧ mapWriteDue b m = true

section Acts
variable {items : List Item} {b : Bridge} {m : HeldMap}

theorem settingsAct_eq (items : List Item) (b : Bridge) :
    settingsAct items b = spinDownTried items (mapWriteTried items (openTested items b)) := rfl

theorem openTested_tested (items : List Item) (b : Bridge) :
    Tested (fun i => Carries items 0x32 ∧ (b.buf i).state = .opened) b (openTested items b) := by
  unfold openTested
  split
  · rename_i carries
    obtain ⟨rest, due⟩ := testAllOpen_tested b
    exact ⟨rest, fun i => (due i).trans (by simp [Carries, findItem_isSome_iff.1 carries])⟩
  · rename_i absent
    exact .none b fun i h => absent (findItem_isSome_iff.2 h.1)

theorem openTested_dm (items : List Item) (b : Bridge) : (openTested items b).dm = b.dm := by
  rw [(openTested_tested items b).1]

theorem openTested_arb (items : List Item) (b : Bridge) : (openTested items b).arb = b.arb := by
  rw [(openTested_tested items b).1]

theorem openTested_cart (items : List Item) (b : Bridge) : (openTested items b).cart = b.cart := by
  rw [(openTested_tested items b).1]

theorem openTested_mapDue : mapWriteDue (openTested items b) m = mapWriteDue b m := by
  rw [(openTested_tested items b).1]
  rfl

theorem openTested_spinDue : spinDownDue (openTested items b) = spinDownDue b := by
  rw [(openTested_tested items b).1]
  rfl

theorem mapWriteTried_starts (starts : MapWriteStarts items b m) : mapWriteTried items b = startMapWrite b m 1 := by
  obtain ⟨carries, map, due⟩ := starts
  exact (if_pos (findItem_isSome_iff.2 carries)).trans (tryMapWrite_due map due)

theorem mapWriteTried_waits (waits : ∀ m, ¬ MapWriteStarts items b m) : mapWriteTried items b = b := by
  unfold mapWriteTried
  split
  · rename_i carries
    exact tryMapWrite_notDue fun m map due => waits m ⟨findItem_isSome_iff.1 carries, map, due⟩
  · rfl

theorem spinDownTried_asks (carries : Carries items 0x36) (due : spinDownDue b = true) :
    spinDownTried items b = askLife b .spinDown := if_pos (by rw [findItem_isSome_iff.2 carries, due]; rfl)

theorem spinDownTried_not (h : ¬ (Carries items 0x36 ∧ spinDownDue b = true)) : spinDownTried items b = b :=
  if_neg fun asks => h ((Bool.and_eq_true_iff.1 asks).imp_left findItem_isSome_iff.1)

/-- A write-back that starts takes a stamp, which stops the spin-down timer (log entry 7). -/
theorem startMapWrite_spinDue (b : Bridge) (m : HeldMap) (n : Nat) : ¬ spinDownDue (startMapWrite b m n) = true := by
  intro due
  obtain ⟨-, x, timer, -⟩ := spinDownDue_iff.1 due
  cases timer

theorem settingsAct_starts (starts : MapWriteStarts items b m) :
    settingsAct items b = startMapWrite (openTested items b) m 1 := by
  obtain ⟨carries, map, due⟩ := starts
  have starts : MapWriteStarts items (openTested items b) m :=
    ⟨carries, (congrArg DefectManager.map (openTested_dm items b)).trans map, openTested_mapDue.trans due⟩
  rw [settingsAct_eq, mapWriteTried_starts starts]
  exact spinDownTried_not fun asks => startMapWrite_spinDue _ _ _ asks.2

theorem settingsAct_waits (waits : ∀ m, ¬ MapWriteStarts items b m) :
    settingsAct items b = spinDownTried items (openTested items b) := by
  rw [settingsAct_eq, mapWriteTried_waits fun m ⟨carries, map, due⟩ => waits m
    ⟨carries, (congrArg DefectManager.map (openTested_dm items b)).symm.trans map, openTested_mapDue.symm.trans due⟩]

theorem settingsAct_asks (waits : ∀ m, ¬ MapWriteStarts items b m) (carries : Carries items 0x36)
    (due : spinDownDue b = true) : settingsAct items b = askLife (openTested items b) .spinDown := by
  rw [settingsAct_waits waits, spinDownTried_asks carries (openTested_spinDue.trans due)]

theorem settingsAct_not (waits : ∀ m, ¬ MapWriteStarts items b m) (h : ¬ (Carries items 0x36 ∧ spinDownDue b = true)) :
    settingsAct items b = openTested items b := by
  rw [settingsAct_waits waits, spinDownTried_not (by rw [openTested_spinDue]; exact h)]

/-- After the tests, only the map, the head and the cartridge record change. -/
theorem settingsAct_rest (items : List Item) (b : Bridge) : settingsAct items b = { openTested items b with
    dm := (settingsAct items b).dm, arb := (settingsAct items b).arb, cart := (settingsAct items b).cart } := by
  by_cases starts : ∃ m, MapWriteStarts items b m
  · obtain ⟨m, starts⟩ := starts
    rw [settingsAct_starts starts]
    rfl
  · rw [not_exists] at starts
    by_cases asks : Carries items 0x36 ∧ spinDownDue b = true
    · rw [settingsAct_asks starts asks.1 asks.2]
      rfl
    · rw [settingsAct_not starts asks]

theorem settingsAct_steady (items : List Item) (b : Bridge) : Steady b (settingsAct items b) := by
  have tested : Steady b (openTested items b) := by
    unfold openTested
    split
    · exact (testAllOpen_moves b).steady
    · exact .refl b
  have tried : ∀ c, Steady c (mapWriteTried items c) := fun c => by
    unfold mapWriteTried
    split
    · exact (tryMapWrite_moves c).steady
    · exact .refl c
  have asked : ∀ c, Steady c (spinDownTried items c) := fun c => by
    unfold spinDownTried
    split
    · exact (askLife_course c .spinDown).steady
    · exact .refl c
  exact (tested.trans (tried _)).trans (asked _)

theorem settingsAct_frame (items : List Item) (b : Bridge) : settingsAct items b = { b with
    pool := { b.pool with testDue := (settingsAct items b).pool.testDue }
    dm := (settingsAct items b).dm, arb := (settingsAct items b).arb, cart := (settingsAct items b).cart } := by
  rw [settingsAct_rest, (openTested_tested items b).1]

theorem mem_settingsAct_testDue {i : BufIdx} : i ∈ (settingsAct items b).pool.testDue
    ↔ i ∈ b.pool.testDue ∨ (Carries items 0x32 ∧ (b.buf i).state = .opened) := by
  rw [settingsAct_rest]
  exact (openTested_tested items b).2 i

theorem settingsAct_starts_parts (starts : MapWriteStarts items b m) :
    (settingsAct items b).dm.staging = snapshotSectors m.entries m.generation
    ∧ (settingsAct items b).dm.map = some { m with
        writeState := .saving, attempt := some 1, step := some ⟨.erase, false, b.arb.stamps, m.generation⟩ }
    ∧ (settingsAct items b).arb = { b.arb with stamps := b.arb.stamps + 1 }
    ∧ (settingsAct items b).cart = { b.cart with spinTimer := none } := by
  rw [settingsAct_starts starts, ← openTested_arb items b, ← openTested_cart items b]
  exact ⟨rfl, rfl, rfl, rfl⟩

theorem settingsAct_asks_parts (waits : ∀ m, ¬ MapWriteStarts items b m) (carries : Carries items 0x36)
    (due : spinDownDue b = true) :
    (settingsAct items b).arb
      = { b.arb with life := some .spinDown, lifeStamp := b.arb.stamps, stamps := b.arb.stamps + 1 }
    ∧ (settingsAct items b).cart = { b.cart with spinTimer := none } := by
  rw [settingsAct_asks waits carries due, ← openTested_arb items b, ← openTested_cart items b]
  exact ⟨rfl, rfl⟩

theorem settingsAct_waits_dm (waits : ∀ m, ¬ MapWriteStarts items b m) : (settingsAct items b).dm = b.dm := by
  rw [settingsAct_waits waits, ← openTested_dm items b]
  unfold spinDownTried
  split
  · rfl
  · rfl

/-- A job is made AGED with the new write-back delay (R108). -/
theorem settingsAct_aged {i : BufIdx} (carries : Carries items 0x32) (opened : (b.buf i).state = .opened)
    (aged : agingDue b (b.buf i) = true) :
    ∃ f, ((syncJob (settingsAct items b) i).buf i).flush = some f ∧ f.causes.aged = true := by
  have tested := openTested_tested items b
  have buf : (settingsAct items b).buf i = b.buf i := by
    rw [settingsAct_rest]
    exact tested.buf i
  have due : i ∈ (settingsAct items b).pool.testDue := mem_settingsAct_testDue.2 (.inr ⟨carries, opened⟩)
  have same : agingDue (settingsAct items b) (b.buf i) = agingDue b (b.buf i) := by
    rw [settingsAct_rest, tested.1]
    rfl
  exact syncJob_aged (by rw [buf]; exact opened) due (by rw [buf, same]; exact aged)

end Acts

/-! ### The command (R180, R181) -/

section Command
variable {s : State} {b : Bridge} {h : Header} {items : List Item}

theorem exec_setSettings_managed (m : Managed s.bridge h .setSettings items) : exec (.setSettings h items) s
    = .next (s.withBridge (finish (setSettings h items (managing s.bridge h .setSettings)))) :=
  exec_managed (setSettings h items) finish rfl m

theorem confirmedCount_managing (m : Managed b h .setSettings items) :
    confirmedCount (managing b h .setSettings) = confirmedCount b :=
  congrArg List.length (keysWhere_withEntry m.1.2 (by simp [newEntry, freshEntry]))

/-- The confirmed write limit carried is below the confirmed WRITEs in AWAIT_COMMIT. -/
def LimitTooLow (b : Bridge) (items : List Item) : Prop := ∃ v, itemNat items 0x39 = some v ∧ v < confirmedCount b

theorem limitTooLow_iff :
    ((itemNat items 0x39).any fun v => decide (v < confirmedCount b)) = true ↔ LimitTooLow b items := by
  simp [Option.any_eq_true, LimitTooLow]

theorem settingsRefusal_some {st : Status} (refused : (settingRangesOk items = false ∧ st = .outOfRange)
    ∨ (settingRangesOk items = true ∧ LimitTooLow b items ∧ st = .inUse)) : settingsRefusal b items = some st := by
  unfold settingsRefusal
  rcases refused with ⟨range, rfl⟩ | ⟨range, low, rfl⟩
  · rw [range]
    rfl
  · rw [range]
    exact if_pos (limitTooLow_iff.2 low)

theorem settingsRefusal_none (range : settingRangesOk items = true) (high : ¬ LimitTooLow b items) :
    settingsRefusal b items = none := by
  unfold settingsRefusal
  rw [range]
  exact if_neg (mt limitTooLow_iff.1 high)

/-- The request answered OK, and the settings as they then are. -/
def settingsApplied (b : Bridge) (h : Header) (items : List Item) : Bridge :=
  let answered := answeredAtOnce b h .setSettings (some .management) .ok .none
  { answered with mgmt := { answered.mgmt with settings := applySettingItems items b.mgmt.settings } }

theorem setSettings_refused {st : Status} (refused : settingsRefusal (managing b h .setSettings) items = some st) :
    setSettings h items (managing b h .setSettings)
      = answeredAtOnce b h .setSettings (some .management) st .none := by
  unfold setSettings
  rw [refused]
  exact answerStatus_managing ..

theorem setSettings_applied (taken : settingsRefusal (managing b h .setSettings) items = none) :
    setSettings h items (managing b h .setSettings) = settingsAct items (pruneAttention (settingsApplied b h items)) := by
  unfold setSettings
  rw [taken, answerStatus_managing]
  rfl

theorem settingsApplied_isAnswered (b : Bridge) (h : Header) (items : List Item) :
    IsAnswered (settingsApplied b h items) h.key .ok 0 .none :=
  (answeredAtOnce_isAnswered ..).congr rfl rfl

theorem finish_settings_steady (b : Bridge) (h : Header) (items : List Item) :
    Steady (settingsApplied b h items) (finish (settingsAct items (pruneAttention (settingsApplied b h items)))) :=
  ((pruneAttention_steady _).trans (settingsAct_steady items _)).trans (finish_course _).steady

end Command

/-- Settles O30: the checks by `settingsRefusal`; then `settingsAct` starts a map write-back, asks for a SPIN_DOWN, or does
neither. -/
theorem setSettingsAppliesAllOrNothing : Obligations.SetSettingsAppliesAllOrNothing := by
  unfold Obligations.SetSettingsAppliesAllOrNothing
  refine ⟨fun h items s m => ⟨fun st refused => ?_, fun range high => ?_⟩,
    fun b => ⟨pruneAttention_unset, fun o originator => ?_⟩, fun items b => ?_⟩
  · have run := exec_setSettings_managed m
    have count := confirmedCount_managing m
    rw [← count] at refused
    rw [setSettings_refused (settingsRefusal_some refused)] at run
    exact ⟨run, (answeredAtOnce_isAnswered ..).finish⟩
  · have run := exec_setSettings_managed m
    have count := confirmedCount_managing m
    rw [← count] at high
    rw [setSettings_applied (settingsRefusal_none range high)] at run
    have steady := finish_settings_steady s.bridge h items
    refine ⟨_, run, withBridge_pending .., ?_⟩
    rw [withBridge_bridge]
    exact ⟨(settingsApplied_isAnswered ..).steady steady, by rw [steady.mgmt]; rfl, steady.router,
      by rw [steady.mgmt]; rfl, by rw [steady.mgmt]; rfl, rfl⟩
  · rw [pruneAttention_set originator]
    refine ⟨fun silent => ?_, fun kept free => ?_⟩
    · exact attnTest_silent (b := withAttention b _) originator (silent.imp_right attnWaiting_iff.2)
    · exact attnTest_builds (b := withAttention b _) originator kept (mt attnWaiting_iff.1 free)
  · intro acted carries mapDue spinDue starts
    have waits : ¬ starts → ∀ m, ¬ MapWriteStarts items b m := fun none m ⟨carried, map, due⟩ =>
      none ⟨carried, m, map, mapWriteDue_iff.1 due⟩
    refine ⟨settingsAct_frame items b, fun i => mem_settingsAct_testDue, fun carried i x opened written due =>
      settingsAct_aged carried opened (agingDue_iff.2 ⟨x, written, due⟩), fun m carried map due => ?_,
      fun none => settingsAct_waits_dm (waits none), fun carried due none =>
      settingsAct_asks_parts (waits none) carried (spinDownDue_iff.2 due), fun idle none => ?_,
      fun ⟨carried, m, map, due⟩ => ?_⟩
    · obtain ⟨staging, saving, -⟩ := settingsAct_starts_parts ⟨carried, map, mapWriteDue_iff.2 due⟩
      exact ⟨staging, saving⟩
    · have same : acted = openTested items b :=
        settingsAct_not (waits none) fun asks => idle ⟨asks.1, spinDownDue_iff.1 asks.2⟩
      rw [same]
      exact ⟨openTested_arb items b, openTested_cart items b⟩
    · obtain ⟨-, -, arb, cart⟩ := settingsAct_starts_parts ⟨carried, map, mapWriteDue_iff.2 due⟩
      exact ⟨arb, cart⟩

end Sys2Proof.Machine
end


section
/-! PROOFS. The search for a spare (R127): the zones in the order of their distance, and the lowest free spare of each. -/

namespace Sys2Proof.Machine

/-! ### The spares of one zone -/

/-- A PSA is free in the map just when no entry names it. -/
theorem appears_eq_false_iff {m : List MapEntry} {p : Nat} : appears m p = false ↔ Fresh m p := by
  refine ⟨fresh_of_appears, fun fresh => List.any_eq_false.2 fun e he => ?_⟩
  obtain ⟨notDefective, notSpare⟩ := fresh e he
  simp [notDefective, notSpare]

/-- The PSA found is the lowest free one of the run, and none is found only in a run without one. -/
theorem firstFree_lowest {m : List MapEntry} : ∀ {k p q : Nat}, p ≤ q → q < p + k → Fresh m q →
    ∃ s, firstFree m k p = some s ∧ s ≤ q
  | 0, _, _, hle, hlt, _ => by omega
  | k + 1, p, q, hle, hlt, fresh => by
    rw [firstFree]
    split
    · rename_i named
      have hne : p ≠ q := by
        rintro rfl
        rw [appears_eq_false_iff.2 fresh] at named
        cases named
      exact firstFree_lowest (by omega) (by omega) fresh
    · exact ⟨p, rfl, hle⟩

/-- A spare of a zone that no entry of the map names (R1, R127). -/
def FreeIn (m : List MapEntry) (z : ZoneEntry) (p : Nat) : Prop :=
  z.first + zoneUser z ≤ p ∧ p < z.first + zoneSize z ∧ Fresh m p

theorem freeSpareOf_free {m : List MapEntry} {z : ZoneEntry} {s : Nat} (h : freeSpareOf m z = some s) : FreeIn m z s := by
  obtain ⟨hle, hlt, free⟩ := firstFree_spec h
  exact ⟨hle, by omega, fresh_of_appears free⟩

theorem freeSpareOf_lowest {m : List MapEntry} {z : ZoneEntry} {p : Nat} (h : FreeIn m z p) :
    ∃ s, freeSpareOf m z = some s ∧ s ≤ p := by
  obtain ⟨hle, hlt, fresh⟩ := h
  exact firstFree_lowest hle (by omega) fresh

/-! ### The order of the zones -/

/-- The distance between the numbers of two zones. -/
def zoneDistance (z k : Nat) : Nat := (k - z) + (z - k)

/-- Zone `k` is searched before zone `k'`: it is nearer to zone `z`, or as near and lower-numbered (R127). -/
def SearchedBefore (z k k' : Nat) : Prop :=
  zoneDistance z k < zoneDistance z k' ∨ (zoneDistance z k = zoneDistance z k' ∧ k < k')

/-- The zones at distance `d` from zone `z` of `n`, the lower number first. -/
def zonesAt (n z d : Nat) : List Nat :=
  (if d ≤ z then [z - d] else []) ++ if z + d < n then [z + d] else []

theorem spareZoneOrder_eq (n z : Nat) : spareZoneOrder n z = z :: (List.range n).flatMap fun d => zonesAt n z (d + 1) := rfl

theorem mem_zonesAt {n z d k : Nat} : k ∈ zonesAt n z d ↔ (d ≤ z ∧ k = z - d) ∨ (z + d < n ∧ k = z + d) := by
  simp [zonesAt]

theorem zoneDistance_of_mem_zonesAt {n z d k : Nat} (h : k ∈ zonesAt n z d) : zoneDistance z k = d := by
  unfold zoneDistance
  rcases mem_zonesAt.1 h with ⟨_, rfl⟩ | ⟨_, rfl⟩ <;> omega

theorem zonesAt_pairwise (n z d : Nat) : (zonesAt n z (d + 1)).Pairwise (SearchedBefore z) := by
  have apart : SearchedBefore z (z - (d + 1)) (z + (d + 1)) ∨ z < d + 1 := by
    unfold SearchedBefore zoneDistance
    omega
  unfold zonesAt
  split
  · split
    · exact List.pairwise_pair.2 (apart.resolve_right (by omega))
    · exact List.pairwise_singleton ..
  · split
    · exact List.pairwise_singleton ..
    · exact List.Pairwise.nil

theorem spareZoneOrder_pairwise (n z : Nat) : (spareZoneOrder n z).Pairwise (SearchedBefore z) := by
  rw [spareZoneOrder_eq, List.pairwise_cons, List.pairwise_flatMap]
  refine ⟨fun k hk => ?_, fun d _ => zonesAt_pairwise n z d, List.pairwise_lt_range.imp fun hlt k hk k' hk' => .inl ?_⟩
  · obtain ⟨d, -, hk⟩ := List.mem_flatMap.1 hk
    refine .inl ?_
    rw [zoneDistance_of_mem_zonesAt hk]
    simp [zoneDistance]
  · rw [zoneDistance_of_mem_zonesAt hk, zoneDistance_of_mem_zonesAt hk']
    omega

/-- Every zone of the layout is searched. -/
theorem mem_spareZoneOrder {n z k : Nat} (hz : z < n) (hk : k < n) : k ∈ spareZoneOrder n z := by
  rw [spareZoneOrder_eq, List.mem_cons, List.mem_flatMap]
  rcases Nat.lt_trichotomy k z with below | rfl | above
  · exact .inr ⟨z - k - 1, List.mem_range.2 (by omega), mem_zonesAt.2 (.inl (by omega))⟩
  · exact .inl rfl
  · exact .inr ⟨k - z - 1, List.mem_range.2 (by omega), mem_zonesAt.2 (.inr (by omega))⟩

theorem zoneOfIn_lt : ∀ {zs : List ZoneEntry} {k p z : Nat}, zoneOfIn zs k p = some z → z < k + zs.length
  | [], _, _, _, h => by cases h
  | z0 :: zs, k, p, z, h => by
    rw [zoneOfIn] at h
    rw [List.length_cons]
    split at h
    · cases h
      omega
    · have := zoneOfIn_lt h
      omega

theorem zoneOf_lt {l : Label} {p z : Nat} (h : zoneOf l p = some z) : z < l.zones.length := by
  have := zoneOfIn_lt h
  omega

/-! ### The search -/

section Search
variable {l : Label} {m : List MapEntry} {u z : Nat}

/-- A free spare of the zone with a number (R127). -/
def FreeSpare (l : Label) (m : List MapEntry) (k p : Nat) : Prop := ∃ e, l.zones[k]? = some e ∧ FreeIn m e p

/-- The lowest free spare of the zone with a number, where the search comes to it. -/
def spareOfZone (l : Label) (m : List MapEntry) (k : Nat) : Option Nat := l.zones[k]?.bind (freeSpareOf m)

theorem findSpare_eq (hz : zoneOf l u = some z) :
    findSpare l m u = (spareZoneOrder l.zones.length z).findSome? (spareOfZone l m) := by
  rw [findSpare, hz]
  rfl

theorem spareOfZone_free {k s : Nat} (h : spareOfZone l m k = some s) : FreeSpare l m k s := by
  obtain ⟨e, zone, found⟩ := Option.bind_eq_some_iff.1 h
  exact ⟨e, zone, freeSpareOf_free found⟩

theorem spareOfZone_lowest {k p : Nat} (h : FreeSpare l m k p) : ∃ s, spareOfZone l m k = some s ∧ s ≤ p := by
  obtain ⟨e, zone, free⟩ := h
  obtain ⟨s, found, hle⟩ := freeSpareOf_lowest free
  exact ⟨s, Option.bind_eq_some_iff.2 ⟨e, zone, found⟩, hle⟩

theorem FreeSpare.mem_order {k p : Nat} (h : FreeSpare l m k p) (hz : zoneOf l u = some z) :
    k ∈ spareZoneOrder l.zones.length z := by
  obtain ⟨e, zone, -⟩ := h
  exact mem_spareZoneOrder (zoneOf_lt hz) (List.getElem?_eq_some_iff.1 zone).1

/-- The spare found is the lowest free one of its zone, and no zone searched before has a free one. -/
theorem findSpare_nearest {s : Nat} (hz : zoneOf l u = some z) (h : findSpare l m u = some s) :
    ∃ k, FreeSpare l m k s ∧ (∀ p, FreeSpare l m k p → s ≤ p)
      ∧ ∀ k' p, FreeSpare l m k' p → k' = k ∨ SearchedBefore z k k' := by
  rw [findSpare_eq hz] at h
  obtain ⟨before, k, after, order, found, none_before⟩ := List.findSome?_eq_some_iff.1 h
  have sorted := spareZoneOrder_pairwise l.zones.length z
  rw [order, List.pairwise_append, List.pairwise_cons] at sorted
  obtain ⟨-, ⟨follow, -⟩, -⟩ := sorted
  refine ⟨k, spareOfZone_free found, fun p free => ?_, fun k' p free => ?_⟩
  · obtain ⟨s', found', hle⟩ := spareOfZone_lowest free
    rw [found] at found'
    cases found'
    exact hle
  · obtain ⟨s', found', -⟩ := spareOfZone_lowest free
    have searched := free.mem_order hz
    rw [order, List.mem_append, List.mem_cons] at searched
    rcases searched with passed | here | later
    · rw [none_before k' passed] at found'
      cases found'
    · exact .inl here
    · exact .inr (follow k' later)

theorem findSpare_eq_none_iff (hz : zoneOf l u = some z) :
    findSpare l m u = none ↔ ∀ k p, ¬ FreeSpare l m k p := by
  rw [findSpare_eq hz, List.findSome?_eq_none_iff]
  refine ⟨fun none_found k p free => ?_, fun no_free k _ => ?_⟩
  · obtain ⟨s, found, -⟩ := spareOfZone_lowest free
    rw [none_found k (free.mem_order hz)] at found
    cases found
  · exact Option.eq_none_iff_forall_ne_some.2 fun s found => no_free k s (spareOfZone_free found)

end Search

/-- Settles O51: the order of the zones is sorted by distance and number, and the search stops at the first with a free
spare. -/
theorem spareSearchFollowsTheZones : Obligations.SpareSearchFollowsTheZones := by
  unfold Obligations.SpareSearchFollowsTheZones
  intro l m u z hz free dist
  refine ⟨fun s found => ?_, findSpare_eq_none_iff hz⟩
  obtain ⟨k, here, lowest, nearest⟩ := findSpare_nearest hz found
  refine ⟨k, here, lowest, fun k' p other => ?_⟩
  rcases nearest k' p other with rfl | nearer | ⟨same, lower⟩
  · exact .inr ⟨rfl, Nat.le_refl _⟩
  · exact .inl nearer
  · exact .inr ⟨same, Nat.le_of_lt lower⟩

end Sys2Proof.Machine
end


section
/-! PROOFS. What a grant and a mark as LOST make of the entries of a lawful map, and so of its translations (R12, R129,
R130). -/

namespace Sys2Proof.Machine

/-! ### The entries after an insertion and a replacement -/

theorem mem_insertEntry {n e : MapEntry} {m : List MapEntry} : e ∈ insertEntry n m ↔ e = n ∨ e ∈ m :=
  (insertEntry_perm n m).mem_iff.trans List.mem_cons

theorem mem_replaceEntry {m : List MapEntry} {n e : MapEntry} (stands : ∃ x ∈ m, x.defective = n.defective) :
    e ∈ replaceEntry n m ↔ e = n ∨ (e ∈ m ∧ e.defective ≠ n.defective) := by
  obtain ⟨x, hx, same⟩ := stands
  unfold replaceEntry
  rw [List.mem_map]
  constructor
  · rintro ⟨y, hy, rfl⟩
    by_cases hyn : y.defective = n.defective
    · exact .inl (if_pos (beq_iff_eq.2 hyn))
    · rw [if_neg (by simpa using hyn)]
      exact .inr ⟨hy, hyn⟩
  · rintro (rfl | ⟨he, hne⟩)
    · exact ⟨x, hx, if_pos (beq_iff_eq.2 same)⟩
    · exact ⟨e, he, if_neg (by simpa using hne)⟩

/-! ### The entries after a change of one PSA -/

section Change
variable {m m' : List MapEntry} {u : Nat} {e n : MapEntry} {o : Origin}

/-- The spare that a PSA has in the map. -/
def HadSpare (m : List MapEntry) (u s0 : Nat) : Prop := ∃ x ∈ m, x.defective = u ∧ x.spare = some s0

/-- A RETIRED entry of the spare that a PSA has in the map (R129, R130). -/
def RetiredOf (m : List MapEntry) (u : Nat) (e : MapEntry) : Prop := ∃ s0, HadSpare m u s0 ∧ e = ⟨s0, none, .retired⟩

theorem not_retiredOf_of_noEntry (h : ∀ e ∈ m, e.defective ≠ u) : ¬ RetiredOf m u e := by
  rintro ⟨s0, ⟨x, hx, hu, -⟩, -⟩
  exact h x hx hu

/-- In a lawful map the entry found is the one that decides the spare a PSA has. -/
theorem retiredOf_iff {x : MapEntry} (laws : mapLaws m = true) (found : entryOf m u = some x) :
    RetiredOf m u e ↔ ∃ s0, x.spare = some s0 ∧ e = ⟨s0, none, .retired⟩ := by
  obtain ⟨hu, hx⟩ := entryOf_defective found
  constructor
  · rintro ⟨s0, ⟨y, hy, rfl, hs⟩, rfl⟩
    rw [entryOf_eq laws hy] at found
    cases found
    exact ⟨s0, hs, rfl⟩
  · rintro ⟨s0, hs, rfl⟩
    exact ⟨s0, ⟨x, hx, hu, hs⟩, rfl⟩

theorem retiredOf_spare {x : MapEntry} {s0 : Nat} (laws : mapLaws m = true) (found : entryOf m u = some x)
    (hs : x.spare = some s0) : RetiredOf m u e ↔ e = ⟨s0, none, .retired⟩ := by
  rw [retiredOf_iff laws found, hs]
  simp

theorem not_retiredOf {x : MapEntry} (laws : mapLaws m = true) (found : entryOf m u = some x) (hs : x.spare = none) :
    ¬ RetiredOf m u e := by
  rw [retiredOf_iff laws found, hs]
  simp

/-- A replacement of the entry of `u`, in a map that has one. -/
theorem mem_replaceEntry_found {x : MapEntry} (found : entryOf m u = some x) (hn : n.defective = u) :
    e ∈ replaceEntry n m ↔ e = n ∨ (e ∈ m ∧ e.defective ≠ u) := by
  obtain ⟨hu, hx⟩ := entryOf_defective found
  rw [mem_replaceEntry ⟨x, hx, hu.trans hn.symm⟩, hn]

/-- An insertion of the entry of `u`, in a map that has none. -/
theorem mem_insertEntry_absent (absent : entryOf m u = none) :
    e ∈ insertEntry n m ↔ e = n ∨ (e ∈ m ∧ e.defective ≠ u) := by
  rw [mem_insertEntry]
  exact or_congr_right (iff_self_and.2 (entryOf_none absent e))

theorem mem_grantEntries {s : Nat} (laws : mapLaws m = true) : e ∈ grantEntries m u s o ↔
    e = ⟨u, some s, o⟩ ∨ (e ∈ m ∧ e.defective ≠ u) ∨ RetiredOf m u e := by
  unfold grantEntries
  cases found : entryOf m u with
  | none =>
    dsimp only
    rw [mem_insertEntry_absent found, or_iff_left (not_retiredOf_of_noEntry (entryOf_none found))]
  | some x =>
    dsimp only
    cases hs : x.spare with
    | none =>
      dsimp only
      rw [mem_replaceEntry_found found rfl, or_iff_left (not_retiredOf laws found hs)]
    | some s0 =>
      dsimp only
      rw [mem_insertEntry, mem_replaceEntry_found found rfl, retiredOf_spare laws found hs, or_comm, or_assoc]

theorem mem_lostEntries (laws : mapLaws m = true) (h : lostEntries m u = some m') : e ∈ m' ↔
    e = ⟨u, none, .lost⟩ ∨ (e ∈ m ∧ e.defective ≠ u) ∨ (m.length < 1024 ∧ RetiredOf m u e) := by
  unfold lostEntries at h
  dsimp only at h
  cases found : entryOf m u with
  | none =>
    rw [found] at h
    dsimp only at h
    split at h
    · cases h
      have noneRetired : ¬ (m.length < 1024 ∧ RetiredOf m u e) :=
        fun retired => not_retiredOf_of_noEntry (entryOf_none found) retired.2
      rw [mem_insertEntry_absent found, or_iff_left noneRetired]
    · cases h
  | some x =>
    rw [found] at h
    dsimp only at h
    cases hs : x.spare with
    | none =>
      rw [hs] at h
      cases h
    | some s0 =>
      rw [hs] at h
      obtain rfl := Option.some.inj h
      rw [retiredOf_spare laws found hs]
      split
      · rename_i room
        rw [mem_insertEntry, mem_replaceEntry_found found rfl, and_iff_right (of_decide_eq_true room), or_comm, or_assoc]
      · rename_i full
        have noneRetired : ¬ (m.length < 1024 ∧ e = ⟨s0, none, .retired⟩) := fun room => full (decide_eq_true room.1)
        rw [mem_replaceEntry_found found rfl, or_iff_left noneRetired]

/-! ### The translations -/

/-- A lawful map translates a PSA by its entries of that PSA, wherever they stand. -/
theorem translatePsa_congr {p : Nat} (laws' : mapLaws m' = true)
    (same : ∀ e, e.defective = p → (e ∈ m' ↔ e ∈ m)) : translatePsa m' p = translatePsa m p := by
  have found : entryOf m' p = entryOf m p := by
    cases h : entryOf m p with
    | none => exact List.find?_eq_none.2 fun e he hp =>
        entryOf_none h e ((same e (beq_iff_eq.1 hp)).1 he) (beq_iff_eq.1 hp)
    | some x =>
      obtain ⟨rfl, hx⟩ := entryOf_defective h
      exact entryOf_eq laws' ((same x rfl).2 hx)
  rw [translatePsa, translatePsa, found]

/-- A change of the entry of `u` leaves every PSA that is not `u` and no spare where it was. -/
theorem translatePsa_elsewhere {p : Nat} {P : Prop} (laws' : mapLaws m' = true)
    (hn : n.defective = u) (entries : ∀ e, e ∈ m' ↔ e = n ∨ (e ∈ m ∧ e.defective ≠ u) ∨ (P ∧ RetiredOf m u e))
    (hp : p ≠ u) (noSpare : ∀ e ∈ m, e.spare ≠ some p) : translatePsa m' p = translatePsa m p := by
  refine translatePsa_congr laws' fun e he => (entries e).trans ⟨?_, fun stood => .inr (.inl ⟨stood, by rwa [he]⟩)⟩
  rintro (rfl | ⟨stood, -⟩ | ⟨-, s0, ⟨x, hx, -, hs⟩, rfl⟩)
  · exact absurd (he.symm.trans hn) hp
  · exact stood
  · exact absurd (hs.trans (congrArg some he)) (noSpare x hx)

/-- The three answers of a translation tell whether the map has an entry of the PSA, and with which spare (R15). -/
theorem translatePsa_eq_lost_iff : translatePsa m u = .lost ↔ ∃ x, entryOf m u = some x ∧ x.spare = none := by
  unfold translatePsa
  cases entryOf m u with
  | none => simp
  | some x => cases hs : x.spare <;> simp [hs]

theorem translatePsa_eq_home_iff : translatePsa m u = .home u ↔ entryOf m u = none := by
  unfold translatePsa
  cases entryOf m u with
  | none => simp
  | some x => cases hs : x.spare <;> simp [hs]

/-- A mark changes nothing just where the PSA is LOST already, or has no entry and finds no room for one (R130). -/
theorem lostEntries_eq_none_iff : lostEntries m u = none ↔
    translatePsa m u = .lost ∨ (translatePsa m u = .home u ∧ 1024 ≤ m.length) := by
  rw [translatePsa_eq_lost_iff, translatePsa_eq_home_iff]
  unfold lostEntries
  cases entryOf m u with
  | none => simp
  | some x => cases hs : x.spare <;> simp [hs]

end Change

/-- Settles O52: the laws by `grantEntries_lawful` and `lostEntries_lawful`, the entries by cases on the one that stood,
and the translations because a lawful map translates by its entries. -/
theorem grantsAndMarksChangeOneTranslation : Obligations.GrantsAndMarksChangeOneTranslation := by
  unfold Obligations.GrantsAndMarksChangeOneTranslation
  intro m u laws notSpare had
  refine ⟨fun s o free apart origin room => ?_, fun m' marked => ?_, lostEntries_eq_none_iff⟩
  · have laws' := (grantEntries_lawful laws origin (fresh_of_appears free) notSpare apart room).1
    have entries := fun e => mem_grantEntries (e := e) (u := u) (s := s) (o := o) laws
    exact ⟨laws', translatePsa_spare (e := ⟨u, some s, o⟩) laws' ((entries _).2 (.inl rfl)) rfl, entries,
      fun p => translatePsa_elsewhere (n := ⟨u, some s, o⟩) (P := True) laws' rfl
        fun e => (entries e).trans (by rw [true_and])⟩
  · have laws' := (lostEntries_lawful laws notSpare marked).1
    have entries := fun e => mem_lostEntries (e := e) laws marked
    exact ⟨laws', translatePsa_lost (e := ⟨u, none, .lost⟩) laws' ((entries _).2 (.inl rfl)) rfl, entries,
      fun p => translatePsa_elsewhere (n := ⟨u, none, .lost⟩) laws' rfl entries⟩

end Sys2Proof.Machine
end


section
/-! PROOFS. The end of a map write-back step (R134 to R136): what its four outcomes come to, and what follows. -/

namespace Sys2Proof.Machine

/-! ### The outcomes of a step (R134) -/

/-- A map sector's outcome is good: GOOD, and for a VERIFY with the data that the staging area holds (log entries 21, 35). -/
def GoodMapSector (pass : MapPass) (staged : SectorData) (o : SectorOutcome) : Prop :=
  ∃ d, o = .good d ∧ (pass = .verify → asMapSector (d.getD Config.absentData) = asMapSector staged)

theorem mapSectorGood_iff {pass : MapPass} {staged : SectorData} {o : SectorOutcome} :
    mapSectorGood pass staged o = true ↔ GoodMapSector pass staged o := by
  unfold GoodMapSector
  cases o with
  | good d => cases pass <;> simp [mapSectorGood]
  | noId | dataError | writeFault => simp [mapSectorGood]

/-- No sector failed. -/
theorem firstMapFailure_eq_none {pass : MapPass} : ∀ {n psa : Nat} {staged : Fin n → SectorData}
    {o : Fin n → SectorOutcome}, (∀ k, GoodMapSector pass (staged k) (o k)) →
    firstMapFailure pass psa (List.ofFn staged) (List.ofFn o) = none
  | 0, _, _, _, _ => by simp [firstMapFailure]
  | n + 1, psa, staged, o, good => by
    rw [List.ofFn_succ, List.ofFn_succ, firstMapFailure, if_pos (mapSectorGood_iff.2 (good 0))]
    exact firstMapFailure_eq_none fun k => good k.succ

/-- The failure reported is that of the first sector that is not good. -/
theorem firstMapFailure_eq_some {pass : MapPass} : ∀ {n psa : Nat} {staged : Fin n → SectorData}
    {o : Fin n → SectorOutcome} {k : Fin n}, ¬ GoodMapSector pass (staged k) (o k) →
    (∀ j, j < k → GoodMapSector pass (staged j) (o j)) →
    firstMapFailure pass psa (List.ofFn staged) (List.ofFn o) = some (psa + k.val)
  | n + 1, psa, staged, o, k, bad, before => by
    rw [List.ofFn_succ, List.ofFn_succ, firstMapFailure]
    induction k using Fin.cases with
    | zero => exact if_neg fun good => bad (mapSectorGood_iff.1 good)
    | succ k =>
      rw [if_pos (mapSectorGood_iff.2 (before 0 k.succ_pos)),
        firstMapFailure_eq_some (staged := fun i => staged i.succ) (o := fun i => o i.succ) bad
          fun j hj => before j.succ (Fin.succ_lt_succ_iff.2 hj),
        Fin.val_succ, Nat.add_assoc, Nat.add_comm 1]

theorem staging_toList (v : Vector SectorData 4) : v.toList = List.ofFn fun k : Fin 4 => v[k] := by
  refine List.ext_getElem (by simp) fun k h h' => ?_
  rw [List.getElem_ofFn, Vector.getElem_toList, Fin.getElem_fin]

/-! ### What follows the outcomes (R134 to R136) -/

section Step
variable {b : Bridge} {m : HeldMap} {st : MapStep} {o : Fin 4 → SectorOutcome}

/-- The next step of the attempt, with its order pending under a new stamp (R134). -/
def mapStepNext (b : Bridge) (m : HeldMap) (st : MapStep) (pass : MapPass) : Bridge :=
  takeStamp (putMap b { m with step := some { st with pass, inFlight := false, stamp := b.arb.stamps } })

/-- What a step whose outcomes are all good leads to. -/
theorem mapStepEnded_good (held : b.dm.map = some m) (step : m.step = some st)
    (good : ∀ k : Fin 4, GoodMapSector st.pass b.dm.staging[k] (o k)) :
    let t := mapStepEnded b [o 0, o 1, o 2, o 3]
    (st.pass = .erase → t = mapStepNext b m st .write) ∧ (st.pass = .write → t = mapStepNext b m st .verify)
      ∧ (st.pass = .verify → t = mapSaved b m st) := by
  have noneFailed : firstMapFailure st.pass 1 b.dm.staging.toList [o 0, o 1, o 2, o 3] = none := by
    rw [staging_toList]
    exact firstMapFailure_eq_none (o := o) good
  refine ⟨fun pass => ?_, fun pass => ?_, fun pass => ?_⟩
  all_goals
    rw [pass] at noneFailed
    simp only [mapStepEnded, held, step, pass, noneFailed, mapStepNext]

theorem mapStepEnded_failed (held : b.dm.map = some m) (step : m.step = some st) {k : Fin 4}
    (bad : ¬ GoodMapSector st.pass b.dm.staging[k] (o k))
    (before : ∀ j : Fin 4, j < k → GoodMapSector st.pass b.dm.staging[j] (o j)) :
    mapStepEnded b [o 0, o 1, o 2, o 3] = mapAttemptFailed b m (k.val + 1) := by
  have first : firstMapFailure st.pass 1 b.dm.staging.toList [o 0, o 1, o 2, o 3] = some (k.val + 1) := by
    rw [staging_toList, Nat.add_comm]
    exact firstMapFailure_eq_some (o := o) bad before
  simp only [mapStepEnded, held, step, first]

/-! ### A good VERIFY (R135) -/

/-- The map once the snapshot of a write-back is the saved generation (R135). -/
def HeldMap.savedAt (m : HeldMap) (st : MapStep) (w : MapWriteState) : HeldMap :=
  { m with saved := st.generation, attempt := none, step := none, writeState := w }

theorem mapSaved_clean (same : m.generation = st.generation) : mapSaved b m st = putMap b (m.savedAt st .clean) := by
  rw [mapSaved, if_pos same]
  refine tryMapWrite_notDue fun m' held due => ?_
  cases held
  exact absurd (mapWriteDue_iff.1 due).1 (by simp)

theorem mapSaved_changed (changed : m.generation ≠ st.generation) :
    mapSaved b m st = tryMapWrite (putMap b (m.savedAt st .dirty)) := by
  rw [mapSaved, if_neg changed]
  rfl

/-- The next write-back may start from the map that changed since its snapshot (R133). -/
theorem savedAt_due : mapWriteDue (putMap b (m.savedAt st .dirty)) (m.savedAt st .dirty) = true ↔
    b.cart.state = .quiescing ∨ (b.cart.state = .ready
      ∧ ∀ x, m.lastChange = some x → b.mgmt.settings.mapWriteDelay ≤ elapsed b.clock x) := by
  rw [mapWriteDue_iff]
  exact and_iff_right rfl

theorem mapSaved_mgmt : (mapSaved b m st).mgmt = b.mgmt := by
  obtain ⟨-, -, -, mgmt, -⟩ := tryMapWrite_rest (putMap b { m with
    saved := st.generation, attempt := none, step := none,
    writeState := if m.generation = st.generation then .clean else .dirty })
  exact mgmt

/-! ### A failed attempt (R136, R145) -/

theorem mapAttemptFailed_first (h : m.attempt = some 1) (psa : Nat) : mapAttemptFailed b m psa = startMapWrite b m 2 :=
  if_pos h

/-- The second attempt failed: what the record of it is added to. -/
theorem mapAttemptFailed_second (h : m.attempt = some 2) (psa : Nat) : mapAttemptFailed b m psa =
    record (lockWrites (putMap b { m with writeState := .unsavable, attempt := none, step := none }))
      { kind := .mapWriteFailed, time := b.clock, psa := some psa, retries := some 2 } :=
  if_neg (by simp [h])

theorem lockWrites_cart (b : Bridge) : (lockWrites b).cart = { b.cart with
    writeState := if b.cart.writeState = some .writable then some .writeLocked else b.cart.writeState } := by
  rw [← lockWrites_writeState]
  unfold lockWrites
  split <;> rfl

theorem lockWrites_dm (b : Bridge) : (lockWrites b).dm = b.dm := by
  unfold lockWrites
  split <;> rfl

end Step

/-- Settles O54: by whether every outcome is good, and then by the step that ended, or by the attempt that failed. -/
theorem mapWriteBackGoesByItsSteps : Obligations.MapWriteBackGoesByItsSteps := by
  unfold Obligations.MapWriteBackGoesByItsSteps
  intro b m st o held step t good next started saved due
  refine ⟨fun allGood => ?_, fun k bad before => ?_⟩
  · obtain ⟨erased, written, verified⟩ := mapStepEnded_good held step allGood
    refine ⟨fun pass => ?_, fun pass => ?_, fun pass => ?_⟩
    · simp only [next, t, erased pass]
      exact ⟨rfl, rfl⟩
    · simp only [next, t, written pass]
      exact ⟨rfl, rfl⟩
    · have ended : t = mapSaved b m st := verified pass
      refine ⟨fun same => ?_, fun changed early => ?_, fun changed now => ?_, ?_⟩
      · rw [ended, mapSaved_clean same]
        rfl
      · rw [ended, mapSaved_changed changed, tryMapWrite_dm _ rfl, if_neg (mt savedAt_due.1 early)]
        rfl
      · have starts : t = startMapWrite (putMap b (m.savedAt st .dirty)) (m.savedAt st .dirty) 1 := by
          rw [ended, mapSaved_changed changed, tryMapWrite_due rfl (savedAt_due.2 now)]
        simp only [started, starts]
        exact ⟨rfl, rfl⟩
      · rw [ended, mapSaved_mgmt]
  · have ended : t = mapAttemptFailed b m (k.val + 1) := mapStepEnded_failed held step bad before
    refine ⟨fun first => ?_, fun second => ?_⟩
    · rw [mapAttemptFailed_first first] at ended
      simp only [started, ended]
      exact ⟨⟨rfl, rfl⟩, rfl⟩
    · rw [mapAttemptFailed_second second] at ended
      refine ⟨?_, ?_, fun room => ?_⟩
      · rw [ended, record_dm, lockWrites_dm]
        rfl
      · rw [ended, record_cart, lockWrites_cart]
        rfl
      · have room' : (lockWrites (putMap b { m with writeState := .unsavable, attempt := none, step := none
            })).mgmt.exceptions.length < 32 := by
          rw [lockWrites_mgmt]
          exact room
        rw [ended, record_exceptions _ room', lockWrites_mgmt]
        rfl

end Sys2Proof.Machine
end


section
/-! PROOFS. The reports of the defect map and of the exceptions (R139, R183, R184). -/

namespace Sys2Proof.Machine

/-! ### The items of the defect report (R139, R184) -/

theorem optItem_eq_match (code n : Nat) (v : Option Nat) :
    optItem code n v = match v with | none => [] | some x => [numItem code n x] := by
  cases v <;> rfl

/-- The write state of the map as it is reported. -/
theorem numItem_mapWriteState (w : MapWriteState) : numItem 0x93 1 w.code
    = ⟨0x93, [match w with | .clean => 0 | .dirty => 1 | .saving => 2 | .unsavable => 3]⟩ := by
  cases w <;> rfl

theorem numItem_originCode (o : Origin) : numItem 4 1 (originCode o)
    = ⟨4, [match o with | .factory => 0 | .verify => 1 | .relocate => 2 | .retired => 3 | .lost => 4]⟩ := by
  cases o <;> rfl

theorem defectItems_none {b : Bridge} (noMap : b.dm.map = none) (first : Nat) :
    defectItems b first = [numItem 0x90 2 first] := by
  rw [defectItems, noMap]

theorem defectItems_some {b : Bridge} {m : HeldMap} (held : b.dm.map = some m) (first : Nat) :
    defectItems b first =
      [numItem 0x90 2 first, numItem 0x91 4 m.generation.toNat, numItem 0x92 4 m.saved.toNat,
        numItem 0x93 1 m.writeState.code] ++ optItem 0x94 1 m.attempt ++ [numItem 0x95 2 m.entries.length]
      ++ ((m.entries.drop first).take 256).zipIdx.map fun p => defectItem b.cart.layout (first + p.2) p.1 := by
  rw [defectItems, held]
  rfl

/-! ### The commands -/

section Commands
variable {h : Header} {items : List Item} {s : State}

theorem readDefects_beyond {b : Bridge} {op : Op} (beyond : 1023 < (itemNat items 0x90).getD 0) :
    readDefects h items (managing b h op) = answeredAtOnce b h op (some .management) .outOfRange .none :=
  (if_pos beyond).trans (answerStatus_managing ..)

theorem readDefects_reported {b : Bridge} {op : Op} (within : (itemNat items 0x90).getD 0 ≤ 1023) :
    readDefects h items (managing b h op) = answeredAtOnce b h op (some .management) .ok
      (.items (defectItems b ((itemNat items 0x90).getD 0))) :=
  (if_neg (Nat.not_lt.2 within)).trans (answerItems_withEntry ..)

theorem exec_readDefects_managed (m : Managed s.bridge h .readDefects items) : exec (.readDefects h items) s
    = .next (s.withBridge (pump (readDefects h items (managing s.bridge h .readDefects)))) :=
  exec_managed (readDefects h items) pump rfl m

/-- The bridge once the oldest exception records, up to 8, are removed and the overflow count is 0 (R183). -/
def exceptionsRead (b : Bridge) : Bridge :=
  { b with mgmt := { b.mgmt with exceptions := b.mgmt.exceptions.drop 8, overflow := 0 } }

theorem readExceptions_reported {b : Bridge} {op : Op} : readExceptions h (managing b h op)
    = answeredAtOnce (exceptionsRead b) h op (some .management) .ok (.items (exceptionItems b)) :=
  answerItems_withEntry (exceptionsRead b) h op (some .management) (exceptionItems b)

theorem exec_readExceptions_managed (m : Managed s.bridge h .readExceptions []) : exec (.readExceptions h []) s
    = .next (s.withBridge (pump (readExceptions h (managing s.bridge h .readExceptions)))) :=
  exec_managed (readExceptions h) pump rfl m

theorem exceptionItems_eq (b : Bridge) : exceptionItems b =
    [numItem 0xA0 1 b.mgmt.overflow, numItem 0xA1 1 (b.mgmt.exceptions.length - 8)]
      ++ (b.mgmt.exceptions.take 8).map exceptionItem := by
  rw [exceptionItems, List.length_drop]

end Commands

/-- Settles O27: READ_DEFECTS by its first index, the report item by item, and READ_EXCEPTIONS as one answer. -/
theorem defectsAndExceptionsAreReported : Obligations.DefectsAndExceptionsAreReported := by
  unfold Obligations.DefectsAndExceptionsAreReported
  refine ⟨fun h items s managed => ⟨fun beyond => ?_, fun within => ?_⟩,
    fun b first => ⟨fun noMap => defectItems_none noMap first, fun m held => ?_⟩, fun h s managed => ⟨?_, ?_⟩⟩
  · rw [exec_readDefects_managed managed, readDefects_beyond beyond]
  · rw [exec_readDefects_managed managed, readDefects_reported within]
  · rw [defectItems_some held, numItem_mapWriteState, optItem_eq_match]
    simp only [defectItem, optItem_eq_match, numItem_originCode] <;> rfl
  · rw [exec_readExceptions_managed managed, readExceptions_reported, exceptionItems_eq]
    rfl
  · exact (answeredAtOnce_isAnswered ..).pump

end Sys2Proof.Machine
end

section
/-! PROOFS. EJECT and EJECT_BUTTON (R147 to R149, R151): the request is turned away, waits, begins a quiesce, or enters
EJECTING, by the state of the cartridge. -/

namespace Sys2Proof.Machine

/-! ### The jobs when a quiesce begins (R106, R123, R148) -/

/-- The record of a buffer whose job gains QUIESCE (R123). -/
def Buffer.quiesced (x : Buffer) : Buffer :=
  { x with flush := x.flush.map fun f => { f with causes := { f.causes with quiesce := true } } }

theorem addQuiesceAt_visits : Visits addQuiesceAt Buffer.quiesced := by
  refine ⟨fun b i => ?_, fun b i j ne => ?_, fun x q => rfl⟩
  · unfold addQuiesceAt Buffer.quiesced
    split
    · rename_i jobless
      rw [jobless, Option.map_none, ← jobless]
    · rename_i f job
      rw [putFlush, buf_putBuf_self, job]
      rfl
  · unfold addQuiesceAt
    split
    · exact .refl _
    · rw [putFlush, buf_putBuf_ne _ _ ne]
      exact .refl _

theorem addQuiesce_buf (b : Bridge) (i : BufIdx) : Unlinked (b.buf i).quiesced ((addQuiesce b).buf i) :=
  addQuiesceAt_visits.forBufs b i

theorem addQuiesce_state (b : Bridge) (i : BufIdx) : ((addQuiesce b).buf i).state = (b.buf i).state := by
  rw [(addQuiesce_buf b i).link]
  rfl

theorem addQuiesce_poolOnly (b : Bridge) : PoolOnly b (addQuiesce b) := by
  refine .forBufs (fun b i => ?_) b
  unfold addQuiesceAt
  split
  · exact .refl b
  · exact putBuf_poolOnly b i _ id

/-- The job of a buffer, if it has one, has the cause QUIESCE. -/
def Quiesced (b : Bridge) (i : BufIdx) : Prop := ∀ f, (b.buf i).flush = some f → f.causes.quiesce = true

theorem addQuiesce_quiesced (b : Bridge) (i : BufIdx) : Quiesced (addQuiesce b) i := by
  intro f job
  rw [(addQuiesce_buf b i).flush] at job
  obtain ⟨f, -, rfl⟩ := Option.map_eq_some_iff.1 job
  rfl

theorem orAged_quiesce (c : Causes) : c.orAged.quiesce = c.quiesce := by
  unfold Causes.orAged
  split <;> rfl

section Visit
variable {b : Bridge} {i : BufIdx}

/-- A job that is made has the causes it is made for. -/
theorem makeJob_causes (b : Bridge) (i : BufIdx) (c : Causes) :
    ∃ f, ((makeJob b i c).buf i).flush = some f ∧ f.causes = c := by
  by_cases full : isFull (b.buf i) = true
  · by_cases held : isHeldBack b i = true
    · exact ⟨newFlush c, by rw [makeJob_held_buf full held], rfl⟩
    · obtain ⟨f, put, taken⟩ := makeJob_taken (c := c) full held
      exact ⟨f, by rw [put], taken.keeps.causes⟩
  · exact ⟨fillFlush c, by rw [makeJob_fill_buf full], rfl⟩

/-- A job goes on from a visit with the causes that hold then. -/
theorem syncJob_causes {f : Flush} (hf : (b.buf i).flush = some f) :
    ∃ f', ((syncJob b i).buf i).flush = some f' ∧ f'.causes = (jobCauses b i f).orAged := by
  by_cases ends : f.phase = .fill ∧ isFull (b.buf i) = true
  · obtain ⟨f', put, taken⟩ := syncJob_filled hf ends.1 ends.2
    exact ⟨f', by rw [put], taken.keeps.causes⟩
  · exact ⟨_, by rw [syncJob_keeps hf ends], rfl⟩

theorem newCauses_quiesce (hs : b.cart.state = .quiescing) : (newCauses b i).quiesce = true := beq_iff_eq.2 hs

/-- In QUIESCING every OPEN buffer without a job is made one (R107, R148). -/
theorem syncJob_makes_quiesced (hs : b.cart.state = .quiescing) (hf : (b.buf i).flush = none)
    (opened : (b.buf i).state = .opened) : ∃ f, ((syncJob b i).buf i).flush = some f ∧ f.causes.quiesce = true := by
  have some : newCauses b i ≠ Causes.none := fun none => by
    have cause := newCauses_quiesce (i := i) hs
    rw [none] at cause
    cases cause
  obtain ⟨f, made, causes⟩ := makeJob_causes b i (newCauses b i)
  exact ⟨f, by rw [syncJob_makes hf opened some, made], by rw [causes, newCauses_quiesce hs]⟩

theorem syncJob_quiesced (hs : b.cart.state = .quiescing) (h : Quiesced b i) : Quiesced (syncJob b i) i := by
  intro f' job
  cases hf : (b.buf i).flush with
  | some f =>
    obtain ⟨g, put, causes⟩ := syncJob_causes hf
    obtain rfl := Option.some.inj (put.symm.trans job)
    rw [causes, orAged_quiesce]
    exact h f hf
  | none =>
    by_cases opened : (b.buf i).state = .opened
    · obtain ⟨g, put, quiesce⟩ := syncJob_makes_quiesced hs hf opened
      obtain rfl := Option.some.inj (put.symm.trans job)
      exact quiesce
    · rw [syncJob_not_opened hf opened, hf] at job
      cases job

theorem syncJob_hasJob (hs : b.cart.state = .quiescing) (opened : (b.buf i).state = .opened) :
    ∃ f, ((syncJob b i).buf i).flush = some f := by
  cases hf : (b.buf i).flush with
  | some f => exact (syncJob_causes hf).imp fun _ h => h.1
  | none => exact (syncJob_makes_quiesced hs hf opened).imp fun _ h => h.1

end Visit

section Visits
variable {b : Bridge} {i : BufIdx}

/-- A job that the sweep leaves is as the visits left it. -/
theorem Buffer.swept_job {x : Buffer} {f : Flush} (h : x.swept.flush = some f) : x.flush = some f := by
  have withdrawn : x.withdrawn.flush = some f → x.flush = some f := fun h => by
    unfold Buffer.withdrawn at h
    split at h
    · split at h
      · cases h
      · exact h
    · exact h
  unfold Buffer.swept at h
  split at h
  · exact h
  · split at h
    · exact withdrawn h
    · exact h

theorem syncedBelow_state (b : Bridge) (i : BufIdx) : (syncedBelow b i).cart.state = b.cart.state := by
  rw [(syncedBelow_reworks b i).rest]
  rfl

theorem syncJobs_quiesced (hs : b.cart.state = .quiescing) (h : Quiesced b i) : Quiesced (syncJobs b) i := by
  intro f job
  rw [(syncJobs_buf b i).flush] at job
  have visited := Buffer.swept_job job
  rw [synced_buf] at visited
  refine syncJob_quiesced ((syncedBelow_state b i).trans hs) ?_ f visited
  rw [Quiesced, syncedBelow_buf]
  exact h

theorem syncJobs_hasJob (hs : b.cart.state = .quiescing) (opened : (b.buf i).state = .opened) :
    ∃ f, ((syncJobs b).buf i).flush = some f := by
  have swept : ((syncJobs b).buf i).flush = ((synced b).buf i).flush := by
    rw [syncJobs_record (by rw [opened]; exact nofun)]
  have visited := syncJob_hasJob ((syncedBelow_state b i).trans hs) (by rw [syncedBelow_buf]; exact opened)
  rwa [swept, synced_buf]

theorem Reworks.cart {l : List BufIdx} {t : Bridge} (h : Reworks l b t) :
    t.cart = { b.cart with spinTimer := t.cart.spinTimer } := congrArg Bridge.cart h.rest

theorem PoolOnly.cart {t : Bridge} (h : PoolOnly b t) : t.cart = b.cart := by rw [h.1]

theorem testsMade_cart (b : Bridge) : (testsMade b).cart = b.cart := rfl

theorem syncJobs_cart (b : Bridge) : (syncJobs b).cart = { b.cart with spinTimer := (syncJobs b).cart.spinTimer } := by
  rw [syncJobs_eq, (sweepLoads_poolOnly _).cart, testsMade_cart]
  exact (synced_reworks b).cart

end Visits

/-! ### A quiesce begins (R148) -/

section Begins
variable {b : Bridge} {source : EjectSource} {forced : Bool}

/-- QUIESCING, and nothing else is done yet. -/
def quiesceEntered (b : Bridge) (source : EjectSource) (forced : Bool) : Bridge :=
  { b with cart := { b.cart with
      state := .quiescing, spinTimer := none
      quiesce := some ⟨source, forced, later b.clock b.mgmt.settings.quiesceTimeout, false⟩ } }

/-- The jobs of the quiesce are made, and the map is not written back yet. -/
def quiesceJobs (b : Bridge) (source : EjectSource) (forced : Bool) : Bridge :=
  syncJobs (addQuiesce (quiesceEntered b source forced))

theorem beginQuiesce_eq (b : Bridge) (source : EjectSource) (forced : Bool) :
    beginQuiesce b source forced = tryMapWrite (quiesceJobs b source forced) := rfl

theorem Timed.stopped {b t : Bridge} (h : Timed b t) (stopped : b.cart.spinTimer = none) : t.cart.spinTimer = none := by
  rcases h with ⟨-, same⟩ | ⟨-, stops⟩
  · exact same.trans stopped
  · exact stops

theorem quiesceJobs_moves (b : Bridge) (source : EjectSource) (forced : Bool) :
    Moves (quiesceEntered b source forced) (quiesceJobs b source forced) :=
  (addQuiesce_moves _).trans (syncJobs_moves _)

theorem quiesceJobs_cart (b : Bridge) (source : EjectSource) (forced : Bool) :
    (quiesceJobs b source forced).cart = (quiesceEntered b source forced).cart := by
  have timer : (quiesceJobs b source forced).cart.spinTimer = none := (quiesceJobs_moves b source forced).timer.stopped rfl
  have cart := syncJobs_cart (addQuiesce (quiesceEntered b source forced))
  unfold quiesceJobs at timer ⊢
  rw [cart, timer, (addQuiesce_poolOnly _).1]
  rfl

theorem quiesceJobs_rest (b : Bridge) (source : EjectSource) (forced : Bool) :
    (quiesceJobs b source forced).table = b.table ∧ (quiesceJobs b source forced).mgmt = b.mgmt
      ∧ (quiesceJobs b source forced).dm = b.dm ∧ (quiesceJobs b source forced).arb.order = b.arb.order := by
  have rest := syncJobs_rest (addQuiesce (quiesceEntered b source forced))
  rw [(addQuiesce_poolOnly (quiesceEntered b source forced)).1] at rest
  unfold quiesceJobs
  rw [(addQuiesce_poolOnly (quiesceEntered b source forced)).1]
  exact rest

theorem beginQuiesce_buf (b : Bridge) (source : EjectSource) (forced : Bool) (i : BufIdx) :
    (beginQuiesce b source forced).buf i = (quiesceJobs b source forced).buf i := by
  rw [beginQuiesce_eq, buf_congr (congrArg Pool.buffers (tryMapWrite_pool _))]

theorem beginQuiesce_cart (b : Bridge) (source : EjectSource) (forced : Bool) :
    (beginQuiesce b source forced).cart = (quiesceEntered b source forced).cart := by
  have cart := quiesceJobs_cart b source forced
  have timer := (tryMapWrite_moves (quiesceJobs b source forced)).timer.stopped (by rw [cart]; rfl)
  rw [beginQuiesce_eq, tryMapWrite_cart, timer, cart]
  rfl

theorem beginQuiesce_order (b : Bridge) (source : EjectSource) (forced : Bool) :
    (beginQuiesce b source forced).arb.order = b.arb.order := by
  obtain ⟨-, -, -, order⟩ := quiesceJobs_rest b source forced
  rw [beginQuiesce_eq, (fixed_cart (tryMapWrite_moves _).fixed).2.2, order]

theorem beginQuiesce_table (b : Bridge) (source : EjectSource) (forced : Bool) :
    (beginQuiesce b source forced).table = b.table := by
  rw [beginQuiesce_eq, (tryMapWrite_rest _).1, (quiesceJobs_rest b source forced).1]

theorem beginQuiesce_mgmt (b : Bridge) (source : EjectSource) (forced : Bool) :
    (beginQuiesce b source forced).mgmt = b.mgmt := by
  obtain ⟨-, -, -, mgmt, -⟩ := tryMapWrite_rest (quiesceJobs b source forced)
  exact mgmt.trans (quiesceJobs_rest b source forced).2.1

/-- A DIRTY map is written back at once (R133). -/
theorem beginQuiesce_dirty {m : HeldMap} (held : b.dm.map = some m) (dirty : m.writeState = .dirty) :
    ∃ stamp, (beginQuiesce b source forced).dm.map = some { m with
        writeState := .saving, attempt := some 1, step := some ⟨.erase, false, stamp, m.generation⟩ }
      ∧ (beginQuiesce b source forced).dm.staging = snapshotSectors m.entries m.generation := by
  obtain ⟨-, -, dm, -⟩ := quiesceJobs_rest b source forced
  have due : mapWriteDue (quiesceJobs b source forced) m = true :=
    mapWriteDue_iff.2 ⟨dirty, .inl (by rw [quiesceJobs_cart]; rfl)⟩
  rw [beginQuiesce_eq, tryMapWrite_due (by rw [dm]; exact held) due]
  exact ⟨_, rfl, rfl⟩

theorem beginQuiesce_notDirty {m : HeldMap} (held : b.dm.map = some m) (other : m.writeState ≠ .dirty) :
    (beginQuiesce b source forced).dm = b.dm := by
  obtain ⟨-, -, dm, -⟩ := quiesceJobs_rest b source forced
  have early : ¬ mapWriteDue (quiesceJobs b source forced) m = true := fun due => other (mapWriteDue_iff.1 due).1
  rw [beginQuiesce_eq, tryMapWrite_dm _ (by rw [dm]; exact held), if_neg early, dm]

theorem beginQuiesce_begun (b : Bridge) (source : EjectSource) (forced : Bool) :
    QuiesceBegun b (beginQuiesce b source forced) source forced := by
  have entered : (addQuiesce (quiesceEntered b source forced)).cart.state = .quiescing := by
    rw [(addQuiesce_poolOnly _).1]
    rfl
  refine ⟨beginQuiesce_cart b source forced, fun i f job => ?_, fun i opened => ?_, fun m => beginQuiesce_dirty,
    fun m => beginQuiesce_notDirty, beginQuiesce_table .., beginQuiesce_mgmt .., beginQuiesce_order ..⟩
  · rw [beginQuiesce_buf] at job
    exact syncJobs_quiesced entered (addQuiesce_quiesced _ i) f job
  · rw [beginQuiesce_buf]
    exact syncJobs_hasJob entered ((addQuiesce_state _ i).trans opened)

end Begins

/-! ### A quiesce goes on or ends (R149) -/

section Goes
variable {b t : Bridge}

theorem granted_cart (b t : Bridge) (w : Work) : (granted b t w).cart = t.cart := by
  unfold granted
  split
  · rw [issueWork_rest]
  · rfl

theorem grantWork_cart (h : grantWork b = some t) : t.cart = b.cart := by
  obtain ⟨w, chosen, -⟩ := Option.map_eq_some_iff.1 h
  by_cases load : ∃ i, w = .load i
  · obtain ⟨i, rfl⟩ := load
    rw [grantWork_load chosen] at h
    rw [← Option.some.inj h, granted_cart, (endLostLoads_lossesOnly b).cart]
  · rw [grantWork_other chosen (not_exists.1 load)] at h
    rw [← Option.some.inj h, granted_cart]

theorem grantServing_state (h : grantServing b = some t) : t.cart.state = b.cart.state := by
  by_cases none : pendingWork b = []
  · rw [grantServing_idle none] at h
    split at h
    · rw [← Option.some.inj h]; rfl
    · rw [← Option.some.inj h]; rfl
    · cases h
  · cases spindle : b.cart.spindle with
    | parked =>
      rw [grantServing_parked none spindle] at h
      rw [← Option.some.inj h, dueSpinUp]
      split <;> rfl
    | spinning =>
      rw [grantServing_spinning none spindle] at h
      rw [grantWork_cart h]
      rfl

/-- The arbiter grants in QUIESCING, and QUIESCING goes on. -/
theorem arbiterStep_stays_quiescing (hs : b.cart.state = .quiescing) (h : arbiterStep b = some t) :
    t.cart.state = .quiescing := by
  have idle : b.arb.order = none := Option.not_isSome_iff_eq_none.1 fun busy => by
    rw [arbiterStep_of_order busy] at h
    cases h
  by_cases serving : serves b = true
  · rw [arbiterStep_serving idle serving] at h
    exact (grantServing_state h).trans hs
  · rw [arbiterStep_quiescing idle hs serving] at h
    cases h

/-- A quiesce is under way, and no expiry has forced it. -/
def QuiesceOpen (b : Bridge) : Prop := b.cart.state = .quiescing ∧ ∀ q, b.cart.quiesce = some q → q.ending = false

/-- A quiesce has come to its end: no order is in flight and every selected condition is met (R149). -/
def QuiesceMet (b : Bridge) : Prop := b.cart.state = .quiescing ∧ b.arb.order = none ∧ conditionsUnmet b = 0

theorem Steady.quiesceOpen (h : Steady b t) (goes : QuiesceOpen b) (still : t.cart.state = .quiescing) : QuiesceOpen t := by
  rcases h.life with ⟨-, -, quiesce, -⟩ | ⟨ejecting, -⟩
  · exact ⟨still, fun q hq => goes.2 q (quiesce.symm.trans hq)⟩
  · rw [ejecting] at still
    cases still

theorem QuiesceMet.ends (h : QuiesceMet b) : quiesceEnds b = true := by
  obtain ⟨hs, order, met⟩ := h
  simp [quiesceEnds, hs, order, met]

theorem QuiesceOpen.met (goes : QuiesceOpen b) (ends : quiesceEnds b = true) : QuiesceMet b := by
  obtain ⟨hs, going⟩ := goes
  simp only [quiesceEnds, Bool.and_eq_true, Option.isNone_iff_eq_none, Bool.or_eq_true, beq_iff_eq] at ends
  obtain ⟨⟨-, order⟩, forced | met⟩ := ends
  · obtain ⟨q, hq, ending⟩ := (Option.any_eq_true ..).1 forced
    rw [going q hq] at ending
    cases ending
  · exact ⟨hs, order, met⟩

/-- What an event brings about keeps a quiesce under way, or comes to its end on the way (R149). -/
theorem QuiesceOpen.settleFor_ends (n : Nat) : ∀ {b : Bridge}, QuiesceOpen b → (settleFor n b).cart.state ≠ .quiescing →
    ∃ c, Steady b c ∧ QuiesceMet c ∧ Steady c (settleFor n b) := by
  induction n with
  | zero => exact fun goes left => absurd goes.1 left
  | succ n ih =>
    intro b goes left
    have pool := poolSettle_moves b
    have still := pool.steady.quiesceOpen goes ((fixed_cartState pool.fixed).trans goes.1)
    have reach := pool.steady
    unfold settleFor settleOnce at left ⊢
    dsimp only at left ⊢
    generalize poolSettle b = c at reach still left ⊢
    by_cases ends : quiesceEnds c = true
    · have leave := (headStep_course (headStep_ejects ends)).steady.trans (settleFor_course n _).steady
      rw [headStep_ejects ends]
      exact ⟨c, reach, still.met ends, leave⟩
    · rw [headStep_quiescing still.1 ends] at left ⊢
      cases grants : arbiterStep c with
      | none =>
        rw [grants] at left
        exact absurd still.1 left
      | some d =>
        rw [grants] at left
        have step := (arbiterStep_course grants).steady
        obtain ⟨e, later, met, leave⟩ := ih (step.quiesceOpen still (arbiterStep_stays_quiescing still.1 grants)) left
        exact ⟨e, (reach.trans step).trans later, met, leave⟩

/-- The report of idleness and the transmissions leave the cartridge in its state. -/
theorem finish_cartState (b : Bridge) : (finish b).cart.state = (settle b).cart.state := by
  unfold finish
  rw [pump_cart]
  generalize settle b = c
  rfl

theorem finish_after_settle (b : Bridge) : Steady (settle b) (finish b) := by
  unfold finish
  generalize settle b = c
  exact ((refreshTimer_course c).trans (pump_course _)).steady

/-- A quiesce that has not been forced ends only where it is met. -/
theorem QuiesceOpen.finish_ends (goes : QuiesceOpen b) (left : (finish b).cart.state ≠ .quiescing) :
    (finish b).cart.state = .ejecting ∧ ∃ c, Steady b c ∧ QuiesceMet c ∧ Steady c (finish b) := by
  have settled : (settleFor headFuel b).cart.state ≠ .quiescing := by
    rwa [finish_cartState, settle] at left
  obtain ⟨c, reach, met, leave⟩ := goes.settleFor_ends headFuel settled
  refine ⟨?_, c, reach, met, leave.trans (finish_after_settle b)⟩
  rcases (finish_course b).steady.life with ⟨same, -⟩ | ⟨ejecting, -⟩
  · exact absurd (same.trans goes.1) left
  · exact ejecting

/-- A quiesce that is met when the pool has settled ends in the step (R149). -/
theorem QuiesceMet.finish_ejects (met : QuiesceMet (poolSettle b)) : (finish b).cart.state = .ejecting := by
  have settled : settle b = settleFor 99 (enterEjecting (poolSettle b)) := settle_of_some (headStep_ejects met.ends)
  obtain ⟨state, -⟩ := enterEjecting_cart (poolSettle b)
  rw [finish_cartState, settled]
  generalize enterEjecting (poolSettle b) = d at state
  have free : ¬ ejectWaits d = true := not_ejectWaits_of_state (by simp [state]) (by simp [state])
  exact ((settleFor_course 99 d).steady.life_still free (by simp [state])).1.trans state

end Goes

/-! ### What an eject request comes to (R147) -/

/-- The state of the cartridge takes no eject request (R147). -/
def RefusesEject (b : Bridge) : Prop :=
  b.cart.state = .empty ∨ b.cart.state = .settling ∨ b.cart.state = .quiescing ∨ b.cart.state = .ejecting
  ∨ ((b.cart.state = .spinup ∨ b.cart.state = .mounting) ∧ b.cart.ejectWaiting ≠ none)
  ∨ (b.cart.state = .halted ∧ Recovering b)

/-- The eject waits for the order in flight (R147). -/
def ejectHeld (b : Bridge) (source : EjectSource) : Bridge :=
  { b with cart := { b.cart with ejectWaiting := some source } }

section Request
variable {b c : Bridge} {source : EjectSource} {forced : Bool}

theorem requestEject_waiting (hs : b.cart.state = .spinup ∨ b.cart.state = .mounting) :
    requestEject b source forced = if b.cart.ejectWaiting.isSome then none else some (ejectHeld b source) := by
  unfold requestEject
  rcases hs with hs | hs <;> rw [hs] <;> rfl

theorem requestEject_ready (hs : b.cart.state = .ready) :
    requestEject b source forced = some (beginQuiesce b source forced) := by
  unfold requestEject
  rw [hs]

theorem requestEject_unusable (hs : b.cart.state = .unusable) :
    requestEject b source forced = some (enterEjecting b) := by
  unfold requestEject
  rw [hs]

theorem requestEject_halted (hs : b.cart.state = .halted) :
    requestEject b source forced = if recoverUnderWay b then none else some (enterEjecting b) := by
  unfold requestEject
  rw [hs]

theorem requestEject_elsewhere (hs : b.cart.state = .empty ∨ b.cart.state = .settling ∨ b.cart.state = .quiescing
    ∨ b.cart.state = .ejecting) : requestEject b source forced = none := by
  unfold requestEject
  rcases hs with hs | hs | hs | hs <;> rw [hs]

theorem requestEject_refused (h : RefusesEject b) : requestEject b source forced = none := by
  rcases h with hs | hs | hs | hs | ⟨hs, waits⟩ | ⟨hs, recovering⟩
  · exact requestEject_elsewhere (.inl hs)
  · exact requestEject_elsewhere (.inr (.inl hs))
  · exact requestEject_elsewhere (.inr (.inr (.inl hs)))
  · exact requestEject_elsewhere (.inr (.inr (.inr hs)))
  · rw [requestEject_waiting hs, if_pos (Option.isSome_iff_ne_none.2 waits)]
  · rw [requestEject_halted hs, if_pos ((recoverUnderWay_iff hs).2 recovering)]

/-- What a request that is taken comes to, by the state of the cartridge (R147). -/
inductive EjectTaken (b : Bridge) (source : EjectSource) (forced : Bool) : Bridge → Prop where
  | waits (hs : b.cart.state = .spinup ∨ b.cart.state = .mounting) : EjectTaken b source forced (ejectHeld b source)
  | quiesces (hs : b.cart.state = .ready) : EjectTaken b source forced (beginQuiesce b source forced)
  | ejects (hs : b.cart.state = .unusable ∨ b.cart.state = .halted) : EjectTaken b source forced (enterEjecting b)

theorem requestEject_taken (h : ¬ RefusesEject b) :
    ∃ c, requestEject b source forced = some c ∧ EjectTaken b source forced c := by
  have insertion : ∀ hs : b.cart.state = .spinup ∨ b.cart.state = .mounting,
      ∃ c, requestEject b source forced = some c ∧ EjectTaken b source forced c := fun hs => by
    have free : ¬ b.cart.ejectWaiting.isSome = true := fun waits =>
      h (.inr (.inr (.inr (.inr (.inl ⟨hs, Option.isSome_iff_ne_none.1 waits⟩)))))
    exact ⟨_, (requestEject_waiting hs).trans (if_neg free), .waits hs⟩
  cases hs : b.cart.state with
  | empty => exact absurd (.inl hs) h
  | settling => exact absurd (.inr (.inl hs)) h
  | quiescing => exact absurd (.inr (.inr (.inl hs))) h
  | ejecting => exact absurd (.inr (.inr (.inr (.inl hs)))) h
  | spinup => exact insertion (.inl hs)
  | mounting => exact insertion (.inr hs)
  | ready => exact ⟨_, requestEject_ready hs, .quiesces hs⟩
  | unusable => exact ⟨_, requestEject_unusable hs, .ejects (.inl hs)⟩
  | halted =>
    have idle : ¬ recoverUnderWay b = true := fun recovering =>
      h (.inr (.inr (.inr (.inr (.inr ⟨hs, (recoverUnderWay_iff hs).1 recovering⟩)))))
    exact ⟨_, (requestEject_halted hs).trans (if_neg idle), .ejects (.inr hs)⟩

/-- An entry that waits for no buffer stays where EJECTING is entered. -/
theorem enterEjecting_idle {k : Key} {e : Entry} (he : b.entry k = some e) (idle : isActive e = false) :
    (enterEjecting b).entry k = some e := by
  cases begun : b.cart.ejectBegun with
  | true =>
    rw [enterEjecting_again begun]
    exact he
  | false => exact (enterEjecting_entry begun he).2 idle

/-- An entry that waits for no buffer stays as it is when a request is taken. -/
theorem EjectTaken.idle_entry (h : EjectTaken b source forced c) {k : Key} {e : Entry} (he : b.entry k = some e)
    (idle : isActive e = false) : c.entry k = some e := by
  cases h with
  | waits _ => exact he
  | quiesces _ => exact (entry_of_table (beginQuiesce_table ..) k).trans he
  | ejects _ => exact enterEjecting_idle he idle

end Request

/-! ### The end of the step (R147 to R149, R151) -/

section Ends
variable {b : Bridge} {source : EjectSource} {forced : Bool}

/-- An eject that waits stays with the order in flight. -/
theorem finish_ejectHeld_busy (hs : b.cart.state = .spinup ∨ b.cart.state = .mounting) (busy : b.arb.order ≠ none) :
    (finish (ejectHeld b source)).cart.state = b.cart.state
      ∧ (finish (ejectHeld b source)).cart.ejectWaiting = some source
      ∧ (finish (ejectHeld b source)).arb.order = b.arb.order := by
  obtain ⟨o, order⟩ := Option.ne_none_iff_exists'.1 busy
  obtain ⟨state, -⟩ := finish_cart_of_order (b := ejectHeld b source) order
  refine ⟨state, ?_, (finish_order (b := ejectHeld b source) order).trans order.symm⟩
  rcases (finish_course (ejectHeld b source)).steady.life with ⟨-, waiting, -⟩ | ⟨ejecting, -⟩
  · exact waiting
  · rw [state] at ejecting
    rcases hs with hs | hs <;> cases hs.symm.trans ejecting

/-- EJECTING is entered at once where no order is in flight. -/
theorem finish_ejectHeld_free (hs : b.cart.state = .spinup ∨ b.cart.state = .mounting) (free : b.arb.order = none) :
    (finish (ejectHeld b source)).cart.state = .ejecting ∧ (finish (ejectHeld b source)).cart.ejectBegun = true := by
  have waits : ejectWaits (ejectHeld b source) = true := ejectWaits_iff.2 ⟨hs, Option.some_ne_none source⟩
  obtain ⟨state, begun, -⟩ := finish_ejects (b := ejectHeld b source) waits free
  exact ⟨state, begun⟩

theorem beginQuiesce_open (b : Bridge) (source : EjectSource) (forced : Bool) :
    QuiesceOpen (beginQuiesce b source forced) := by
  rw [QuiesceOpen, beginQuiesce_cart]
  exact ⟨rfl, fun q hq => by rw [← Option.some.inj hq]⟩

/-- The quiesce goes on with the order in flight. -/
theorem finish_beginQuiesce_busy (busy : b.arb.order ≠ none) :
    (finish (beginQuiesce b source forced)).cart.state = .quiescing
      ∧ (finish (beginQuiesce b source forced)).cart.quiesce = (beginQuiesce b source forced).cart.quiesce
      ∧ (finish (beginQuiesce b source forced)).arb.order = b.arb.order := by
  obtain ⟨o, order⟩ := Option.ne_none_iff_exists'.1 busy
  have flying := (beginQuiesce_order b source forced).trans order
  obtain ⟨state, quiesce⟩ := finish_cart_of_order flying
  exact ⟨state.trans (beginQuiesce_open ..).1, quiesce, (finish_order flying).trans order.symm⟩

/-- The quiesce ends at once where no order is in flight and every selected condition is met. -/
theorem finish_beginQuiesce_met (free : b.arb.order = none)
    (met : conditionsUnmet (poolSettle (beginQuiesce b source forced)) = 0) :
    (finish (beginQuiesce b source forced)).cart.state = .ejecting := by
  have fixed := (poolSettle_moves (beginQuiesce b source forced)).fixed
  refine QuiesceMet.finish_ejects ⟨?_, ?_, met⟩
  · rw [fixed_cartState fixed, (beginQuiesce_open b source forced).1]
  · rw [(fixed_cart fixed).2.2, beginQuiesce_order, free]

theorem finish_enterEjecting (b : Bridge) :
    (finish (enterEjecting b)).cart.state = .ejecting ∧ (finish (enterEjecting b)).cart.ejectBegun = true := by
  obtain ⟨state, begun, -⟩ := enterEjecting_cart b
  generalize enterEjecting b = d at state begun
  have free : ¬ ejectWaits d = true := not_ejectWaits_of_state (by simp [state]) (by simp [state])
  obtain ⟨stays, -, -, -, still⟩ := (finish_course d).steady.life_still free (by simp [state])
  exact ⟨stays.trans state, still.trans begun⟩

end Ends

/-- From `b` to `t` an eject request that is taken goes on, by the state of the cartridge (R147 to R149, R151). -/
def EjectGoesOn (b t : Bridge) (source : EjectSource) (forced : Bool) : Prop :=
  (b.cart.state = .spinup ∨ b.cart.state = .mounting →
    t = finish (ejectHeld b source)
    ∧ (b.arb.order ≠ none → t.cart.state = b.cart.state ∧ t.cart.ejectWaiting = some source ∧ t.arb.order = b.arb.order)
    ∧ (b.arb.order = none → t.cart.state = .ejecting ∧ t.cart.ejectBegun = true))
  ∧ (b.cart.state = .ready → ∃ c, QuiesceBegun b c source forced ∧ t = finish c
    ∧ (b.arb.order ≠ none → t.cart.state = .quiescing ∧ t.cart.quiesce = c.cart.quiesce ∧ t.arb.order = b.arb.order)
    ∧ (b.arb.order = none → conditionsUnmet (poolSettle c) = 0 → t.cart.state = .ejecting)
    ∧ (t.cart.state ≠ .quiescing → t.cart.state = .ejecting ∧ ∃ d, Steady c d ∧ d.cart.state = .quiescing
        ∧ d.arb.order = none ∧ conditionsUnmet d = 0 ∧ Steady d t))
  ∧ (b.cart.state = .unusable ∨ b.cart.state = .halted →
    t = finish (enterEjecting b) ∧ t.cart.state = .ejecting ∧ t.cart.ejectBegun = true)

theorem EjectTaken.goesOn {b c : Bridge} {source : EjectSource} {forced : Bool} (h : EjectTaken b source forced c) :
    EjectGoesOn b (finish c) source forced := by
  cases h with
  | waits hs =>
    refine ⟨fun _ => ⟨rfl, finish_ejectHeld_busy hs, finish_ejectHeld_free hs⟩, fun other => ?_, fun other => ?_⟩
    all_goals rcases hs with hs | hs <;> simp [hs] at other
  | quiesces hs =>
    refine ⟨fun other => by simp [hs] at other, fun _ => ⟨_, beginQuiesce_begun .., rfl, finish_beginQuiesce_busy,
      finish_beginQuiesce_met, fun left => ?_⟩, fun other => by simp [hs] at other⟩
    obtain ⟨ejecting, d, reach, ⟨state, order, met⟩, leave⟩ := (beginQuiesce_open b source forced).finish_ends left
    exact ⟨ejecting, d, reach, state, order, met, leave⟩
  | ejects hs =>
    refine ⟨fun other => ?_, fun other => ?_, fun _ => ⟨rfl, finish_enterEjecting b⟩⟩
    all_goals rcases hs with hs | hs <;> simp [hs] at other

/-! ### The commands (R147, log entry 16) -/

section Commands
variable {h : Header} {items : List Item} {s : State} {b : Bridge}

theorem exec_eject_managed (m : Managed s.bridge h .eject items) :
    exec (.eject h items) s = .next (s.withBridge (finish (eject h items (managing s.bridge h .eject)))) :=
  exec_managed (eject h items) finish rfl m

/-- The entry of an EJECT that goes on. -/
def ejectEntry (b : Bridge) (h : Header) : Entry :=
  { newEntry b h .eject (some .management) with state := .awaitEject }

theorem waitIn_managing (b : Bridge) (h : Header) :
    waitIn (managing b h .eject) h.key .awaitEject = withEntry b h (ejectEntry b h) := by
  unfold waitIn managing
  rw [editEntry_withEntry]
  rfl

/-- The force value of an EJECT, 0 where it carries none. -/
def forceOf (items : List Item) : Nat := (itemNat items 0x02).getD 0

theorem eject_refused {st : Status} (why : (2 ≤ forceOf items ∧ st = .outOfRange)
      ∨ (forceOf items < 2 ∧ RefusesEject b ∧ st = .wrongState)) :
    eject h items (managing b h .eject) = answeredAtOnce b h .eject (some .management) st .none := by
  unfold eject
  rcases why with ⟨beyond, rfl⟩ | ⟨within, refuses, rfl⟩
  · exact (if_pos beyond).trans (answerStatus_managing ..)
  · refine (if_neg (Nat.not_le.2 within)).trans ?_
    rw [waitIn_managing, requestEject_refused (b := withEntry b h (ejectEntry b h)) refuses]
    exact answerStatus_managing ..

theorem eject_taken {c : Bridge} (within : forceOf items < 2)
    (taken : requestEject (withEntry b h (ejectEntry b h)) .management (forceOf items == 1) = some c) :
    eject h items (managing b h .eject) = c := by
  unfold eject
  refine (if_neg (Nat.not_le.2 within)).trans ?_
  rw [waitIn_managing]
  unfold forceOf at taken
  rw [taken]

theorem exec_ejectButton_refused (refuses : RefusesEject s.bridge) : exec .ejectButton s = .next s := by
  change execEjectButton s = _
  unfold execEjectButton
  refine become_same ?_
  rw [requestEject_refused refuses]

theorem exec_ejectButton_taken {c : Bridge} (taken : requestEject s.bridge .button false = some c) :
    exec .ejectButton s = .next (s.withBridge (finish c)) := by
  change execEjectButton s = _
  unfold execEjectButton
  refine become_next ?_
  rw [taken]

end Commands

/-- Settles O31: a request is turned away by `RefusesEject` or comes to one of the cases of `EjectTaken`, whose end of step
`EjectTaken.goesOn` says; the entry of an EJECT waits for no buffer, and so stays. -/
theorem ejectRequestsAreTakenByTheCartridgeState : Obligations.EjectRequestsAreTakenByTheCartridgeState := by
  refine ⟨fun h items s m => ⟨fun st why => ⟨?_, (answeredAtOnce_isAnswered ..).finish⟩, fun within free => ?_⟩,
    fun s => ⟨exec_ejectButton_refused, fun free => ?_⟩⟩
  · rw [exec_eject_managed m, eject_refused why]
  · obtain ⟨c, asked, taken⟩ := requestEject_taken (b := withEntry s.bridge h (ejectEntry s.bridge h))
      (source := .management) (forced := forceOf items == 1) free
    have entered := taken.idle_entry (withEntry_entry_self ..) rfl
    refine ⟨_, exec_eject_managed m, ?_⟩
    rw [withBridge_pending, withBridge_bridge, eject_taken within asked]
    exact ⟨rfl, (finish_course c).steady.idle_entry entered rfl, taken.goesOn⟩
  · obtain ⟨c, asked, taken⟩ := requestEject_taken (b := s.bridge) (source := .button) (forced := false) free
    refine ⟨_, exec_ejectButton_taken asked, ?_⟩
    rw [withBridge_pending, withBridge_bridge]
    exact ⟨rfl, taken.goesOn⟩

end Sys2Proof.Machine
end

section
/-! PROOFS. The exception list and the attention pending set (R161, R182), and the conditions of the two links with the
frames that are discarded (R157, R158, R162, R164, R169 to R171). -/

namespace Sys2Proof.Machine

/-! ### The attention events (R161, R172, R182) -/

section Events
variable {b : Bridge} {ev : AttnEvent} {o : Originator}

/-- The pending set with one more event. -/
def withEvent (set : BitVec 6) (ev : AttnEvent) : BitVec 6 := set ||| (1#6 <<< ev.bit)

/-- The mask that an event adds has the bit of that event and of no other. -/
theorem getLsbD_eventMask (ev x : AttnEvent) : (1#6 <<< ev.bit).getLsbD x.bit = (x == ev) := by
  cases ev <;> cases x <;> decide

theorem getLsbD_withEvent (set : BitVec 6) (ev x : AttnEvent) :
    (withEvent set ev).getLsbD x.bit = (x == ev || set.getLsbD x.bit) := by
  rw [withEvent, BitVec.getLsbD_or, getLsbD_eventMask, Bool.or_comm]

theorem withEvent_ne_zero (set : BitVec 6) (ev : AttnEvent) : withEvent set ev ≠ 0 := by
  intro empty
  have kept := getLsbD_withEvent set ev ev
  rw [empty, beq_self_eq_true, Bool.true_or] at kept
  simp at kept

theorem raiseEvent_unselected
    (h : b.mgmt.settings.attnOrig = none ∨ b.mgmt.settings.attnEvents.getLsbD ev.bit = false) : raiseEvent b ev = b := by
  refine if_neg fun kept => ?_
  rw [Bool.and_eq_true] at kept
  obtain ⟨named, selected⟩ := kept
  rcases h with unset | other
  · rw [unset] at named
    cases named
  · rw [other] at selected
    cases selected

theorem raiseEvent_selected (originator : b.mgmt.settings.attnOrig = some o)
    (selected : b.mgmt.settings.attnEvents.getLsbD ev.bit = true) :
    raiseEvent b ev = attnTest (withAttention b (withEvent b.mgmt.attnPending ev)) :=
  if_pos (by rw [originator, selected]; rfl)

theorem raiseEvent_waits (originator : b.mgmt.settings.attnOrig = some o)
    (selected : b.mgmt.settings.attnEvents.getLsbD ev.bit = true) (waits : attnWaiting b = true) :
    raiseEvent b ev = withAttention b (withEvent b.mgmt.attnPending ev) :=
  (raiseEvent_selected originator selected).trans (attnTest_silent originator (.inr waits))

theorem raiseEvent_builds (originator : b.mgmt.settings.attnOrig = some o)
    (selected : b.mgmt.settings.attnEvents.getLsbD ev.bit = true) (free : ¬ attnWaiting b = true) :
    raiseEvent b ev = { b with
      link := { b.link with queue :=
        b.link.queue ++ [.attention o (withEvent b.mgmt.attnPending ev) b.mgmt.exceptions.length] }
      mgmt := { b.mgmt with attnPending := 0 } } :=
  (raiseEvent_selected originator selected).trans (attnTest_builds (b := withAttention b _) originator
    (withEvent_ne_zero b.mgmt.attnPending ev) free)

end Events

/-! ### The exception list (R182) -/

section Records
variable {b : Bridge} (r : ExceptionRecord)

theorem record_joins (room : b.mgmt.exceptions.length < 32) : record b r
    = raiseEvent { b with mgmt := { b.mgmt with exceptions := b.mgmt.exceptions ++ [r] } } .exceptionAdded :=
  if_pos room

theorem record_dropped (full : 32 ≤ b.mgmt.exceptions.length) :
    record b r = { b with mgmt := { b.mgmt with overflow := min (b.mgmt.overflow + 1) 255 } } :=
  if_neg (Nat.not_lt.2 full)

end Records

/-- Settles O55: a record by the length of the list, an event by its selection, and the frame by `attnTest_builds`. -/
theorem exceptionsAndAttentionEventsAreKept : Obligations.ExceptionsAndAttentionEventsAreKept := by
  unfold Obligations.ExceptionsAndAttentionEventsAreKept
  refine ⟨fun b r => ⟨fun room => ⟨record_joins r room, record_exceptions r room, record_overflow r room⟩,
    record_dropped r⟩, fun b ev => ⟨raiseEvent_unselected, fun o originator selected => ?_⟩,
    fun b => ⟨fun silent => ?_, fun o originator pending free => ?_⟩⟩
  · exact ⟨withEvent b.mgmt.attnPending ev, getLsbD_withEvent b.mgmt.attnPending ev,
      fun waits => raiseEvent_waits originator selected (attnWaiting_iff.2 waits),
      fun free => raiseEvent_builds originator selected (mt attnWaiting_iff.1 free)⟩
  · cases originator : b.mgmt.settings.attnOrig with
    | none => exact attnTest_unset originator
    | some o =>
      have waits := silent.resolve_left (by rw [originator]; nofun)
      exact attnTest_silent originator (waits.imp_right attnWaiting_iff.2)
  · exact attnTest_builds originator pending (mt attnWaiting_iff.1 free)

/-! ### The conditions of the links (R164, R169 to R171, R175) -/

section Conditions
variable {s : State}

theorem exec_linkResetEnd (s : State) : exec .linkResetEnd s = .next (s.withBridge (pump { s.bridge with
    link := { s.bridge.link with resetHeld := false }, thru := { s.bridge.thru with linkHold := false } })) := rfl

theorem exec_downstreamLinkUp (s : State) : exec .downstreamLinkUp s
    = .next (s.withBridge (pump { s.bridge with thru := { s.bridge.thru with line := .up } })) := rfl

/-- The condition that power-on holds downstream is at its end (R175). -/
def PowerHoldOver (b : Bridge) : Prop := ∃ x, b.thru.powerHold = some x ∧ reached b.clock x = true

theorem powerHoldOver_iff {b : Bridge} :
    (b.thru.powerHold.any fun x => reached b.clock x) = true ↔ PowerHoldOver b := Option.any_eq_true ..

theorem exec_downstreamResetRelease_over (passed : PowerHoldOver s.bridge) : exec .downstreamResetRelease s
    = .next (s.withBridge (pump { s.bridge with thru := { s.bridge.thru with powerHold := none } })) :=
  become_next (if_pos (powerHoldOver_iff.2 passed))

theorem exec_downstreamResetRelease_not (h : ¬ PowerHoldOver s.bridge) : exec .downstreamResetRelease s = .next s :=
  become_same (if_neg (mt powerHoldOver_iff.1 h))

end Conditions

/-! ### The frames that are discarded (R157, R158, R162) -/

section Discarded
variable {s : State} (frame : List Byte)

/-- A frame with a bad check word is discarded and counted (R157, R162). -/
def countBadCheck (b : Bridge) : Bridge :=
  if b.link.resetHeld then b
  else { b with link := { b.link with partialRx := [], badCheck := satInc 65535 b.link.badCheck } }

theorem exec_badCheckFrame (s : State) : exec (.badCheckFrame frame) s = s.become countBadCheck := rfl

theorem exec_badCheckFrame_held (held : s.bridge.link.resetHeld = true) : exec (.badCheckFrame frame) s = .next s :=
  (exec_badCheckFrame frame s).trans (become_same (if_pos held))

theorem exec_badCheckFrame_counts (receives : s.bridge.link.resetHeld = false) : exec (.badCheckFrame frame) s
    = .next (s.withBridge { s.bridge with link :=
        { s.bridge.link with partialRx := [], badCheck := min (s.bridge.link.badCheck + 1) 65535 } }) :=
  (exec_badCheckFrame frame s).trans (become_next (if_neg (Bool.eq_false_iff.1 receives)))

theorem exec_malformedFrame (s : State) : exec (.malformedFrame frame) s = s.become countMalformed := rfl

theorem exec_malformedFrame_held (held : s.bridge.link.resetHeld = true) : exec (.malformedFrame frame) s = .next s :=
  (exec_malformedFrame frame s).trans (become_same (if_pos held))

theorem exec_malformedFrame_counts (receives : s.bridge.link.resetHeld = false) : exec (.malformedFrame frame) s
    = .next (s.withBridge { s.bridge with link :=
        { s.bridge.link with partialRx := [], malformed := min (s.bridge.link.malformed + 1) 65535 } }) :=
  (exec_malformedFrame frame s).trans (become_next (if_neg (Bool.eq_false_iff.1 receives)))

end Discarded

/-- Settles O6: the release of power-on by its time (`PowerHoldOver`), a discarded frame by the link reset condition, and the
other two conditions in every state. -/
theorem linkConditionsEndAndDiscardedFramesAreCounted :
    Obligations.LinkConditionsEndAndDiscardedFramesAreCounted := by
  refine ⟨fun s => ⟨exec_linkResetEnd s, fun x held passed => exec_downstreamResetRelease_over ⟨x, held, passed⟩,
    fun early => ?_, exec_downstreamLinkUp s⟩, fun s frame => ⟨fun receives => ?_, fun held => ?_⟩⟩
  · refine exec_downstreamResetRelease_not fun ⟨x, held, passed⟩ => ?_
    rw [early x held] at passed
    cases passed
  · exact ⟨exec_badCheckFrame_counts frame receives, exec_malformedFrame_counts frame receives⟩
  · exact ⟨exec_badCheckFrame_held frame held, exec_malformedFrame_held frame held⟩

end Sys2Proof.Machine
end

section
/-! PROOFS. The first checks of every management request (R176): its items, and the edit lock where it needs one. -/

namespace Sys2Proof.Machine

/-! ### The checks that come first (R176) -/

/-- The first check of R176 that a request fails, and the status it is answered with. -/
def FailsFirstChecks (b : Bridge) (h : Header) (op : Op) (items : List Item) (st : Status) : Prop :=
  (itemsOk op items = false ∧ st = .badRequest)
  ∨ (itemsOk op items = true ∧ needsLock op = true ∧ b.mgmt.holder ≠ some h.orig ∧ st = .lockRequired)

/-- A management request that fails one of them is answered, whatever its operation does. -/
theorem manage_refused {b : Bridge} {h : Header} {op : Op} {items : List Item} {st : Status} (act : Bridge → Bridge)
    (ho : op.isManagement = true) (r : Received b h) (hu : h.unit = 15) (hc : h.count = 0)
    (why : FailsFirstChecks b h op items st) :
    manage h op items act b = answeredAtOnce b h op (some .management) st .none := by
  unfold manage
  rw [takeRequest_received _ r (contentOk_management ho hc)]
  refine (if_neg (not_not_intro hu)).trans ?_
  rcases why with ⟨bad, rfl⟩ | ⟨ok, needs, other, rfl⟩
  · exact (if_pos (by rw [bad]; rfl)).trans (answerStatus_managing ..)
  · refine (if_neg (by rw [ok]; decide)).trans ((if_pos ?_).trans (answerStatus_managing ..))
    rw [needs]
    exact bne_iff_ne.2 other

/-- Every command of a management request runs `manage` and ends its step. -/
theorem exec_management {c : Instr} {op : Op} {h : Header} (s : State) (hc : requestOf c = some (op, h))
    (ho : op.isManagement = true) :
    ∃ ending act, EndsStep ending
      ∧ exec c s = .next (s.withBridge (ending (manage h op (itemsOf c) act s.bridge))) := by
  cases c <;> simp only [requestOf, Option.some.injEq, Prod.mk.injEq, reduceCtorEq] at hc
  all_goals obtain ⟨rfl, rfl⟩ := hc
  case unknownOperation | read | write | flush | sense | abort => cases ho
  case setSettings | eject | recover | discardStranded => exact ⟨finish, _, .inl rfl, rfl⟩
  all_goals exact ⟨pump, _, .inr rfl, rfl⟩

/-- Settles O25: every management request runs `manage`, whose first two checks refuse it before its operation acts. -/
theorem managementItemsAndLockAreCheckedFirst : Obligations.ManagementItemsAndLockAreCheckedFirst := by
  intro c op h s hc ho r hu hcount st why
  obtain ⟨ending, act, ends, run⟩ := exec_management s hc ho
  rw [manage_refused act ho r hu hcount why] at run
  exact ⟨_, run, rfl, ends.apply _, (answeredAtOnce_isAnswered ..).endStep ends⟩

end Sys2Proof.Machine
end

section
/-! PROOFS. The edit lock (R177 to R179): what LOCK_REQUEST, LOCK_RELEASE and LOCK_CANCEL do by the lock as it stands, and
the answers in key order where the lock or a place in the pending list is left. -/

namespace Sys2Proof.Machine

/-! ### Two answers in key order (R40, R178, R179) -/

/-- The entry is the waiting LOCK_REQUEST of an originator. -/
def WaitsForLock (o : Originator) (k : Key) (e : Entry) : Prop :=
  k.orig = o ∧ e.op = .lockRequest ∧ e.state = .awaitLock

theorem isLockWait_iff {o : Originator} {k : Key} {e : Entry} : isLockWait o k e = true ↔ WaitsForLock o k e := by
  simp [isLockWait, WaitsForLock, and_assoc]

section Answers
variable {b : Bridge} {own k : Key} {e : Entry} (o : Originator) (st : Status)

theorem answerLock_own (he : b.entry own = some e) (hs : e.state ≠ .answered) :
    IsAnswered (answerLock b own o st) own .ok 0 .none := by
  rw [answerLock_eq]
  have answered := foldl_answerEach_isAnswered (fun k e => k == own || isLockWait o k e)
    (fun k => if k = own then .ok else st) allKeys b allKeys_nodup (mem_allKeys own) he (by simp) hs
  rwa [if_pos rfl] at answered

theorem answerLock_waiting (hk : k ≠ own) (he : b.entry k = some e) (waits : WaitsForLock o k e) :
    IsAnswered (answerLock b own o st) k st 0 .none := by
  have chosen : (k == own || isLockWait o k e) = true := by rw [isLockWait_iff.2 waits, Bool.or_true]
  rw [answerLock_eq]
  have answered := foldl_answerEach_isAnswered (fun k e => k == own || isLockWait o k e)
    (fun k => if k = own then .ok else st) allKeys b allKeys_nodup (mem_allKeys k) he chosen (by simp [waits.2.2])
  rwa [if_neg hk] at answered

theorem answerLock_entry_other (hk : k ≠ own) (other : ∀ e, b.entry k = some e → ¬ WaitsForLock o k e) :
    (answerLock b own o st).entry k = b.entry k := by
  rw [answerLock_eq]
  refine foldl_answerEach_entry _ _ allKeys b fun e he chosen => ?_
  rw [Bool.or_eq_true, beq_iff_eq] at chosen
  exact absurd (isLockWait_iff.1 (chosen.resolve_left hk)) (other e he)

/-- But for its own answer, a lock operation answers the waiting LOCK_REQUESTs of the originator. -/
theorem answerLock_answersOnly (b : Bridge) (own : Key) :
    AnswersOnly b (answerLock b own o st) own (WaitsForLock o) st := by
  have closes := answerLock_closes b own o st
  refine ⟨fun k e hk he => ⟨answerLock_waiting o st hk he, fun other => ?_⟩, fun k hk free => ?_, closes.clock,
    closes.router, closes.cart, closes.arb, closes.dm⟩
  · refine (answerLock_entry_other o st hk fun f hf => ?_).trans he
    cases he.symm.trans hf
    exact other
  · refine (answerLock_entry_other o st hk fun f hf => ?_).trans free
    cases free.symm.trans hf

end Answers

/-- The transmissions that begin at the end of the step keep what the answers left. -/
theorem AnswersOnly.pump {b t : Bridge} {own : Key} {p : Key → Entry → Prop} {st : Status}
    (h : AnswersOnly b t own p st) : AnswersOnly b (pump t) own p st := by
  obtain ⟨held, free, clock, router, cart, arb, dm⟩ := h
  refine ⟨fun k e hk he => ⟨fun hp => ((held k e hk he).1 hp).pump, fun hp => ?_⟩, fun k hk he => ?_,
    (pump_course t).steady.clock.trans clock, (pump_router t).trans router, (pump_cart t).trans cart,
    (pump_arb t).trans arb, (pump_dm t).trans dm⟩
  · exact (pump_entry t k).trans ((held k e hk he).2 hp)
  · exact (pump_entry t k).trans (free k hk he)

/-! ### The lock changes hands -/

/-- The bridge of a request that was taken in, with another lock. -/
def withLock (b : Bridge) (holder : Option Originator) (waiting : List Originator) : Bridge :=
  { b with mgmt := { b.mgmt with holder, waiting } }

/-- The answer of a request that was taken in, with the lock as the operation leaves it. -/
theorem answerStatus_withLock (b : Bridge) (h : Header) (op : Op) (holder : Option Originator) (waiting : List Originator)
    (st : Status) : answerStatus (withLock (managing b h op) holder waiting) h.key st
      = closedWith (withLock (managing b h op) holder waiting) h.key (newEntry b h op (some .management)) st 0 .none :=
  answer_new (b := b) st 0 .none (withEntry_entry_self b h (newEntry b h op (some .management)))

section Lock
variable {b : Bridge} {h : Header} {op : Op}

theorem lockRequest_free (free : b.mgmt.holder = none) : lockRequest h (managing b h op)
    = closedWith (withLock (managing b h op) (some h.orig) b.mgmt.waiting) h.key (newEntry b h op (some .management))
        .ok 0 .none := by
  have holder : (managing b h op).mgmt.holder = none := free
  rw [lockRequest, holder]
  exact answerStatus_withLock b h op _ b.mgmt.waiting .ok

theorem lockRequest_own (held : b.mgmt.holder = some h.orig) : lockRequest h (managing b h op)
    = answeredAtOnce b h op (some .management) .alreadyHeld .none := by
  have holder : (managing b h op).mgmt.holder = some h.orig := held
  rw [lockRequest, holder]
  exact (if_pos rfl).trans (answerStatus_managing ..)

theorem lockRequest_again {o : Originator} (held : b.mgmt.holder = some o) (other : o ≠ h.orig)
    (waits : h.orig ∈ b.mgmt.waiting) : lockRequest h (managing b h op)
      = answeredAtOnce b h op (some .management) .badRequest .none := by
  have holder : (managing b h op).mgmt.holder = some o := held
  rw [lockRequest, holder]
  exact (if_neg other).trans ((if_pos waits).trans (answerStatus_managing ..))

/-- The entry of a LOCK_REQUEST that waits (R177). -/
def lockEntry (b : Bridge) (h : Header) : Entry :=
  { newEntry b h .lockRequest (some .management) with state := .awaitLock }

theorem lockRequest_waits {o : Originator} (held : b.mgmt.holder = some o) (other : o ≠ h.orig)
    (fresh : h.orig ∉ b.mgmt.waiting) : lockRequest h (managing b h .lockRequest)
      = withLock (withEntry b h (lockEntry b h)) b.mgmt.holder (b.mgmt.waiting ++ [h.orig]) := by
  have holder : (managing b h .lockRequest).mgmt.holder = some o := held
  rw [lockRequest, holder]
  exact (if_neg other).trans ((if_neg fresh).trans
    (editEntry_withEntry (withLock b b.mgmt.holder (b.mgmt.waiting ++ [h.orig])) h
      (newEntry b h .lockRequest (some .management)) fun e => { e with state := .awaitLock }))

theorem lockRelease_notHolder (other : b.mgmt.holder ≠ some h.orig) : lockRelease h (managing b h op)
    = answeredAtOnce b h op (some .management) .notHolder .none :=
  (if_neg other).trans (answerStatus_managing ..)

theorem lockRelease_last (held : b.mgmt.holder = some h.orig) (none_waits : b.mgmt.waiting = []) :
    lockRelease h (managing b h op)
      = closedWith (withLock (managing b h op) none b.mgmt.waiting) h.key (newEntry b h op (some .management))
          .ok 0 .none := by
  have waiting : (managing b h op).mgmt.waiting = [] := none_waits
  refine (if_pos held).trans ?_
  rw [waiting]
  exact answerStatus_withLock b h op _ b.mgmt.waiting .ok

theorem lockRelease_passes {o : Originator} {rest : List Originator} (held : b.mgmt.holder = some h.orig)
    (waits : b.mgmt.waiting = o :: rest) : lockRelease h (managing b h op)
      = answerLock (withLock (managing b h op) (some o) rest) h.key o .ok := by
  have waiting : (managing b h op).mgmt.waiting = o :: rest := waits
  refine (if_pos held).trans ?_
  rw [waiting]
  rfl

theorem lockCancel_notPending (out : h.orig ∉ b.mgmt.waiting) : lockCancel h (managing b h op)
    = answeredAtOnce b h op (some .management) .notPending .none :=
  (if_neg out).trans (answerStatus_managing ..)

theorem lockCancel_leaves (waits : h.orig ∈ b.mgmt.waiting) : lockCancel h (managing b h op)
    = answerLock (withLock (managing b h op) b.mgmt.holder (b.mgmt.waiting.filter (· != h.orig))) h.key h.orig
        .cancelled :=
  if_pos waits

end Lock

/-- What a lock operation leaves that answers its own request and an originator's waiting LOCK_REQUEST. -/
theorem answerLock_managing (b : Bridge) (h : Header) (op : Op) (holder : Option Originator) (waiting : List Originator)
    (o : Originator) (st : Status) :
    let t := pump (answerLock (withLock (managing b h op) holder waiting) h.key o st)
    IsAnswered t h.key .ok 0 .none ∧ t.mgmt = { b.mgmt with holder, waiting }
      ∧ AnswersOnly b t h.key (WaitsForLock o) st := by
  have own : (withLock (managing b h op) holder waiting).entry h.key = some (newEntry b h op (some .management)) :=
    withEntry_entry_self ..
  refine ⟨(answerLock_own o st own (by simp [newEntry, freshEntry])).pump,
    (pump_mgmt _).trans (answerLock_closes ..).mgmt, AnswersOnly.pump ?_⟩
  obtain ⟨held, free, rest⟩ := answerLock_answersOnly o st (withLock (managing b h op) holder waiting) h.key
  have same : ∀ k, k ≠ h.key → (withLock (managing b h op) holder waiting).entry k = b.entry k := fun k =>
    withEntry_entry_ne b (newEntry b h op (some .management))
  exact ⟨fun k e hk he => held k e hk ((same k hk).trans he), fun k hk he => free k hk ((same k hk).trans he), rest⟩

/-! ### The commands -/

section Commands
variable {h : Header} {s : State}

theorem exec_lockRequest_managed (m : Managed s.bridge h .lockRequest []) : exec (.lockRequest h []) s
    = .next (s.withBridge (pump (lockRequest h (managing s.bridge h .lockRequest)))) :=
  exec_managed (lockRequest h) pump rfl m

theorem exec_lockRelease_managed (m : Managed s.bridge h .lockRelease []) : exec (.lockRelease h []) s
    = .next (s.withBridge (pump (lockRelease h (managing s.bridge h .lockRelease)))) :=
  exec_managed (lockRelease h) pump rfl m

theorem exec_lockCancel_managed (m : Managed s.bridge h .lockCancel []) : exec (.lockCancel h []) s
    = .next (s.withBridge (pump (lockCancel h (managing s.bridge h .lockCancel)))) :=
  exec_managed (lockCancel h) pump rfl m

end Commands

/-- Settles O28: each operation by the holder and the pending list; where two requests are answered, `answerLock` answers
each in its place in key order. -/
theorem lockRequestsReleasesAndCancelsActOnTheLock : Obligations.LockRequestsReleasesAndCancelsActOnTheLock := by
  refine ⟨fun h s m => ⟨fun free => ?_, fun held => ?_, fun o held other waits => ?_, fun o held other fresh => ?_⟩,
    fun h s m => ⟨fun other => ?_, fun held last => ?_, fun o rest held waits => ?_⟩,
    fun h s m => ⟨fun out => ?_, fun waits => ?_⟩⟩
  · refine ⟨?_, (closedWith_isAnswered ..).pump, by rw [pump_mgmt]; rfl⟩
    rw [exec_lockRequest_managed m, lockRequest_free free]
    rfl
  · refine ⟨?_, (closedWith_isAnswered ..).pump⟩
    rw [exec_lockRequest_managed m, lockRequest_own held]
    rfl
  · refine ⟨?_, (closedWith_isAnswered ..).pump⟩
    rw [exec_lockRequest_managed m, lockRequest_again held other waits]
    rfl
  · refine ⟨?_, (pump_entry ..).trans (withEntry_entry_self ..), by rw [pump_mgmt]; rfl⟩
    rw [exec_lockRequest_managed m, lockRequest_waits held other fresh]
    rfl
  · refine ⟨?_, (answeredAtOnce_isAnswered ..).pump, by rw [pump_mgmt]; rfl⟩
    rw [exec_lockRelease_managed m, lockRelease_notHolder other]
  · refine ⟨?_, (closedWith_isAnswered ..).pump, by rw [pump_mgmt]; rfl⟩
    rw [exec_lockRelease_managed m, lockRelease_last held last]
    rfl
  · refine ⟨_, exec_lockRelease_managed m, ?_⟩
    rw [withBridge_pending, withBridge_bridge, lockRelease_passes held waits]
    exact ⟨rfl, answerLock_managing ..⟩
  · refine ⟨?_, (answeredAtOnce_isAnswered ..).pump, by rw [pump_mgmt]; rfl⟩
    rw [exec_lockCancel_managed m, lockCancel_notPending out]
  · refine ⟨_, exec_lockCancel_managed m, ?_⟩
    rw [withBridge_pending, withBridge_bridge, lockCancel_leaves waits]
    exact ⟨rfl, answerLock_managing ..⟩

end Sys2Proof.Machine
end

section
/-! PROOFS. The reports that are answered at once (R179, R184, R185): each is of the state as it stands, item by item. -/

namespace Sys2Proof.Machine

/-! ### The answer of a report -/

/-- A management command whose operation answers with a report. -/
theorem report_managed {s : State} {h : Header} {op : Op} {items : List Item} (report : Bridge → List Item)
    (ho : op.isManagement = true) (m : Managed s.bridge h op items) :
    s.become (fun b => pump (manage h op items (fun b => answerItems b h.key (report b)) b))
      = .next (s.withBridge (pump (answeredAtOnce s.bridge h op (some .management) .ok
          (.items (report (managing s.bridge h op)))))) :=
  (exec_managed _ pump ho m).trans (by rw [answerItems_withEntry]; rfl)

/-- The entry of a management request counts in no quiesce condition. -/
theorem conditionsUnmet_managing {b : Bridge} {h : Header} (op : Op) (free : b.entry h.key = none) :
    conditionsUnmet (managing b h op) = conditionsUnmet b := by
  have active : keysWhere (managing b h op) isActive = keysWhere b isActive := keysWhere_withEntry free rfl
  unfold conditionsUnmet conditionsMet
  rw [active]
  rfl

theorem cartridgeItems_managing {b : Bridge} {h : Header} (op : Op) (free : b.entry h.key = none) :
    cartridgeItems (managing b h op) = cartridgeItems b := by
  unfold cartridgeItems
  rw [conditionsUnmet_managing op free]
  rfl

/-! ### The items -/

theorem numItem_lineCode (l : LineState) : numItem 0xC4 1 (lineCode l) = ⟨0xC4, [if l = .up then 0 else 1]⟩ := by
  cases l <;> rfl

theorem numItem_spindle (x : Spindle) : numItem 0x72 1 x.code = ⟨0x72, [if x = .spinning then 0 else 1]⟩ := by
  cases x <;> rfl

theorem identityItems_eq (b : Bridge) : identityItems b =
    [⟨0xD0, [0x4E, 0x45, 0x4C, 0x5A, 0x4F, 0x20, 0x34, 0x31, 0x32, 0x30]⟩, ⟨0xD1, [0x4E, 0x5A, 0x34, 0x31]⟩,
      ⟨0xD2, [32]⟩, ⟨0xD3, [16]⟩, ⟨0xD4, [8]⟩, ⟨0xD5, [64]⟩, ⟨0xD6, [0x04, 0x00]⟩, ⟨0xD7, [32]⟩,
      numItem 0xD8 4 b.clock.toNat] := rfl

theorem linkItems_eq (b : Bridge) : linkItems b =
    [numItem 0xC0 2 b.link.badCheck, numItem 0xC1 2 b.link.malformed, numItem 0xC2 2 b.link.attnSent,
      numItem 0xC3 2 b.thru.stray, ⟨0xC4, [if b.thru.line = .up then 0 else 1]⟩] := by
  rw [linkItems, numItem_lineCode]

theorem lockStatusItems_eq (b : Bridge) : lockStatusItems b =
    [⟨0xE0, [match b.mgmt.holder with | some o => BitVec.ofNat 8 o.val | none => 0xFF]⟩,
      ⟨0xE1, b.mgmt.waiting.map fun o => BitVec.ofNat 8 o.val⟩] := by
  unfold lockStatusItems listItem
  rw [List.map_map]
  cases b.mgmt.holder <;> rfl

theorem zoneItems_none {b : Bridge} (noLayout : b.cart.layout = none) : zoneItems b = [] := by
  rw [zoneItems, noLayout]

theorem zoneItems_some {b : Bridge} {l : Label} (held : b.cart.layout = some l) :
    zoneItems b = numItem 0x80 1 l.zones.length :: l.zones.zipIdx.map fun p => zoneItem l p.2 p.1 := by
  rw [zoneItems, held]

/-! ### The cartridge report (R184) -/

theorem optItem_writeState (w : Option WriteState) : optItem 0x71 1 (w.map WriteState.code) = match w with
    | none => []
    | some .writable => [⟨0x71, [0]⟩]
    | some .isProtected => [⟨0x71, [1]⟩]
    | some .writeLocked => [⟨0x71, [2]⟩] := by
  cases w with
  | none => rfl
  | some w => cases w <;> rfl

theorem optItem_reason (r : Option Reason) : optItem 0x73 1 (r.map Reason.code) = match r with
    | none => []
    | some .noSpin => [⟨0x73, [0]⟩]
    | some .badLabel => [⟨0x73, [1]⟩]
    | some .badZones => [⟨0x73, [2]⟩]
    | some .mapUnreadable => [⟨0x73, [3]⟩]
    | some .badMap => [⟨0x73, [4]⟩] := by
  cases r with
  | none => rfl
  | some r => cases r <;> rfl

theorem numItem_mapWriteCode (w : MapWriteState) : numItem 0x7E 1 w.code
    = ⟨0x7E, [match w with | .clean => 0 | .dirty => 1 | .saving => 2 | .unsavable => 3]⟩ := by
  cases w <;> rfl

theorem optItem_mapWriteState (m : Option HeldMap) : optItem 0x7E 1 (m.map fun m => m.writeState.code) = match m with
    | none => []
    | some m => [⟨0x7E, [match m.writeState with | .clean => 0 | .dirty => 1 | .saving => 2 | .unsavable => 3]⟩] := by
  cases m with
  | none => rfl
  | some m => exact congrArg (fun i => [i]) (numItem_mapWriteCode m.writeState)

theorem optItem_ite (code n v : Nat) (p : Prop) [Decidable p] :
    optItem code n (if p then some v else none) = if p then [numItem code n v] else [] := by
  split <;> rfl

theorem reportedWriteState_eq (b : Bridge) : reportedWriteState b =
    if b.cart.state = .ready ∨ b.cart.state = .quiescing ∨ b.cart.state = .ejecting ∨ b.cart.state = .halted
      then b.cart.writeState else none := by
  split
  · next shown => exact reportedWriteState_shown shown
  · next hidden => exact reportedWriteState_hidden hidden

/-- The items of the held layout stand or are left out together. -/
def layoutItems : Option Label → List Item
  | none => []
  | some l => [numItem 0x74 4 l.serial.toNat, ⟨0x75, l.name⟩, numItem 0x76 1 l.controlCount,
      numItem 0x77 1 l.zones.length, numItem 0x78 4 (userCount l)]

theorem layoutItems_append (layout : Option Label) (rest : List Item) :
    optItem 0x74 4 (layout.map fun l => l.serial.toNat) ++ ((layout.map fun l => (⟨0x75, l.name⟩ : Item)).toList
      ++ (optItem 0x76 1 (layout.map Label.controlCount) ++ (optItem 0x77 1 (layout.map fun l => l.zones.length)
      ++ (optItem 0x78 4 (layout.map userCount) ++ rest)))) = layoutItems layout ++ rest := by
  cases layout <;> rfl

theorem cartridgeItems_eq (b : Bridge) : cartridgeItems b =
    [numItem 0x70 1 b.cart.state.code] ++ optItem 0x71 1 ((reportedWriteState b).map WriteState.code)
      ++ [numItem 0x72 1 b.cart.spindle.code] ++ optItem 0x73 1 (b.cart.reason.map Reason.code)
      ++ layoutItems b.cart.layout
      ++ [numItem 0x79 2 b.cart.soft, numItem 0x7A 2 b.cart.hard, numItem 0x7B 2 b.cart.remaps,
          numItem 0x7C 2 b.cart.relocations, numItem 0x7D 1 b.cart.deferred]
      ++ optItem 0x7E 1 (b.dm.map.map fun m => m.writeState.code)
      ++ (if b.cart.state = .quiescing then [numItem 0x7F 1 (conditionsUnmet b).toNat] else []) := by
  unfold cartridgeItems
  simp only [List.append_assoc, layoutItems_append, optItem_ite]

/-! ### The pool report (R185) -/

/-- The items of a load stand or are left out together. -/
def loadItems : Option Load → List Item
  | none => []
  | some l => [numItem 10 1 l.stage.code, numItem 11 1 l.retries]

theorem loadItems_append (load : Option Load) (rest : List Item) :
    optItem 10 1 (load.map fun l => l.stage.code) ++ (optItem 11 1 (load.map Load.retries) ++ rest)
      = loadItems load ++ rest := by
  cases load <;> rfl

/-- The items of a flush context, of which the stage and the target may be absent. -/
def jobItems (x : Buffer) : List Item :=
  match x.flush with
  | none => []
  | some f => [numItem 14 1 f.phase.code]
      ++ (match reportedStage x f with | none => [] | some st => [numItem 15 1 st.code])
      ++ (match f.target with | none => [] | some p => [numItem 16 3 p])
      ++ [boolItem 17 f.erased, numItem 18 1 f.attempts, numItem 19 1 f.causes.code]

theorem jobItems_eq (x : Buffer) :
    optItem 14 1 (x.flush.map fun f => f.phase.code) ++ (optItem 15 1 ((x.flush.bind (reportedStage x)).map Stage.code)
      ++ (optItem 16 3 (x.flush.bind Flush.target) ++ (optItem 17 1 (x.flush.map fun f => f.erased.toNat)
      ++ (optItem 18 1 (x.flush.map Flush.attempts) ++ optItem 19 1 (x.flush.map fun f => f.causes.code)))))
      = jobItems x := by
  unfold jobItems
  cases x.flush with
  | none => rfl
  | some f =>
    simp only [Option.bind_some, List.append_assoc]
    cases reportedStage x f <;> cases f.target <;> rfl

theorem bufferItem_eq (b : Bridge) (i : BufIdx) : bufferItem b i = compoundItem 0xB0
    ([numItem 1 1 i, numItem 2 1 (b.buf i).state.code]
      ++ (match (b.buf i).lsn with | none => [] | some n => [numItem 3 3 n])
      ++ [numItem 4 1 (b.buf i).valid.toNat, numItem 5 1 (b.buf i).dirty.toNat, numItem 6 1 (b.buf i).lost.toNat,
          numItem 7 1 (pinCount b i)]
      ++ (match (b.buf i).lastWrite with | none => [] | some t => [numItem 8 4 t.toNat])
      ++ (if i ∈ b.pool.evict then [numItem 9 1 (b.pool.evict.idxOf i)] else []) ++ loadItems (b.buf i).load
      ++ (match (b.buf i).successor with | none => [] | some j => [numItem 12 1 j])
      ++ [boolItem 13 (b.buf i).relocate] ++ jobItems (b.buf i)) := by
  unfold bufferItem
  simp only [List.append_assoc, optItem_ite, loadItems_append, jobItems_eq]
  rw [optItem_eq_match 3]
  cases (b.buf i).lastWrite <;> cases (b.buf i).successor <;> rfl

theorem numItem_opCode (op : Op) : numItem 4 1 op.code.toNat = ⟨4, [op.code]⟩ :=
  congrArg (fun byte => (⟨4, [byte]⟩ : Item)) (BitVec.ofNat_toNat .. |>.trans (BitVec.setWidth_eq _))

/-- The routing and the class of a request may be absent. -/
theorem entryItem_eq (own k : Key) (e : Entry) : entryItem own k e = compoundItem 0xB9
    ([numItem 1 1 k.orig, numItem 2 1 k.tag, numItem 3 1 e.unit, ⟨4, [e.op.code]⟩,
        numItem 5 1 (if k = own then (Config.ownEntryState e.seq).val else e.state.code)]
      ++ (match e.routing with | none => [] | some r => [numItem 6 1 r.code])
      ++ (match e.cls with | none => [] | some c => [numItem 7 1 c.code]) ++ [boolItem 8 e.abortPending]) := by
  rw [entryItem, numItem_opCode]
  cases e.routing <;> cases e.cls <;> rfl

theorem listItem_map {α : Type} (code : Nat) (f : α → Nat) (l : List α) :
    listItem code (l.map f) = ⟨BitVec.ofNat 8 code, l.map fun x => BitVec.ofNat 8 (f x)⟩ :=
  congrArg (Item.mk (BitVec.ofNat 8 code)) List.map_map

/-- The pieces of the order in flight give its first PSA and its sector count together. -/
theorem orderItems_eq (order : Option Order) : (order.map orderItem).toList = match order with
    | none => []
    | some o => [compoundItem 0xB6 ([numItem 1 1 o.number.toNat, numItem 2 1 (orderKindCode o.kind)]
        ++ (match o.pieces with | [] => [] | p :: _ => [numItem 3 3 p.psa, numItem 4 1 o.pieces.length])
        ++ [numItem 5 4 o.issued.toNat])] := by
  cases order with
  | none => rfl
  | some o =>
    dsimp only [Option.map_some, Option.toList_some, orderItem, Order.firstPsa, Order.sectorCount]
    cases o.pieces <;> rfl

/-- Settles O26: each report is the answer of its request, and of the same state; then its items one by one. -/
theorem reportsAreAnsweredAtOnceWithTheirItems : Obligations.ReportsAreAnsweredAtOnceWithTheirItems := by
  unfold Obligations.ReportsAreAnsweredAtOnceWithTheirItems
  refine ⟨fun h s => ⟨report_managed identityItems rfl, fun m => ?_, report_managed zoneItems rfl,
      report_managed linkItems rfl, report_managed lockStatusItems rfl, report_managed (poolItems h.key) rfl⟩,
    fun b => ⟨identityItems_eq b, linkItems_eq b, ?_⟩, fun b => ?_, fun b => ⟨zoneItems_none, fun l held => ?_⟩,
    fun own b => ?_⟩
  · rw [← cartridgeItems_managing .readCartridge m.1.2]
    exact report_managed cartridgeItems rfl m
  · exact lockStatusItems_eq b
  · rw [cartridgeItems_eq, reportedWriteState_eq, optItem_writeState, numItem_spindle, optItem_reason,
      optItem_mapWriteState]
    rfl
  · exact zoneItems_some held
  · -- the statement's two local functions are what the lemmas say of a buffer and of an entry
    intro buffer request
    have buffers : bufferItem b = buffer := funext (bufferItem_eq b)
    have requests : entryItem own = request := funext₂ (entryItem_eq own)
    rw [poolItems, buffers, requests, listItem_map, listItem_map, orderItems_eq]
    rfl

end Sys2Proof.Machine
end


section
/-! PROOFS. The queue and the clock at a step (log entries 29 and 1), and what a command makes of the state (log entries 29
and 30). -/

namespace Sys2Proof.Machine

/-! ### A step -/

theorem step_front {s : State} {c : Instr} {q : List Instr} (front : s.pending = c :: q) :
    step s = exec c { s with pending := q } := by
  unfold step
  rw [front]

theorem step_idle {s : State} (idle : s.pending = []) : step s = .next s.tick := by
  unfold step
  rw [idle]

theorem tick_eq (s : State) : s.tick = s.withBridge { s.bridge with clock := s.bridge.clock + 1 } := rfl

/-- Settles O1: by whether a command waits; a tick is the bridge with its clock one millisecond on. -/
theorem stepTakesTheFrontCommandOrPassesAMillisecond : Obligations.StepTakesTheFrontCommandOrPassesAMillisecond := by
  refine ⟨fun c q s => step_front rfl, fun s idle => ?_⟩
  rw [step_idle idle, tick_eq]

/-! ### A command -/

/-- Each row of the table, POWER_ON_RESET too, has its meaning by `become`: no arm of `exec` reads the queue or stops. -/
theorem exec_eq_become (c : Instr) : ∃ f : Bridge → Bridge, ∀ s : State, exec c s = s.become f := by
  unfold exec
  cases c <;> exact ⟨_, fun _ => rfl⟩

/-- Settles O2: `become` answers a next state, makes its bridge of the bridge alone, and keeps the queue. -/
theorem everyCommandAnswersANextState : Obligations.EveryCommandAnswersANextState := by
  intro c
  obtain ⟨f, becomes⟩ := exec_eq_become c
  exact ⟨f, fun s => by rw [becomes, become_eq]⟩

end Sys2Proof.Machine
end
